-- ==== Sys2Proof/Word.lean ====
section
/-! DEFINITION. The word types of the flux decode block: bytes, 16-bit windows, 32-bit registers
and the bit pattern of an IEEE 754 binary64 value (spec/00_scope.md R8, R10, R11). -/

namespace Sys2Proof

/-- One byte cell (`u8`). -/
abbrev Byte := BitVec 8

/-- A 16-bit window of the bit-cell stream (spec/00_scope.md R9). -/
abbrev Half := BitVec 16

/-- One 32-bit register or word cell (spec/00_scope.md R8). -/
abbrev Word := BitVec 32

/-- The encoding of a binary64 value (spec/00_scope.md R11, spec/20_memory.md R111). -/
abbrev F64 := BitVec 64

end Sys2Proof
end

