-- ==== Sys2Proof/Syntax.lean ====
section
/-! DEFINITION. The instructions of the flux decode block, one constructor per row of
spec/opcode_table.json: four command words and four flux token forms. -/

namespace Sys2Proof

/-- The command words of spec/30_encoding.md R141, which have no operand fields (R140), and the flux
token forms of R150 to R154 with the bytes they carry. -/
inductive Instr where
  /-- PLL_DECODE, spec/40_flux_pll.md R214. -/
  | pllDecode
  /-- FRAME, spec/41_sync_framer.md R260. -/
  | frame
  /-- DECODE_FRAME, spec/41_sync_framer.md R290. -/
  | decodeFrame
  /-- WB_DETECT, spec/42_weakbit.md R330. -/
  | wbDetect
  /-- LIT, spec/40_flux_pll.md R200: one byte `b`, 0 to 249. -/
  | tokLit (b : Byte)
  /-- ESC8, spec/40_flux_pll.md R201: escape byte `e`, 250 to 254, then `n`. -/
  | tokEsc8 (e n : Byte)
  /-- ESC24, spec/40_flux_pll.md R202: FF FF, then three bytes, low byte first. -/
  | tokEsc24 (b0 b1 b2 : Byte)
  /-- ESC_UNDEF, spec/40_flux_pll.md R203: FF, then `x` other than FF. -/
  | tokEscUndef (x : Byte)
deriving DecidableEq, Repr

end Sys2Proof
end

