-- ==== Sys2Proof/WellFormed.lean ====
section
/-! DEFINITION. Which instructions have an encoding: the ranges spec/30_encoding.md R150 gives the
first and second byte of each token form. -/

namespace Sys2Proof

/-- The byte ranges of spec/30_encoding.md R150. A command word has no fields, so it is always well
formed, and so is ESC24, whose three value bytes are unrestricted. -/
def Instr.wf : Instr → Bool
  | .pllDecode => true
  | .frame => true
  | .decodeFrame => true
  | .wbDetect => true
  | .tokLit b => decide (b.toNat ≤ 249)
  | .tokEsc8 e _ => decide (250 ≤ e.toNat ∧ e.toNat ≤ 254)
  | .tokEsc24 _ _ _ => true
  | .tokEscUndef x => decide (x ≠ 0xFF#8)

end Sys2Proof
end

