-- ==== Sys2Proof/Decode.lean ====
section
/-! DEFINITION. Decoding, total on any word and any bytes and rejecting by name, and the encoder.
The block has two instruction streams: 32-bit command words written to CMD (spec/30_encoding.md
R140 to R144) and variable-length flux tokens read from FLUX (R150 to R156). -/

namespace Sys2Proof

/-- Why a word or a byte sequence is no instruction. -/
inductive Reject where
  /-- A command word other than the four of R141: illegal by R143. -/
  | illegalCommand (w : Word)
  /-- No byte is left: the token reader's END (spec/40_flux_pll.md R205). -/
  | noToken
  /-- The token does not fit in the bytes left (R155). -/
  | truncatedToken
  /-- Bytes follow the one token asked for. -/
  | bytesAfterToken
deriving DecidableEq, Repr

/-- The two forms an encoded instruction has: a command word (R140) or the bytes of one flux token,
first byte first (R150). -/
inductive Encoded where
  | command (w : Word)
  | token (bytes : List Byte)
deriving DecidableEq, Repr

/-- The opcode map of R141; every other word is illegal (R143, R144). -/
def decodeCommand (w : Word) : Except Reject Instr :=
  if w = 0x00000001#32 then .ok .pllDecode
  else if w = 0x00000002#32 then .ok .frame
  else if w = 0x00000003#32 then .ok .decodeFrame
  else if w = 0x00000004#32 then .ok .wbDetect
  else .error (.illegalCommand w)

/-- The token syntax of R150 to R155: the first token of the bytes and the bytes after it. -/
def decodeToken : List Byte → Except Reject (Instr × List Byte)
  | [] => .error .noToken
  | b :: rest =>
    if b.toNat ≤ 249 then .ok (.tokLit b, rest)
    else
      match rest with
      | [] => .error .truncatedToken
      | n :: rest2 =>
        if b.toNat ≤ 254 then .ok (.tokEsc8 b n, rest2)
        else if n ≠ 0xFF#8 then .ok (.tokEscUndef n, rest2)
        else
          match rest2 with
          | b0 :: b1 :: b2 :: rest3 => .ok (.tokEsc24 b0 b1 b2, rest3)
          | _ => .error .truncatedToken

/-- Decoding of one encoded instruction; a token must take all of its bytes. -/
def decode : Encoded → Except Reject Instr
  | .command w => decodeCommand w
  | .token bytes =>
    match decodeToken bytes with
    | .error r => .error r
    | .ok (i, []) => .ok i
    | .ok (_, _ :: _) => .error .bytesAfterToken

/-- The encoder, from the tables of R141 and R150. -/
def encode : Instr → Encoded
  | .pllDecode => .command 0x00000001#32
  | .frame => .command 0x00000002#32
  | .decodeFrame => .command 0x00000003#32
  | .wbDetect => .command 0x00000004#32
  | .tokLit b => .token [b]
  | .tokEsc8 e n => .token [e, n]
  | .tokEsc24 b0 b1 b2 => .token [0xFF#8, 0xFF#8, b0, b1, b2]
  | .tokEscUndef x => .token [0xFF#8, x]

/-- The bytes of a number, least significant first. -/
def bytesOfNat : Nat → Nat → List Byte
  | 0, _ => []
  | n + 1, w => BitVec.ofNat 8 w :: bytesOfNat n (w / 256)

/-- The bytes of the longest token (R150). -/
def maxTokenBytes : Nat := 5

/-- The instruction the decoder reads from a row of spec/opcode_table.json: a row of 32 bits is a
command word (its format CMD32), any other row is a flux token laid out first byte first, followed
by bytes of zeros up to the longest token (log 21). -/
def decodeTableWord (nbits w : Nat) : Option Instr :=
  if nbits = 32 then
    match decodeCommand (BitVec.ofNat 32 w) with
    | .ok i => some i
    | .error _ => none
  else
    match decodeToken (bytesOfNat maxTokenBytes w) with
    | .ok (i, _) => some i
    | .error _ => none

end Sys2Proof
end

