-- ==== Sys2Proof/Config.lean ====
section
/-! DEFINITION. What an implementation fixes: the parameters of spec/00_scope.md R6 with their
defaults and constraints, the fixed capacities, and the free values the spec leaves open. -/

namespace Sys2Proof

/-- The implementation parameters a model takes as arguments: the capacities of spec/00_scope.md R6,
the FM sync set of spec/30_encoding.md R161 and the mark classes of R163. State holds one value of
this type; no step changes it (log 1). -/
structure Params where
  /-- FLUX_CAP, bytes in the FLUX buffer. -/
  fluxCap : Nat
  /-- BITBUF_CAP, bytes in the BITBUF buffer. -/
  bitbufCap : Nat
  /-- RAW_CAP, bytes in the RAW buffer. -/
  rawCap : Nat
  /-- SECTOR_CAP, entries in the sector table. -/
  sectorCap : Nat
  /-- REV_CAP, bytes in each REV buffer. -/
  revCap : Nat
  /-- WB_CAP, weak-bit records and weak-byte entries. -/
  wbCap : Nat
  /-- SYNC_FM, the FM sync patterns. -/
  syncFm : List Half
  /-- IDAM_MARKS, the mark bytes before an ID field. -/
  idamMarks : List Byte
  /-- DAM_MARKS, the mark bytes before a data field. -/
  damMarks : List Byte
deriving DecidableEq, Repr

/-- The defaults of spec/00_scope.md R6 and spec/30_encoding.md R161, R163 (log 18). -/
def Params.default : Params where
  fluxCap := 0x100000
  bitbufCap := 0x40000
  rawCap := 0x4000
  sectorCap := 64
  revCap := 0x8000
  wbCap := 4096
  syncFm := [0xF57E#16, 0xF56F#16, 0xF56A#16, 0xF56B#16, 0xF56E#16, 0xF77A#16]
  idamMarks := [0xFE#8]
  damMarks := [0xF8#8, 0xF9#8, 0xFA#8, 0xFB#8]

/-- The constraints of spec/00_scope.md R6 on the capacities (log 22). -/
def Params.wf (p : Params) : Bool :=
  decide (1 ≤ p.rawCap ∧ p.rawCap ≤ 0xFFFF)
    && decide (1 ≤ p.fluxCap ∧ p.fluxCap ≤ 2 ^ 32 - 1)
    && decide (1 ≤ p.bitbufCap ∧ p.bitbufCap ≤ 2 ^ 29 - 1)
    && decide (1 ≤ p.sectorCap ∧ p.sectorCap ≤ 0xFFFF)
    && decide (1 ≤ p.revCap ∧ p.revCap ≤ 2 ^ 32 - 1)
    && decide (1 ≤ p.wbCap ∧ p.wbCap ≤ 2 ^ 24)

namespace Config

/-- IDAM_CAP, fixed (spec/00_scope.md R6). -/
def idamCap : Nat := 64

/-- MIN_REVS, fixed (spec/00_scope.md R6). -/
def minRevs : Nat := 2

/-- MAX_REVS, fixed (spec/00_scope.md R6). -/
def maxRevs : Nat := 10

/-- What an unwritten byte cell reads as at the engine's n-th free draw (spec/20_memory.md R106,
log 4). -/
opaque freeByte : Nat → Byte

/-- A register value no rule fixes at the engine's n-th free draw (log 4, 11). -/
opaque freeWord : Nat → Word

/-- What a host read of a byte no rule fixes returns at the host's n-th free draw: an unwritten cell,
or one the running command writes (spec/20_memory.md R104, R106, log 4). -/
opaque hostByte : Nat → Byte

/-- What a host read of a word no rule fixes returns at the host's n-th free draw: an unwritten
cell, or a cell or register the running command writes (spec/20_memory.md R102, R104, R106,
log 4). -/
opaque hostWord : Nat → Word

/-- The cell count before its clamp when the quotient of spec/40_flux_pll.md R217 is NaN, a value
the spec does not state (log 10). -/
opaque freeCells : Nat → Nat

/-- Sign and payload of a NaN result, by its operands; IEEE 754 does not fix them (log 9). -/
opaque nanBits : F64 → F64 → BitVec 52

end Config

end Sys2Proof
end

