-- ==== Sys2Proof/Machine/Binary64.lean ====
section
/-! DEFINITION. IEEE 754 binary64 arithmetic on encodings (spec/00_scope.md R11): every operation
computes its exact result and rounds it once, to nearest, ties to even. A finite value is a whole
number of units of 2^-1074, the smallest positive binary64 value, so the exact results are fractions
of whole numbers. -/

namespace Sys2Proof.Machine

/-- The magnitude bits of infinity: exponent field all ones, fraction 0. -/
def F64.infMag : Nat := 0x7FF0000000000000

/-- How many units of 2^-1074 make 1. -/
@[irreducible] def F64.one : Nat := 2 ^ 1074

/-- The sign bit. -/
def F64.neg (x : F64) : Bool := x.msb

/-- The encoding without its sign bit. Magnitudes of values are ordered as these numbers are. -/
def F64.mag (x : F64) : Nat := x.toNat % 2 ^ 63

/-- Whether the encoding is a NaN. -/
def F64.isNaN (x : F64) : Bool := decide (F64.infMag < F64.mag x)

/-- Whether the encoding is an infinity. -/
def F64.isInf (x : F64) : Bool := decide (F64.mag x = F64.infMag)

/-- Whether the encoding is a finite value. -/
def F64.isFinite (x : F64) : Bool := decide (F64.mag x < F64.infMag)

/-- Whether the encoding is +0 or -0. -/
def F64.isZero (x : F64) : Bool := decide (F64.mag x = 0)

/-- The magnitude of a finite value in units of 2^-1074, from its magnitude bits. -/
def F64.magUnits (m : Nat) : Nat :=
  if m / 2 ^ 52 = 0 then m else (2 ^ 52 + m % 2 ^ 52) * 2 ^ (m / 2 ^ 52 - 1)

/-- The magnitude of a finite value in units of 2^-1074. -/
def F64.units (x : F64) : Nat := F64.magUnits (F64.mag x)

/-- The exact value of a finite encoding in units of 2^-1074. -/
def F64.value (x : F64) : Int := if F64.neg x then -(F64.units x : Int) else (F64.units x : Int)

/-- The encoding with a given sign and given magnitude bits. -/
def F64.pack (neg : Bool) (m : Nat) : F64 := BitVec.ofNat 64 ((if neg then 2 ^ 63 else 0) + m)

/-- A quiet NaN, its sign and payload left free (log 9). -/
def F64.nan (x y : F64) : F64 :=
  0x7FF8000000000000#64
    ||| ((Config.nanBits x y).zeroExtend 64 &&& 0x0007FFFFFFFFFFFF#64)
    ||| (if (Config.nanBits x y).msb then 0x8000000000000000#64 else 0#64)

/-- An infinity. -/
def F64.inf (neg : Bool) : F64 := F64.pack neg F64.infMag

/-- The magnitude bits of the binary64 value nearest to `num / den` units, ties to even; infinity
where the rounded value is 2^1024 or more (R11). With `k` the exponent above the subnormal one and
`q` the rounded significand, the encoding is `2^52 · k + q`, and a significand that rounds up to the
next power of two carries into the exponent. -/
@[irreducible] def F64.roundMag (num den : Nat) : Nat :=
  let k := Nat.log2 (num / den) - 52
  let d := den * 2 ^ k
  let q := num / d
  let r := num % d
  let q' := if d < 2 * r ∨ (2 * r = d ∧ q % 2 = 1) then q + 1 else q
  min (2 ^ 52 * k + q') F64.infMag

/-- `f64(n)`: the value of a whole number, exact below 2^53 (R11). -/
def F64.ofNat (n : Nat) : F64 := F64.pack false (F64.roundMag (F64.one * n) 1)

/-- Sum. An exact sum of zero is +0 unless both operands are negative. -/
def F64.add (x y : F64) : F64 :=
  if F64.isNaN x || F64.isNaN y then F64.nan x y
  else if F64.isInf x then
    if F64.isInf y && F64.neg x != F64.neg y then F64.nan x y else x
  else if F64.isInf y then y
  else
    let v := F64.value x + F64.value y
    if v = 0 then F64.pack (F64.neg x && F64.neg y) 0
    else F64.pack (decide (v < 0)) (F64.roundMag v.natAbs 1)

/-- The value with its sign flipped. -/
def F64.negate (x : F64) : F64 := F64.pack (!F64.neg x) (F64.mag x)

/-- Difference: the sum with the negated value. -/
def F64.sub (x y : F64) : F64 :=
  if F64.isNaN x || F64.isNaN y then F64.nan x y else F64.add x (F64.negate y)

/-- Product. -/
def F64.mul (x y : F64) : F64 :=
  let s := F64.neg x != F64.neg y
  if F64.isNaN x || F64.isNaN y then F64.nan x y
  else if F64.isInf x || F64.isInf y then
    if F64.isZero x || F64.isZero y then F64.nan x y else F64.inf s
  else F64.pack s (F64.roundMag (F64.units x * F64.units y) F64.one)

/-- Quotient. -/
def F64.div (x y : F64) : F64 :=
  let s := F64.neg x != F64.neg y
  if F64.isNaN x || F64.isNaN y then F64.nan x y
  else if F64.isInf x then if F64.isInf y then F64.nan x y else F64.inf s
  else if F64.isInf y then F64.pack s 0
  else if F64.isZero y then if F64.isZero x then F64.nan x y else F64.inf s
  else F64.pack s (F64.roundMag (F64.one * F64.units x) (F64.units y))

/-- A number that orders non-NaN values as IEEE 754 does; +0 and -0 have the same one. -/
def F64.key (x : F64) : Int := if F64.neg x then -(F64.mag x : Int) else (F64.mag x : Int)

/-- Ordered `x < y`: false where either is a NaN. -/
def F64.lt (x y : F64) : Bool :=
  !F64.isNaN x && !F64.isNaN y && decide (F64.key x < F64.key y)

/-- Ordered `x ≤ y`: false where either is a NaN. -/
def F64.le (x y : F64) : Bool :=
  !F64.isNaN x && !F64.isNaN y && decide (F64.key x ≤ F64.key y)

/-- `min` by ordered comparison (R11). -/
def F64.min (x y : F64) : F64 := if F64.lt y x then y else x

/-- `max` by ordered comparison (R11). -/
def F64.max (x y : F64) : F64 := if F64.lt x y then y else x

/-- `clamp(x, lo, hi) = min(max(x, lo), hi)` (R11). -/
def F64.clamp (x lo hi : F64) : F64 := F64.min (F64.max x lo) hi

/-- `roundHalfAway` of a finite value (spec/00_scope.md R12): the nearest whole number, halves away
from zero. -/
def F64.roundHalfAway (x : F64) : Int :=
  let n := (F64.one + 2 * F64.units x) / (2 * F64.one)
  if F64.neg x then -(n : Int) else (n : Int)

end Sys2Proof.Machine
end

