-- ==== Sys2Proof/Machine/State.lean ====
section
/-! DEFINITION. The state of the flux decode block as plain data: the register block
(spec/10_state.md R32 to R63), the buffers (R65), the hidden state (R70 to R75), the parameters
(spec/00_scope.md R6) and the model's own fields for the host and the free values, with the reset
state of spec/70_reset_and_hazards.md R451. -/

namespace Sys2Proof.Machine

/-- Why a step faults: never. The spec's one fault, `uninit_read`, is a mark and the run goes on
(spec/60_exceptions.md R419), so the type has no constructor: no step of the model faults. -/
inductive Fault
deriving DecidableEq, Repr

/-- Why a step is refused. Safe: the model gives no step where the block may do anything. -/
inductive Refusal where
  /-- Raised by `exec` for an instruction that has no meaning yet. Safe. -/
  | notModelled (mnemonic : String)
  /-- Raised by a host register access that is not 32 bits wide or not at a multiple of 4
  (spec/20_memory.md R115: "A model refuses it: no step is given"). Safe. -/
  | registerAccessForm (offset width : Nat)
deriving DecidableEq, Repr

/-- STATUS (spec/10_state.md R34) but for BUSY, which is computed from the engine state (R70). -/
structure Status where
  done : Bool
  err : Bool
  errcode : BitVec 4
  bitbufOvf : Bool
  tokenErr : Bool
  rawOvf : Bool
  idamCapped : Bool
  sectCapped : Bool
  wbOvf : Bool
  rejected : Bool
deriving DecidableEq, Repr

/-- CTRL (spec/10_state.md R33); SOFT_RESET is an action and is not stored. -/
structure Ctrl where
  encoding : BitVec 2
  wbByteLevel : Bool
  wbPattern : Bool
  irqEn : Bool
deriving DecidableEq, Repr

/-- The register block (spec/10_state.md section 2), reserved bits left out: they read 0 (R63). -/
structure Regs where
  /-- CMD, R32. -/
  cmd : Word
  /-- STATUS, R34. -/
  status : Status
  /-- CTRL, R33. -/
  ctrl : Ctrl
  /-- SAMPLE_FREQ, R35. -/
  sampleFreq : Word
  /-- FLUX_LEN, R36. -/
  fluxLen : Word
  /-- BIT_COUNT, R37. -/
  bitCount : Word
  /-- TRACK_INFO.PHYS_TRACK, R38. -/
  physTrack : Byte
  /-- TRACK_INFO.PHYS_HEAD, R38. -/
  physHead : Byte
  /-- RAW_LEN, R39. -/
  rawLen : Word
  /-- IDAM_COUNT, R40. -/
  idamCount : Word
  /-- SECTOR_COUNT, R41. -/
  sectorCount : Word
  /-- CRC_ERRORS, R42. -/
  crcErrors : Word
  /-- PLL_INTERVALS, R43. -/
  pllIntervals : Word
  /-- TOKENS_DROPPED, R44. -/
  tokensDropped : Word
  /-- WB_LENGTH, R45. -/
  wbLength : Word
  /-- WB_REVS, R46. -/
  wbRevs : Byte
  /-- WB_THRESHOLD, R47. -/
  wbThreshold : Byte
  /-- WB_COUNT, R48. -/
  wbCount : Word
  /-- WB_RECORDS, R49. -/
  wbRecords : Word
  /-- WB_BYTES, R50. -/
  wbBytes : Word
  /-- BYTES_ANALYZED, R56. -/
  bytesAnalyzed : Word
  /-- BITS_ANALYZED, R57. -/
  bitsAnalyzed : BitVec 64
  /-- DENSITY, R59. -/
  density : F64
  /-- PLL_MAX_CELLS, R51. -/
  pllMaxCells : Byte
  /-- CELL_RATE_FM, R52. -/
  cellRateFm : Word
  /-- CELL_RATE_MFM, R52. -/
  cellRateMfm : Word
  /-- PLL_PHASE_GAIN, R53. -/
  phaseGain : F64
  /-- PLL_FREQ_GAIN, R54. -/
  freqGain : F64
  /-- PLL_FMIN_RATIO, R55. -/
  fminRatio : F64
  /-- PLL_FMAX_RATIO, R55. -/
  fmaxRatio : F64
  /-- PLL_T0, R60. -/
  pllT0 : F64
  /-- PLL_PHASE, R61. -/
  pllPhase : F64
  /-- PLL_FREQ, R62. -/
  pllFreq : F64
deriving DecidableEq, Repr

/-- A buffer with cells of `w` bits: the written cells as (index, value), indices strictly rising.
An unlisted cell holds no value, the spec's ⊥ (spec/00_scope.md R14). `Buf 8` is a list of
`Host.Cell`. -/
abbrev Buf (w : Nat) := List (Nat × BitVec w)

/-- The buffers of spec/10_state.md R65, each an address space of its own (spec/20_memory.md R101). -/
structure Memory where
  flux : Buf 8
  bitbuf : Buf 8
  raw : Buf 8
  idam : Buf 32
  sect : Buf 32
  rev : Vector (Buf 8) 10
  wbrec : Buf 32
  wbbyte : Buf 32
deriving DecidableEq, Repr

/-- The byte buffers, as a host names them. -/
inductive ByteBuf where
  | flux
  | bitbuf
  | raw
  | rev (r : Fin 10)
deriving DecidableEq, Repr

/-- The word buffers, as a host names them. -/
inductive WordBuf where
  | idam
  | sect
  | wbrec
  | wbbyte
deriving DecidableEq, Repr

/-- The four commands an engine can be busy with (spec/10_state.md R70). -/
inductive Op where
  | pllDecode
  | frame
  | decodeFrame
  | wbDetect
deriving DecidableEq, Repr

/-- The engine state of spec/10_state.md R70. -/
inductive Engine where
  | idle
  | busy (op : Op)
deriving DecidableEq, Repr

/-- The PLL loop state of spec/10_state.md R71 and spec/40_flux_pll.md R214. `out` is the output
stream, stream bit 0 first; its length is the spec's `nb`. `live` is the model's own mark of a
decode that stands at a token boundary (log 8). -/
structure PllLoop where
  live : Bool
  phase : F64
  freq : F64
  t0 : F64
  lo : F64
  hi : F64
  tc : Nat
  out : List Bool
  nint : Nat
  ndrop : Nat
  ovf : Bool
deriving DecidableEq, Repr

/-- An entry of the IDAM table (spec/10_state.md R66). -/
structure IdamEntry where
  offset : Nat
  density : BitVec 2
deriving DecidableEq, Repr

/-- The framer state of spec/10_state.md R72 and spec/41_sync_framer.md R263. `raw` holds the bytes
emitted (its length is `L`), `idam` the entries recorded (its length is `nid`). -/
structure Framer where
  window : Half
  total : Nat
  cnt : Nat
  k : Nat
  raw : List Byte
  idam : List IdamEntry
  rawOvf : Bool
  capped : Bool
deriving DecidableEq, Repr

/-- A sector record (spec/10_state.md R67, spec/30_encoding.md R171). -/
structure SectorRecord where
  cyl : Byte
  head : Byte
  sector : Byte
  sizeCode : Byte
  enc : BitVec 2
  damType : Byte
  idCrcOk : Bool
  dataCrcOk : Bool
  dataOffset : Nat
  dataSize : Nat
deriving DecidableEq, Repr

/-- The sector-parser state of spec/10_state.md R73 and spec/41_sync_framer.md R270. `sect` holds
the records made (its length is `ns`). -/
structure Parser where
  consumed : Nat
  awaiting : Option Nat
  sect : List SectorRecord
  sectCapped : Bool
deriving DecidableEq, Repr

/-- The pattern of a weak bit (spec/30_encoding.md R164, spec/42_weakbit.md R338). -/
inductive Pattern where
  | none
  | alternating
  | custom
deriving DecidableEq, Repr

/-- A weak-bit record (spec/10_state.md R68, spec/42_weakbit.md R339). -/
structure WeakRecord where
  offset : Nat
  bit : Nat
  variation : Nat
  sampleCount : Nat
  samples : List Bool
  pattern : Pattern
deriving DecidableEq, Repr

/-- The comparator state of spec/10_state.md R74 and spec/42_weakbit.md R330. `first` is true until
byte `o` has been put in the weak-byte list. -/
structure Comparator where
  o : Nat
  b : Nat
  first : Bool
  count : Nat
  recs : List WeakRecord
  bytes : List Nat
  ovf : Bool
deriving DecidableEq, Repr

/-- One host access (spec/30_encoding.md R145), the WAIT loop (R146) or the platform's hardware
reset (spec/70_reset_and_hazards.md R450). A register access names one of the 256 offsets of the
register space (spec/20_memory.md R100, log 12) and its width in bits, so that the forms R115
refuses can be written. -/
inductive HostOp where
  | regRead (offset : Fin 256) (width : Nat)
  | regWrite (offset : Fin 256) (width : Nat) (v : Word)
  | byteRead (b : ByteBuf) (i : Nat)
  | byteWrite (b : ByteBuf) (i : Nat) (v : Byte)
  | wordRead (b : WordBuf) (i : Nat)
  | wordWrite (b : WordBuf) (i : Nat) (v : Word)
  | wait
  | hardReset
deriving DecidableEq, Repr

/-- What a host read returned. -/
inductive Reply where
  | word (v : Word)
  | byte (v : Byte)
deriving DecidableEq, Repr

/-- The two agents of spec/00_scope.md R5. -/
inductive Agent where
  | host
  | engine
deriving DecidableEq, Repr

/-- The whole machine. `draws`, `hostDraws`, `pending`, `returned` and `turns` are the model's own
fields (log 2, 3, 4, 15). -/
structure State where
  /-- The implementation parameters; no step changes them. -/
  params : Params
  /-- The register block. -/
  regs : Regs
  /-- The buffers. -/
  mem : Memory
  /-- The engine, R70. -/
  eng : Engine
  /-- The PLL loop, R71. -/
  pll : PllLoop
  /-- The framer, R72. -/
  framer : Framer
  /-- The sector parser, R73. -/
  parser : Parser
  /-- The comparator, R74. -/
  cmp : Comparator
  /-- The model fault mark `uninit_read`, R75. -/
  uninitRead : Bool
  /-- How many free values the engine has drawn. -/
  draws : Nat
  /-- How many free values host reads have drawn. -/
  hostDraws : Nat
  /-- The host accesses not yet made, next one first. -/
  pending : List HostOp
  /-- What host reads have returned, newest first. -/
  returned : List Reply
  /-- Who moves next when both agents can, next turn first. -/
  turns : List Agent
deriving DecidableEq, Repr

/-- STATUS after reset (spec/10_state.md R34). -/
def Status.reset : Status where
  done := false
  err := false
  errcode := 0
  bitbufOvf := false
  tokenErr := false
  rawOvf := false
  idamCapped := false
  sectCapped := false
  wbOvf := false
  rejected := false

/-- Every register at its reset value (spec/70_reset_and_hazards.md R451). -/
def Regs.reset : Regs where
  cmd := 0
  status := Status.reset
  ctrl := ⟨0, false, false, false⟩
  sampleFreq := 0
  fluxLen := 0
  bitCount := 0
  physTrack := 0
  physHead := 0
  rawLen := 0
  idamCount := 0
  sectorCount := 0
  crcErrors := 0
  pllIntervals := 0
  tokensDropped := 0
  wbLength := 0
  wbRevs := 0
  wbThreshold := 0
  wbCount := 0
  wbRecords := 0
  wbBytes := 0
  bytesAnalyzed := 0
  bitsAnalyzed := 0
  density := 0
  pllMaxCells := 3
  cellRateFm := 0x0001E848
  cellRateMfm := 0x0003D090
  phaseGain := 0x3FB999999999999A
  freqGain := 0x3F847AE147AE147B
  fminRatio := 0x3FECCCCCCCCCCCCD
  fmaxRatio := 0x3FF199999999999A
  pllT0 := 0
  pllPhase := 0
  pllFreq := 0

/-- Every buffer cell ⊥ (spec/70_reset_and_hazards.md R451). -/
def Memory.reset : Memory where
  flux := []
  bitbuf := []
  raw := []
  idam := []
  sect := []
  rev := Vector.replicate 10 []
  wbrec := []
  wbbyte := []

/-- The PLL loop before any decode (log 7). -/
def PllLoop.reset : PllLoop := ⟨false, 0, 0, 0, 0, 0, 0, [], 0, 0, false⟩

/-- The framer before any frame, and the initial state of R453. -/
def Framer.reset : Framer := ⟨0, 0, 0, 0, [], [], false, false⟩

/-- The sector parser before any frame, and the initial state of R453. -/
def Parser.reset : Parser := ⟨0, none, [], false⟩

/-- The comparator before any WB_DETECT, and the initial state of R453. -/
def Comparator.reset : Comparator := ⟨0, 0, true, 0, [], [], false⟩

/-- The machine right after a hardware reset (spec/70_reset_and_hazards.md R451), with the default
parameters, no host access pending and no turn chosen. -/
def State.reset : State where
  params := Params.default
  regs := Regs.reset
  mem := Memory.reset
  eng := .idle
  pll := PllLoop.reset
  framer := Framer.reset
  parser := Parser.reset
  cmp := Comparator.reset
  uninitRead := false
  draws := 0
  hostDraws := 0
  pending := []
  returned := []
  turns := []

end Sys2Proof.Machine
end

