-- ==== Sys2Proof/Machine/Ops.lean ====
section
/-! DEFINITION. The named operations over buffers and registers: reading and writing cells, the
engine's `MemRead` and `MemWrite` with the ⊥ rule, packing bit streams, free draws, and the two
completions of a command (spec/00_scope.md R13, spec/20_memory.md, spec/60_exceptions.md R412,
R413). -/

namespace Sys2Proof.Machine

/-! ## Cells of one buffer -/

/-- The cell at an index; `none` is ⊥ (spec/00_scope.md R14, log 5). -/
def bufGet {w : Nat} : Buf w → Nat → Option (BitVec w)
  | [], _ => none
  | (a, v) :: rest, i => if a = i then some v else bufGet rest i

/-- The buffer with one cell written, indices kept strictly rising. -/
def bufSet {w : Nat} : Buf w → Nat → BitVec w → Buf w
  | [], i, v => [(i, v)]
  | (a, u) :: rest, i, v =>
    if i < a then (i, v) :: (a, u) :: rest
    else if i = a then (i, v) :: rest
    else (a, u) :: bufSet rest i v

/-- The buffer with consecutive cells written from an index on. -/
def bufWrite {w : Nat} : Buf w → Nat → List (BitVec w) → Buf w
  | m, _, [] => m
  | m, i, v :: vs => bufWrite (bufSet m i v) (i + 1) vs

/-- The canonical form of a buffer: indices strictly rising. No value stands for ⊥, so no entry can
be one that an unlisted cell reads as. -/
def bufWf {w : Nat} (m : Buf w) : Bool := decide (m.Pairwise fun a b => a.1 < b.1)

/-- Every written cell lies below the buffer's cell count. -/
def bufBelow {w : Nat} (n : Nat) (m : Buf w) : Bool := decide (∀ c ∈ m, c.1 < n)

/-! ## The buffers of the block -/

/-- A byte buffer by its name (spec/10_state.md R65). -/
def Memory.bytes (m : Memory) : ByteBuf → Buf 8
  | .flux => m.flux
  | .bitbuf => m.bitbuf
  | .raw => m.raw
  | .rev r => m.rev[r]

/-- A word buffer by its name (spec/10_state.md R65). -/
def Memory.words (m : Memory) : WordBuf → Buf 32
  | .idam => m.idam
  | .sect => m.sect
  | .wbrec => m.wbrec
  | .wbbyte => m.wbbyte

/-- The memory with one byte buffer replaced. -/
def Memory.setBytes (m : Memory) (b : ByteBuf) (v : Buf 8) : Memory :=
  match b with
  | .flux => { m with flux := v }
  | .bitbuf => { m with bitbuf := v }
  | .raw => { m with raw := v }
  | .rev r => { m with rev := m.rev.set r v }

/-- The cell count of a byte buffer (spec/10_state.md R65). -/
def ByteBuf.cells (p : Params) : ByteBuf → Nat
  | .flux => p.fluxCap
  | .bitbuf => p.bitbufCap
  | .raw => p.rawCap
  | .rev _ => p.revCap

/-- The cell count of a word buffer (spec/10_state.md R65). -/
def WordBuf.cells (p : Params) : WordBuf → Nat
  | .idam => Config.idamCap
  | .sect => 3 * p.sectorCap
  | .wbrec => 3 * p.wbCap
  | .wbbyte => p.wbCap

/-- Which byte buffers a host may write (spec/10_state.md R65: RAW is host-RO). -/
def ByteBuf.hostWritable : ByteBuf → Bool
  | .flux => true
  | .bitbuf => true
  | .raw => false
  | .rev _ => true

/-- The canonical form of the whole memory: every buffer in its canonical form. -/
def Memory.wf (m : Memory) : Bool :=
  bufWf m.flux && bufWf m.bitbuf && bufWf m.raw && bufWf m.idam && bufWf m.sect
    && m.rev.toList.all bufWf && bufWf m.wbrec && bufWf m.wbbyte

/-- No buffer holds a cell at or above its cell count. -/
def Memory.within (p : Params) (m : Memory) : Bool :=
  bufBelow p.fluxCap m.flux && bufBelow p.bitbufCap m.bitbuf && bufBelow p.rawCap m.raw
    && bufBelow Config.idamCap m.idam && bufBelow (3 * p.sectorCap) m.sect
    && m.rev.toList.all (bufBelow p.revCap) && bufBelow (3 * p.wbCap) m.wbrec
    && bufBelow p.wbCap m.wbbyte

/-! ## Engine and host reads of a cell -/

/-- `MemRead(B, i, 1)` of a byte buffer by the engine (spec/00_scope.md R13). A ⊥ cell sets
`uninit_read` and reads as any value (spec/20_memory.md R106). -/
def engineRead (b : ByteBuf) (i : Nat) (s : State) : Byte × State :=
  match bufGet (s.mem.bytes b) i with
  | some v => (v, s)
  | none => (Config.freeByte s.draws, { s with uninitRead := true, draws := s.draws + 1 })

/-- A value of 32 bits that no rule fixes, drawn afresh for a host read (spec/20_memory.md R102,
R104, R106). The host's draws leave the engine's alone, so no host read changes what the running
command does. -/
def drawWord (s : State) : Word × State :=
  (Config.hostWord s.hostDraws, { s with hostDraws := s.hostDraws + 1 })

/-- A value of 8 bits that no rule fixes, drawn afresh for a host read (spec/20_memory.md R104,
R106). -/
def drawByte (s : State) : Byte × State :=
  (Config.hostByte s.hostDraws, { s with hostDraws := s.hostDraws + 1 })

/-! ## Bits and bytes -/

/-- A byte from its bits, bit 7 first. -/
def byteOfBits (b7 b6 b5 b4 b3 b2 b1 b0 : Bool) : Byte :=
  BitVec.ofNat 8 (128 * b7.toNat + 64 * b6.toNat + 32 * b5.toNat + 16 * b4.toNat
    + 8 * b3.toNat + 4 * b2.toNat + 2 * b1.toNat + b0.toNat)

/-- The byte that holds the first eight bits of a stream, stream bit 0 in bit 7; bits the stream
does not have are 0 (spec/00_scope.md R9, spec/20_memory.md R110). -/
def packByte (bits : List Bool) : Byte :=
  byteOfBits (bits.getD 0 false) (bits.getD 1 false) (bits.getD 2 false) (bits.getD 3 false)
    (bits.getD 4 false) (bits.getD 5 false) (bits.getD 6 false) (bits.getD 7 false)

/-- A stream packed MSB first into `ceil(n / 8)` bytes (spec/40_flux_pll.md R222, R223). -/
def packBits (bits : List Bool) : List Byte :=
  (List.range ((bits.length + 7) / 8)).map fun i => packByte (bits.drop (8 * i))

/-- Stream bit `k` of the byte that holds it: bit `7 - (k mod 8)` (spec/00_scope.md R9). -/
def streamBit (v : Byte) (k : Nat) : Bool := v.getLsbD (7 - k % 8)

/-- The low half of a 64-bit register pair (spec/20_memory.md R111). -/
def loHalf (x : BitVec 64) : Word := x.setWidth 32

/-- The high half of a 64-bit register pair (spec/20_memory.md R111). -/
def hiHalf (x : BitVec 64) : Word := (x >>> 32).setWidth 32

/-- The pair with its low half replaced. -/
def setLo (x : BitVec 64) (v : Word) : BitVec 64 := hiHalf x ++ v

/-- The pair with its high half replaced. -/
def setHi (x : BitVec 64) (v : Word) : BitVec 64 := v ++ loHalf x

/-- A Boolean as a 32-bit word with that bit at position `n`. -/
def bitAt (b : Bool) (n : Nat) : Word := if b then 1#32 <<< n else 0#32

/-! ## Completion of a command -/

/-- The error codes of spec/60_exceptions.md R415. -/
inductive ErrCode where
  | badCmd
  | emptyInput
  | fewRevs
  | badParam
deriving DecidableEq, Repr

/-- The number STATUS.ERRCODE holds for an error (spec/60_exceptions.md R415). -/
def ErrCode.code : ErrCode → BitVec 4
  | .badCmd => 1
  | .emptyInput => 2
  | .fewRevs => 3
  | .badParam => 4

/-- What a failed completion writes to STATUS: DONE, ERR and ERRCODE and nothing else
(spec/60_exceptions.md R401, R413). -/
def Status.fail (st : Status) (e : ErrCode) : Status :=
  { st with done := true, err := true, errcode := e.code }

/-- What every successful completion writes to STATUS, its result flags apart
(spec/60_exceptions.md R412). -/
def Status.succeed (st : Status) : Status :=
  { st with done := true, err := false, errcode := 0 }

/-- Failed completion (spec/60_exceptions.md R413), the block's only counterpart of taking an
exception (R401): STATUS records the error, the engine returns to Idle, nothing else changes. -/
def failCommand (e : ErrCode) (s : State) : State :=
  { s with eng := .idle, regs := { s.regs with status := s.regs.status.fail e } }

/-- Successful completion (spec/60_exceptions.md R412) of a command whose results and result flags
are already written. -/
def succeedCommand (s : State) : State :=
  { s with eng := .idle, regs := { s.regs with status := s.regs.status.succeed } }

/-- A command from its validation and its body: the first failing check completes it with its error
and writes nothing else; otherwise the body runs and completes it (spec/60_exceptions.md R411). -/
def runCommand (check : Option ErrCode) (body : State → State) (s : State) : State :=
  match check with
  | some e => failCommand e s
  | none => succeedCommand (body s)

/-- The acknowledgement of a completion by a STATUS write, the counterpart of a return
(spec/60_exceptions.md R402): W1C on DONE, ERR and REJECTED; clearing ERR clears ERRCODE
(spec/10_state.md R34). -/
def Status.writeOneToClear (st : Status) (v : Word) : Status :=
  { st with
    done := st.done && !v.getLsbD 1
    err := st.err && !v.getLsbD 2
    errcode := if v.getLsbD 2 then 0 else st.errcode
    rejected := st.rejected && !v.getLsbD 16 }

/-- A host write that a busy engine rejects: it changes nothing but REJECTED
(spec/60_exceptions.md R414). -/
def rejectWrite (s : State) : State :=
  { s with regs := { s.regs with status := { s.regs.status with rejected := true } } }

/-- Soft reset: every register at its reset value, buffers, engine and `uninit_read` as they are
(spec/70_reset_and_hazards.md R452). -/
def resetRegs (s : State) : State := { s with regs := Regs.reset }

/-- Hardware reset (spec/70_reset_and_hazards.md R451): registers to their reset values, every
buffer cell ⊥, the engine idle, `uninit_read` clear, and the hidden state back to its start (log 16).
The host's side of State (accesses, replies, turns, draws) is not the block's and stays. -/
def hardReset (s : State) : State :=
  { s with
    regs := Regs.reset
    mem := Memory.reset
    eng := .idle
    pll := PllLoop.reset
    framer := Framer.reset
    parser := Parser.reset
    cmp := Comparator.reset
    uninitRead := false }

end Sys2Proof.Machine
end

