-- ==== Sys2Proof/Machine/Flags.lean ====
section
/-! DEFINITION. The flags: the STATUS and CTRL words, which flags each command owns, and the
interrupt output (spec/10_state.md R33, R34, R76, spec/60_exceptions.md R412, R420). -/

namespace Sys2Proof.Machine

/-- STATUS.BUSY reads 1 exactly when the engine is busy (spec/10_state.md R70). -/
def State.busy (s : State) : Bool :=
  match s.eng with
  | .idle => false
  | .busy _ => true

/-- The STATUS word (spec/10_state.md R34); reserved bits are 0. -/
def statusWord (busy : Bool) (st : Status) : Word :=
  bitAt busy 0 ||| bitAt st.done 1 ||| bitAt st.err 2 ||| (st.errcode.setWidth 32 <<< 4)
    ||| bitAt st.bitbufOvf 8 ||| bitAt st.tokenErr 9 ||| bitAt st.rawOvf 10
    ||| bitAt st.idamCapped 11 ||| bitAt st.sectCapped 12 ||| bitAt st.wbOvf 13
    ||| bitAt st.rejected 16

/-- The CTRL word (spec/10_state.md R33); SOFT_RESET and reserved bits read 0. -/
def ctrlWord (c : Ctrl) : Word :=
  c.encoding.setWidth 32 ||| bitAt c.wbByteLevel 8 ||| bitAt c.wbPattern 9 ||| bitAt c.irqEn 16

/-- The CTRL fields of a written word (spec/10_state.md R33). -/
def ctrlOfWord (v : Word) : Ctrl where
  encoding := v.setWidth 2
  wbByteLevel := v.getLsbD 8
  wbPattern := v.getLsbD 9
  irqEn := v.getLsbD 16

/-- The STATUS bits a successful completion writes other than BUSY and DONE: ERR, ERRCODE and the
result flags the command owns (spec/60_exceptions.md R412). -/
def Op.statusMask : Op → Word
  | .pllDecode => 0x000003F4#32
  | .frame => 0x00001CF4#32
  | .decodeFrame => 0x00001FF4#32
  | .wbDetect => 0x000020F4#32

/-- The STATUS bits a failed completion writes other than BUSY and DONE: ERR and ERRCODE
(spec/60_exceptions.md R413). -/
def failMask : Word := 0x000000F4#32

/-- The result flags PLL_DECODE owns (spec/40_flux_pll.md R225). -/
def Status.setDecodeFlags (st : Status) (ovf tokenErr : Bool) : Status :=
  { st with bitbufOvf := ovf, tokenErr := tokenErr }

/-- The result flags FRAME owns (spec/41_sync_framer.md R280). -/
def Status.setFrameFlags (st : Status) (rawOvf idamCapped sectCapped : Bool) : Status :=
  { st with rawOvf := rawOvf, idamCapped := idamCapped, sectCapped := sectCapped }

/-- The result flag WB_DETECT owns (spec/42_weakbit.md R343). -/
def Status.setWbFlag (st : Status) (ovf : Bool) : Status := { st with wbOvf := ovf }

/-- The interrupt output `irq = STATUS.DONE ∧ CTRL.IRQ_EN` (spec/60_exceptions.md R420). -/
def State.irq (s : State) : Bool := s.regs.status.done && s.regs.ctrl.irqEn

end Sys2Proof.Machine
end

