-- ==== Sys2Proof/Machine/Operands.lean ====
section
/-! DEFINITION. The operand forms: the interval value of each token, the operand registers of each
command (spec/30_encoding.md R142), sync sets, data-bit extraction and the record words
(R160 to R173). -/

namespace Sys2Proof.Machine

/-! ## Token operands -/

/-- The value of a LIT token (spec/30_encoding.md R151). -/
def litInterval (b : Byte) : Nat := b.toNat

/-- The value of an ESC8 token; the escape byte does not enter it (spec/30_encoding.md R152). -/
def esc8Interval (n : Byte) : Nat := 250 + n.toNat

/-- The value of an ESC24 token, low byte first (spec/30_encoding.md R153, spec/20_memory.md
R109). -/
def esc24Interval (b0 b1 b2 : Byte) : Nat := b0.toNat + 256 * b1.toNat + 65536 * b2.toNat

/-! ## Decode operands -/

/-- CTRL.ENCODING = 0, FM (spec/10_state.md R33). -/
def encFm : BitVec 2 := 0

/-- CTRL.ENCODING = 1, MFM (spec/10_state.md R33). -/
def encMfm : BitVec 2 := 1

/-- The cell rate the encoding selects (spec/40_flux_pll.md R216). -/
def cellRate (r : Regs) : Word := if r.ctrl.encoding = encFm then r.cellRateFm else r.cellRateMfm

/-- The nominal cell period T0 (spec/40_flux_pll.md R216). -/
def nominalPeriod (r : Regs) : F64 :=
  F64.div (F64.ofNat r.sampleFreq.toNat) (F64.ofNat (cellRate r).toNat)

/-- f64 1.0, the largest legal gain magnitude (spec/10_state.md R53). -/
def f64One : F64 := 0x3FF0000000000000

/-- f64 1024.0, the largest legal ratio (spec/10_state.md R55). -/
def f64Ratio1024 : F64 := 0x4090000000000000

/-- A legal gain: finite, magnitude at most 1.0 (spec/10_state.md R53, R54). -/
def gainLegal (x : F64) : Bool := F64.isFinite x && decide (F64.mag x ≤ F64.mag f64One)

/-- Legal ratios: finite, `0 < FMIN ≤ FMAX ≤ 1024.0` (spec/10_state.md R55). -/
def ratiosLegal (fmin fmax : F64) : Bool :=
  F64.isFinite fmin && F64.isFinite fmax && F64.lt 0 fmin && F64.le fmin fmax
    && F64.le fmax f64Ratio1024

/-! ## Framer operands -/

/-- SYNC(enc): {0x4489} for MFM (spec/30_encoding.md R160), SYNC_FM for FM (R161). -/
def syncSet (p : Params) (enc : BitVec 2) : List Half :=
  if enc = encMfm then [0x4489#16] else p.syncFm

/-- `databits`: the data bits of a window, its clock bits discarded (spec/30_encoding.md R162). -/
def dataBits (w : Half) : Byte :=
  byteOfBits (w.getLsbD 14) (w.getLsbD 12) (w.getLsbD 10) (w.getLsbD 8)
    (w.getLsbD 6) (w.getLsbD 4) (w.getLsbD 2) (w.getLsbD 0)

/-- The window with one stream bit shifted in at the bottom (spec/41_sync_framer.md R263). -/
def shiftIn (w : Half) (b : Bool) : Half := (w <<< 1) ||| (if b then 1#16 else 0#16)

/-! ## Record words -/

/-- The IDAM word of an entry (spec/30_encoding.md R170). -/
def IdamEntry.word (e : IdamEntry) : Word :=
  0#14 ++ e.density ++ BitVec.ofNat 16 e.offset

/-- The three SECT words of a record (spec/30_encoding.md R171). -/
def SectorRecord.words (r : SectorRecord) : List Word :=
  [ r.sizeCode ++ r.sector ++ r.head ++ r.cyl,
    bitAt r.dataCrcOk 17 ||| bitAt r.idCrcOk 16 ||| (r.damType.setWidth 32 <<< 8)
      ||| r.enc.setWidth 32,
    BitVec.ofNat 16 r.dataSize ++ BitVec.ofNat 16 r.dataOffset ]

/-- The pattern code of a record (spec/30_encoding.md R164). -/
def Pattern.code : Pattern → BitVec 2
  | .none => 0
  | .alternating => 1
  | .custom => 2

/-- The SAMPLES mask: bit r is the sample of revolution r (spec/30_encoding.md R172). -/
def sampleMask (smp : List Bool) : Nat :=
  match smp with
  | [] => 0
  | b :: rest => b.toNat + 2 * sampleMask rest

/-- The three WBREC words of a record (spec/30_encoding.md R172). -/
def WeakRecord.words (r : WeakRecord) : List Word :=
  [ BitVec.ofNat 32 r.offset,
    0#6 ++ r.pattern.code ++ BitVec.ofNat 8 r.sampleCount ++ BitVec.ofNat 8 r.variation ++ 0#5
      ++ BitVec.ofNat 3 r.bit,
    0#22 ++ BitVec.ofNat 10 (sampleMask r.samples) ]

end Sys2Proof.Machine
end

