-- ==== Sys2Proof/Machine/Tokens.lean ====
section
/-! DEFINITION. The flux token forms (spec/40_flux_pll.md R200 to R204): the per-interval loop step
`feed` of R214 and the meaning of each token, which acts only on the decode loop's own state. A term
no bytes decode to runs its form's formula (log 20). -/

namespace Sys2Proof.Machine

/-- `clamp(n, 1, max)` on whole numbers. -/
def clampCells (n : Int) (max : Nat) : Nat := (Min.min (Max.max n 1) (max : Int)).toNat

/-- The quotient `x = (s - phase) / freq` of spec/40_flux_pll.md R217. -/
def cellQuotient (interval : Nat) (p : PllLoop) : F64 :=
  F64.div (F64.sub (F64.ofNat interval) p.phase) p.freq

/-- The clamped cell count of a quotient that is not NaN (spec/40_flux_pll.md R217); an infinity is
beyond either bound of the clamp. -/
def cellsOfQuotient (x : F64) (max : Nat) : Nat :=
  if F64.isInf x then (if F64.neg x then clampCells 0 max else max)
  else clampCells (F64.roundHalfAway x) max

/-- The cell count `c` of an interval and the draws used up. R217 calls a NaN quotient impossible;
where one arises, the count within the clamp is free (log 10). -/
def cellCount (interval : Nat) (s : State) : Nat × Nat :=
  let x := cellQuotient interval s.pll
  if F64.isNaN x then
    (clampCells (Config.freeCells s.draws) s.regs.pllMaxCells.toNat, s.draws + 1)
  else (cellsOfQuotient x s.regs.pllMaxCells.toNat, s.draws)

/-- The phase error `e = s - (phase + c × freq)` (spec/40_flux_pll.md R219). -/
def phaseError (interval c : Nat) (p : PllLoop) : F64 :=
  F64.sub (F64.ofNat interval) (F64.add p.phase (F64.mul (F64.ofNat c) p.freq))

/-- The frequency after an interval, clamped to `[lo, hi]` (spec/40_flux_pll.md R221). -/
def nextFreq (e : F64) (c : Nat) (freqGain : F64) (p : PllLoop) : F64 :=
  F64.clamp (F64.add p.freq (F64.div (F64.mul e freqGain) (F64.ofNat c))) p.lo p.hi

/-- The cells of one interval: `c - 1` zeros, then a one (spec/40_flux_pll.md R218). -/
def cellBits (c : Nat) : List Bool := List.replicate (c - 1) false ++ [true]

/-- The loop after an interval of `c` cells that fits in BITBUF, read from a token of `len` bytes
(spec/40_flux_pll.md R214, R218 to R221). -/
def PllLoop.advance (p : PllLoop) (r : Regs) (interval c len : Nat) : PllLoop :=
  let e := phaseError interval c p
  { p with
    out := p.out ++ cellBits c
    phase := F64.mul e r.phaseGain
    freq := nextFreq e c r.freqGain p
    nint := p.nint + 1
    tc := p.tc + len }

/-- `feed(s)`: the loop step of one interval (spec/40_flux_pll.md R214). An interval whose cells do
not fit in BITBUF only sets `ovf` (R224). -/
def feed (interval len : Nat) (s : State) : State :=
  let c := cellCount interval s
  if 8 * s.params.bitbufCap < s.pll.out.length + c.1 then
    { s with pll := { s.pll with ovf := true }, draws := c.2 }
  else { s with pll := s.pll.advance s.regs interval c.1 len, draws := c.2 }

/-- A dropped token of `len` bytes: counted, nothing fed (spec/40_flux_pll.md R203). -/
def dropToken (len : Nat) (s : State) : State :=
  { s with pll := { s.pll with ndrop := s.pll.ndrop + 1, tc := s.pll.tc + len } }

/-- A truncated token: counted; the cursor stays (spec/40_flux_pll.md R204). -/
def dropTruncated (s : State) : State :=
  { s with pll := { s.pll with ndrop := s.pll.ndrop + 1 } }

/-- The effect of LIT (spec/40_flux_pll.md R200). -/
def litEffect (b : Byte) (s : State) : State := feed (litInterval b) 1 s

/-- The effect of ESC8 (spec/40_flux_pll.md R201); `e` is ignored. -/
def esc8Effect (_e n : Byte) (s : State) : State := feed (esc8Interval n) 2 s

/-- The effect of ESC24 (spec/40_flux_pll.md R202). -/
def esc24Effect (b0 b1 b2 : Byte) (s : State) : State := feed (esc24Interval b0 b1 b2) 5 s

/-- The effect of ESC_UNDEF (spec/40_flux_pll.md R203). -/
def escUndefEffect (_x : Byte) (s : State) : State := dropToken 2 s

/-- LIT, spec/40_flux_pll.md R200. -/
def execTokLit (b : Byte) (s : State) : Host.Outcome State Fault Refusal := .next (litEffect b s)

/-- ESC8, spec/40_flux_pll.md R201. -/
def execTokEsc8 (e n : Byte) (s : State) : Host.Outcome State Fault Refusal :=
  .next (esc8Effect e n s)

/-- ESC24, spec/40_flux_pll.md R202. -/
def execTokEsc24 (b0 b1 b2 : Byte) (s : State) : Host.Outcome State Fault Refusal :=
  .next (esc24Effect b0 b1 b2 s)

/-- ESC_UNDEF, spec/40_flux_pll.md R203. -/
def execTokEscUndef (x : Byte) (s : State) : Host.Outcome State Fault Refusal :=
  .next (escUndefEffect x s)

/-- The effect of a token on the loop; a command word is no token and has none here. -/
def tokenEffect (i : Instr) (s : State) : State :=
  match i with
  | .pllDecode => s
  | .frame => s
  | .decodeFrame => s
  | .wbDetect => s
  | .tokLit b => litEffect b s
  | .tokEsc8 e n => esc8Effect e n s
  | .tokEsc24 b0 b1 b2 => esc24Effect b0 b1 b2 s
  | .tokEscUndef x => escUndefEffect x s

end Sys2Proof.Machine
end

