-- ==== Sys2Proof/Machine/Fetch.lean ====
section
/-! DEFINITION. How an instruction reaches the engine: the token reader of the decode loop
(spec/40_flux_pll.md R205) and the choice of the next agent (spec/60_exceptions.md R411). -/

namespace Sys2Proof.Machine

/-- What the token reader returns (spec/40_flux_pll.md R205): END, TRUNC, or a token, which R205
writes as FEED or DROP. -/
inductive Fetched where
  | stop
  | trunc
  | token (i : Instr)
deriving DecidableEq, Repr

/-- The token the bytes read make up. -/
def fetchedOf (bytes : List Byte) : Fetched :=
  match decodeToken bytes with
  | .ok (i, _) => .token i
  | .error _ => .trunc

/-- `nextToken(tc)` (spec/40_flux_pll.md R205): FLUX bytes are read one at a time, in order, only
below FLUX_LEN and only as far as the token's form is open. -/
def fetchToken (s : State) : Fetched × State :=
  let tc := s.pll.tc
  let len := s.regs.fluxLen.toNat
  if len ≤ tc then (.stop, s)
  else
    let r0 := engineRead .flux tc s
    if r0.1.toNat ≤ 249 then (fetchedOf [r0.1], r0.2)
    else if len ≤ tc + 1 then (.trunc, r0.2)
    else
      let r1 := engineRead .flux (tc + 1) r0.2
      if r0.1.toNat ≤ 254 ∨ r1.1 ≠ 0xFF#8 then (fetchedOf [r0.1, r1.1], r1.2)
      else if len ≤ tc + 4 then (.trunc, r1.2)
      else
        let r2 := engineRead .flux (tc + 2) r1.2
        let r3 := engineRead .flux (tc + 3) r2.2
        let r4 := engineRead .flux (tc + 4) r3.2
        (fetchedOf [r0.1, r1.1, r2.1, r3.1, r4.1], r4.2)

/-- The command word an engine runs (spec/30_encoding.md R141), as an instruction. -/
def Op.instr : Op → Instr
  | .pllDecode => .pllDecode
  | .frame => .frame
  | .decodeFrame => .decodeFrame
  | .wbDetect => .wbDetect

/-- The engine command of a decoded command word; a token is none. -/
def opOfInstr : Instr → Option Op
  | .pllDecode => some .pllDecode
  | .frame => some .frame
  | .decodeFrame => some .decodeFrame
  | .wbDetect => some .wbDetect
  | .tokLit _ => none
  | .tokEsc8 _ _ => none
  | .tokEsc24 _ _ _ => none
  | .tokEscUndef _ => none

/-- What the machine does next. -/
inductive Move where
  /-- A decode stands at a token boundary: read and run the next token (log 8). -/
  | token
  /-- The busy engine runs its command. -/
  | command (i : Instr) (s : State)
  /-- The host makes its next access. -/
  | access (op : HostOp) (s : State)
  /-- No agent can move: an idle engine does nothing until a CMD write
  (spec/60_exceptions.md R435, log 14). -/
  | rest
deriving DecidableEq, Repr

/-- Which agent moves. The engine can move exactly when it is busy, the host exactly when it has an
access to make (spec/60_exceptions.md R411). Where both can, the next entry of `turns` chooses, and
where `turns` is empty the engine moves, which keeps weak fairness (log 3). -/
def nextMove (s : State) : Move :=
  if s.pll.live then .token
  else
    match s.eng, s.pending, s.turns with
    | .idle, [], _ => .rest
    | .idle, op :: rest, _ => .access op { s with pending := rest }
    | .busy c, [], _ => .command c.instr s
    | .busy c, _ :: _, [] => .command c.instr s
    | .busy c, _ :: _, .engine :: ts => .command c.instr { s with turns := ts }
    | .busy _, op :: rest, .host :: ts => .access op { s with pending := rest, turns := ts }

end Sys2Proof.Machine
end

