-- ==== Sys2Proof/Machine/Pll.lean ====
section
/-! DEFINITION. PLL_DECODE (spec/40_flux_pll.md R214 to R229): validation, the token loop and the
commit. -/

namespace Sys2Proof.Machine

/-- Decode validation (spec/40_flux_pll.md R215): the first check that fails gives the error. -/
def validateDecode (s : State) : Option ErrCode :=
  let r := s.regs
  if r.fluxLen.toNat = 0 then some .emptyInput
  else if s.params.fluxCap < r.fluxLen.toNat then some .badParam
  else if r.ctrl.encoding ≠ encFm ∧ r.ctrl.encoding ≠ encMfm then some .badParam
  else if r.sampleFreq.toNat = 0 then some .badParam
  else if (cellRate r).toNat = 0 then some .badParam
  else if r.pllMaxCells.toNat = 0 then some .badParam
  else if ¬ (gainLegal r.phaseGain ∧ gainLegal r.freqGain) then some .badParam
  else if ¬ ratiosLegal r.fminRatio r.fmaxRatio then some .badParam
  else none

/-- The start of a decode (spec/40_flux_pll.md R214, spec/10_state.md R71). -/
def startDecode (s : State) : State :=
  let t0 := nominalPeriod s.regs
  { s with
    pll :=
      { live := true
        phase := 0
        freq := t0
        t0 := t0
        lo := F64.mul s.regs.fminRatio t0
        hi := F64.mul s.regs.fmaxRatio t0
        tc := 0
        out := []
        nint := 0
        ndrop := 0
        ovf := false } }

/-- The token loop of spec/40_flux_pll.md R214, for at most `n` tokens. It ends at END, at a
truncated token, or at the interval that does not fit. -/
def decodeLoop : Nat → State → State
  | 0, s => s
  | n + 1, s =>
    if s.pll.ovf then s
    else
      match fetchToken s with
      | (.stop, s') => s'
      | (.trunc, s') => dropTruncated s'
      | (.token i, s') => decodeLoop n (tokenEffect i s')

/-- Commit of a decode (spec/40_flux_pll.md R223, R225): the packed stream and the result registers
and flags. -/
def commitDecode (s : State) : State :=
  let p := s.pll
  { s with
    pll := { p with live := false }
    mem := { s.mem with bitbuf := bufWrite s.mem.bitbuf 0 (packBits p.out) }
    regs :=
      { s.regs with
        bitCount := BitVec.ofNat 32 p.out.length
        pllIntervals := BitVec.ofNat 32 p.nint
        tokensDropped := BitVec.ofNat 32 p.ndrop
        pllT0 := p.t0
        pllPhase := p.phase
        pllFreq := p.freq
        status := s.regs.status.setDecodeFlags p.ovf (decide (0 < p.ndrop)) } }

/-- The token loop run to its end. Every token is at least one byte long, so FLUX_LEN tokens and one
more read end it (spec/40_flux_pll.md R229, log 13). -/
def decodeTokens (s : State) : State := decodeLoop (s.regs.fluxLen.toNat + 1) s

/-- The body of PLL_DECODE after validation (spec/40_flux_pll.md R214). -/
def decodeBody (s : State) : State := commitDecode (decodeTokens (startDecode s))

/-- PLL_DECODE, spec/40_flux_pll.md R214. -/
def execPllDecode (s : State) : Host.Outcome State Fault Refusal :=
  .next (runCommand (validateDecode s) decodeBody s)

end Sys2Proof.Machine
end

