-- ==== Sys2Proof/Machine/Framer.lean ====
section
/-! DEFINITION. FRAME and DECODE_FRAME (spec/41_sync_framer.md R260 to R290): bit framing, sector
parsing, CRC and the commit. -/

namespace Sys2Proof.Machine

/-! ## Bit framing -/

/-- Frame validation (spec/41_sync_framer.md R261). -/
def validateFrame (s : State) : Option ErrCode :=
  if s.regs.ctrl.encoding ≠ encFm ∧ s.regs.ctrl.encoding ≠ encMfm then some .badParam
  else if 8 * s.params.bitbufCap < s.regs.bitCount.toNat then some .badParam
  else none

/-- `emit_byte(v)` (spec/41_sync_framer.md R266); a byte cut starts a new count (R263). -/
def Framer.emitByte (f : Framer) (v : Byte) : Framer := { f with raw := f.raw ++ [v], cnt := 0 }

/-- The entry of a sync match, or the cap mark where the table is full
(spec/41_sync_framer.md R264, R265). -/
def Framer.recordSync (f : Framer) (enc : BitVec 2) : Framer :=
  if f.idam.length < Config.idamCap then { f with idam := f.idam ++ [⟨f.raw.length, enc⟩] }
  else { f with capped := true }

/-- One stream bit of the framing loop (spec/41_sync_framer.md R263): the sync test comes before
the count of 16, and a full RAW buffer stops the loop (R267). -/
def Framer.bit (p : Params) (enc : BitVec 2) (b : Bool) (f : Framer) : Framer :=
  let g := { f with
    window := shiftIn f.window b, total := f.total + 1, cnt := f.cnt + 1, k := f.k + 1 }
  if 16 ≤ g.total ∧ g.window ∈ syncSet p enc then
    if g.raw.length = p.rawCap then { g with rawOvf := true }
    else (g.recordSync enc).emitByte (dataBits g.window)
  else if g.cnt = 16 then
    if g.raw.length = p.rawCap then { g with rawOvf := true }
    else g.emitByte (dataBits g.window)
  else g

/-- The bit reader (spec/41_sync_framer.md R262): stream bit `k` of BITBUF. -/
def readStreamBit (k : Nat) (s : State) : Bool × State :=
  let r := engineRead .bitbuf (k / 8) s
  (streamBit r.1 k, r.2)

/-- One step of the framing loop: read the bit at the cursor and frame it. -/
def frameStep (s : State) : State :=
  let r := readStreamBit s.framer.k s
  { r.2 with framer := s.framer.bit s.params s.regs.ctrl.encoding r.1 }

/-- The framing loop over the next `n` stream bits (spec/41_sync_framer.md R263). -/
def frameLoop : Nat → State → State
  | 0, s => s
  | n + 1, s => if s.framer.rawOvf then s else frameLoop n (frameStep s)

/-! ## CRC -/

/-- One of the eight shifts of spec/41_sync_framer.md R281. -/
def crcShift (c : Half) : Half :=
  if c.getLsbD 15 then (c <<< 1) ^^^ 0x1021#16 else c <<< 1

/-- One byte of the CRC (spec/41_sync_framer.md R281), most significant bit first. -/
def crcByte (c : Half) (v : Byte) : Half :=
  Nat.repeat crcShift 8 (c ^^^ (v.setWidth 16 <<< 8))

/-- CRC-16/CCITT: polynomial 0x1021, initial value 0xFFFF, nothing reflected, no final XOR
(spec/41_sync_framer.md R281). -/
def crc16 (bytes : List Byte) : Half := bytes.foldl crcByte 0xFFFF#16

/-! ## Sector parse -/

/-- Byte `i` of the framed bytes; the parser reads none at or beyond their end. -/
def rawAt (raw : List Byte) (i : Nat) : Byte := raw.getD i 0

/-- The bytes from index `i` on, `n` of them. -/
def rawSlice (raw : List Byte) (i n : Nat) : List Byte := (raw.drop i).take n

/-- A stored CRC, high byte first (spec/41_sync_framer.md R282). -/
def storedCrc (raw : List Byte) (i : Nat) : Half := rawAt raw i ++ rawAt raw (i + 1)

/-- The mark position of an entry at offset `o` (spec/41_sync_framer.md R271): past the run of A1
for MFM, the sync byte itself for FM. -/
def markPos (enc : BitVec 2) (raw : List Byte) (o : Nat) : Nat :=
  if enc = encMfm then o + ((raw.drop o).takeWhile (· == 0xA1#8)).length else o

/-- The record an ID field makes (spec/41_sync_framer.md R272, R275). -/
def idRecord (enc : BitVec 2) (raw : List Byte) (o mp : Nat) : SectorRecord where
  cyl := rawAt raw (mp + 1)
  head := rawAt raw (mp + 2)
  sector := rawAt raw (mp + 3)
  sizeCode := rawAt raw (mp + 4)
  enc := enc
  damType := 0
  idCrcOk := crc16 (rawSlice raw o (mp + 5 - o)) == storedCrc raw (mp + 5)
  dataCrcOk := false
  dataOffset := 0
  dataSize := 0

/-- `parse_id(o, mp)` (spec/41_sync_framer.md R272, R276, R277). -/
def parseId (p : Params) (enc : BitVec 2) (raw : List Byte) (o mp : Nat) (ps : Parser) : Parser :=
  if raw.length ≤ mp + 6 then { ps with consumed := raw.length, awaiting := none }
  else if ps.sect.length = p.sectorCap then
    { ps with consumed := mp + 7, sectCapped := true, awaiting := none }
  else
    { ps with
      consumed := mp + 7
      sect := ps.sect ++ [idRecord enc raw o mp]
      awaiting := some ps.sect.length }

/-- The data field's size, `128 << size_code` as a mathematical integer
(spec/41_sync_framer.md R273). -/
def sectorSize (sizeCode : Byte) : Nat := 128 * 2 ^ sizeCode.toNat

/-- A record with its data field parsed (spec/41_sync_framer.md R273). -/
def SectorRecord.withData (r : SectorRecord) (raw : List Byte) (o mp : Nat) (m : Byte) :
    SectorRecord :=
  let size := sectorSize r.sizeCode
  if raw.length < mp + 1 + size + 2 then
    { r with damType := m, dataOffset := mp + 1, dataSize := 0, dataCrcOk := false }
  else
    { r with
      damType := m
      dataOffset := mp + 1
      dataSize := size
      dataCrcOk := crc16 (rawSlice raw o (mp + size + 1 - o)) == storedCrc raw (mp + 1 + size) }

/-- Where the data field ends for the parser (spec/41_sync_framer.md R273). -/
def dataConsumed (r : SectorRecord) (raw : List Byte) (mp : Nat) : Nat :=
  let size := sectorSize r.sizeCode
  if raw.length < mp + 1 + size + 2 then mp + 1 else mp + size + 3

/-- `parse_data(o, mp, m)` (spec/41_sync_framer.md R273): a DAM binds to the record that awaits its
data field; with none it is an orphan. -/
def parseData (raw : List Byte) (o mp : Nat) (m : Byte) (ps : Parser) : Parser :=
  match ps.awaiting with
  | none => { ps with consumed := mp + 1 }
  | some i =>
    match ps.sect[i]? with
    | none => { ps with consumed := mp + 1, awaiting := none }
    | some r =>
      { ps with
        consumed := dataConsumed r raw mp
        sect := ps.sect.set i (r.withData raw o mp m)
        awaiting := none }

/-- The parse of one entry by the class of its mark (spec/41_sync_framer.md R270, R274,
spec/30_encoding.md R163). -/
def parseMark (p : Params) (enc : BitVec 2) (raw : List Byte) (o mp : Nat) (ps : Parser) :
    Parser :=
  let m := rawAt raw mp
  if m ∈ p.idamMarks then parseId p enc raw o mp ps
  else if m ∈ p.damMarks then parseData raw o mp m ps
  else { ps with consumed := mp }

/-- `parse_sectors` over the stored entries in order (spec/41_sync_framer.md R270). -/
def parseEntries (p : Params) (enc : BitVec 2) (raw : List Byte) :
    List IdamEntry → Parser → Parser
  | [], ps => ps
  | e :: es, ps =>
    if e.offset < ps.consumed then parseEntries p enc raw es ps
    else if raw.length ≤ markPos enc raw e.offset then ps
    else
      parseEntries p enc raw es (parseMark p enc raw e.offset (markPos enc raw e.offset) ps)

/-- What a record adds to CRC_ERRORS (spec/41_sync_framer.md R284). -/
def SectorRecord.crcErrors (r : SectorRecord) : Nat :=
  (!r.idCrcOk).toNat + (r.damType != 0 && !r.dataCrcOk).toNat

/-- `CRC_ERRORS`, the sum over the stored records (spec/41_sync_framer.md R284). -/
def crcErrorCount (sect : List SectorRecord) : Nat := (sect.map SectorRecord.crcErrors).sum

/-! ## FRAME -/

/-- The framing stage over the stream in BITBUF, from its initial state
(spec/70_reset_and_hazards.md R453). -/
def frameStage (s : State) : State :=
  frameLoop s.regs.bitCount.toNat { s with framer := Framer.reset }

/-- The parse stage over the framed bytes and stored entries (spec/41_sync_framer.md R270). -/
def parseStage (s : State) : State :=
  { s with
    parser :=
      parseEntries s.params s.regs.ctrl.encoding s.framer.raw s.framer.idam Parser.reset }

/-- Commit of a frame (spec/41_sync_framer.md R280). -/
def commitFrame (s : State) : State :=
  let f := s.framer
  let q := s.parser
  { s with
    mem :=
      { s.mem with
        raw := bufWrite s.mem.raw 0 f.raw
        idam := bufWrite s.mem.idam 0 (f.idam.map IdamEntry.word)
        sect := bufWrite s.mem.sect 0 (q.sect.flatMap SectorRecord.words) }
    regs :=
      { s.regs with
        rawLen := BitVec.ofNat 32 f.raw.length
        idamCount := BitVec.ofNat 32 f.idam.length
        sectorCount := BitVec.ofNat 32 q.sect.length
        crcErrors := BitVec.ofNat 32 (crcErrorCount q.sect)
        status := s.regs.status.setFrameFlags f.rawOvf f.capped q.sectCapped } }

/-- The body of FRAME after validation (spec/41_sync_framer.md R260). -/
def frameBody (s : State) : State := commitFrame (parseStage (frameStage s))

/-- FRAME, spec/41_sync_framer.md R260. -/
def execFrame (s : State) : Host.Outcome State Fault Refusal :=
  .next (runCommand (validateFrame s) frameBody s)

/-! ## DECODE_FRAME -/

/-- The body of DECODE_FRAME after validation (spec/41_sync_framer.md R290): the frame stage reads
the BITBUF contents and the BIT_COUNT the decode stage wrote. -/
def decodeFrameBody (s : State) : State := frameBody (decodeBody s)

/-- DECODE_FRAME, spec/41_sync_framer.md R290. -/
def execDecodeFrame (s : State) : Host.Outcome State Fault Refusal :=
  .next (runCommand (validateDecode s) decodeFrameBody s)

/-- The rest of a decode whose token loop has ended (log 8): its commit, the frame stage where the
command is DECODE_FRAME, and the completion. -/
def finishDecode (s : State) : State :=
  match s.eng with
  | .idle => succeedCommand (commitDecode s)
  | .busy .pllDecode => succeedCommand (commitDecode s)
  | .busy .frame => succeedCommand (commitDecode s)
  | .busy .decodeFrame => succeedCommand (frameBody (commitDecode s))
  | .busy .wbDetect => succeedCommand (commitDecode s)

end Sys2Proof.Machine
end

