-- ==== Sys2Proof/Machine/WeakBit.lean ====
section
/-! DEFINITION. WB_DETECT (spec/42_weakbit.md R330 to R347): the weak-bit bit-position
comparator. -/

namespace Sys2Proof.Machine

/-- Detect validation (spec/42_weakbit.md R331): the first check that fails gives the error. -/
def validateWb (s : State) : Option ErrCode :=
  let r := s.regs
  if r.wbRevs.toNat < Config.minRevs then some .fewRevs
  else if r.wbLength.toNat = 0 then some .emptyInput
  else if Config.maxRevs < r.wbRevs.toNat then some .badParam
  else if s.params.revCap < r.wbLength.toNat then some .badParam
  else none

/-- The number of distinct sample values (spec/42_weakbit.md R335). -/
def distinctCount (smp : List Bool) : Nat :=
  (decide (false ∈ smp)).toNat + (decide (true ∈ smp)).toNat

/-- Whether every consecutive pair of samples differs (spec/42_weakbit.md R338). -/
def alternates : List Bool → Bool
  | a :: b :: rest => (a != b) && alternates (b :: rest)
  | _ => true

/-- `classify` (spec/42_weakbit.md R338). -/
def classify (wbPattern : Bool) (smp : List Bool) : Pattern :=
  if !wbPattern then .none else if alternates smp then .alternating else .custom

/-- The variation percent, an integer division (spec/42_weakbit.md R336). -/
def variation (distinct k : Nat) : Nat := distinct * 100 / k

/-- A weak bit that passed the threshold: counted, and stored while there is room
(spec/42_weakbit.md R330, R339, R342). -/
def Comparator.addRecord (c : Comparator) (p : Params) (r : WeakRecord) : Comparator :=
  if c.recs.length < p.wbCap then { c with count := c.count + 1, recs := c.recs ++ [r] }
  else { c with count := c.count + 1, ovf := true }

/-- The weak-byte entry of the current byte, made at its first weak bit (spec/42_weakbit.md R340,
R342). -/
def Comparator.addByte (c : Comparator) (p : Params) : Comparator :=
  if c.bytes.length < p.wbCap then { c with bytes := c.bytes ++ [c.o], first := false }
  else { c with ovf := true, first := false }

/-- The samples of one bit position, judged (spec/42_weakbit.md R330). `k` is WB_REVS. -/
def Comparator.judge (c : Comparator) (p : Params) (k thr : Nat) (ctrl : Ctrl) (smp : List Bool) :
    Comparator :=
  let distinct := distinctCount smp
  let var := variation distinct k
  if 1 < distinct ∧ thr ≤ var then
    let c' := c.addRecord p ⟨c.o, c.b, var, distinct, smp, classify ctrl.wbPattern smp⟩
    if ctrl.wbByteLevel && c'.first then c'.addByte p else c'
  else c

/-- The samples of bit `b` of byte `o`, revolution 0 first (spec/42_weakbit.md R334). -/
def readSamples (o b : Nat) : List (Fin 10) → State → List Bool × State
  | [], s => ([], s)
  | r :: rs, s =>
    let x := engineRead (.rev r) o s
    let y := readSamples o b rs x.2
    (x.1.getLsbD b :: y.1, y.2)

/-- The revolutions compared: REV0 to REV(K - 1) (spec/10_state.md R46). -/
def revolutions (k : Nat) : List (Fin 10) := (List.finRange 10).take k

/-- The bit position at the cursors (spec/42_weakbit.md R333, R334). -/
def wbBit (s : State) (b : Nat) : State :=
  let k := s.regs.wbRevs.toNat
  let r := readSamples s.cmp.o b (revolutions k) s
  { r.2 with
    cmp := ({ s.cmp with b := b }).judge s.params k s.regs.wbThreshold.toNat s.regs.ctrl r.1 }

/-- The eight bit positions of the byte at the cursor, bit 0 first (spec/42_weakbit.md R333). -/
def wbByte (s : State) : State :=
  let t := (List.range 8).foldl wbBit { s with cmp := { s.cmp with first := true } }
  { t with cmp := { t.cmp with o := t.cmp.o + 1 } }

/-- The scan over the next `n` bytes (spec/42_weakbit.md R333). -/
def wbScan : Nat → State → State
  | 0, s => s
  | n + 1, s => wbScan n (wbByte s)

/-- WB_COUNT as 32 bits and the draws used up. A count of 2^32 or more, which parameters above the
defaults allow, has no stated register value: it is free (log 11). -/
def wbCountWord (s : State) : Word × Nat :=
  if s.cmp.count < 2 ^ 32 then (BitVec.ofNat 32 s.cmp.count, s.draws)
  else (Config.freeWord s.draws, s.draws + 1)

/-- Weak-bit density per 1000 bits (spec/42_weakbit.md R345). -/
def densityOf (count len : Nat) : F64 := F64.div (F64.ofNat (count * 1000)) (F64.ofNat (8 * len))

/-- Commit of a report (spec/42_weakbit.md R343 to R345). -/
def commitWb (s : State) : State :=
  let c := s.cmp
  let len := s.regs.wbLength
  { s with
    draws := (wbCountWord s).2
    mem :=
      { s.mem with
        wbrec := bufWrite s.mem.wbrec 0 (c.recs.flatMap WeakRecord.words)
        wbbyte := bufWrite s.mem.wbbyte 0 (c.bytes.map (BitVec.ofNat 32)) }
    regs :=
      { s.regs with
        wbCount := (wbCountWord s).1
        wbRecords := BitVec.ofNat 32 c.recs.length
        wbBytes := BitVec.ofNat 32 c.bytes.length
        bytesAnalyzed := len
        bitsAnalyzed := BitVec.ofNat 64 (8 * len.toNat)
        density := densityOf c.count len.toNat
        status := s.regs.status.setWbFlag c.ovf } }

/-- The body of WB_DETECT after validation (spec/42_weakbit.md R330), from the comparator's initial
state (spec/70_reset_and_hazards.md R453). -/
def wbBody (s : State) : State :=
  commitWb (wbScan s.regs.wbLength.toNat { s with cmp := Comparator.reset })

/-- WB_DETECT, spec/42_weakbit.md R330. -/
def execWbDetect (s : State) : Host.Outcome State Fault Refusal :=
  .next (runCommand (validateWb s) wbBody s)

end Sys2Proof.Machine
end

