-- ==== Sys2Proof/Machine/Dispatch.lean ====
section
/-! DEFINITION. The dispatch: one arm per constructor of Instr, one call of its meaning. -/

namespace Sys2Proof.Machine

def exec (i : Instr) (s : State) : Host.Outcome State Fault Refusal :=
  match i with
  | .pllDecode => Sys2Proof.Machine.execPllDecode s
  | .frame => Sys2Proof.Machine.execFrame s
  | .decodeFrame => Sys2Proof.Machine.execDecodeFrame s
  | .wbDetect => Sys2Proof.Machine.execWbDetect s
  | .tokLit b => Sys2Proof.Machine.execTokLit b s
  | .tokEsc8 e n => Sys2Proof.Machine.execTokEsc8 e n s
  | .tokEsc24 b0 b1 b2 => Sys2Proof.Machine.execTokEsc24 b0 b1 b2 s
  | .tokEscUndef x => Sys2Proof.Machine.execTokEscUndef x s

end Sys2Proof.Machine
end

