-- ==== Sys2Proof/Machine/HostAccess.lean ====
section
/-! DEFINITION. Host accesses (spec/20_memory.md R100 to R107): the register map of
spec/10_state.md section 2, register and buffer reads and writes, command acceptance
(spec/60_exceptions.md R410), rejected writes (R414), the WAIT loop (spec/30_encoding.md R146) and
the hardware reset input. -/

namespace Sys2Proof.Machine

/-! ## The register map -/

/-- The named registers of spec/10_state.md section 2. -/
inductive Reg where
  /-- CMD, R32. -/
  | cmd
  /-- STATUS, R34. -/
  | status
  /-- CTRL, R33. -/
  | ctrl
  /-- SAMPLE_FREQ, R35. -/
  | sampleFreq
  /-- FLUX_LEN, R36. -/
  | fluxLen
  /-- BIT_COUNT, R37. -/
  | bitCount
  /-- TRACK_INFO, R38. -/
  | trackInfo
  /-- RAW_LEN, R39. -/
  | rawLen
  /-- IDAM_COUNT, R40. -/
  | idamCount
  /-- SECTOR_COUNT, R41. -/
  | sectorCount
  /-- CRC_ERRORS, R42. -/
  | crcErrors
  /-- PLL_INTERVALS, R43. -/
  | pllIntervals
  /-- TOKENS_DROPPED, R44. -/
  | tokensDropped
  /-- WB_LENGTH, R45. -/
  | wbLength
  /-- WB_REVS, R46. -/
  | wbRevs
  /-- WB_THRESHOLD, R47. -/
  | wbThreshold
  /-- WB_COUNT, R48. -/
  | wbCount
  /-- WB_RECORDS, R49. -/
  | wbRecords
  /-- WB_BYTES, R50. -/
  | wbBytes
  /-- BYTES_ANALYZED, R56. -/
  | bytesAnalyzed
  /-- BITS_ANALYZED_LO, R57. -/
  | bitsAnalyzedLo
  /-- BITS_ANALYZED_HI, R57. -/
  | bitsAnalyzedHi
  /-- DENSITY_LO, R59. -/
  | densityLo
  /-- DENSITY_HI, R59. -/
  | densityHi
  /-- PLL_MAX_CELLS, R51. -/
  | pllMaxCells
  /-- CELL_RATE_FM, R52. -/
  | cellRateFm
  /-- CELL_RATE_MFM, R52. -/
  | cellRateMfm
  /-- PLL_PHASE_GAIN_LO, R53. -/
  | phaseGainLo
  /-- PLL_PHASE_GAIN_HI, R53. -/
  | phaseGainHi
  /-- PLL_FREQ_GAIN_LO, R54. -/
  | freqGainLo
  /-- PLL_FREQ_GAIN_HI, R54. -/
  | freqGainHi
  /-- PLL_FMIN_RATIO_LO, R55. -/
  | fminRatioLo
  /-- PLL_FMIN_RATIO_HI, R55. -/
  | fminRatioHi
  /-- PLL_FMAX_RATIO_LO, R55. -/
  | fmaxRatioLo
  /-- PLL_FMAX_RATIO_HI, R55. -/
  | fmaxRatioHi
  /-- PLL_T0_LO, R60. -/
  | pllT0Lo
  /-- PLL_T0_HI, R60. -/
  | pllT0Hi
  /-- PLL_PHASE_LO, R61. -/
  | pllPhaseLo
  /-- PLL_PHASE_HI, R61. -/
  | pllPhaseHi
  /-- PLL_FREQ_LO, R62. -/
  | pllFreqLo
  /-- PLL_FREQ_HI, R62. -/
  | pllFreqHi
  /-- CAP_FLUX, R58. -/
  | capFlux
  /-- CAP_BITBUF, R58. -/
  | capBitbuf
  /-- CAP_RAW, R58. -/
  | capRaw
  /-- CAP_SECTOR, R58. -/
  | capSector
  /-- CAP_REV, R58. -/
  | capRev
  /-- CAP_WB, R58. -/
  | capWb
  /-- CAP_FIXED, R58. -/
  | capFixed
deriving DecidableEq, Repr

/-- The offset map of spec/10_state.md section 2. An offset without a name is reserved (R63). -/
def regAt (offset : Nat) : Option Reg :=
  match offset with
  | 0x000 => some .cmd
  | 0x004 => some .status
  | 0x008 => some .ctrl
  | 0x00C => some .sampleFreq
  | 0x010 => some .fluxLen
  | 0x014 => some .bitCount
  | 0x018 => some .trackInfo
  | 0x01C => some .rawLen
  | 0x020 => some .idamCount
  | 0x024 => some .sectorCount
  | 0x028 => some .crcErrors
  | 0x02C => some .pllIntervals
  | 0x030 => some .tokensDropped
  | 0x034 => some .wbLength
  | 0x038 => some .wbRevs
  | 0x03C => some .wbThreshold
  | 0x040 => some .wbCount
  | 0x044 => some .wbRecords
  | 0x048 => some .wbBytes
  | 0x04C => some .bytesAnalyzed
  | 0x050 => some .bitsAnalyzedLo
  | 0x054 => some .bitsAnalyzedHi
  | 0x058 => some .densityLo
  | 0x05C => some .densityHi
  | 0x060 => some .pllMaxCells
  | 0x064 => some .cellRateFm
  | 0x068 => some .cellRateMfm
  | 0x070 => some .phaseGainLo
  | 0x074 => some .phaseGainHi
  | 0x078 => some .freqGainLo
  | 0x07C => some .freqGainHi
  | 0x080 => some .fminRatioLo
  | 0x084 => some .fminRatioHi
  | 0x088 => some .fmaxRatioLo
  | 0x08C => some .fmaxRatioHi
  | 0x090 => some .pllT0Lo
  | 0x094 => some .pllT0Hi
  | 0x098 => some .pllPhaseLo
  | 0x09C => some .pllPhaseHi
  | 0x0A0 => some .pllFreqLo
  | 0x0A4 => some .pllFreqHi
  | 0x0B0 => some .capFlux
  | 0x0B4 => some .capBitbuf
  | 0x0B8 => some .capRaw
  | 0x0BC => some .capSector
  | 0x0C0 => some .capRev
  | 0x0C4 => some .capWb
  | 0x0C8 => some .capFixed
  | _ => none

/-- The access types of spec/10_state.md. CMD, STATUS and CTRL have write rules of their own; RO and
CONST registers ignore writes. -/
inductive Access where
  | cmd
  | status
  | ctrl
  | rw
  | ignored
deriving DecidableEq, Repr

/-- The access type of a register (spec/10_state.md R32 to R62). -/
def Reg.access : Reg → Access
  | .cmd => .cmd
  | .status => .status
  | .ctrl => .ctrl
  | .sampleFreq => .rw
  | .fluxLen => .rw
  | .bitCount => .rw
  | .trackInfo => .rw
  | .rawLen => .ignored
  | .idamCount => .ignored
  | .sectorCount => .ignored
  | .crcErrors => .ignored
  | .pllIntervals => .ignored
  | .tokensDropped => .ignored
  | .wbLength => .rw
  | .wbRevs => .rw
  | .wbThreshold => .rw
  | .wbCount => .ignored
  | .wbRecords => .ignored
  | .wbBytes => .ignored
  | .bytesAnalyzed => .ignored
  | .bitsAnalyzedLo => .ignored
  | .bitsAnalyzedHi => .ignored
  | .densityLo => .ignored
  | .densityHi => .ignored
  | .pllMaxCells => .rw
  | .cellRateFm => .rw
  | .cellRateMfm => .rw
  | .phaseGainLo => .rw
  | .phaseGainHi => .rw
  | .freqGainLo => .rw
  | .freqGainHi => .rw
  | .fminRatioLo => .rw
  | .fminRatioHi => .rw
  | .fmaxRatioLo => .rw
  | .fmaxRatioHi => .rw
  | .pllT0Lo => .ignored
  | .pllT0Hi => .ignored
  | .pllPhaseLo => .ignored
  | .pllPhaseHi => .ignored
  | .pllFreqLo => .ignored
  | .pllFreqHi => .ignored
  | .capFlux => .ignored
  | .capBitbuf => .ignored
  | .capRaw => .ignored
  | .capSector => .ignored
  | .capRev => .ignored
  | .capWb => .ignored
  | .capFixed => .ignored

/-- The current value of a register, reserved bits 0 (spec/20_memory.md R102, spec/10_state.md). -/
def regValue (s : State) (g : Reg) : Word :=
  let r := s.regs
  match g with
  | .cmd => r.cmd
  | .status => statusWord s.busy r.status
  | .ctrl => ctrlWord r.ctrl
  | .sampleFreq => r.sampleFreq
  | .fluxLen => r.fluxLen
  | .bitCount => r.bitCount
  | .trackInfo => 0#16 ++ r.physHead ++ r.physTrack
  | .rawLen => r.rawLen
  | .idamCount => r.idamCount
  | .sectorCount => r.sectorCount
  | .crcErrors => r.crcErrors
  | .pllIntervals => r.pllIntervals
  | .tokensDropped => r.tokensDropped
  | .wbLength => r.wbLength
  | .wbRevs => r.wbRevs.setWidth 32
  | .wbThreshold => r.wbThreshold.setWidth 32
  | .wbCount => r.wbCount
  | .wbRecords => r.wbRecords
  | .wbBytes => r.wbBytes
  | .bytesAnalyzed => r.bytesAnalyzed
  | .bitsAnalyzedLo => loHalf r.bitsAnalyzed
  | .bitsAnalyzedHi => hiHalf r.bitsAnalyzed
  | .densityLo => loHalf r.density
  | .densityHi => hiHalf r.density
  | .pllMaxCells => r.pllMaxCells.setWidth 32
  | .cellRateFm => r.cellRateFm
  | .cellRateMfm => r.cellRateMfm
  | .phaseGainLo => loHalf r.phaseGain
  | .phaseGainHi => hiHalf r.phaseGain
  | .freqGainLo => loHalf r.freqGain
  | .freqGainHi => hiHalf r.freqGain
  | .fminRatioLo => loHalf r.fminRatio
  | .fminRatioHi => hiHalf r.fminRatio
  | .fmaxRatioLo => loHalf r.fmaxRatio
  | .fmaxRatioHi => hiHalf r.fmaxRatio
  | .pllT0Lo => loHalf r.pllT0
  | .pllT0Hi => hiHalf r.pllT0
  | .pllPhaseLo => loHalf r.pllPhase
  | .pllPhaseHi => hiHalf r.pllPhase
  | .pllFreqLo => loHalf r.pllFreq
  | .pllFreqHi => hiHalf r.pllFreq
  | .capFlux => BitVec.ofNat 32 s.params.fluxCap
  | .capBitbuf => BitVec.ofNat 32 s.params.bitbufCap
  | .capRaw => BitVec.ofNat 32 s.params.rawCap
  | .capSector => BitVec.ofNat 32 s.params.sectorCap
  | .capRev => BitVec.ofNat 32 s.params.revCap
  | .capWb => BitVec.ofNat 32 s.params.wbCap
  | .capFixed => BitVec.ofNat 32 (Config.idamCap + 256 * Config.maxRevs)

/-- What storing the defined bits of a word in an RW register does (spec/20_memory.md R103). -/
def Regs.store (r : Regs) (g : Reg) (v : Word) : Regs :=
  match g with
  | .cmd => r
  | .status => r
  | .ctrl => r
  | .sampleFreq => { r with sampleFreq := v }
  | .fluxLen => { r with fluxLen := v }
  | .bitCount => { r with bitCount := v }
  | .trackInfo => { r with physTrack := v.setWidth 8, physHead := (v >>> 8).setWidth 8 }
  | .rawLen => r
  | .idamCount => r
  | .sectorCount => r
  | .crcErrors => r
  | .pllIntervals => r
  | .tokensDropped => r
  | .wbLength => { r with wbLength := v }
  | .wbRevs => { r with wbRevs := v.setWidth 8 }
  | .wbThreshold => { r with wbThreshold := v.setWidth 8 }
  | .wbCount => r
  | .wbRecords => r
  | .wbBytes => r
  | .bytesAnalyzed => r
  | .bitsAnalyzedLo => r
  | .bitsAnalyzedHi => r
  | .densityLo => r
  | .densityHi => r
  | .pllMaxCells => { r with pllMaxCells := v.setWidth 8 }
  | .cellRateFm => { r with cellRateFm := v }
  | .cellRateMfm => { r with cellRateMfm := v }
  | .phaseGainLo => { r with phaseGain := setLo r.phaseGain v }
  | .phaseGainHi => { r with phaseGain := setHi r.phaseGain v }
  | .freqGainLo => { r with freqGain := setLo r.freqGain v }
  | .freqGainHi => { r with freqGain := setHi r.freqGain v }
  | .fminRatioLo => { r with fminRatio := setLo r.fminRatio v }
  | .fminRatioHi => { r with fminRatio := setHi r.fminRatio v }
  | .fmaxRatioLo => { r with fmaxRatio := setLo r.fmaxRatio v }
  | .fmaxRatioHi => { r with fmaxRatio := setHi r.fmaxRatio v }
  | .pllT0Lo => r
  | .pllT0Hi => r
  | .pllPhaseLo => r
  | .pllPhaseHi => r
  | .pllFreqLo => r
  | .pllFreqHi => r
  | .capFlux => r
  | .capBitbuf => r
  | .capRaw => r
  | .capSector => r
  | .capRev => r
  | .capWb => r
  | .capFixed => r

/-! ## The busy window -/

/-- The result registers of a decode (spec/40_flux_pll.md R225). -/
def decodeResultRegs : List Reg :=
  [.bitCount, .pllIntervals, .tokensDropped, .pllT0Lo, .pllT0Hi, .pllPhaseLo, .pllPhaseHi,
    .pllFreqLo, .pllFreqHi]

/-- The result registers of a frame (spec/41_sync_framer.md R280). -/
def frameResultRegs : List Reg := [.rawLen, .idamCount, .sectorCount, .crcErrors]

/-- The result registers of WB_DETECT (spec/42_weakbit.md R343). -/
def wbResultRegs : List Reg :=
  [.wbCount, .wbRecords, .wbBytes, .bytesAnalyzed, .bitsAnalyzedLo, .bitsAnalyzedHi, .densityLo,
    .densityHi]

/-- The registers a command writes at a successful completion, STATUS apart. -/
def Op.resultRegs : Op → List Reg
  | .pllDecode => decodeResultRegs
  | .frame => frameResultRegs
  | .decodeFrame => decodeResultRegs ++ frameResultRegs
  | .wbDetect => wbResultRegs

/-- The byte buffers a command writes (spec/10_state.md R65). -/
def Op.writesBytes : Op → ByteBuf → Bool
  | .pllDecode, b => b == .bitbuf
  | .frame, b => b == .raw
  | .decodeFrame, b => b == .bitbuf || b == .raw
  | .wbDetect, _ => false

/-- The word buffers a command writes (spec/10_state.md R65). -/
def Op.writesWords : Op → WordBuf → Bool
  | .pllDecode, _ => false
  | .frame, b => b == .idam || b == .sect
  | .decodeFrame, b => b == .idam || b == .sect
  | .wbDetect, b => b == .wbrec || b == .wbbyte

/-- The validation of a command. -/
def Op.check : Op → State → Option ErrCode
  | .pllDecode => validateDecode
  | .frame => validateFrame
  | .decodeFrame => validateDecode
  | .wbDetect => validateWb

/-- The body of a command after its validation. -/
def Op.body : Op → State → State
  | .pllDecode => decodeBody
  | .frame => frameBody
  | .decodeFrame => decodeFrameBody
  | .wbDetect => wbBody

/-- Whether the command will pass its validation. Nothing a host may do while it runs changes that
(spec/20_memory.md R124). -/
def Op.passes (op : Op) (s : State) : Bool := (op.check s).isNone

/-- How many cells of a byte buffer, from index 0 on, a command that ends in `t` makes
(spec/40_flux_pll.md R225, spec/41_sync_framer.md R280). -/
def bytesMade (t : State) : ByteBuf → Nat
  | .flux => 0
  | .bitbuf => (t.pll.out.length + 7) / 8
  | .raw => t.framer.raw.length
  | .rev _ => 0

/-- How many cells of a word buffer, from index 0 on, a command that ends in `t` makes
(spec/41_sync_framer.md R280, spec/42_weakbit.md R343). -/
def wordsMade (t : State) : WordBuf → Nat
  | .idam => t.framer.idam.length
  | .sect => 3 * t.parser.sect.length
  | .wbrec => 3 * t.cmp.recs.length
  | .wbbyte => t.cmp.bytes.length

/-- Whether the running command writes this cell of a byte buffer. Every other cell holds its old
value throughout (spec/20_memory.md R121), all of them where validation fails
(spec/60_exceptions.md R413). -/
def Op.writesByteCell (op : Op) (b : ByteBuf) (i : Nat) (s : State) : Bool :=
  op.passes s && op.writesBytes b && decide (i < bytesMade (op.body s) b)

/-- Whether the running command writes this cell of a word buffer (spec/20_memory.md R121). -/
def Op.writesWordCell (op : Op) (b : WordBuf) (i : Nat) (s : State) : Bool :=
  op.passes s && op.writesWords b && decide (i < wordsMade (op.body s) b)

/-- The STATUS bits the running command writes other than BUSY and DONE. -/
def Op.writtenStatus (op : Op) (s : State) : Word :=
  if op.passes s then op.statusMask else failMask

/-- A register read in the busy window of command `op` (spec/20_memory.md R102, R121): a register the
command writes reads as any value, STATUS reads as any value in the bits the command writes but BUSY
and DONE, which polling relies on (R122), and every other register reads its value (log 6). -/
def busyRegRead (op : Op) (g : Reg) (s : State) : Word × State :=
  if g = .status then
    let d := drawWord s
    ((regValue s g &&& ~~~op.writtenStatus s) ||| (d.1 &&& op.writtenStatus s), d.2)
  else if op.passes s && decide (g ∈ op.resultRegs) then drawWord s
  else (regValue s g, s)

/-- `RegRead` of a named register (spec/20_memory.md R102). -/
def readReg (g : Reg) (s : State) : Word × State :=
  match s.eng with
  | .idle => (regValue s g, s)
  | .busy op => busyRegRead op g s

/-- `RegRead(off)` (spec/20_memory.md R102); a reserved offset reads 0 (spec/10_state.md R63). -/
def readOffset (offset : Nat) (s : State) : Word × State :=
  match regAt offset with
  | none => (0, s)
  | some g => readReg g s

/-! ## Register writes -/

/-- Acceptance of a word written to CMD while idle (spec/60_exceptions.md R410): an illegal word
completes at once with BAD_CMD, a command makes the engine busy. -/
def acceptCommand (v : Word) (s : State) : State :=
  match decodeCommand v with
  | .error _ =>
    { s with regs := { s.regs with cmd := v, status := s.regs.status.fail .badCmd } }
  | .ok i =>
    match opOfInstr i with
    | none => s
    | some op =>
      { s with
        eng := .busy op
        regs :=
          { s.regs with
            cmd := v
            status := { s.regs.status with done := false, err := false, errcode := 0 } } }

/-- A CTRL write while idle (spec/20_memory.md R103): bit 31 performs the soft reset and the other
bits are then discarded (spec/70_reset_and_hazards.md R452). -/
def writeCtrl (v : Word) (s : State) : State :=
  if v.getLsbD 31 then resetRegs s else { s with regs := { s.regs with ctrl := ctrlOfWord v } }

/-- A STATUS write (spec/20_memory.md R103), never rejected. -/
def writeStatus (v : Word) (s : State) : State :=
  { s with regs := { s.regs with status := s.regs.status.writeOneToClear v } }

/-- `RegWrite` of a named register (spec/20_memory.md R103, spec/60_exceptions.md R414). -/
def writeReg (g : Reg) (v : Word) (s : State) : State :=
  match g.access with
  | .status => writeStatus v s
  | .ignored => s
  | .cmd => if s.busy then rejectWrite s else acceptCommand v s
  | .ctrl => if s.busy then rejectWrite s else writeCtrl v s
  | .rw => if s.busy then rejectWrite s else { s with regs := s.regs.store g v }

/-- `RegWrite(off, v)`; a write to a reserved offset is ignored (spec/10_state.md R63). -/
def writeOffset (offset : Nat) (v : Word) (s : State) : State :=
  match regAt offset with
  | none => s
  | some g => writeReg g v s

/-! ## Buffer accesses -/

/-- Whether the running command writes a cell of a byte buffer; false while idle. -/
def State.writingByte (s : State) (b : ByteBuf) (i : Nat) : Bool :=
  match s.eng with
  | .idle => false
  | .busy op => op.writesByteCell b i s

/-- Whether the running command writes a cell of a word buffer; false while idle. -/
def State.writingWord (s : State) (b : WordBuf) (i : Nat) : Bool :=
  match s.eng with
  | .idle => false
  | .busy op => op.writesWordCell b i s

/-- `BufRead` of a byte buffer (spec/20_memory.md R104, R106, R107, R121): 0 out of range, any value
in the busy window of a command that writes the cell and for a ⊥ cell. -/
def readByteCell (b : ByteBuf) (i : Nat) (s : State) : Byte × State :=
  if b.cells s.params ≤ i then (0, s)
  else if s.writingByte b i then drawByte s
  else
    match bufGet (s.mem.bytes b) i with
    | some v => (v, s)
    | none => drawByte s

/-- `BufRead` of a word buffer (spec/20_memory.md R104, R106, R107, R121). -/
def readWordCell (b : WordBuf) (i : Nat) (s : State) : Word × State :=
  if b.cells s.params ≤ i then (0, s)
  else if s.writingWord b i then drawWord s
  else
    match bufGet (s.mem.words b) i with
    | some v => (v, s)
    | none => drawWord s

/-- `BufWrite` of a byte buffer (spec/20_memory.md R105, R107). -/
def writeByteCell (b : ByteBuf) (i : Nat) (v : Byte) (s : State) : State :=
  if b.cells s.params ≤ i then s
  else if !b.hostWritable then s
  else if s.busy then rejectWrite s
  else { s with mem := s.mem.setBytes b (bufSet (s.mem.bytes b) i v) }

/-- `BufWrite` of a word buffer: all of them are host-RO, so the write is ignored
(spec/20_memory.md R105). -/
def writeWordCell (_b : WordBuf) (_i : Nat) (_v : Word) (s : State) : State := s

/-! ## One host access -/

/-- A value a host read returned (log 15). -/
def State.reply (s : State) (a : Reply) : State := { s with returned := a :: s.returned }

/-- A register access of a form R115 allows, or the refusal of one it does not
(spec/20_memory.md R115). -/
def checkedAccess (offset : Fin 256) (width : Nat) (t : State) :
    Host.Outcome State Fault Refusal :=
  if width ≠ 32 ∨ offset.val % 4 ≠ 0 then .refused (.registerAccessForm offset width) else .next t

/-- The register read access. -/
def hostRegRead (offset : Fin 256) (width : Nat) (s : State) : Host.Outcome State Fault Refusal :=
  checkedAccess offset width ((readOffset offset s).2.reply (.word (readOffset offset s).1))

/-- The register write access. -/
def hostRegWrite (offset : Fin 256) (width : Nat) (v : Word) (s : State) :
    Host.Outcome State Fault Refusal :=
  checkedAccess offset width (writeOffset offset v s)

/-- The offset of STATUS (spec/10_state.md R34). -/
def statusOffset : Fin 256 := 0x004

/-- One round of WAIT (spec/30_encoding.md R146): read STATUS; wait again while BUSY reads 1. -/
def hostWait (s : State) : State :=
  let r := readOffset statusOffset s
  let t := r.2.reply (.word r.1)
  if r.1.getLsbD 0 then { t with pending := .wait :: t.pending } else t

/-- One host access, already taken off the list of pending ones. -/
def hostAccess (op : HostOp) (s : State) : Host.Outcome State Fault Refusal :=
  match op with
  | .regRead offset width => hostRegRead offset width s
  | .regWrite offset width v => hostRegWrite offset width v s
  | .byteRead b i => .next ((readByteCell b i s).2.reply (.byte (readByteCell b i s).1))
  | .byteWrite b i v => .next (writeByteCell b i v s)
  | .wordRead b i => .next ((readWordCell b i s).2.reply (.word (readWordCell b i s).1))
  | .wordWrite b i v => .next (writeWordCell b i v s)
  | .wait => .next (hostWait s)
  | .hardReset => .next (hardReset s)

/-! ## Host-program notation -/

/-- `WR64 reg, x` (spec/30_encoding.md R146): the low half at the lower offset, then the high. -/
def hostWr64 (offset : Fin 256) (x : F64) : List HostOp :=
  [.regWrite offset 32 (loHalf x), .regWrite (offset + 4) 32 (hiHalf x)]

/-- `BWS buf[i], b0 b1 …` (spec/30_encoding.md R146). -/
def hostBws (b : ByteBuf) : Nat → List Byte → List HostOp
  | _, [] => []
  | i, v :: vs => .byteWrite b i v :: hostBws b (i + 1) vs

/-- `CMD m` (spec/30_encoding.md R146). -/
def hostCmd (v : Word) : HostOp := .regWrite 0x000 32 v

/-- `ACK` (spec/30_encoding.md R146): clears DONE, ERR and REJECTED. -/
def hostAck : HostOp := .regWrite statusOffset 32 0x00010006#32

end Sys2Proof.Machine
end

