-- ==== Sys2Proof/Machine/Step.lean ====
section
/-! DEFINITION. One step of the machine: a host access, a whole command of the engine
(spec/60_exceptions.md R411), or, where a decode stands at a token boundary, one token (log 8). -/

namespace Sys2Proof.Machine

/-- One token of a decode that stands at a token boundary; where the token loop has ended, the rest
of the command. -/
def tokenStep (s : State) : Host.Outcome State Fault Refusal :=
  if s.pll.ovf then .next (finishDecode s)
  else
    match fetchToken s with
    | (.stop, t) => .next (finishDecode t)
    | (.trunc, t) => .next (finishDecode (dropTruncated t))
    | (.token i, t) => exec i t

/-- One step (spec/60_exceptions.md R411, spec/20_memory.md R120). -/
def step (s : State) : Host.Outcome State Fault Refusal :=
  match nextMove s with
  | .token => tokenStep s
  | .command i t => exec i t
  | .access op t => hostAccess op t
  | .rest => .next s

/-- `s` with an instruction placed where `step` fetches its next one. A word of 32 bits is a command
word and reaches the engine by a CMD write to the idle block, whose acceptance makes the next step
run it; an illegal word completes at that acceptance. Any other row is a flux token: a decode then
stands at a token boundary with the token's bytes at its cursor. See log 8, 2 and 19. -/
def State.withFetchWord (s : State) (nbits w : Nat) : State :=
  if nbits = 32 then
    acceptCommand (BitVec.ofNat 32 w)
      { s with eng := .idle, pll := { s.pll with live := false }, turns := [] }
  else
    { s with
      eng := .busy .pllDecode
      pll := { s.pll with live := true, tc := 0, ovf := false }
      mem := { s.mem with flux := bufWrite s.mem.flux 0 (bytesOfNat maxTokenBytes w) }
      regs := { s.regs with fluxLen := BitVec.ofNat 32 maxTokenBytes } }

end Sys2Proof.Machine
end

