-- ==== Sys2Proof/Safety.lean ====
section
/-! DEFINITION. What counts as a safe run of the flux decode block, and the invariant of its state:
the fault mark stays clear (spec/10_state.md R75), and every reachable state keeps the facts the
spec states of registers, flags and buffers. -/

namespace Sys2Proof.Machine

/-- The premise a claim about a run takes (spec/10_state.md R75, spec/60_exceptions.md R419): no
engine read has met a ⊥ cell. -/
def State.Safe (s : State) : Prop := s.uninitRead = false

/-- The engine runs one of the two commands that have a token loop. -/
def State.decoding (s : State) : Prop := s.eng = .busy .pllDecode ∨ s.eng = .busy .decodeFrame

/-- The facts every step keeps, from any state that has them. -/
structure State.Inv (s : State) : Prop where
  /-- The parameters meet their constraints (spec/00_scope.md R6). -/
  params_wf : s.params.wf = true
  /-- Every buffer is in its canonical form. -/
  mem_wf : s.mem.wf = true
  /-- No buffer holds a cell outside its address space (spec/10_state.md R65, spec/20_memory.md
  R107). -/
  mem_within : s.mem.within s.params = true
  /-- ERRCODE is 0 whenever ERR is 0 (spec/10_state.md R34). -/
  errcode_clear : s.regs.status.err = false → s.regs.status.errcode = 0
  /-- Codes 5 to 15 are never written (spec/60_exceptions.md R415). -/
  errcode_legal : s.regs.status.errcode.toNat ≤ 4
  /-- DONE and ERR are 0 while a command runs (spec/60_exceptions.md R410). -/
  busy_clear : s.eng ≠ .idle → s.regs.status.done = false ∧ s.regs.status.err = false
  /-- A decode at a token boundary belongs to a decoding command (log 8). -/
  live_decoding : s.pll.live = true → s.decoding
  /-- The stream a live decode has made fits in BITBUF (spec/40_flux_pll.md R224). -/
  live_fits : s.pll.live = true → s.pll.out.length ≤ 8 * s.params.bitbufCap
  /-- A live decode has passed check 6 of spec/40_flux_pll.md R215. -/
  live_cells : s.pll.live = true → 1 ≤ s.regs.pllMaxCells.toNat
  /-- RAW_LEN is at most RAW_CAP (spec/10_state.md R39). -/
  raw_len : s.regs.rawLen.toNat ≤ s.params.rawCap
  /-- IDAM_COUNT is at most 64 (spec/10_state.md R40). -/
  idam_count : s.regs.idamCount.toNat ≤ Config.idamCap
  /-- SECTOR_COUNT is at most SECTOR_CAP and IDAM_COUNT (spec/41_sync_framer.md R279). -/
  sector_count :
    s.regs.sectorCount.toNat ≤ s.params.sectorCap ∧ s.regs.sectorCount.toNat ≤ s.regs.idamCount.toNat
  /-- The weak-bit tables are within their capacity (spec/42_weakbit.md R342). -/
  wb_tables : s.regs.wbRecords.toNat ≤ s.params.wbCap ∧ s.regs.wbBytes.toNat ≤ s.params.wbCap
  /-- BITS_ANALYZED is eight times BYTES_ANALYZED (spec/42_weakbit.md R343). -/
  bits_analyzed : s.regs.bitsAnalyzed.toNat = 8 * s.regs.bytesAnalyzed.toNat

end Sys2Proof.Machine
end

