-- ==== Sys2Proof/Certificates/Slice0/Obligations.lean ====
section
/-! DEFINITION. The statements for the provers. The vocabulary of the statements comes first, written
from the spec's tables and pseudo-code and not from the meanings; then the statements, area by
area. -/

namespace Sys2Proof.Claims

open Sys2Proof Sys2Proof.Machine

/-! ## Vocabulary: registers -/

/-- The value a host register read returns. -/
def reads (s : State) (offset : Fin 256) : Word := (readOffset offset s).1

/-- The reset column of the summary table of spec/10_state.md section 2, CAP registers apart. -/
def resetTable : List (Fin 256 × Word) :=
  [(0x000, 0x00000000), (0x004, 0x00000000), (0x008, 0x00000000), (0x00C, 0x00000000),
    (0x010, 0x00000000), (0x014, 0x00000000), (0x018, 0x00000000), (0x01C, 0x00000000),
    (0x020, 0x00000000), (0x024, 0x00000000), (0x028, 0x00000000), (0x02C, 0x00000000)]
  ++ [(0x030, 0x00000000), (0x034, 0x00000000), (0x038, 0x00000000), (0x03C, 0x00000000),
    (0x040, 0x00000000), (0x044, 0x00000000), (0x048, 0x00000000), (0x04C, 0x00000000),
    (0x050, 0x00000000), (0x054, 0x00000000), (0x058, 0x00000000), (0x05C, 0x00000000)]
  ++ [(0x060, 0x00000003), (0x064, 0x0001E848), (0x068, 0x0003D090), (0x070, 0x9999999A),
    (0x074, 0x3FB99999), (0x078, 0x47AE147B), (0x07C, 0x3F847AE1), (0x080, 0xCCCCCCCD),
    (0x084, 0x3FECCCCC), (0x088, 0x9999999A), (0x08C, 0x3FF19999), (0x090, 0x00000000)]
  ++ [(0x094, 0x00000000), (0x098, 0x00000000), (0x09C, 0x00000000), (0x0A0, 0x00000000),
    (0x0A4, 0x00000000)]

/-- The offsets a register has a name at (spec/10_state.md section 2 and R58). -/
def namedOffsets : List (Fin 256) :=
  resetTable.map Prod.fst ++ [0x0B0, 0x0B4, 0x0B8, 0x0BC, 0x0C0, 0x0C4, 0x0C8]

/-- The RW registers but CMD and CTRL, with their defined bits (spec/10_state.md R35 to R55). -/
def rwRegisters : List (Fin 256 × Word) :=
  [(0x00C, 0xFFFFFFFF), (0x010, 0xFFFFFFFF), (0x014, 0xFFFFFFFF), (0x018, 0x0000FFFF),
    (0x034, 0xFFFFFFFF), (0x038, 0x000000FF), (0x03C, 0x000000FF), (0x060, 0x000000FF),
    (0x064, 0xFFFFFFFF), (0x068, 0xFFFFFFFF)]
  ++ [(0x070, 0xFFFFFFFF), (0x074, 0xFFFFFFFF), (0x078, 0xFFFFFFFF), (0x07C, 0xFFFFFFFF),
    (0x080, 0xFFFFFFFF), (0x084, 0xFFFFFFFF), (0x088, 0xFFFFFFFF), (0x08C, 0xFFFFFFFF)]

/-- What each named offset but STATUS, CTRL and the CAP registers reads while the block is idle: the
register of the summary table of spec/10_state.md section 2 (R32, R35 to R57, R59 to R62), an f64 or
u64 pair low half first. -/
def registerTable (r : Regs) : List (Fin 256 × Word) :=
  let lo (x : BitVec 64) : Word := x.extractLsb' 0 32
  let hi (x : BitVec 64) : Word := x.extractLsb' 32 32
  [(0x000, r.cmd), (0x00C, r.sampleFreq), (0x010, r.fluxLen), (0x014, r.bitCount),
    (0x018, BitVec.ofNat 32 (r.physTrack.toNat + 256 * r.physHead.toNat)), (0x01C, r.rawLen),
    (0x020, r.idamCount), (0x024, r.sectorCount), (0x028, r.crcErrors), (0x02C, r.pllIntervals),
    (0x030, r.tokensDropped), (0x034, r.wbLength), (0x038, BitVec.ofNat 32 r.wbRevs.toNat)]
  ++ [(0x03C, BitVec.ofNat 32 r.wbThreshold.toNat), (0x040, r.wbCount), (0x044, r.wbRecords),
    (0x048, r.wbBytes), (0x04C, r.bytesAnalyzed), (0x050, lo r.bitsAnalyzed),
    (0x054, hi r.bitsAnalyzed), (0x058, lo r.density), (0x05C, hi r.density),
    (0x060, BitVec.ofNat 32 r.pllMaxCells.toNat), (0x064, r.cellRateFm), (0x068, r.cellRateMfm)]
  ++ [(0x070, lo r.phaseGain), (0x074, hi r.phaseGain), (0x078, lo r.freqGain),
    (0x07C, hi r.freqGain), (0x080, lo r.fminRatio), (0x084, hi r.fminRatio),
    (0x088, lo r.fmaxRatio), (0x08C, hi r.fmaxRatio), (0x090, lo r.pllT0), (0x094, hi r.pllT0),
    (0x098, lo r.pllPhase), (0x09C, hi r.pllPhase), (0x0A0, lo r.pllFreq), (0x0A4, hi r.pllFreq)]

/-- The offsets of the RO and CONST registers (spec/10_state.md R39 to R62). -/
def readOnlyOffsets : List (Fin 256) :=
  [0x01C, 0x020, 0x024, 0x028, 0x02C, 0x030, 0x040, 0x044, 0x048, 0x04C, 0x050, 0x054, 0x058,
    0x05C, 0x090, 0x094, 0x098, 0x09C, 0x0A0, 0x0A4]
  ++ [0x0B0, 0x0B4, 0x0B8, 0x0BC, 0x0C0, 0x0C4, 0x0C8]

/-- The reserved bits inside named registers (spec/10_state.md R33, R34, R38, R46, R47, R51). -/
def reservedBits : List (Fin 256 × Word) :=
  [(0x004, 0xFFFEC008), (0x008, 0x7FFEFCFC), (0x018, 0xFFFF0000), (0x038, 0xFFFFFF00),
    (0x03C, 0xFFFFFF00), (0x060, 0xFFFFFF00)]

/-- An offset of the register space (spec/20_memory.md R100) that R115 allows. -/
abbrev legalOffset (offset : Fin 256) : Prop := offset.val % 4 = 0

/-- Every CAP register reads its parameter (spec/10_state.md R58). -/
def capsRead (s : State) : Prop :=
  (reads s 0x0B0).toNat = s.params.fluxCap ∧ (reads s 0x0B4).toNat = s.params.bitbufCap ∧
  (reads s 0x0B8).toNat = s.params.rawCap ∧ (reads s 0x0BC).toNat = s.params.sectorCap ∧
  (reads s 0x0C0).toNat = s.params.revCap ∧ (reads s 0x0C4).toNat = s.params.wbCap ∧
  (reads s 0x0C8).toNat = 64 + 256 * 10

/-- Every cell of every buffer is ⊥ (spec/00_scope.md R14). -/
def allCellsUnwritten (m : Memory) : Prop :=
  (∀ b i, bufGet (m.bytes b) i = none) ∧ ∀ b i, bufGet (m.words b) i = none

/-- The state a hardware reset leaves (spec/70_reset_and_hazards.md R451). -/
def isReset (s : State) : Prop :=
  (∀ p ∈ resetTable, reads s p.1 = p.2) ∧ capsRead s ∧ allCellsUnwritten s.mem ∧ s.eng = .idle ∧
  s.irq = false ∧ s.uninitRead = false

/-- A rejected write's effect (spec/60_exceptions.md R414). -/
def rejected (s : State) : State :=
  { s with regs := { s.regs with status := { s.regs.status with rejected := true } } }

/-- A failed completion's effect (spec/60_exceptions.md R413). -/
def failedWith (code : BitVec 4) (s : State) : State :=
  { s with
    eng := .idle
    regs :=
      { s.regs with status := { s.regs.status with done := true, err := true, errcode := code } } }

/-- An illegal command word (spec/30_encoding.md R143). -/
abbrev illegalWord (w : Word) : Prop :=
  w.toNat % 256 = 0 ∨ 5 ≤ w.toNat % 256 ∨ w.toNat / 256 ≠ 0

/-- The host-RW byte buffers (spec/10_state.md R65). -/
def hostRw : List ByteBuf := [.flux, .bitbuf] ++ (List.finRange 10).map .rev

/-- The offsets of the registers a command writes, STATUS apart (spec/40_flux_pll.md R225,
spec/41_sync_framer.md R280, spec/42_weakbit.md R343). -/
def registersWritten : Op → List (Fin 256)
  | .pllDecode => [0x014, 0x02C, 0x030, 0x090, 0x094, 0x098, 0x09C, 0x0A0, 0x0A4]
  | .frame => [0x01C, 0x020, 0x024, 0x028]
  | .decodeFrame =>
    [0x014, 0x02C, 0x030, 0x090, 0x094, 0x098, 0x09C, 0x0A0, 0x0A4, 0x01C, 0x020, 0x024, 0x028]
  | .wbDetect => [0x040, 0x044, 0x048, 0x04C, 0x050, 0x054, 0x058, 0x05C]

/-- The STATUS result flags a command owns (spec/60_exceptions.md R412). -/
def ownedFlags : Op → Word
  | .pllDecode => 0x00000300
  | .frame => 0x00001C00
  | .decodeFrame => 0x00001F00
  | .wbDetect => 0x00002000

/-! ## Vocabulary: steps -/

/-- `n` steps from a state; none where one faults or is refused. -/
def runSteps : Nat → State → Option State
  | 0, s => some s
  | n + 1, s =>
    match step s with
    | .next t => runSteps n t
    | .fault _ => none
    | .refused _ => none

/-- The bytes of a token (spec/30_encoding.md R150). -/
def tokenBytes : Instr → List Byte
  | .pllDecode => []
  | .frame => []
  | .decodeFrame => []
  | .wbDetect => []
  | .tokLit b => [b]
  | .tokEsc8 e n => [e, n]
  | .tokEsc24 b0 b1 b2 => [0xFF, 0xFF, b0, b1, b2]
  | .tokEscUndef x => [0xFF, x]

/-- A flux token, as against a command word. -/
def isToken : Instr → Bool
  | .pllDecode => false
  | .frame => false
  | .decodeFrame => false
  | .wbDetect => false
  | .tokLit _ => true
  | .tokEsc8 _ _ => true
  | .tokEsc24 _ _ _ => true
  | .tokEscUndef _ => true

/-- The interval a token feeds (spec/40_flux_pll.md R200 to R203); none for one that feeds nothing. -/
def tokenInterval : Instr → Option Nat
  | .pllDecode => none
  | .frame => none
  | .decodeFrame => none
  | .wbDetect => none
  | .tokLit b => some b.toNat
  | .tokEsc8 _ n => some (250 + n.toNat)
  | .tokEsc24 b0 b1 b2 => some (b0.toNat + 256 * b1.toNat + 65536 * b2.toNat)
  | .tokEscUndef _ => none

/-- FLUX holds these bytes from this index on. -/
def fluxHolds (s : State) (i : Nat) (bytes : List Byte) : Prop :=
  ∀ k, k < bytes.length → bufGet s.mem.flux (i + k) = bytes[k]?

/-! ## Vocabulary: arithmetic -/

/-- `r` is the exact value `num / den`, in units of 2^-1074 and with sign `neg`, rounded once to
nearest, ties to even (spec/00_scope.md R11): infinite from halfway above the largest finite value
on, else a finite value that no other finite one is nearer than, even where one is as near. -/
def roundsTo (r : F64) (neg : Bool) (num den : Nat) : Prop :=
  F64.neg r = neg ∧
  ((2 ^ 54 - 1) * 2 ^ 970 * F64.one * den ≤ num → F64.mag r = F64.infMag) ∧
  (num < (2 ^ 54 - 1) * 2 ^ 970 * F64.one * den → F64.mag r < F64.infMag ∧
    ∀ m, m < F64.infMag → m ≠ F64.mag r →
      |(F64.magUnits (F64.mag r) * den : Int) - num| ≤ |(F64.magUnits m * den : Int) - num| ∧
      (|(F64.magUnits (F64.mag r) * den : Int) - num| = |(F64.magUnits m * den : Int) - num| →
        F64.mag r % 2 = 0))

/-! ## Vocabulary: the decoder -/

/-- A legal gain (spec/10_state.md R53, R54): finite, magnitude at most 1.0. -/
abbrev gainInRange (x : F64) : Prop :=
  F64.isFinite x = true ∧ F64.le 0xBFF0000000000000 x = true ∧ F64.le x 0x3FF0000000000000 = true

/-- Legal ratios (spec/10_state.md R55). -/
abbrev ratiosInRange (fmin fmax : F64) : Prop :=
  F64.isFinite fmin = true ∧ F64.isFinite fmax = true ∧ F64.lt 0 fmin = true ∧
  F64.le fmin fmax = true ∧ F64.le fmax 0x4090000000000000 = true

/-- The cell rate CTRL.ENCODING selects (spec/40_flux_pll.md R216). -/
def selectedRate (r : Regs) : Nat :=
  if r.ctrl.encoding = 0 then r.cellRateFm.toNat else r.cellRateMfm.toNat

/-- Checks 2 to 8 of spec/40_flux_pll.md R215. -/
abbrev decodeParamsLegal (s : State) : Prop :=
  s.regs.fluxLen.toNat ≤ s.params.fluxCap ∧
  (s.regs.ctrl.encoding = 0 ∨ s.regs.ctrl.encoding = 1) ∧
  s.regs.sampleFreq ≠ 0 ∧ selectedRate s.regs ≠ 0 ∧ s.regs.pllMaxCells ≠ 0 ∧
  gainInRange s.regs.phaseGain ∧ gainInRange s.regs.freqGain ∧
  ratiosInRange s.regs.fminRatio s.regs.fmaxRatio

/-- All checks of spec/40_flux_pll.md R215 pass. -/
abbrev decodeLegal (s : State) : Prop := s.regs.fluxLen ≠ 0 ∧ decodeParamsLegal s

/-- The quotient of spec/40_flux_pll.md R217. -/
def quotient (p : PllLoop) (interval : Nat) : F64 :=
  F64.div (F64.sub (F64.ofNat interval) p.phase) p.freq

/-- The cell count of a quotient (spec/40_flux_pll.md R217), with the infinities as R217 says. -/
def cellsFrom (x : F64) (maxCells : Nat) : Nat :=
  if x = F64.inf false then maxCells
  else if x = F64.inf true then 1
  else if F64.roundHalfAway x < 1 then 1
  else if (maxCells : Int) < F64.roundHalfAway x then maxCells
  else (F64.roundHalfAway x).toNat

/-- The loop after a fed interval of `c` cells read from a token of `len` bytes: the body of FEED in
spec/40_flux_pll.md R214, with R218 to R221. -/
def fedLoop (r : Regs) (p : PllLoop) (interval c len : Nat) : PllLoop :=
  let t1 := F64.mul (F64.ofNat c) p.freq
  let t2 := F64.add p.phase t1
  let e := F64.sub (F64.ofNat interval) t2
  let u := F64.mul e r.phaseGain
  let v := F64.div (F64.mul e r.freqGain) (F64.ofNat c)
  let w := F64.add p.freq v
  { p with
    out := p.out ++ (List.replicate (c - 1) false ++ [true])
    phase := u
    freq := F64.min (F64.max w p.lo) p.hi
    nint := p.nint + 1
    tc := p.tc + len }

/-- The outcome of a token that feeds an interval (spec/40_flux_pll.md R214, R217 to R221, R224).
The count `c` lies in `[1, PLL_MAX_CELLS]`; it is R217's where the quotient is not NaN, and only then
fixed (log 10). -/
def feedsInterval (i : Instr) (s : State) (interval len : Nat) : Prop :=
  ∃ c d, 1 ≤ c ∧ c ≤ s.regs.pllMaxCells.toNat ∧
    (F64.isNaN (quotient s.pll interval) = false →
      c = cellsFrom (quotient s.pll interval) s.regs.pllMaxCells.toNat ∧ d = s.draws) ∧
    exec i s = .next
      (if 8 * s.params.bitbufCap < s.pll.out.length + c then
        { s with pll := { s.pll with ovf := true }, draws := d }
      else { s with pll := fedLoop s.regs s.pll interval c len, draws := d })

/-- The loop state at the end of the token loop. -/
def decoded (s : State) : PllLoop := (decodeTokens (startDecode s)).pll

/-- `ceil(n / 8)`. -/
def byteCount (n : Nat) : Nat := (n + 7) / 8

/-! ## Vocabulary: the framer -/

/-- Both checks of spec/41_sync_framer.md R261 pass. -/
abbrev frameLegal (s : State) : Prop :=
  (s.regs.ctrl.encoding = 0 ∨ s.regs.ctrl.encoding = 1) ∧
  s.regs.bitCount.toNat ≤ 8 * s.params.bitbufCap

/-- The bytes and entries a frame commits. -/
def framed (s : State) : Framer := (frameStage s).framer

/-- The sector parse a frame commits. -/
def parsed (s : State) : Parser := (parseStage (frameStage s)).parser

/-- BITBUF holds this stream (spec/00_scope.md R9): bit `k` is bit `7 - k mod 8` of byte
`k div 8`. -/
def bitbufHolds (m : Memory) (bits : List Bool) : Prop :=
  ∀ k, k < bits.length →
    (bufGet m.bitbuf (k / 8)).map (fun v => v.getLsbD (7 - k % 8)) = bits[k]?

/-- The 16 stream bits from bit `q` on as a window, earliest bit in bit 15 (spec/00_scope.md R9). -/
def windowAt (bits : List Bool) (q : Nat) : Half :=
  ((bits.drop q).take 16).foldl (fun w b => (w <<< 1) ||| (if b then 1 else 0)) 0

/-- The sync patterns: 0x4489 alone for MFM (spec/30_encoding.md R160), the parameter SYNC_FM for FM
(R161). -/
def syncPatterns (p : Params) (enc : BitVec 2) : List Half := if enc = 1 then [0x4489] else p.syncFm

/-- The stream bits at which the window of an output byte begins, of a stream of `n` bits
(spec/41_sync_framer.md R263): every sync match, and every bit a multiple of 16 past the last match
before it, past the stream's start where there is none. -/
def byteStarts (sync : Nat → Bool) (n : Nat) : List Nat :=
  (List.range (n - 15)).filter fun q =>
    sync q || decide ((q - ((List.range q).filter sync).getLastD 0) % 16 = 0)

/-- The data bits of a window (spec/30_encoding.md R162). -/
def oddBits (w : Half) : Nat :=
  128 * (w.getLsbD 14).toNat + 64 * (w.getLsbD 12).toNat + 32 * (w.getLsbD 10).toNat
    + 16 * (w.getLsbD 8).toNat + 8 * (w.getLsbD 6).toNat + 4 * (w.getLsbD 4).toNat
    + 2 * (w.getLsbD 2).toNat + (w.getLsbD 0).toNat

/-- The mark of an entry at offset `o` is byte `m` at `mp` (spec/41_sync_framer.md R271): for MFM the
first byte from `o` on that is not 0xA1, for FM the byte at `o`. -/
def markAt (enc : BitVec 2) (raw : List Byte) (o mp : Nat) (m : Byte) : Prop :=
  raw[mp]? = some m ∧
  (enc = 1 → o ≤ mp ∧ m ≠ 0xA1 ∧ ∀ j, o ≤ j → j < mp → raw[j]? = some 0xA1) ∧
  (enc ≠ 1 → mp = o)

/-- A CRC as the two bytes that follow a field, high byte first (spec/41_sync_framer.md R282). -/
def crcBytes (bytes : List Byte) : List Byte :=
  [(crc16 bytes >>> 8).setWidth 8, (crc16 bytes).setWidth 8]

/-- A field with its CRC after it. -/
def withCrc (bytes : List Byte) : List Byte := bytes ++ crcBytes bytes

/-- The SECT words of a record as numbers (spec/30_encoding.md R171). -/
def sectWord (r : SectorRecord) : Nat → Nat
  | 0 => r.cyl.toNat + 256 * r.head.toNat + 65536 * r.sector.toNat + 16777216 * r.sizeCode.toNat
  | 1 => r.enc.toNat + 256 * r.damType.toNat + 65536 * r.idCrcOk.toNat + 131072 * r.dataCrcOk.toNat
  | _ => r.dataOffset + 65536 * r.dataSize

/-- The CRC error count of spec/41_sync_framer.md R284. -/
def crcErrorsOf (l : List SectorRecord) : Nat :=
  (l.filter fun r => !r.idCrcOk).length
    + (l.filter fun r => r.damType != 0 && !r.dataCrcOk).length

/-! ## Vocabulary: the comparator -/

/-- All checks of spec/42_weakbit.md R331 pass. -/
abbrev detectLegal (s : State) : Prop :=
  2 ≤ s.regs.wbRevs.toNat ∧ s.regs.wbRevs.toNat ≤ 10 ∧ 1 ≤ s.regs.wbLength.toNat ∧
  s.regs.wbLength.toNat ≤ s.params.revCap

/-- The comparator at the end of the scan. -/
def detected (s : State) : Comparator :=
  (wbScan s.regs.wbLength.toNat { s with cmp := Comparator.reset }).cmp

/-- The operand bytes of a detection are all written (spec/70_reset_and_hazards.md R455). -/
def revsWritten (s : State) : Prop :=
  ∀ r : Fin 10, r.val < s.regs.wbRevs.toNat → ∀ o, o < s.regs.wbLength.toNat →
    bufGet (s.mem.bytes (.rev r)) o ≠ none

/-- Bit `b` of byte `o` of revolution `r` (spec/42_weakbit.md R334). -/
def sampleBit (s : State) (o b : Nat) (r : Fin 10) : Bool :=
  ((bufGet (s.mem.bytes (.rev r)) o).getD 0).getLsbD b

/-- The samples of a position, revolution 0 first (spec/42_weakbit.md R334). -/
def samplesAt (s : State) (o b : Nat) : List Bool :=
  ((List.finRange 10).filter fun r => r.val < s.regs.wbRevs.toNat).map (sampleBit s o b)

/-- A weak bit (spec/42_weakbit.md R335 to R337): the samples differ and `200 div K` passes the
threshold. -/
def isWeak (s : State) (o b : Nat) : Bool :=
  decide (true ∈ samplesAt s o b ∧ false ∈ samplesAt s o b ∧
    s.regs.wbThreshold.toNat ≤ 200 / s.regs.wbRevs.toNat)

/-- The weak positions in scan order (spec/42_weakbit.md R333). -/
def weakPositions (s : State) : List (Nat × Nat) :=
  ((List.range s.regs.wbLength.toNat).flatMap fun o => (List.range 8).map fun b => (o, b)).filter
    fun p => isWeak s p.1 p.2

/-- The pattern code of spec/42_weakbit.md R338 for samples that differ. -/
def patternOf (enabled : Bool) (smp : List Bool) : Nat :=
  if enabled then
    if (List.range (smp.length - 1)).all (fun r => smp.getD r false != smp.getD (r + 1) false) then 1
    else 2
  else 0

/-- The WBREC words of a record as numbers (spec/30_encoding.md R172). -/
def weakWord (r : WeakRecord) : Nat → Nat
  | 0 => r.offset
  | 1 => r.bit + 256 * r.variation + 65536 * r.sampleCount + 16777216 * r.pattern.code.toNat
  | _ => ((List.range r.samples.length).map fun i => (r.samples.getD i false).toNat * 2 ^ i).sum

/-- How many cells of a byte buffer, from index 0 on, a command writes (spec/40_flux_pll.md R225,
spec/41_sync_framer.md R280, spec/60_exceptions.md R413). -/
def bytesWritten (s : State) : Op → ByteBuf → Nat
  | .pllDecode, .bitbuf => if decodeLegal s then byteCount (decoded s).out.length else 0
  | .frame, .raw => if frameLegal s then (framed s).raw.length else 0
  | .decodeFrame, .bitbuf => if decodeLegal s then byteCount (decoded s).out.length else 0
  | .decodeFrame, .raw => if decodeLegal s then (framed (decodeBody s)).raw.length else 0
  | _, _ => 0

/-- How many cells of a word buffer, from index 0 on, a command writes (spec/41_sync_framer.md R280,
spec/42_weakbit.md R343, spec/60_exceptions.md R413). -/
def wordsWritten (s : State) : Op → WordBuf → Nat
  | .frame, .idam => if frameLegal s then (framed s).idam.length else 0
  | .frame, .sect => if frameLegal s then 3 * (parsed s).sect.length else 0
  | .decodeFrame, .idam => if decodeLegal s then (framed (decodeBody s)).idam.length else 0
  | .decodeFrame, .sect => if decodeLegal s then 3 * (parsed (decodeBody s)).sect.length else 0
  | .wbDetect, .wbrec => if detectLegal s then 3 * (detected s).recs.length else 0
  | .wbDetect, .wbbyte => if detectLegal s then (detected s).bytes.length else 0
  | _, _ => 0

/-- All cells a command's engine step may read as operands are written
(spec/70_reset_and_hazards.md R455). -/
def operandsWritten (s : State) : Op → Prop
  | .pllDecode => ∀ i, i < s.regs.fluxLen.toNat → bufGet s.mem.flux i ≠ none
  | .frame => ∀ i, i < byteCount s.regs.bitCount.toNat → bufGet s.mem.bitbuf i ≠ none
  | .decodeFrame => ∀ i, i < s.regs.fluxLen.toNat → bufGet s.mem.flux i ≠ none
  | .wbDetect => revsWritten s

/-- The command passes its validation (spec/60_exceptions.md R417). -/
abbrev commandLegal (s : State) : Op → Prop
  | .pllDecode => decodeLegal s
  | .frame => frameLegal s
  | .decodeFrame => decodeLegal s
  | .wbDetect => detectLegal s

end Sys2Proof.Claims

section Statements

open Sys2Proof Sys2Proof.Machine Sys2Proof.Claims

/-! ## Reset -/

/-- spec/70_reset_and_hazards.md R451: the state a run begins in, and a hardware reset from any
state. -/
def Obligations.HardwareResetClearsTheBlock : Prop :=
  isReset State.reset ∧ ∀ s : State, s.params.wf = true →
    ∃ t, hostAccess .hardReset s = .next t ∧ isReset t ∧ t.params = s.params

/-- spec/70_reset_and_hazards.md R452. -/
def Obligations.SoftResetSparesTheBuffers : Prop :=
  ∀ (s : State) (v : Word), v.getLsbD 31 = true →
    (s.eng = .idle →
      ∃ t, hostAccess (.regWrite 0x008 32 v) s = .next t ∧
        (∀ p ∈ resetTable, reads t p.1 = p.2) ∧ t.mem = s.mem ∧ t.uninitRead = s.uninitRead ∧
        t = { s with regs := t.regs }) ∧
    (∀ c, s.eng = .busy c → hostAccess (.regWrite 0x008 32 v) s = .next (rejected s))

/-! ## Register accesses -/

/-- spec/20_memory.md R115 and spec/60_exceptions.md R419: a misaligned or narrow register access is
refused, every other access has an effect, and so every step gives a next state but that of such an
access. The 256 offsets are all there are (R100, log 12). -/
def Obligations.MisalignedOrNarrowAccessIsRefused : Prop :=
  (∀ (s : State) (offset : Fin 256) (width : Nat) (v : Word), width ≠ 32 ∨ ¬ legalOffset offset →
    hostAccess (.regRead offset width) s = .refused (.registerAccessForm offset width) ∧
    hostAccess (.regWrite offset width v) s = .refused (.registerAccessForm offset width)) ∧
  (∀ (s : State) (offset : Fin 256) (v : Word), legalOffset offset →
    (∃ t, hostAccess (.regRead offset 32) s = .next t) ∧
    (∃ t, hostAccess (.regWrite offset 32 v) s = .next t)) ∧
  (∀ (s : State) (b : ByteBuf) (i : Nat) (v : Byte),
    (∃ t, hostAccess (.byteRead b i) s = .next t) ∧ ∃ t, hostAccess (.byteWrite b i v) s = .next t) ∧
  (∀ (s : State) (b : WordBuf) (i : Nat) (v : Word),
    (∃ t, hostAccess (.wordRead b i) s = .next t) ∧ ∃ t, hostAccess (.wordWrite b i v) s = .next t) ∧
  ∀ s : State, (∃ t, step s = .next t) ∨
    ∃ (offset : Fin 256) (width : Nat) (rest : List HostOp), (width ≠ 32 ∨ ¬ legalOffset offset) ∧
      (s.pending = .regRead offset width :: rest ∨
        ∃ v, s.pending = .regWrite offset width v :: rest) ∧
      step s = .refused (.registerAccessForm offset width)

/-- spec/10_state.md R63. -/
def Obligations.ReservedSpaceReadsZero : Prop :=
  (∀ (s : State) (offset : Fin 256) (v : Word), legalOffset offset → offset ∉ namedOffsets →
    hostAccess (.regRead offset 32) s = .next { s with returned := .word 0 :: s.returned } ∧
    hostAccess (.regWrite offset 32 v) s = .next s) ∧
  ∀ (s : State), ∀ p ∈ reservedBits, reads s p.1 &&& p.2 = 0 ∧
    ∀ v : Word, hostAccess (.regWrite p.1 32 v) s
      = hostAccess (.regWrite p.1 32 (v &&& ~~~p.2)) s

/-- spec/10_state.md R58. -/
def Obligations.CapacityRegistersAreConstant : Prop :=
  (∀ s : State, s.params.wf = true → capsRead s) ∧
  (∀ (s : State) (v : Word),
    ∀ offset ∈ ([0x0B0, 0x0B4, 0x0B8, 0x0BC, 0x0C0, 0x0C4, 0x0C8] : List (Fin 256)),
      hostAccess (.regWrite offset 32 v) s = .next s) ∧
  ∀ s t : State, step s = .next t → t.params = s.params

/-- spec/20_memory.md R102, R103 and spec/10_state.md R33 to R62: each offset of the idle block reads
its own register, the fields of CTRL stand at bits 0, 8, 9 and 16, and what a write stores, it reads
back, with no other register moved. CTRL is among the registers written but for its action bit 31. -/
def Obligations.StoredRegisterReadsBack : Prop :=
  (∀ s : State, s.eng = .idle →
    (∀ p ∈ registerTable s.regs, reads s p.1 = p.2) ∧
    (reads s 0x008).toNat = s.regs.ctrl.encoding.toNat + 256 * s.regs.ctrl.wbByteLevel.toNat
      + 512 * s.regs.ctrl.wbPattern.toNat + 65536 * s.regs.ctrl.irqEn.toNat) ∧
  (∀ (s : State) (v : Word), s.eng = .idle → v.getLsbD 31 = false →
    ∃ t, hostAccess (.regWrite 0x008 32 v) s = .next t ∧
      t.regs.ctrl = ⟨v.extractLsb' 0 2, v.getLsbD 8, v.getLsbD 9, v.getLsbD 16⟩) ∧
  ∀ (s : State) (v : Word), s.eng = .idle →
    ∀ p ∈ (0x008, 0x00010303) :: rwRegisters, (p.1 = 0x008 → v.getLsbD 31 = false) →
      ∃ t, hostAccess (.regWrite p.1 32 v) s = .next t ∧ reads t p.1 = v &&& p.2 ∧
        (∀ offset, offset ≠ p.1 → reads t offset = reads s offset) ∧ t = { s with regs := t.regs }

/-- spec/10_state.md R34, spec/20_memory.md R103: where the fields of STATUS stand in the word an
idle block reads, and W1C on STATUS, busy or idle. -/
def Obligations.StatusWriteClearsOnlyItsBits : Prop :=
  (∀ s : State, s.eng = .idle →
    (reads s 0x004).toNat = 2 * s.regs.status.done.toNat + 4 * s.regs.status.err.toNat
      + 16 * s.regs.status.errcode.toNat + 256 * s.regs.status.bitbufOvf.toNat
      + 512 * s.regs.status.tokenErr.toNat + 1024 * s.regs.status.rawOvf.toNat
      + 2048 * s.regs.status.idamCapped.toNat + 4096 * s.regs.status.sectCapped.toNat
      + 8192 * s.regs.status.wbOvf.toNat + 65536 * s.regs.status.rejected.toNat) ∧
  ∀ (s : State) (v : Word), ∃ t, hostAccess (.regWrite 0x004 32 v) s = .next t ∧
    t.regs.status.done = (s.regs.status.done && !v.getLsbD 1) ∧
    t.regs.status.err = (s.regs.status.err && !v.getLsbD 2) ∧
    t.regs.status.rejected = (s.regs.status.rejected && !v.getLsbD 16) ∧
    t.regs.status.errcode = (if v.getLsbD 2 = true then 0 else s.regs.status.errcode) ∧
    t.regs.status
      = { s.regs.status with
          done := t.regs.status.done, err := t.regs.status.err,
          errcode := t.regs.status.errcode, rejected := t.regs.status.rejected } ∧
    t = { s with regs := { s.regs with status := t.regs.status } }

/-- spec/20_memory.md R102, R104, R117: a host read changes no state of the block. The model's own
log of replies (log 15) and the host's draw counter (log 4) move. -/
def Obligations.HostReadsHaveNoSideEffect : Prop :=
  ∀ (s t : State) (op : HostOp),
    ((∃ offset width, op = .regRead offset width) ∨ (∃ b i, op = .byteRead b i) ∨
      ∃ b i, op = .wordRead b i) →
    hostAccess op s = .next t →
    t = { s with returned := t.returned, hostDraws := t.hostDraws } ∧
    ∃ a, t.returned = a :: s.returned

/-- spec/20_memory.md R102, R121 and spec/60_exceptions.md R413: while a command runs, a register it
writes reads as any value and every other register reads its value; a command that will fail writes
none but STATUS. What STATUS reads is the model's choice (log 6), for by R102's letter it is any
32-bit value: the model leaves BUSY, DONE, REJECTED and the result flags the command does not write
at their values. -/
def Obligations.BusyWindowSparesOtherRegisters : Prop :=
  ∀ (s : State) (c : Op) (offset : Fin 256), s.eng = .busy c → legalOffset offset →
    (offset ≠ 0x004 → offset ∉ registersWritten c ∨ ¬ commandLegal s c →
      hostAccess (.regRead offset 32) s
        = .next { s with returned := .word (reads { s with eng := .idle } offset) :: s.returned }) ∧
    (offset ∈ registersWritten c → commandLegal s c → ∃ v, hostAccess (.regRead offset 32) s
      = .next { s with returned := .word v :: s.returned, hostDraws := s.hostDraws + 1 }) ∧
    (offset = 0x004 → ∃ v written : Word,
      hostAccess (.regRead offset 32) s
        = .next { s with returned := .word v :: s.returned, hostDraws := s.hostDraws + 1 } ∧
      (commandLegal s c → written = 0x000000F4 ||| ownedFlags c) ∧
      (¬ commandLegal s c → written = 0x000000F4) ∧
      v &&& ~~~written = (0x00000001 ||| reads { s with eng := .idle } 0x004) &&& ~~~written)

/-! ## Buffer accesses -/

/-- spec/20_memory.md R104, R121: in range, a written cell reads its value, also while a command runs
that does not write this cell. A cell the running command writes reads as any value, and so does an
unwritten one (R106). -/
def Obligations.BufferReadReturnsItsCell : Prop :=
  (∀ (s : State) (b : ByteBuf) (i : Nat), i < b.cells s.params →
    (∀ v, (∀ c, s.eng = .busy c → bytesWritten s c b ≤ i) → bufGet (s.mem.bytes b) i = some v →
      hostAccess (.byteRead b i) s = .next { s with returned := .byte v :: s.returned }) ∧
    ((∃ c, s.eng = .busy c ∧ i < bytesWritten s c b) ∨ bufGet (s.mem.bytes b) i = none →
      ∃ v, hostAccess (.byteRead b i) s
        = .next { s with returned := .byte v :: s.returned, hostDraws := s.hostDraws + 1 })) ∧
  ∀ (s : State) (b : WordBuf) (i : Nat), i < b.cells s.params →
    (∀ v, (∀ c, s.eng = .busy c → wordsWritten s c b ≤ i) → bufGet (s.mem.words b) i = some v →
      hostAccess (.wordRead b i) s = .next { s with returned := .word v :: s.returned }) ∧
    ((∃ c, s.eng = .busy c ∧ i < wordsWritten s c b) ∨ bufGet (s.mem.words b) i = none →
      ∃ v, hostAccess (.wordRead b i) s
        = .next { s with returned := .word v :: s.returned, hostDraws := s.hostDraws + 1 })

/-- spec/20_memory.md R105, with R101: the write lands in its cell and in no other. -/
def Obligations.BufferWriteLandsInItsCell : Prop :=
  (∀ (s : State) (b : ByteBuf) (i : Nat) (v : Byte), i < b.cells s.params →
    (b ∈ hostRw → s.eng = .idle →
      ∃ t, hostAccess (.byteWrite b i v) s = .next t ∧ bufGet (t.mem.bytes b) i = some v ∧
        (∀ b' j, (b', j) ≠ (b, i) → bufGet (t.mem.bytes b') j = bufGet (s.mem.bytes b') j) ∧
        (∀ w, t.mem.words w = s.mem.words w) ∧ t = { s with mem := t.mem }) ∧
    (b ∈ hostRw → ∀ c, s.eng = .busy c → hostAccess (.byteWrite b i v) s = .next (rejected s)) ∧
    (b = .raw → hostAccess (.byteWrite b i v) s = .next s)) ∧
  ∀ (s : State) (b : WordBuf) (i : Nat) (v : Word), i < b.cells s.params →
    hostAccess (.wordWrite b i v) s = .next s

/-- spec/20_memory.md R107. -/
def Obligations.OutOfRangeBufferAccessIsInert : Prop :=
  (∀ (s : State) (b : ByteBuf) (i : Nat) (v : Byte), b.cells s.params ≤ i →
    hostAccess (.byteRead b i) s = .next { s with returned := .byte 0 :: s.returned } ∧
    hostAccess (.byteWrite b i v) s = .next s) ∧
  ∀ (s : State) (b : WordBuf) (i : Nat) (v : Word), b.cells s.params ≤ i →
    hostAccess (.wordRead b i) s = .next { s with returned := .word 0 :: s.returned } ∧
    hostAccess (.wordWrite b i v) s = .next s

/-- spec/20_memory.md R106, spec/10_state.md R75, spec/70_reset_and_hazards.md R455: an engine read
of ⊥ sets the mark and the command still completes. The mark is set exactly where a cell the command
reads is unwritten: every byte of the compared revolutions; every byte that holds a stream bit framed
before RAW was full, all of them where it never was; the bytes of FLUX up to the cursor and, of a
truncated token, its first two. A token whose interval does not fit in BITBUF is read in full, one to
five bytes. A command whose operand cells are all written sets no mark. -/
def Obligations.MarkFollowsUnwrittenOperands : Prop :=
  (∀ s : State,
    (decodeLegal s → bufGet s.mem.flux 0 = none →
      (∃ t, exec .pllDecode s = .next t ∧ t.uninitRead = true) ∧
      ∃ t, exec .decodeFrame s = .next t ∧ t.uninitRead = true) ∧
    (frameLegal s → s.regs.bitCount ≠ 0 → bufGet s.mem.bitbuf 0 = none →
      ∃ t, exec .frame s = .next t ∧ t.uninitRead = true) ∧
    (detectLegal s → bufGet (s.mem.bytes (.rev 0)) 0 = none →
      ∃ t, exec .wbDetect s = .next t ∧ t.uninitRead = true)) ∧
  (∀ s t : State, detectLegal s → exec .wbDetect s = .next t →
    (t.uninitRead = true ↔ s.uninitRead = true ∨ ¬ revsWritten s)) ∧
  (∀ s t : State, frameLegal s → exec .frame s = .next t →
    (t.uninitRead = true ↔ s.uninitRead = true ∨
      ∃ i, i < byteCount (framed s).k ∧ bufGet s.mem.bitbuf i = none) ∧
    ((framed s).rawOvf = false → (framed s).k = s.regs.bitCount.toNat)) ∧
  (∀ s t : State, decodeLegal s → exec .pllDecode s = .next t →
    ((decoded s).ovf = false →
      (t.uninitRead = true ↔ s.uninitRead = true ∨
        ∃ i, i < s.regs.fluxLen.toNat ∧ i < (decoded s).tc + 2 ∧ bufGet s.mem.flux i = none)) ∧
    ((decoded s).ovf = true →
      (∀ i, i ≤ (decoded s).tc → bufGet s.mem.flux i = none → t.uninitRead = true) ∧
      (t.uninitRead = true → s.uninitRead = true ∨
        ∃ i, i < s.regs.fluxLen.toNat ∧ i < (decoded s).tc + 5 ∧ bufGet s.mem.flux i = none))) ∧
  (∀ s t u : State, s.params.wf = true → decodeLegal s → exec .pllDecode s = .next t →
    exec .decodeFrame s = .next u → u.uninitRead = t.uninitRead) ∧
  ∀ (s t : State) (c : Op), s.params.wf = true → commandLegal s c → operandsWritten s c →
    exec c.instr s = .next t → t.uninitRead = s.uninitRead

/-- spec/10_state.md R75: once set, no step clears the mark, a hardware reset apart. -/
def Obligations.OnlyHardwareResetClearsTheMark : Prop :=
  ∀ s t : State, step s = .next t → s.uninitRead = true → t.uninitRead = false →
    ∃ rest, s.pending = .hardReset :: rest

/-! ## Commands: acceptance, completion, interrupt -/

/-- spec/30_encoding.md R141, R144: the opcode map, and nothing beside it. -/
def Obligations.EveryWordIsACommandOrIllegal : Prop :=
  ∀ w : Word, (illegalWord w ∧ decodeCommand w = .error (.illegalCommand w)) ∨
    (¬ illegalWord w ∧
      ((w = 1 ∧ decodeCommand w = .ok .pllDecode) ∨ (w = 2 ∧ decodeCommand w = .ok .frame) ∨
        (w = 3 ∧ decodeCommand w = .ok .decodeFrame) ∨
        (w = 4 ∧ decodeCommand w = .ok .wbDetect)))

/-- spec/60_exceptions.md R410. -/
def Obligations.CommandWriteIsAcceptedOnce : Prop :=
  ∀ (s : State) (v : Word),
    (∀ c, s.eng = .busy c → hostAccess (.regWrite 0x000 32 v) s = .next (rejected s)) ∧
    (s.eng = .idle → illegalWord v →
      hostAccess (.regWrite 0x000 32 v) s = .next
        { s with regs := { s.regs with
            cmd := v, status := { s.regs.status with done := true, err := true, errcode := 1 } } }) ∧
    (s.eng = .idle →
      ∀ p ∈ ([(1, .pllDecode), (2, .frame), (3, .decodeFrame), (4, .wbDetect)] : List (Word × Op)),
        v = p.1 →
        ∃ t, hostAccess (.regWrite 0x000 32 v) s = .next t ∧ (reads t 0x004).getLsbD 0 = true ∧
          t = { s with
            eng := .busy p.2
            regs := { s.regs with
              cmd := v
              status := { s.regs.status with done := false, err := false, errcode := 0 } } })

/-- spec/60_exceptions.md R414. -/
def Obligations.BusyBlockRejectsWrites : Prop :=
  (∀ (s : State) (c : Op), s.eng = .busy c →
    (∀ v, ∀ offset ∈ 0x000 :: 0x008 :: rwRegisters.map Prod.fst,
      hostAccess (.regWrite offset 32 v) s = .next (rejected s)) ∧
    (∀ b ∈ hostRw, ∀ i v, i < b.cells s.params →
      hostAccess (.byteWrite b i v) s = .next (rejected s)) ∧
    (∀ v : Word, ∃ t, hostAccess (.regWrite 0x004 32 v) s = .next t ∧
      t.regs.status.rejected = (s.regs.status.rejected && !v.getLsbD 16)) ∧
    (∀ v offset, legalOffset offset → offset ∈ readOnlyOffsets ∨ offset ∉ namedOffsets →
      hostAccess (.regWrite offset 32 v) s = .next s) ∧
    (∀ i v, hostAccess (.byteWrite .raw i v) s = .next s) ∧
    ∀ b i v, hostAccess (.wordWrite b i v) s = .next s) ∧
  ∀ s t : State, step s = .next t → s.regs.status.rejected = true →
    t.regs.status.rejected = false →
    ∃ rest, (∃ v : Word, v.getLsbD 16 = true ∧ s.pending = .regWrite 0x004 32 v :: rest) ∨
      (∃ v : Word, s.eng = .idle ∧ v.getLsbD 31 = true ∧
        s.pending = .regWrite 0x008 32 v :: rest) ∨
      s.pending = .hardReset :: rest

/-- spec/60_exceptions.md R411: whatever the registers and buffers hold, a command ends in one step,
with the engine idle, DONE set and the host's accesses untouched. -/
def Obligations.EveryCommandCompletes : Prop :=
  ∀ (s : State) (c : Op), ∃ t, exec c.instr s = .next t ∧ t.eng = .idle ∧
    t.regs.status.done = true ∧ (reads t 0x004).getLsbD 0 = false ∧ t.pending = s.pending ∧
    t.returned = s.returned ∧ t.turns = s.turns

/-- spec/60_exceptions.md R411 and spec/30_encoding.md R146: under weak fairness a WAIT ends. The
turns (log 3) give the host the first `n` moves and then the engine one. -/
def Obligations.WaitEndsOnceTheEngineMoves : Prop :=
  ∀ (s : State) (c : Op) (n : Nat) (rest : List HostOp) (ts : List Agent),
    s.pll.live = false → s.eng = .busy c → s.pending = .wait :: rest →
    s.turns = List.replicate n .host ++ .engine :: ts →
    ∃ t, runSteps (n + 2) s = some t ∧ t.pending = rest ∧ t.eng = .idle ∧
      t.regs.status.done = true ∧ t.turns = ts

/-- spec/60_exceptions.md R415, R418: which error a command raises depends on the registers only. -/
def Obligations.ErrorsDependOnRegistersOnly : Prop :=
  ∀ (s s' t t' : State) (c : Op), s'.regs = s.regs → s'.params = s.params →
    exec c.instr s = .next t → exec c.instr s' = .next t' →
    t'.regs.status.err = t.regs.status.err ∧ t'.regs.status.errcode = t.regs.status.errcode

/-- spec/60_exceptions.md R413, R415: a failed completion records the error, EMPTY_INPUT, FEW_REVS
or BAD_PARAM, and writes nothing else. -/
def Obligations.FailedCommandWritesNothing : Prop :=
  ∀ (s t : State) (c : Op), exec c.instr s = .next t → t.regs.status.err = true →
    ∃ code : BitVec 4, 2 ≤ code.toNat ∧ code.toNat ≤ 4 ∧ t = failedWith code s

/-- spec/60_exceptions.md R420 and spec/10_state.md R76. -/
def Obligations.InterruptFollowsDoneAndEnable : Prop :=
  (∀ s : State, s.irq = (s.regs.status.done && s.regs.ctrl.irqEn)) ∧
  (∀ (s t : State) (c : Op), exec c.instr s = .next t → t.irq = s.regs.ctrl.irqEn) ∧
  (∀ (s t : State) (v : Word), s.eng = .idle → illegalWord v →
    hostAccess (.regWrite 0x000 32 v) s = .next t → t.irq = s.regs.ctrl.irqEn) ∧
  (∀ (s t : State) (v : Word), s.eng = .idle → ¬ illegalWord v →
    hostAccess (.regWrite 0x000 32 v) s = .next t → t.irq = false) ∧
  (∀ (s t : State) (v : Word), v.getLsbD 1 = true →
    hostAccess (.regWrite 0x004 32 v) s = .next t → t.irq = false) ∧
  ∀ (s t : State) (v : Word), s.eng = .idle → v.getLsbD 31 = false →
    hostAccess (.regWrite 0x008 32 v) s = .next t →
    t.irq = (s.regs.status.done && v.getLsbD 16)

/-- spec/70_reset_and_hazards.md R453: what a command computes does not depend on the hidden state an
earlier command left. -/
def Obligations.CommandsIgnoreEarlierHiddenState : Prop :=
  ∀ (s t t' : State) (c : Op) (p : PllLoop) (f : Framer) (q : Parser) (m : Comparator),
    exec c.instr s = .next t →
    exec c.instr { s with pll := p, framer := f, parser := q, cmp := m } = .next t' →
    t'.regs = t.regs ∧ t'.mem = t.mem ∧ t'.eng = t.eng ∧ t'.uninitRead = t.uninitRead ∧
    t'.draws = t.draws

/-! ## Steps -/

/-- spec/60_exceptions.md R410, R411: a command word written to the idle block is decoded, and the
next engine move is the meaning of the decoded instruction. The turns are log 3's. -/
def Obligations.StepRunsTheDecodedCommand : Prop :=
  (∀ (s : State) (w : Word) (i : Instr) (rest : List HostOp),
    decodeCommand w = .ok i → s.pll.live = false → s.eng = .idle →
    s.pending = .regWrite 0x000 32 w :: rest →
    ∃ t c, step s = .next t ∧ t.eng = .busy c ∧ c.instr = i ∧ t.regs.cmd = w ∧
      t.pll.live = false ∧ t.pending = rest ∧ t.turns = s.turns) ∧
  (∀ (s : State) (c : Op), s.pll.live = false → s.eng = .busy c →
    s.pending = [] ∨ s.turns = [] → step s = exec c.instr s) ∧
  (∀ (s : State) (c : Op) (ts : List Agent), s.pll.live = false → s.eng = .busy c →
    s.pending ≠ [] → s.turns = .engine :: ts → step s = exec c.instr { s with turns := ts }) ∧
  ∀ (s : State) (op : HostOp) (rest : List HostOp), s.pll.live = false →
    s.pending = op :: rest →
    (s.eng = .idle → step s = hostAccess op { s with pending := rest }) ∧
    ∀ c ts, s.eng = .busy c → s.turns = .host :: ts →
      step s = hostAccess op { s with pending := rest, turns := ts }

/-- spec/40_flux_pll.md R204, R205, R224: at a token boundary (log 8) the step runs the token whose
bytes stand at the cursor. Where the token loop ends, the step completes the command: at END, at an
interval that did not fit, and at a truncated token, which it counts. -/
def Obligations.StepRunsTheDecodedToken : Prop :=
  (∀ (s : State) (i : Instr), isToken i = true → i.wf = true → s.pll.live = true →
    s.pll.ovf = false → fluxHolds s s.pll.tc (tokenBytes i) →
    s.pll.tc + (tokenBytes i).length ≤ s.regs.fluxLen.toNat → step s = exec i s) ∧
  (∀ s : State, s.pll.live = true →
    s.pll.ovf = true ∨ s.regs.fluxLen.toNat ≤ s.pll.tc → step s = .next (finishDecode s)) ∧
  ∀ (s : State) (bytes : List Byte), s.pll.live = true → s.pll.ovf = false →
    bytes ≠ [] → fluxHolds s s.pll.tc bytes →
    s.pll.tc + bytes.length = s.regs.fluxLen.toNat →
    decodeToken bytes = .error .truncatedToken →
    step s = .next
      (finishDecode { s with pll := { s.pll with ndrop := s.pll.ndrop + 1 } })

/-- spec/40_flux_pll.md R214: a decode is its tokens, one after another: from the state that starts
the token loop (log 8), token steps reach exactly what the whole command does. -/
def Obligations.DecodeIsItsTokenSteps : Prop :=
  ∀ s : State, decodeLegal s → s.eng = .busy .pllDecode ∨ s.eng = .busy .decodeFrame →
    ∃ t n, 1 ≤ n ∧ n ≤ s.regs.fluxLen.toNat + 1 ∧ runSteps n (startDecode s) = some t ∧
      (s.eng = .busy .pllDecode → exec .pllDecode s = .next t) ∧
      (s.eng = .busy .decodeFrame → exec .decodeFrame s = .next t)

/-- log 8: no step puts the machine at a token boundary. -/
def Obligations.NoStepEntersATokenBoundary : Prop :=
  ∀ s t : State, s.pll.live = false → step s = .next t → t.pll.live = false

/-- Safety.lean's invariant holds at reset, where the parameters have the defaults of
spec/00_scope.md R6 and spec/30_encoding.md R161, R163. -/
def Obligations.ResetMeetsTheInvariant : Prop :=
  State.reset.Inv ∧
  State.reset.params =
    { fluxCap := 0x100000, bitbufCap := 0x40000, rawCap := 0x4000, sectorCap := 64
      revCap := 0x8000, wbCap := 4096
      syncFm := [0xF57E, 0xF56F, 0xF56A, 0xF56B, 0xF56E, 0xF77A]
      idamMarks := [0xFE], damMarks := [0xF8, 0xF9, 0xFA, 0xFB] }

/-- Every step keeps Safety.lean's invariant: canonical buffers within their bounds, the STATUS
facts of R34, R410 and R415, and the ranges of the result registers. -/
def Obligations.EveryStepKeepsTheInvariant : Prop :=
  ∀ s t : State, s.Inv → step s = .next t → t.Inv

/-! ## Encoding -/

/-- spec/30_encoding.md R141, R150: decoding gives back every well-formed instruction, also with
bytes after the token, and a decoded token is well formed and encodes to the bytes it was read
from. -/
def Obligations.DecodeUndoesEncode : Prop :=
  (∀ i : Instr, i.wf = true → decode (encode i) = .ok i) ∧
  (∀ (i : Instr) (rest : List Byte), isToken i = true → i.wf = true →
    decodeToken (tokenBytes i ++ rest) = .ok (i, rest)) ∧
  ∀ (bytes rest : List Byte) (i : Instr), decodeToken bytes = .ok (i, rest) →
    isToken i = true ∧ i.wf = true ∧ bytes = tokenBytes i ++ rest

/-- spec/30_encoding.md R151 to R155: the examples of each form, and of a truncated token. -/
def Obligations.WrittenOutTokensDecode : Prop :=
  decodeToken [0x60] = .ok (.tokLit 0x60, []) ∧
  decodeToken [0xF9] = .ok (.tokLit 0xF9, []) ∧
  decodeToken [0xFA, 0x26] = .ok (.tokEsc8 0xFA 0x26, []) ∧
  decodeToken [0xFE, 0x26] = .ok (.tokEsc8 0xFE 0x26, []) ∧
  decodeToken [0xFF, 0xFF, 0xE8, 0x03, 0x00] = .ok (.tokEsc24 0xE8 0x03 0x00, []) ∧
  decodeToken [0xFF, 0x00, 0x60] = .ok (.tokEscUndef 0x00, [0x60]) ∧
  decodeToken [0xFF, 0xFE] = .ok (.tokEscUndef 0xFE, []) ∧
  decodeToken [0xFA] = .error .truncatedToken ∧
  decodeToken [0xFF, 0xFF, 0x01, 0x02] = .error .truncatedToken ∧
  decode (.command 0x00000003) = .ok .decodeFrame ∧
  decode (.command 0x00000103) = .error (.illegalCommand 0x00000103)

/-! ## Flux tokens -/

/-- spec/40_flux_pll.md R200, R201, R202, with R217 to R221 and R224. -/
def Obligations.IntervalTokensFeedTheirValue : Prop :=
  ∀ s : State, 1 ≤ s.regs.pllMaxCells.toNat →
    (∀ b : Byte, (Instr.tokLit b).wf = true → feedsInterval (.tokLit b) s b.toNat 1) ∧
    (∀ e n : Byte, (Instr.tokEsc8 e n).wf = true →
      feedsInterval (.tokEsc8 e n) s (250 + n.toNat) 2) ∧
    ∀ b0 b1 b2 : Byte, feedsInterval (.tokEsc24 b0 b1 b2) s
      (b0.toNat + 256 * b1.toNat + 65536 * b2.toNat) 5

/-- spec/40_flux_pll.md R203. -/
def Obligations.UndefinedEscapeIsDropped : Prop :=
  ∀ (s : State) (x : Byte), (Instr.tokEscUndef x).wf = true →
    exec (.tokEscUndef x) s = .next
      { s with pll := { s.pll with ndrop := s.pll.ndrop + 1, tc := s.pll.tc + 2 } }

/-- spec/00_scope.md R12: `roundHalfAway` gives the nearest integer to the exact value, and of two
equally near ones the one farther from zero. `F64.value` and `F64.one` are in units of 2^-1074. -/
def Obligations.RoundHalfAwayIsNearest : Prop :=
  ∀ x : F64, F64.isFinite x = true →
    (∀ n : Int, |F64.value x - F64.roundHalfAway x * F64.one| ≤ |F64.value x - n * F64.one|) ∧
    (∀ n : Int, n ≠ F64.roundHalfAway x →
      |F64.value x - F64.roundHalfAway x * F64.one| = |F64.value x - n * F64.one| →
      |n| < |F64.roundHalfAway x|)

/-- spec/00_scope.md R11: every operation on finite values gives its exact result rounded once to
nearest, ties to even, and infinity where that overflows; a division by zero and an infinite operand
give what IEEE 754 says. `f64(n)` is exact below 2^53, and comparisons, `min` and `max` are those of
the exact values. Exact values are in units of 2^-1074 (`F64.value`, `F64.units`, `F64.one`). -/
def Obligations.RoundingIsToNearestEven : Prop :=
  (∀ (neg : Bool) (num den : Nat), 0 < den →
    roundsTo (F64.pack neg (F64.roundMag num den)) neg num den) ∧
  (∀ x y : F64, F64.isFinite x = true → F64.isFinite y = true →
    roundsTo (F64.add x y)
      (if F64.value x + F64.value y = 0 then F64.neg x && F64.neg y
        else decide (F64.value x + F64.value y < 0))
      (F64.value x + F64.value y).natAbs 1 ∧
    roundsTo (F64.sub x y)
      (if F64.value x - F64.value y = 0 then F64.neg x && !F64.neg y
        else decide (F64.value x - F64.value y < 0))
      (F64.value x - F64.value y).natAbs 1 ∧
    roundsTo (F64.mul x y) (F64.neg x != F64.neg y) (F64.units x * F64.units y) F64.one ∧
    (F64.isZero y = false →
      roundsTo (F64.div x y) (F64.neg x != F64.neg y) (F64.one * F64.units x) (F64.units y)) ∧
    (F64.isZero y = true →
      (F64.isZero x = false → F64.div x y = F64.inf (F64.neg x != F64.neg y)) ∧
      (F64.isZero x = true → F64.isNaN (F64.div x y) = true)) ∧
    (F64.lt x y = true ↔ F64.value x < F64.value y) ∧
    (F64.le x y = true ↔ F64.value x ≤ F64.value y) ∧
    F64.value (F64.min x y) = min (F64.value x) (F64.value y) ∧
    F64.value (F64.max x y) = max (F64.value x) (F64.value y)) ∧
  (∀ x y : F64, F64.isInf x = true → F64.isFinite y = true →
    F64.add x y = x ∧ F64.add y x = x ∧ F64.sub x y = x ∧
    F64.div x y = F64.inf (F64.neg x != F64.neg y) ∧
    F64.div y x = F64.pack (F64.neg y != F64.neg x) 0 ∧
    (F64.isZero y = false → F64.mul x y = F64.inf (F64.neg x != F64.neg y) ∧
      F64.mul y x = F64.inf (F64.neg x != F64.neg y)) ∧
    (F64.isZero y = true → F64.isNaN (F64.mul x y) = true ∧ F64.isNaN (F64.mul y x) = true)) ∧
  (∀ n : Nat, n < 2 ^ 53 →
    F64.isFinite (F64.ofNat n) = true ∧ F64.value (F64.ofNat n) = n * F64.one) ∧
  ∀ x lo hi : F64, F64.isFinite x = true → F64.isFinite lo = true → F64.isFinite hi = true →
    F64.value (F64.clamp x lo hi)
      = min (max (F64.value x) (F64.value lo)) (F64.value hi)

/-! ## PLL_DECODE -/

/-- spec/40_flux_pll.md R215, for both commands that decode. -/
def Obligations.DecodeValidatesInOrder : Prop :=
  ∀ s : State, ∀ i ∈ ([.pllDecode, .decodeFrame] : List Instr),
    (s.regs.fluxLen = 0 → exec i s = .next (failedWith 2 s)) ∧
    (s.regs.fluxLen ≠ 0 → ¬ decodeParamsLegal s → exec i s = .next (failedWith 4 s))

/-- spec/40_flux_pll.md R225, with R216, R223 and R110: what a successful PLL_DECODE leaves, given
where its token loop ends. -/
def Obligations.PllDecodeCommitsItsStream : Prop :=
  ∀ s : State, s.params.wf = true → decodeLegal s →
    ∃ t, exec .pllDecode s = .next t ∧ t.eng = .idle ∧
      t.regs.bitCount.toNat = (decoded s).out.length ∧
      t.regs.pllIntervals.toNat = (decoded s).nint ∧
      t.regs.tokensDropped.toNat = (decoded s).ndrop ∧
      t.regs.pllT0
        = F64.div (F64.ofNat s.regs.sampleFreq.toNat) (F64.ofNat (selectedRate s.regs)) ∧
      t.regs.pllPhase = (decoded s).phase ∧ t.regs.pllFreq = (decoded s).freq ∧
      t.regs.status
        = { s.regs.status with
            done := true, err := false, errcode := 0
            bitbufOvf := (decoded s).ovf, tokenErr := decide ((decoded s).ndrop ≠ 0) } ∧
      bitbufHolds t.mem ((decoded s).out ++
        List.replicate (8 * byteCount (decoded s).out.length - (decoded s).out.length) false) ∧
      ∀ i, byteCount (decoded s).out.length ≤ i →
        bufGet t.mem.bitbuf i = bufGet s.mem.bitbuf i

/-- spec/20_memory.md R108 for PLL_DECODE: the frame of a completion, failed or successful. -/
def Obligations.PllDecodeLeavesTheRest : Prop :=
  ∀ s t : State, exec .pllDecode s = .next t →
    t = { s with
      eng := .idle, regs := t.regs, mem := t.mem, pll := t.pll, uninitRead := t.uninitRead,
      draws := t.draws } ∧
    t.regs = { s.regs with
      bitCount := t.regs.bitCount, pllIntervals := t.regs.pllIntervals,
      tokensDropped := t.regs.tokensDropped, pllT0 := t.regs.pllT0, pllPhase := t.regs.pllPhase,
      pllFreq := t.regs.pllFreq, status := t.regs.status } ∧
    t.regs.status = { s.regs.status with
      done := true, err := t.regs.status.err, errcode := t.regs.status.errcode,
      bitbufOvf := t.regs.status.bitbufOvf, tokenErr := t.regs.status.tokenErr } ∧
    (∀ b, b ≠ .bitbuf → t.mem.bytes b = s.mem.bytes b) ∧
    (∀ b, t.mem.words b = s.mem.words b) ∧
    ∀ i, (if decodeLegal s then byteCount (decoded s).out.length else 0) ≤ i →
      bufGet t.mem.bitbuf i = bufGet s.mem.bitbuf i

/-- spec/40_flux_pll.md R218, R224: every interval adds one 1 bit and 1 to PLL_MAX_CELLS bits in
all, the stream ends in a 1 bit, and it fits in BITBUF. -/
def Obligations.StreamHasOneOnePerInterval : Prop :=
  ∀ s : State, decodeLegal s →
    (decoded s).out.count true = (decoded s).nint ∧
    (decoded s).out.length ≤ s.regs.pllMaxCells.toNat * (decoded s).nint ∧
    (decoded s).out.length ≤ 8 * s.params.bitbufCap ∧
    ((decoded s).out ≠ [] → (decoded s).out.getLast? = some true)

/-- spec/40_flux_pll.md R229: at every point of the token loop of a legal decode, phase and freq are
finite, and after a fed interval freq lies in `[lo, hi]` with lo and hi as R221 says. -/
def Obligations.FrequencyStaysInItsClamp : Prop :=
  ∀ (s : State) (n : Nat), decodeLegal s →
    let p := (decodeLoop n (startDecode s)).pll
    let t0 := F64.div (F64.ofNat s.regs.sampleFreq.toNat) (F64.ofNat (selectedRate s.regs))
    F64.isFinite p.phase = true ∧ F64.isFinite p.freq = true ∧
    p.lo = F64.mul s.regs.fminRatio t0 ∧ p.hi = F64.mul s.regs.fmaxRatio t0 ∧
    F64.isFinite p.hi = true ∧ F64.le p.lo p.hi = true ∧
    (p.nint ≠ 0 → F64.le p.lo p.freq = true ∧ F64.le p.freq p.hi = true)

/-- spec/40_flux_pll.md R228, second corner case: intervals of exactly T0, in tokens of any form,
decode to as many 1 bits, phase stays zero and freq stays T0. The clamp must contain T0, as it does
with the reset ratios. -/
def Obligations.ConstantPeriodDecodesToOnes : Prop :=
  ∀ (s : State) (tokens : List Instr) (n : Nat), s.params.wf = true → decodeLegal s →
    (∀ i ∈ tokens, i.wf = true ∧ tokenInterval i = some n) →
    s.regs.sampleFreq.toNat = n * selectedRate s.regs →
    F64.le s.regs.fminRatio 0x3FF0000000000000 = true →
    F64.le 0x3FF0000000000000 s.regs.fmaxRatio = true →
    tokens.length ≤ 8 * s.params.bitbufCap →
    s.regs.fluxLen.toNat = (tokens.flatMap tokenBytes).length →
    fluxHolds s 0 (tokens.flatMap tokenBytes) →
    ∃ t, exec .pllDecode s = .next t ∧ t.regs.bitCount.toNat = tokens.length ∧
      t.regs.pllIntervals.toNat = tokens.length ∧ t.regs.tokensDropped = 0 ∧
      t.regs.pllFreq = F64.ofNat n ∧ t.regs.pllT0 = F64.ofNat n ∧
      F64.isZero t.regs.pllPhase = true ∧ t.regs.status.bitbufOvf = false ∧
      t.regs.status.tokenErr = false ∧ t.uninitRead = s.uninitRead ∧
      bitbufHolds t.mem (List.replicate tokens.length true)

/-- spec/40_flux_pll.md R228, last corner case, and spec/90_conflicts.md C3: with PLL_MAX_CELLS at
most 3 the stream never holds three consecutive 0 bits, so an MFM DECODE_FRAME finds no sync mark
and no sector. -/
def Obligations.ThreeCellsHideMfmSync : Prop :=
  ∀ s : State, s.params.wf = true → decodeLegal s → s.regs.pllMaxCells.toNat ≤ 3 →
    ¬ ([false, false, false] <:+: (decoded s).out) ∧
    (s.regs.ctrl.encoding = 1 →
      ∃ t, exec .decodeFrame s = .next t ∧ t.regs.idamCount = 0 ∧ t.regs.sectorCount = 0 ∧
        t.regs.crcErrors = 0 ∧ t.regs.status.idamCapped = false)

/-! ## FRAME and DECODE_FRAME -/

/-- spec/41_sync_framer.md R261. -/
def Obligations.FrameValidatesEncodingAndLength : Prop :=
  ∀ s : State,
    (¬ frameLegal s → exec .frame s = .next (failedWith 4 s)) ∧
    (frameLegal s → s.regs.bitCount = 0 →
      ∃ t, exec .frame s = .next t ∧ t.regs.rawLen = 0 ∧ t.regs.idamCount = 0 ∧
        t.regs.sectorCount = 0 ∧ t.regs.status.err = false)

/-- spec/41_sync_framer.md R280, with R284 and spec/30_encoding.md R170, R171: what a successful
FRAME leaves, given the framed bytes, entries and records. -/
def Obligations.FrameCommitsItsTables : Prop :=
  ∀ s : State, s.params.wf = true → frameLegal s →
    ∃ t, exec .frame s = .next t ∧ t.eng = .idle ∧
      t.regs.rawLen.toNat = (framed s).raw.length ∧
      t.regs.idamCount.toNat = (framed s).idam.length ∧
      t.regs.sectorCount.toNat = (parsed s).sect.length ∧
      t.regs.crcErrors.toNat = crcErrorsOf (parsed s).sect ∧
      t.regs.status
        = { s.regs.status with
            done := true, err := false, errcode := 0
            rawOvf := (framed s).rawOvf, idamCapped := (framed s).capped
            sectCapped := (parsed s).sectCapped } ∧
      (∀ i, i < (framed s).raw.length → bufGet t.mem.raw i = (framed s).raw[i]?) ∧
      (∀ i e, (framed s).idam[i]? = some e →
        (bufGet t.mem.idam i).map BitVec.toNat = some (e.offset + 65536 * e.density.toNat)) ∧
      (∀ i r, (parsed s).sect[i]? = some r → ∀ j, j < 3 →
        (bufGet t.mem.sect (3 * i + j)).map BitVec.toNat = some (sectWord r j)) ∧
      (∀ i, (framed s).raw.length ≤ i → bufGet t.mem.raw i = bufGet s.mem.raw i) ∧
      (∀ i, (framed s).idam.length ≤ i → bufGet t.mem.idam i = bufGet s.mem.idam i) ∧
      ∀ i, 3 * (parsed s).sect.length ≤ i → bufGet t.mem.sect i = bufGet s.mem.sect i

/-- spec/20_memory.md R108 and spec/41_sync_framer.md R280 for FRAME: the frame of a completion,
failed or successful. -/
def Obligations.FrameLeavesTheRest : Prop :=
  ∀ s t : State, exec .frame s = .next t →
    t = { s with
      eng := .idle, regs := t.regs, mem := t.mem, framer := t.framer, parser := t.parser,
      uninitRead := t.uninitRead, draws := t.draws } ∧
    t.regs = { s.regs with
      rawLen := t.regs.rawLen, idamCount := t.regs.idamCount, sectorCount := t.regs.sectorCount,
      crcErrors := t.regs.crcErrors, status := t.regs.status } ∧
    t.regs.status = { s.regs.status with
      done := true, err := t.regs.status.err, errcode := t.regs.status.errcode,
      rawOvf := t.regs.status.rawOvf, idamCapped := t.regs.status.idamCapped,
      sectCapped := t.regs.status.sectCapped } ∧
    (∀ b, b ≠ .raw → t.mem.bytes b = s.mem.bytes b) ∧
    (∀ b, b ≠ .idam → b ≠ .sect → t.mem.words b = s.mem.words b) ∧
    (∀ i, (if frameLegal s then (framed s).raw.length else 0) ≤ i →
      bufGet t.mem.raw i = bufGet s.mem.raw i) ∧
    (∀ i, (if frameLegal s then (framed s).idam.length else 0) ≤ i →
      bufGet t.mem.idam i = bufGet s.mem.idam i) ∧
    ∀ i, (if frameLegal s then 3 * (parsed s).sect.length else 0) ≤ i →
      bufGet t.mem.sect i = bufGet s.mem.sect i

/-- spec/41_sync_framer.md R264, R265, R267: the entries are at most 64, their offsets rise strictly
and lie below the number of bytes, and the bytes fit in RAW. RAW_OVF says RAW is full and IDAM_CAPPED
that the table is. The stream's first 15 bits never match, so a stream of fewer than 16 bits frames nothing (R268). -/
def Obligations.IdamOffsetsRiseWithinRaw : Prop :=
  ∀ s : State,
    (framed s).idam.length ≤ 64 ∧ (framed s).raw.length ≤ s.params.rawCap ∧
    (∀ e ∈ (framed s).idam, e.offset < (framed s).raw.length ∧
      e.density = s.regs.ctrl.encoding) ∧
    ((framed s).idam.Pairwise fun a b => a.offset < b.offset) ∧
    ((framed s).rawOvf = true → (framed s).raw.length = s.params.rawCap) ∧
    ((framed s).capped = true → (framed s).idam.length = 64) ∧
    (s.regs.bitCount.toNat < 16 → (framed s).raw = [] ∧ (framed s).idam = [])

/-- spec/41_sync_framer.md R262 to R267 and spec/30_encoding.md R160 to R162: a stream whose sync matches
all fall on multiples of 16 frames window by window: one byte of data bits for each of the first
RAW_CAP windows, one entry for each of the first 64 of them in the sync set. IDAM_CAPPED says that
more than 64 are, RAW_OVF that the stream has more than RAW_CAP windows. -/
def Obligations.AlignedStreamFramesByWindows : Prop :=
  ∀ (s : State) (bits : List Bool) (n : Nat), bits.length = 16 * n →
    s.regs.bitCount.toNat = bits.length → bitbufHolds s.mem bits →
    (∀ q, q + 16 ≤ bits.length → q % 16 ≠ 0 →
      windowAt bits q ∉ syncPatterns s.params s.regs.ctrl.encoding) →
    let w := min n s.params.rawCap
    let syncs := (List.range w).filter fun i =>
      decide (windowAt bits (16 * i) ∈ syncPatterns s.params s.regs.ctrl.encoding)
    (framed s).raw.map BitVec.toNat = (List.range w).map (fun i => oddBits (windowAt bits (16 * i))) ∧
    (framed s).idam.map IdamEntry.offset = syncs.take 64 ∧
    (framed s).capped = decide (64 < syncs.length) ∧
    (framed s).rawOvf = decide (s.params.rawCap < n)

/-- spec/41_sync_framer.md R263 to R267: any stream frames into the bytes whose windows begin where
`byteStarts` says, as far as RAW has room, since every sync match starts the count of 16 anew, with an
entry for each of the first 64 of them that are matches; the caps as in AlignedStreamFramesByWindows.
R285, first corner case: a sync that begins at stream bit `q`, with no earlier sync, gets IDAM offset
`ceil(q / 16)`, and up to the next sync the bytes from there on are the windows at `q`, `q + 16`,
`q + 32` and so on. -/
def Obligations.FirstSyncGetsItsByteOffset : Prop :=
  (∀ (s : State) (bits : List Bool), s.regs.bitCount.toNat = bits.length →
    bitbufHolds s.mem bits →
    let sync (q : Nat) : Bool :=
      decide (windowAt bits q ∈ syncPatterns s.params s.regs.ctrl.encoding)
    let starts := byteStarts sync bits.length
    let kept := starts.take s.params.rawCap
    (framed s).raw.map BitVec.toNat = kept.map (fun q => oddBits (windowAt bits q)) ∧
    (framed s).idam.map IdamEntry.offset
      = ((List.range kept.length).filter fun i => sync (kept.getD i 0)).take 64 ∧
    (framed s).capped = decide (64 < (kept.filter sync).length) ∧
    (framed s).rawOvf = decide (s.params.rawCap < starts.length)) ∧
  ∀ (s : State) (bits : List Bool) (q : Nat), s.params.wf = true → frameLegal s →
    s.regs.bitCount.toNat = bits.length → bitbufHolds s.mem bits → q + 16 ≤ bits.length →
    windowAt bits q ∈ syncPatterns s.params s.regs.ctrl.encoding →
    (∀ q', q' < q → windowAt bits q' ∉ syncPatterns s.params s.regs.ctrl.encoding) →
    (q + 15) / 16 < s.params.rawCap →
    ∃ t, exec .frame s = .next t ∧ t.regs.idamCount ≠ 0 ∧
      (bufGet t.mem.idam 0).map BitVec.toNat
        = some ((q + 15) / 16 + 65536 * s.regs.ctrl.encoding.toNat) ∧
      ∀ j, q + 16 * j + 16 ≤ bits.length →
        (∀ q', q < q' → q' < q + 16 * j →
          windowAt bits q' ∉ syncPatterns s.params s.regs.ctrl.encoding) →
        (q + 15) / 16 + j < s.params.rawCap →
        (bufGet t.mem.raw ((q + 15) / 16 + j)).map BitVec.toNat
          = some (oddBits (windowAt bits (q + 16 * j)))

/-- spec/41_sync_framer.md R281, R282: the check values of R281; a field followed by its own CRC,
high byte first, has CRC 0; and two fields of one length that differ in one byte have different
CRCs. -/
def Obligations.CrcChecksItsField : Prop :=
  crc16 [0x31, 0x32, 0x33, 0x34, 0x35, 0x36, 0x37, 0x38, 0x39] = 0x29B1 ∧
  crc16 [0xA1, 0xA1, 0xA1] = 0xCDB4 ∧ crc16 [0xA1, 0xA1, 0xA1, 0xFE] = 0xB230 ∧
  (∀ bytes : List Byte, crc16 (withCrc bytes) = 0) ∧
  ∀ (l r : List Byte) (a b : Byte), a ≠ b → crc16 (l ++ a :: r) ≠ crc16 (l ++ b :: r)

/-- spec/41_sync_framer.md R270 to R275, R281 to R283: an ID field and its data field, whatever lies
around them and whatever CRC bytes follow each, make one record: for MFM each behind three sync
bytes, for FM with the sync byte as the mark. ID_CRC_OK and DATA_CRC_OK say each whether the two bytes
after the field are its CRC, high byte first. -/
def Obligations.GoodSectorMakesAGoodRecord : Prop :=
  ∀ (p : Params) (pre gap post data idCrc dataCrc : List Byte)
    (cyl head sector size mark : Byte),
    p.wf = true → p.idamMarks = [0xFE] → mark ∈ p.damMarks → mark ≠ 0xFE →
    data.length = 128 * 2 ^ size.toNat → idCrc.length = 2 → dataCrc.length = 2 →
    let record (enc : BitVec 2) (idField dataField : List Byte) (offset : Nat) : SectorRecord :=
      { cyl := cyl, head := head, sector := sector, sizeCode := size, enc := enc,
        damType := mark, idCrcOk := decide (idCrc = crcBytes idField),
        dataCrcOk := decide (dataCrc = crcBytes dataField), dataOffset := offset,
        dataSize := 128 * 2 ^ size.toNat }
    let mfmId := [0xA1, 0xA1, 0xA1, 0xFE, cyl, head, sector, size]
    let mfmData := [0xA1, 0xA1, 0xA1, mark] ++ data
    let fmId := [0xFE, cyl, head, sector, size]
    let fmData := mark :: data
    let o := pre.length
    let m := o + mfmId.length + 2 + gap.length
    let f := o + fmId.length + 2 + gap.length
    (mark ≠ 0xA1 →
      (parseEntries p 1 (pre ++ mfmId ++ idCrc ++ gap ++ mfmData ++ dataCrc ++ post)
        [⟨o, 1⟩, ⟨o + 1, 1⟩, ⟨o + 2, 1⟩, ⟨m, 1⟩, ⟨m + 1, 1⟩, ⟨m + 2, 1⟩] Parser.reset).sect
        = [record 1 mfmId mfmData (m + 4)]) ∧
    (parseEntries p 0 (pre ++ fmId ++ idCrc ++ gap ++ fmData ++ dataCrc ++ post)
      [⟨o, 0⟩, ⟨f, 0⟩] Parser.reset).sect = [record 0 fmId fmData (f + 1)]

/-- spec/41_sync_framer.md R279: the invariants of the sector table after a parse; R276: the cap, the
records are the first SECTOR_CAP that a table with room for all would get, and the flag says whether
there were more; R270 to R275, R277, R281 to R283: what one entry leaves, from any parser state: an
entry inside a field already parsed, one whose run of sync bytes reaches the end of RAW, an ID field
complete with room or with none or incomplete, an orphan DAM, a data field complete or incomplete, a
mark in neither class. -/
def Obligations.SectorRecordsStayWithinRaw : Prop :=
  (∀ s : State,
    (∀ r ∈ (parsed s).sect,
      r.dataOffset + r.dataSize ≤ (framed s).raw.length ∧
      (r.dataSize = 0 ∨ r.dataSize = 128 * 2 ^ r.sizeCode.toNat) ∧
      (r.dataCrcOk = true → r.dataSize ≠ 0 ∧ (0 ∉ s.params.damMarks → r.damType ≠ 0)) ∧
      r.enc = s.regs.ctrl.encoding) ∧
    (parsed s).sect.length ≤ s.params.sectorCap ∧
    (parsed s).sect.length ≤ (framed s).idam.length) ∧
  (∀ (p : Params) (enc : BitVec 2) (raw : List Byte) (es : List IdamEntry),
    let all := (parseEntries { p with sectorCap := es.length } enc raw es Parser.reset).sect
    let q := parseEntries p enc raw es Parser.reset
    q.sect = all.take p.sectorCap ∧ q.sectCapped = decide (p.sectorCap < all.length)) ∧
  (∀ (p : Params) (enc : BitVec 2) (raw : List Byte) (e : IdamEntry) (es : List IdamEntry)
    (q : Parser),
    parseEntries p enc raw [] q = q ∧
    (e.offset < q.consumed → parseEntries p enc raw (e :: es) q = parseEntries p enc raw es q) ∧
    (q.consumed ≤ e.offset → enc = 1 →
      (∀ j, e.offset ≤ j → j < raw.length → raw[j]? = some 0xA1) →
      parseEntries p enc raw (e :: es) q = q) ∧
    (q.consumed ≤ e.offset → raw.length ≤ e.offset → parseEntries p enc raw (e :: es) q = q)) ∧
  ∀ (p : Params) (enc : BitVec 2) (raw : List Byte) (e : IdamEntry) (es : List IdamEntry)
    (q : Parser) (mp : Nat) (m : Byte), q.consumed ≤ e.offset → markAt enc raw e.offset mp m →
    let continues (q' : Parser) : Prop :=
      parseEntries p enc raw (e :: es) q = parseEntries p enc raw es q'
    (m ∈ p.idamMarks → raw.length ≤ mp + 6 →
      continues { q with consumed := raw.length, awaiting := none }) ∧
    (m ∈ p.idamMarks → mp + 6 < raw.length → q.sect.length = p.sectorCap →
      continues { q with consumed := mp + 7, awaiting := none, sectCapped := true }) ∧
    (∀ c h r n hi lo, m ∈ p.idamMarks → q.sect.length ≠ p.sectorCap →
      raw[mp + 1]? = some c → raw[mp + 2]? = some h → raw[mp + 3]? = some r →
      raw[mp + 4]? = some n → raw[mp + 5]? = some hi → raw[mp + 6]? = some lo →
      continues { q with
        consumed := mp + 7, awaiting := some q.sect.length
        sect := q.sect ++ [{
          cyl := c, head := h, sector := r, sizeCode := n, enc := enc, damType := 0
          idCrcOk := decide (crcBytes ((raw.drop e.offset).take (mp + 5 - e.offset)) = [hi, lo])
          dataCrcOk := false, dataOffset := 0, dataSize := 0 }] }) ∧
    (m ∉ p.idamMarks → m ∈ p.damMarks → q.awaiting = none →
      continues { q with consumed := mp + 1 }) ∧
    (∀ i r, m ∉ p.idamMarks → m ∈ p.damMarks → q.awaiting = some i → q.sect[i]? = some r →
      raw.length < mp + 1 + 128 * 2 ^ r.sizeCode.toNat + 2 →
      continues { q with
        consumed := mp + 1, awaiting := none
        sect := q.sect.set i
          { r with damType := m, dataOffset := mp + 1, dataSize := 0, dataCrcOk := false } }) ∧
    (∀ i r hi lo, m ∉ p.idamMarks → m ∈ p.damMarks → q.awaiting = some i →
      q.sect[i]? = some r → let size := 128 * 2 ^ r.sizeCode.toNat
      raw[mp + 1 + size]? = some hi → raw[mp + 2 + size]? = some lo →
      continues { q with
        consumed := mp + size + 3, awaiting := none
        sect := q.sect.set i { r with
          damType := m, dataOffset := mp + 1, dataSize := size
          dataCrcOk := decide
            (crcBytes ((raw.drop e.offset).take (mp + size + 1 - e.offset)) = [hi, lo]) } }) ∧
    (m ∉ p.idamMarks → m ∉ p.damMarks → continues { q with consumed := mp })

/-- spec/41_sync_framer.md R290: DECODE_FRAME is PLL_DECODE, then FRAME with BIT_COUNT as it was
left, with one completion; where validation fails nothing is written. -/
def Obligations.DecodeFrameIsDecodeThenFrame : Prop :=
  ∀ s : State,
    (s.params.wf = true → decodeLegal s →
      ∃ u t, exec .pllDecode s = .next u ∧ frameLegal u ∧ exec .frame u = .next t ∧
        exec .decodeFrame s = .next t) ∧
    (¬ decodeLegal s → ∃ code, exec .pllDecode s = .next (failedWith code s) ∧
      exec .decodeFrame s = .next (failedWith code s))

/-- spec/20_memory.md R108 for DECODE_FRAME: the frame of a completion, failed or successful. -/
def Obligations.DecodeFrameLeavesTheRest : Prop :=
  ∀ s t : State, exec .decodeFrame s = .next t →
    t = { s with
      eng := .idle, regs := t.regs, mem := t.mem, pll := t.pll, framer := t.framer,
      parser := t.parser, uninitRead := t.uninitRead, draws := t.draws } ∧
    t.regs = { s.regs with
      bitCount := t.regs.bitCount, pllIntervals := t.regs.pllIntervals,
      tokensDropped := t.regs.tokensDropped, pllT0 := t.regs.pllT0, pllPhase := t.regs.pllPhase,
      pllFreq := t.regs.pllFreq, rawLen := t.regs.rawLen, idamCount := t.regs.idamCount,
      sectorCount := t.regs.sectorCount, crcErrors := t.regs.crcErrors,
      status := t.regs.status } ∧
    t.regs.status.wbOvf = s.regs.status.wbOvf ∧
    t.regs.status.rejected = s.regs.status.rejected ∧
    (∀ b, b ≠ .bitbuf → b ≠ .raw → t.mem.bytes b = s.mem.bytes b) ∧
    (∀ b, b ≠ .idam → b ≠ .sect → t.mem.words b = s.mem.words b) ∧
    (∀ i, (if decodeLegal s then byteCount (decoded s).out.length else 0) ≤ i →
      bufGet t.mem.bitbuf i = bufGet s.mem.bitbuf i) ∧
    (∀ i, (if decodeLegal s then (framed (decodeBody s)).raw.length else 0) ≤ i →
      bufGet t.mem.raw i = bufGet s.mem.raw i) ∧
    (∀ i, (if decodeLegal s then (framed (decodeBody s)).idam.length else 0) ≤ i →
      bufGet t.mem.idam i = bufGet s.mem.idam i) ∧
    ∀ i, (if decodeLegal s then 3 * (parsed (decodeBody s)).sect.length else 0) ≤ i →
      bufGet t.mem.sect i = bufGet s.mem.sect i

/-! ## WB_DETECT -/

/-- spec/42_weakbit.md R331. -/
def Obligations.DetectValidatesInOrder : Prop :=
  ∀ s : State,
    (s.regs.wbRevs.toNat < 2 → exec .wbDetect s = .next (failedWith 3 s)) ∧
    (2 ≤ s.regs.wbRevs.toNat → s.regs.wbLength = 0 → exec .wbDetect s = .next (failedWith 2 s)) ∧
    (2 ≤ s.regs.wbRevs.toNat → s.regs.wbLength ≠ 0 →
      10 < s.regs.wbRevs.toNat ∨ s.params.revCap < s.regs.wbLength.toNat →
      exec .wbDetect s = .next (failedWith 4 s)) ∧
    (detectLegal s → ∃ t, exec .wbDetect s = .next t ∧ t.regs.status.err = false)

/-- spec/42_weakbit.md R343, R345 and spec/30_encoding.md R172, R173: what a successful WB_DETECT
leaves, given where its scan ends. A count of 2^32 or more leaves WB_COUNT open (log 11). -/
def Obligations.DetectCommitsItsReport : Prop :=
  ∀ s : State, s.params.wf = true → detectLegal s →
    ∃ t, exec .wbDetect s = .next t ∧ t.eng = .idle ∧
      ((detected s).count < 2 ^ 32 → t.regs.wbCount.toNat = (detected s).count) ∧
      t.regs.wbRecords.toNat = (detected s).recs.length ∧
      t.regs.wbBytes.toNat = (detected s).bytes.length ∧
      t.regs.bytesAnalyzed = s.regs.wbLength ∧
      t.regs.bitsAnalyzed.toNat = 8 * s.regs.wbLength.toNat ∧
      t.regs.density = F64.div (F64.ofNat ((detected s).count * 1000))
        (F64.ofNat (8 * s.regs.wbLength.toNat)) ∧
      t.regs.status
        = { s.regs.status with
            done := true, err := false, errcode := 0, wbOvf := (detected s).ovf } ∧
      (∀ i r, (detected s).recs[i]? = some r → ∀ j, j < 3 →
        (bufGet t.mem.wbrec (3 * i + j)).map BitVec.toNat = some (weakWord r j)) ∧
      (∀ i o, (detected s).bytes[i]? = some o →
        (bufGet t.mem.wbbyte i).map BitVec.toNat = some o) ∧
      (∀ i, 3 * (detected s).recs.length ≤ i → bufGet t.mem.wbrec i = bufGet s.mem.wbrec i) ∧
      ∀ i, (detected s).bytes.length ≤ i → bufGet t.mem.wbbyte i = bufGet s.mem.wbbyte i

/-- spec/42_weakbit.md R344 and spec/20_memory.md R108: the frame of a completion, failed or
successful. -/
def Obligations.DetectLeavesTheRest : Prop :=
  ∀ s t : State, exec .wbDetect s = .next t →
    t = { s with
      eng := .idle, regs := t.regs, mem := t.mem, cmp := t.cmp, uninitRead := t.uninitRead,
      draws := t.draws } ∧
    t.regs = { s.regs with
      wbCount := t.regs.wbCount, wbRecords := t.regs.wbRecords, wbBytes := t.regs.wbBytes,
      bytesAnalyzed := t.regs.bytesAnalyzed, bitsAnalyzed := t.regs.bitsAnalyzed,
      density := t.regs.density, status := t.regs.status } ∧
    t.regs.status = { s.regs.status with
      done := true, err := t.regs.status.err, errcode := t.regs.status.errcode,
      wbOvf := t.regs.status.wbOvf } ∧
    (∀ b, t.mem.bytes b = s.mem.bytes b) ∧
    (∀ b, b ≠ .wbrec → b ≠ .wbbyte → t.mem.words b = s.mem.words b) ∧
    (∀ i, (if detectLegal s then 3 * (detected s).recs.length else 0) ≤ i →
      bufGet t.mem.wbrec i = bufGet s.mem.wbrec i) ∧
    ∀ i, (if detectLegal s then (detected s).bytes.length else 0) ≤ i →
      bufGet t.mem.wbbyte i = bufGet s.mem.wbbyte i

/-- spec/42_weakbit.md R330, R333 to R339, R342: over written revolutions, `count` is the number of
weak positions, the records are the first WB_CAP of them in scan order, each with its samples,
`200 div K`, 2 and its pattern, and the overflow flag says whether any was left out. -/
def Obligations.RecordsAreTheWeakPositions : Prop :=
  ∀ s : State, detectLegal s → revsWritten s →
    (detected s).count = (weakPositions s).length ∧
    (detected s).recs.map (fun r => (r.offset, r.bit)) = (weakPositions s).take s.params.wbCap ∧
    (detected s).ovf = decide (s.params.wbCap < (weakPositions s).length) ∧
    ∀ r ∈ (detected s).recs,
      r.variation = 200 / s.regs.wbRevs.toNat ∧ r.sampleCount = 2 ∧
      r.samples = samplesAt s r.offset r.bit ∧
      r.pattern.code.toNat = patternOf s.regs.ctrl.wbPattern r.samples

/-- spec/42_weakbit.md R340, R342 and spec/10_state.md R69: over written revolutions the byte list
is the first WB_CAP offsets that hold a weak bit, rising, where the flag is set, and empty where it
is not. -/
def Obligations.WeakBytesAreTheWeakOffsets : Prop :=
  ∀ s : State, detectLegal s → revsWritten s →
    (s.regs.ctrl.wbByteLevel = true →
      (detected s).bytes = ((List.range s.regs.wbLength.toNat).filter fun o =>
        (List.range 8).any (isWeak s o)).take s.params.wbCap) ∧
    (s.regs.ctrl.wbByteLevel = false → (detected s).bytes = []) ∧
    (detected s).bytes.Pairwise (· < ·)

/-- spec/42_weakbit.md R335: byte-identical revolutions report nothing, whatever the threshold. -/
def Obligations.IdenticalRevolutionsReportNothing : Prop :=
  ∀ s : State, detectLegal s → revsWritten s →
    (∀ r : Fin 10, r.val < s.regs.wbRevs.toNat → ∀ o, o < s.regs.wbLength.toNat →
      bufGet (s.mem.bytes (.rev r)) o = bufGet (s.mem.bytes (.rev 0)) o) →
    ∃ t, exec .wbDetect s = .next t ∧ t.regs.wbCount = 0 ∧ t.regs.wbRecords = 0 ∧
      t.regs.wbBytes = 0 ∧ t.regs.density = 0 ∧ t.regs.status.wbOvf = false

/-- spec/42_weakbit.md R341: the two flags touch only the byte list and the pattern field. -/
def Obligations.ReportFlagsAreIndependent : Prop :=
  ∀ (s : State) (byteLevel pattern : Bool),
    let s' := { s with
      regs := { s.regs with
        ctrl := { s.regs.ctrl with wbByteLevel := byteLevel, wbPattern := pattern } } }
    (detected s').count = (detected s).count ∧
    (detected s').recs.map (fun r => { r with pattern := .none })
      = (detected s).recs.map (fun r => { r with pattern := .none }) ∧
    (pattern = s.regs.ctrl.wbPattern → (detected s').recs = (detected s).recs) ∧
    (byteLevel = s.regs.ctrl.wbByteLevel → (detected s').bytes = (detected s).bytes) ∧
    ∀ t t', exec .wbDetect s = .next t → exec .wbDetect s' = .next t' →
      t'.regs.wbCount = t.regs.wbCount ∧ t'.regs.wbRecords = t.regs.wbRecords ∧
      t'.regs.density = t.regs.density

end Statements
end

