-- ==== Sys2Proof/Laws/Binary64.lean ====
section
/-! SUPPORT. The laws of binary64 encodings: packing, the order, clamping, and that rounding is
exact on binary64 values and monotone. -/

namespace Sys2Proof.Machine

namespace F64

theorem toNat_pack (n : Bool) {m : Nat} (h : m < 2 ^ 63) :
    (pack n m).toNat = (if n then 2 ^ 63 else 0) + m := by
  unfold pack
  rw [BitVec.toNat_ofNat]
  split_ifs <;> omega

@[simp] theorem mag_pack (n : Bool) {m : Nat} (h : m < 2 ^ 63) : mag (pack n m) = m := by
  unfold mag
  rw [toNat_pack n h]
  split_ifs <;> omega

@[simp] theorem neg_pack (n : Bool) {m : Nat} (h : m < 2 ^ 63) : neg (pack n m) = n := by
  unfold neg
  rw [BitVec.msb_eq_decide, toNat_pack n h]
  cases n
  · simp; omega
  · simp

theorem mag_lt (x : F64) : mag x < 2 ^ 63 := Nat.mod_lt _ (by decide)

/-- An encoding is its sign and its magnitude bits. -/
theorem pack_neg_mag (x : F64) : pack (neg x) (mag x) = x := by
  apply BitVec.eq_of_toNat_eq
  rw [toNat_pack _ (mag_lt x)]
  unfold neg mag
  rw [BitVec.msb_eq_decide]
  have := x.isLt
  by_cases h : 2 ^ 63 ≤ x.toNat
  · rw [if_pos (by simpa using h)]; omega
  · rw [if_neg (by simpa using h)]; omega

theorem infMag_lt : infMag < 2 ^ 63 := by decide

/-! ## Rounding -/

theorem one_pos : 0 < one := by unfold one; positivity

/-- The magnitude bits of a rounded value are at most those of infinity. -/
theorem roundMag_le (num den : Nat) : roundMag num den ≤ infMag := by
  unfold roundMag; exact Nat.min_le_right _ _

theorem roundMag_lt (num den : Nat) : roundMag num den < 2 ^ 63 :=
  Nat.lt_of_le_of_lt (roundMag_le num den) infMag_lt

/-- A rounded value is no NaN. -/
theorem isNaN_pack_roundMag (n : Bool) (num den : Nat) :
    isNaN (pack n (roundMag num den)) = false := by
  have := roundMag_le num den
  simp only [isNaN, mag_pack n (roundMag_lt num den), decide_eq_false_iff_not]
  omega

theorem log2_shift {f e : Nat} (hf : f < 2 ^ 52) : Nat.log2 ((2 ^ 52 + f) * 2 ^ e) = 52 + e := by
  have hne : (2 ^ 52 + f) * 2 ^ e ≠ 0 := by positivity
  apply Nat.le_antisymm
  · rw [← Nat.lt_succ_iff, Nat.log2_lt hne, Nat.succ_eq_add_one, Nat.add_right_comm, Nat.pow_add]
    exact Nat.mul_lt_mul_of_pos_right (by omega) (by positivity)
  · rw [Nat.le_log2 hne, Nat.pow_add]
    exact Nat.mul_le_mul_right _ (by omega)

/-- Rounding is exact on the values of finite encodings. -/
theorem roundMag_exact {m d : Nat} (hm : m < infMag) (hd : 0 < d) :
    roundMag (d * magUnits m) d = m := by
  unfold roundMag
  rw [Nat.mul_div_cancel_left _ hd]
  unfold magUnits
  by_cases he : m / 2 ^ 52 = 0
  · rw [if_pos he]
    have hm52 : m < 2 ^ 52 := by omega
    have hlog : Nat.log2 m - 52 = 0 := by
      by_cases h0 : m = 0
      · subst h0; decide
      · have := (Nat.log2_lt h0).2 hm52; omega
    simp only [hlog, pow_zero, Nat.mul_one, Nat.mul_div_cancel_left _ hd, Nat.mul_mod_right]
    rw [if_neg (by omega)]
    omega
  · rw [if_neg he]
    have hf : m % 2 ^ 52 < 2 ^ 52 := Nat.mod_lt _ (by decide)
    have hk : 52 + (m / 2 ^ 52 - 1) - 52 = m / 2 ^ 52 - 1 := by omega
    have hpos : 0 < d * 2 ^ (m / 2 ^ 52 - 1) := by positivity
    have hnum : d * ((2 ^ 52 + m % 2 ^ 52) * 2 ^ (m / 2 ^ 52 - 1))
        = d * 2 ^ (m / 2 ^ 52 - 1) * (2 ^ 52 + m % 2 ^ 52) := by ring
    simp only [log2_shift hf, hk, hnum, Nat.mul_div_cancel_left _ hpos, Nat.mul_mod_right]
    rw [if_neg (by omega)]
    omega

/-- Rounding is exact on finite encodings themselves. -/
theorem pack_roundMag_units {x : F64} (h : isFinite x = true) :
    pack (neg x) (roundMag (units x) 1) = x := by
  have hm : mag x < infMag := by simpa [isFinite] using h
  have := roundMag_exact hm Nat.one_pos
  rw [Nat.one_mul] at this
  unfold units
  rw [this, pack_neg_mag]

/-- The rounded significand of `num / d`. -/
def roundQuot (num d : Nat) : Nat :=
  if d < 2 * (num % d) ∨ (2 * (num % d) = d ∧ num / d % 2 = 1) then num / d + 1 else num / d

theorem roundMag_eq (num den : Nat) :
    roundMag num den
      = Min.min (2 ^ 52 * (Nat.log2 (num / den) - 52)
          + roundQuot num (den * 2 ^ (Nat.log2 (num / den) - 52))) infMag := by
  unfold roundMag roundQuot; rfl

theorem roundQuot_mono {a b d : Nat} (h : a ≤ b) : roundQuot a d ≤ roundQuot b d := by
  have hq : a / d ≤ b / d := Nat.div_le_div_right h
  unfold roundQuot
  rcases Nat.lt_or_ge (a / d) (b / d) with hlt | hge
  · split_ifs <;> omega
  · have hqe : a / d = b / d := Nat.le_antisymm hq hge
    have ha := Nat.div_add_mod a d
    have hb := Nat.div_add_mod b d
    rw [hqe] at ha ⊢
    have hr : a % d ≤ b % d := by omega
    split_ifs <;> omega

theorem roundQuot_bounds (a d : Nat) : a / d ≤ roundQuot a d ∧ roundQuot a d ≤ a / d + 1 := by
  unfold roundQuot; split_ifs <;> omega

/-- Rounding is monotone. -/
theorem roundMag_mono {a b d : Nat} (h : a ≤ b) : roundMag a d ≤ roundMag b d := by
  rw [roundMag_eq, roundMag_eq]
  apply min_le_min_right
  have hq : a / d ≤ b / d := Nat.div_le_div_right h
  have hlog : Nat.log2 (a / d) ≤ Nat.log2 (b / d) := by
    by_cases h0 : a / d = 0
    · rw [h0]; simp
    · have hb : b / d ≠ 0 := fun hb => h0 (Nat.le_zero.1 (hb ▸ hq))
      exact (Nat.le_log2 hb).2 (Nat.le_trans (Nat.log2_self_le h0) hq)
  rcases Nat.lt_or_ge (Nat.log2 (a / d) - 52) (Nat.log2 (b / d) - 52) with hlt | hge
  · -- the larger value has a larger exponent
    have ha : a / (d * 2 ^ (Nat.log2 (a / d) - 52)) < 2 ^ 53 := by
      rw [← Nat.div_div_eq_div_mul]
      by_cases h0 : a / d = 0
      · rw [h0]; simp
      · have hp : Nat.log2 (a / d) < 53 + (Nat.log2 (a / d) - 52) := by omega
        rw [Nat.div_lt_iff_lt_mul (by positivity), ← Nat.pow_add]
        exact (Nat.log2_lt h0).1 hp
    have hb : 2 ^ 52 ≤ b / (d * 2 ^ (Nat.log2 (b / d) - 52)) := by
      rw [← Nat.div_div_eq_div_mul]
      have h0 : b / d ≠ 0 := by
        intro h0; rw [h0] at hlt; simp at hlt
      have hp : 52 + (Nat.log2 (b / d) - 52) ≤ Nat.log2 (b / d) := by omega
      rw [Nat.le_div_iff_mul_le (by positivity), ← Nat.pow_add]
      exact (Nat.le_log2 h0).1 hp
    have h1 := (roundQuot_bounds a (d * 2 ^ (Nat.log2 (a / d) - 52))).2
    have h2 := (roundQuot_bounds b (d * 2 ^ (Nat.log2 (b / d) - 52))).1
    generalize roundQuot a (d * 2 ^ (Nat.log2 (a / d) - 52)) = x at *
    generalize roundQuot b (d * 2 ^ (Nat.log2 (b / d) - 52)) = y at *
    generalize a / (d * 2 ^ (Nat.log2 (a / d) - 52)) = u at *
    generalize b / (d * 2 ^ (Nat.log2 (b / d) - 52)) = v at *
    omega
  · have hk : Nat.log2 (a / d) - 52 = Nat.log2 (b / d) - 52 := by omega
    rw [hk]
    exact Nat.add_le_add_left (roundQuot_mono h) _

/-! ## Order and clamp -/

theorem lt_iff {x y : F64} (hx : isNaN x = false) (hy : isNaN y = false) :
    lt x y = true ↔ key x < key y := by simp [lt, hx, hy]

theorem le_iff {x y : F64} (hx : isNaN x = false) (hy : isNaN y = false) :
    le x y = true ↔ key x ≤ key y := by simp [le, hx, hy]

/-- A clamp between ordered bounds lies between them (spec/00_scope.md R11). -/
theorem clamp_between {x lo hi : F64} (hx : isNaN x = false) (hlo : isNaN lo = false)
    (hhi : isNaN hi = false) (h : le lo hi = true) :
    le lo (clamp x lo hi) = true ∧ le (clamp x lo hi) hi = true := by
  rw [le_iff hlo hhi] at h
  unfold clamp F64.min F64.max
  by_cases h1 : lt x lo = true
  · rw [if_pos h1]
    by_cases h2 : lt hi lo = true
    · rw [if_pos h2]; exact ⟨(le_iff hlo hhi).2 h, (le_iff hhi hhi).2 (Int.le_refl _)⟩
    · rw [if_neg h2]; exact ⟨(le_iff hlo hlo).2 (Int.le_refl _), (le_iff hlo hhi).2 h⟩
  · rw [if_neg h1]
    rw [lt_iff hx hlo] at h1
    by_cases h2 : lt hi x = true
    · rw [if_pos h2]; exact ⟨(le_iff hlo hhi).2 h, (le_iff hhi hhi).2 (Int.le_refl _)⟩
    · rw [if_neg h2]
      rw [lt_iff hhi hx] at h2
      exact ⟨(le_iff hlo hx).2 (by omega), (le_iff hx hhi).2 (by omega)⟩

/-- A value already within the bounds is its own clamp. -/
theorem clamp_self {x lo hi : F64} (hlo : le lo x = true) (hhi : le x hi = true) :
    clamp x lo hi = x := by
  simp only [le, Bool.and_eq_true, Bool.not_eq_true', decide_eq_true_eq] at hlo hhi
  have h1 : lt x lo = false := by simp [lt]; intros; omega
  have h2 : lt hi x = false := by simp [lt]; intros; omega
  simp [clamp, F64.min, F64.max, h1, h2]

end F64

end Sys2Proof.Machine
end

