-- ==== Sys2Proof/Laws/Memory.lean ====
section
/-! SUPPORT. The laws of buffers: reading after writing, and that every write keeps the canonical
form and the bounds. Then the laws of packed bit streams. -/

namespace Sys2Proof.Machine

/-! ## One cell -/

@[simp] theorem bufGet_nil {w : Nat} (i : Nat) : bufGet ([] : Buf w) i = none := rfl

theorem bufGet_bufSet_same {w : Nat} (m : Buf w) (i : Nat) (v : BitVec w) :
    bufGet (bufSet m i v) i = some v := by
  induction m with
  | nil => simp [bufSet, bufGet]
  | cons c rest ih =>
    obtain ⟨a, u⟩ := c
    unfold bufSet
    split_ifs with h1 h2
    · simp [bufGet]
    · simp [bufGet]
    · have : a ≠ i := fun h => h2 h.symm
      simpa [bufGet, this] using ih

theorem bufGet_bufSet_other {w : Nat} (m : Buf w) {i j : Nat} (v : BitVec w) (h : j ≠ i) :
    bufGet (bufSet m i v) j = bufGet m j := by
  induction m with
  | nil => simp [bufSet, bufGet, Ne.symm h]
  | cons c rest ih =>
    obtain ⟨a, u⟩ := c
    unfold bufSet
    split_ifs with h1 h2
    · simp [bufGet, Ne.symm h]
    · subst h2; simp [bufGet, Ne.symm h]
    · by_cases ha : a = j <;> simp [bufGet, ha, ih]

theorem mem_bufSet {w : Nat} {m : Buf w} {i : Nat} {v : BitVec w} {c : Nat × BitVec w}
    (h : c ∈ bufSet m i v) : c = (i, v) ∨ c ∈ m := by
  induction m with
  | nil => simpa [bufSet] using h
  | cons d rest ih =>
    obtain ⟨a, u⟩ := d
    unfold bufSet at h
    split_ifs at h with h1 h2
    · simpa using h
    · rcases List.mem_cons.1 h with h | h
      · exact .inl h
      · exact .inr (List.mem_cons_of_mem _ h)
    · rcases List.mem_cons.1 h with h | h
      · exact .inr (by simp [h])
      · rcases ih h with h | h
        · exact .inl h
        · exact .inr (List.mem_cons_of_mem _ h)

theorem bufWf_bufSet {w : Nat} {m : Buf w} (i : Nat) (v : BitVec w) (h : bufWf m = true) :
    bufWf (bufSet m i v) = true := by
  simp only [bufWf, decide_eq_true_eq] at h ⊢
  induction m with
  | nil => simp [bufSet]
  | cons c rest ih =>
    obtain ⟨a, u⟩ := c
    rw [List.pairwise_cons] at h
    unfold bufSet
    split_ifs with h1 h2
    · refine List.pairwise_cons.2 ⟨?_, List.pairwise_cons.2 h⟩
      intro d hd
      rcases List.mem_cons.1 hd with hd | hd
      · simpa [hd] using h1
      · exact Nat.lt_trans h1 (h.1 d hd)
    · exact List.pairwise_cons.2 ⟨by subst h2; exact h.1, h.2⟩
    · refine List.pairwise_cons.2 ⟨?_, ih h.2⟩
      intro d hd
      rcases mem_bufSet hd with hd | hd
      · subst hd; show a < i; omega
      · exact h.1 d hd

theorem bufBelow_bufSet {w n : Nat} {m : Buf w} {i : Nat} (v : BitVec w) (hi : i < n)
    (h : bufBelow n m = true) : bufBelow n (bufSet m i v) = true := by
  simp only [bufBelow, decide_eq_true_eq] at h ⊢
  intro c hc
  rcases mem_bufSet hc with hc | hc
  · subst hc; exact hi
  · exact h c hc

/-- Canonical buffers that read alike are equal. -/
theorem buf_ext {w : Nat} {m m' : Buf w} (h : bufWf m = true) (h' : bufWf m' = true)
    (e : ∀ i, bufGet m i = bufGet m' i) : m = m' := by
  simp only [bufWf, decide_eq_true_eq] at h h'
  revert h h' e
  have key : ∀ {l : Buf w} {i : Nat}, (∀ c ∈ l, i < c.1) → bufGet l i = none := by
    intro l i hl
    induction l with
    | nil => rfl
    | cons c rest ih =>
      obtain ⟨a, u⟩ := c
      have h1 : i < a := hl (a, u) (by simp)
      simp [bufGet, Nat.ne_of_gt h1, ih fun c hc => hl c (List.mem_cons_of_mem _ hc)]
  intro e h h'
  induction m generalizing m' with
  | nil =>
    cases m' with
    | nil => rfl
    | cons c rest => obtain ⟨a, u⟩ := c; simpa [bufGet] using e a
  | cons c rest ih =>
    obtain ⟨a, u⟩ := c
    cases m' with
    | nil => simpa [bufGet] using e a
    | cons c' rest' =>
      obtain ⟨a', u'⟩ := c'
      rw [List.pairwise_cons] at h h'
      have hr := key h.1
      have hr' := key h'.1
      have haa : a = a' := by
        rcases Nat.lt_trichotomy a a' with hlt | heq | hgt
        · have := e a
          rw [show bufGet ((a', u') :: rest') a = none from
            key fun c hc => by
              rcases List.mem_cons.1 hc with hc | hc
              · simpa [hc] using hlt
              · exact Nat.lt_trans hlt (h'.1 c hc)] at this
          simp [bufGet] at this
        · exact heq
        · have := e a'
          rw [show bufGet ((a, u) :: rest) a' = none from
            key fun c hc => by
              rcases List.mem_cons.1 hc with hc | hc
              · simpa [hc] using hgt
              · exact Nat.lt_trans hgt (h.1 c hc)] at this
          simp [bufGet] at this
      subst haa
      have huu : u = u' := by simpa [bufGet] using e a
      subst huu
      have tails : ∀ i, bufGet rest i = bufGet rest' i := by
        intro i
        by_cases hai : a = i
        · subst hai; rw [hr, hr']
        · simpa [bufGet, hai] using e i
      rw [ih tails h.2 h'.2]

/-! ## Consecutive cells -/

theorem bufGet_bufWrite_in {w : Nat} (m : Buf w) (i : Nat) (vs : List (BitVec w)) (k : Nat)
    (hk : k < vs.length) : bufGet (bufWrite m i vs) (i + k) = some vs[k] := by
  have low : ∀ (vs : List (BitVec w)) (m : Buf w) (i j : Nat), j < i →
      bufGet (bufWrite m i vs) j = bufGet m j := by
    intro vs
    induction vs with
    | nil => intros; rfl
    | cons v vs ih =>
      intro m i j h
      rw [bufWrite, ih _ _ _ (by omega), bufGet_bufSet_other _ _ (by omega)]
  induction vs generalizing m i k with
  | nil => simp at hk
  | cons v vs ih =>
    cases k with
    | zero => simp [bufWrite, low vs _ (i + 1) i (by omega), bufGet_bufSet_same]
    | succ k =>
      have := ih (bufSet m i v) (i + 1) k (by simpa using hk)
      simpa [bufWrite, Nat.add_assoc, Nat.add_comm 1 k] using this

theorem bufGet_bufWrite_out {w : Nat} (m : Buf w) (i : Nat) (vs : List (BitVec w)) {j : Nat}
    (h : j < i ∨ i + vs.length ≤ j) : bufGet (bufWrite m i vs) j = bufGet m j := by
  induction vs generalizing m i with
  | nil => rfl
  | cons v vs ih =>
    simp only [List.length_cons] at h
    rw [bufWrite, ih _ _ (by omega), bufGet_bufSet_other _ _ (by omega)]

theorem bufWf_bufWrite {w : Nat} {m : Buf w} (i : Nat) (vs : List (BitVec w))
    (h : bufWf m = true) : bufWf (bufWrite m i vs) = true := by
  induction vs generalizing m i with
  | nil => exact h
  | cons v vs ih => exact ih _ (bufWf_bufSet i v h)

theorem bufBelow_bufWrite {w n : Nat} {m : Buf w} {i : Nat} (vs : List (BitVec w))
    (hi : i + vs.length ≤ n) (h : bufBelow n m = true) : bufBelow n (bufWrite m i vs) = true := by
  induction vs generalizing m i with
  | nil => exact h
  | cons v vs ih =>
    simp only [List.length_cons] at hi
    exact ih (by omega) (bufBelow_bufSet v (by omega) h)

/-! ## Packed streams -/

@[simp] theorem packBits_length (bits : List Bool) :
    (packBits bits).length = (bits.length + 7) / 8 := by simp [packBits]

theorem packBits_getElem (bits : List Bool) (i : Nat) (h : i < (packBits bits).length) :
    (packBits bits)[i] = packByte (bits.drop (8 * i)) := by simp [packBits]

theorem streamBit_byteOfBits (b7 b6 b5 b4 b3 b2 b1 b0 : Bool) (k : Fin 8) :
    streamBit (byteOfBits b7 b6 b5 b4 b3 b2 b1 b0) k.val
      = [b7, b6, b5, b4, b3, b2, b1, b0][k.val] := by
  revert b7 b6 b5 b4 b3 b2 b1 b0 k
  decide +kernel

/-- Stream bit `k` is bit `7 - (k mod 8)` of byte `k div 8` (spec/00_scope.md R9). -/
theorem streamBit_packByte_drop (bits : List Bool) (k : Nat) :
    streamBit (packByte (bits.drop (8 * (k / 8)))) k = bits.getD k false := by
  have hk : k % 8 < 8 := Nat.mod_lt _ (by decide)
  have h1 := streamBit_byteOfBits (bits.getD (8 * (k / 8)) false)
    (bits.getD (8 * (k / 8) + 1) false) (bits.getD (8 * (k / 8) + 2) false)
    (bits.getD (8 * (k / 8) + 3) false) (bits.getD (8 * (k / 8) + 4) false)
    (bits.getD (8 * (k / 8) + 5) false) (bits.getD (8 * (k / 8) + 6) false)
    (bits.getD (8 * (k / 8) + 7) false) ⟨k % 8, hk⟩
  have h2 : streamBit (packByte (bits.drop (8 * (k / 8)))) k
      = streamBit (packByte (bits.drop (8 * (k / 8)))) (k % 8) := by
    simp [streamBit]
  rw [h2]
  simp only [packByte, List.getD_eq_getElem?_getD, List.getElem?_drop] at h1 ⊢
  rw [Nat.add_zero, h1]
  have hdiv : 8 * (k / 8) + k % 8 = k := Nat.div_add_mod k 8
  generalize k % 8 = r at *
  generalize k / 8 = q at *
  subst hdiv
  interval_cases r <;> rfl

end Sys2Proof.Machine
end

