-- ==== Sys2Proof/Laws/State.lean ====
section
/-! SUPPORT. One lemma per field of State for each named update of the machine, so that no proof
unfolds a record update. -/

namespace Sys2Proof.Machine

/-! ## failCommand -/

@[simp] theorem failCommand_params (e : ErrCode) (s : State) : (failCommand e s).params = s.params := rfl
@[simp] theorem failCommand_regs (e : ErrCode) (s : State) :
    (failCommand e s).regs = { s.regs with status := s.regs.status.fail e } := rfl
@[simp] theorem failCommand_mem (e : ErrCode) (s : State) : (failCommand e s).mem = s.mem := rfl
@[simp] theorem failCommand_eng (e : ErrCode) (s : State) :
    (failCommand e s).eng = .idle := rfl
@[simp] theorem failCommand_pll (e : ErrCode) (s : State) : (failCommand e s).pll = s.pll := rfl
@[simp] theorem failCommand_framer (e : ErrCode) (s : State) : (failCommand e s).framer = s.framer := rfl
@[simp] theorem failCommand_parser (e : ErrCode) (s : State) : (failCommand e s).parser = s.parser := rfl
@[simp] theorem failCommand_cmp (e : ErrCode) (s : State) : (failCommand e s).cmp = s.cmp := rfl
@[simp] theorem failCommand_uninitRead (e : ErrCode) (s : State) : (failCommand e s).uninitRead = s.uninitRead := rfl
@[simp] theorem failCommand_draws (e : ErrCode) (s : State) : (failCommand e s).draws = s.draws := rfl
@[simp] theorem failCommand_hostDraws (e : ErrCode) (s : State) :
    (failCommand e s).hostDraws = s.hostDraws := rfl
@[simp] theorem failCommand_pending (e : ErrCode) (s : State) : (failCommand e s).pending = s.pending := rfl
@[simp] theorem failCommand_returned (e : ErrCode) (s : State) : (failCommand e s).returned = s.returned := rfl
@[simp] theorem failCommand_turns (e : ErrCode) (s : State) : (failCommand e s).turns = s.turns := rfl

/-! ## succeedCommand -/

@[simp] theorem succeedCommand_params (s : State) : (succeedCommand s).params = s.params := rfl
@[simp] theorem succeedCommand_regs (s : State) :
    (succeedCommand s).regs = { s.regs with status := s.regs.status.succeed } := rfl
@[simp] theorem succeedCommand_mem (s : State) : (succeedCommand s).mem = s.mem := rfl
@[simp] theorem succeedCommand_eng (s : State) :
    (succeedCommand s).eng = .idle := rfl
@[simp] theorem succeedCommand_pll (s : State) : (succeedCommand s).pll = s.pll := rfl
@[simp] theorem succeedCommand_framer (s : State) : (succeedCommand s).framer = s.framer := rfl
@[simp] theorem succeedCommand_parser (s : State) : (succeedCommand s).parser = s.parser := rfl
@[simp] theorem succeedCommand_cmp (s : State) : (succeedCommand s).cmp = s.cmp := rfl
@[simp] theorem succeedCommand_uninitRead (s : State) : (succeedCommand s).uninitRead = s.uninitRead := rfl
@[simp] theorem succeedCommand_draws (s : State) : (succeedCommand s).draws = s.draws := rfl
@[simp] theorem succeedCommand_hostDraws (s : State) :
    (succeedCommand s).hostDraws = s.hostDraws := rfl
@[simp] theorem succeedCommand_pending (s : State) : (succeedCommand s).pending = s.pending := rfl
@[simp] theorem succeedCommand_returned (s : State) : (succeedCommand s).returned = s.returned := rfl
@[simp] theorem succeedCommand_turns (s : State) : (succeedCommand s).turns = s.turns := rfl

/-! ## rejectWrite -/

@[simp] theorem rejectWrite_params (s : State) : (rejectWrite s).params = s.params := rfl
@[simp] theorem rejectWrite_regs (s : State) :
    (rejectWrite s).regs = { s.regs with status := { s.regs.status with rejected := true } } := rfl
@[simp] theorem rejectWrite_mem (s : State) : (rejectWrite s).mem = s.mem := rfl
@[simp] theorem rejectWrite_eng (s : State) : (rejectWrite s).eng = s.eng := rfl
@[simp] theorem rejectWrite_pll (s : State) : (rejectWrite s).pll = s.pll := rfl
@[simp] theorem rejectWrite_framer (s : State) : (rejectWrite s).framer = s.framer := rfl
@[simp] theorem rejectWrite_parser (s : State) : (rejectWrite s).parser = s.parser := rfl
@[simp] theorem rejectWrite_cmp (s : State) : (rejectWrite s).cmp = s.cmp := rfl
@[simp] theorem rejectWrite_uninitRead (s : State) : (rejectWrite s).uninitRead = s.uninitRead := rfl
@[simp] theorem rejectWrite_draws (s : State) : (rejectWrite s).draws = s.draws := rfl
@[simp] theorem rejectWrite_hostDraws (s : State) : (rejectWrite s).hostDraws = s.hostDraws := rfl
@[simp] theorem rejectWrite_pending (s : State) : (rejectWrite s).pending = s.pending := rfl
@[simp] theorem rejectWrite_returned (s : State) : (rejectWrite s).returned = s.returned := rfl
@[simp] theorem rejectWrite_turns (s : State) : (rejectWrite s).turns = s.turns := rfl

/-! ## resetRegs -/

@[simp] theorem resetRegs_params (s : State) : (resetRegs s).params = s.params := rfl
@[simp] theorem resetRegs_regs (s : State) :
    (resetRegs s).regs = Regs.reset := rfl
@[simp] theorem resetRegs_mem (s : State) : (resetRegs s).mem = s.mem := rfl
@[simp] theorem resetRegs_eng (s : State) : (resetRegs s).eng = s.eng := rfl
@[simp] theorem resetRegs_pll (s : State) : (resetRegs s).pll = s.pll := rfl
@[simp] theorem resetRegs_framer (s : State) : (resetRegs s).framer = s.framer := rfl
@[simp] theorem resetRegs_parser (s : State) : (resetRegs s).parser = s.parser := rfl
@[simp] theorem resetRegs_cmp (s : State) : (resetRegs s).cmp = s.cmp := rfl
@[simp] theorem resetRegs_uninitRead (s : State) : (resetRegs s).uninitRead = s.uninitRead := rfl
@[simp] theorem resetRegs_draws (s : State) : (resetRegs s).draws = s.draws := rfl
@[simp] theorem resetRegs_hostDraws (s : State) : (resetRegs s).hostDraws = s.hostDraws := rfl
@[simp] theorem resetRegs_pending (s : State) : (resetRegs s).pending = s.pending := rfl
@[simp] theorem resetRegs_returned (s : State) : (resetRegs s).returned = s.returned := rfl
@[simp] theorem resetRegs_turns (s : State) : (resetRegs s).turns = s.turns := rfl

/-! ## hardReset -/

@[simp] theorem hardReset_params (s : State) : (hardReset s).params = s.params := rfl
@[simp] theorem hardReset_regs (s : State) :
    (hardReset s).regs = Regs.reset := rfl
@[simp] theorem hardReset_mem (s : State) :
    (hardReset s).mem = Memory.reset := rfl
@[simp] theorem hardReset_eng (s : State) :
    (hardReset s).eng = .idle := rfl
@[simp] theorem hardReset_pll (s : State) :
    (hardReset s).pll = PllLoop.reset := rfl
@[simp] theorem hardReset_framer (s : State) :
    (hardReset s).framer = Framer.reset := rfl
@[simp] theorem hardReset_parser (s : State) :
    (hardReset s).parser = Parser.reset := rfl
@[simp] theorem hardReset_cmp (s : State) :
    (hardReset s).cmp = Comparator.reset := rfl
@[simp] theorem hardReset_uninitRead (s : State) :
    (hardReset s).uninitRead = false := rfl
@[simp] theorem hardReset_draws (s : State) : (hardReset s).draws = s.draws := rfl
@[simp] theorem hardReset_hostDraws (s : State) : (hardReset s).hostDraws = s.hostDraws := rfl
@[simp] theorem hardReset_pending (s : State) : (hardReset s).pending = s.pending := rfl
@[simp] theorem hardReset_returned (s : State) : (hardReset s).returned = s.returned := rfl
@[simp] theorem hardReset_turns (s : State) : (hardReset s).turns = s.turns := rfl

/-! ## writeStatus -/

@[simp] theorem writeStatus_params (v : Word) (s : State) : (writeStatus v s).params = s.params := rfl
@[simp] theorem writeStatus_regs (v : Word) (s : State) :
    (writeStatus v s).regs = { s.regs with status := s.regs.status.writeOneToClear v } := rfl
@[simp] theorem writeStatus_mem (v : Word) (s : State) : (writeStatus v s).mem = s.mem := rfl
@[simp] theorem writeStatus_eng (v : Word) (s : State) : (writeStatus v s).eng = s.eng := rfl
@[simp] theorem writeStatus_pll (v : Word) (s : State) : (writeStatus v s).pll = s.pll := rfl
@[simp] theorem writeStatus_framer (v : Word) (s : State) : (writeStatus v s).framer = s.framer := rfl
@[simp] theorem writeStatus_parser (v : Word) (s : State) : (writeStatus v s).parser = s.parser := rfl
@[simp] theorem writeStatus_cmp (v : Word) (s : State) : (writeStatus v s).cmp = s.cmp := rfl
@[simp] theorem writeStatus_uninitRead (v : Word) (s : State) : (writeStatus v s).uninitRead = s.uninitRead := rfl
@[simp] theorem writeStatus_draws (v : Word) (s : State) : (writeStatus v s).draws = s.draws := rfl
@[simp] theorem writeStatus_hostDraws (v : Word) (s : State) :
    (writeStatus v s).hostDraws = s.hostDraws := rfl
@[simp] theorem writeStatus_pending (v : Word) (s : State) : (writeStatus v s).pending = s.pending := rfl
@[simp] theorem writeStatus_returned (v : Word) (s : State) : (writeStatus v s).returned = s.returned := rfl
@[simp] theorem writeStatus_turns (v : Word) (s : State) : (writeStatus v s).turns = s.turns := rfl

/-! ## reply -/

@[simp] theorem reply_params (s : State) (a : Reply) : (s.reply a).params = s.params := rfl
@[simp] theorem reply_regs (s : State) (a : Reply) : (s.reply a).regs = s.regs := rfl
@[simp] theorem reply_mem (s : State) (a : Reply) : (s.reply a).mem = s.mem := rfl
@[simp] theorem reply_eng (s : State) (a : Reply) : (s.reply a).eng = s.eng := rfl
@[simp] theorem reply_pll (s : State) (a : Reply) : (s.reply a).pll = s.pll := rfl
@[simp] theorem reply_framer (s : State) (a : Reply) : (s.reply a).framer = s.framer := rfl
@[simp] theorem reply_parser (s : State) (a : Reply) : (s.reply a).parser = s.parser := rfl
@[simp] theorem reply_cmp (s : State) (a : Reply) : (s.reply a).cmp = s.cmp := rfl
@[simp] theorem reply_uninitRead (s : State) (a : Reply) : (s.reply a).uninitRead = s.uninitRead := rfl
@[simp] theorem reply_draws (s : State) (a : Reply) : (s.reply a).draws = s.draws := rfl
@[simp] theorem reply_hostDraws (s : State) (a : Reply) : (s.reply a).hostDraws = s.hostDraws := rfl
@[simp] theorem reply_pending (s : State) (a : Reply) : (s.reply a).pending = s.pending := rfl
@[simp] theorem reply_returned (s : State) (a : Reply) :
    (s.reply a).returned = a :: s.returned := rfl
@[simp] theorem reply_turns (s : State) (a : Reply) : (s.reply a).turns = s.turns := rfl

/-! ## dropToken -/

@[simp] theorem dropToken_params (n : Nat) (s : State) : (dropToken n s).params = s.params := rfl
@[simp] theorem dropToken_regs (n : Nat) (s : State) : (dropToken n s).regs = s.regs := rfl
@[simp] theorem dropToken_mem (n : Nat) (s : State) : (dropToken n s).mem = s.mem := rfl
@[simp] theorem dropToken_eng (n : Nat) (s : State) : (dropToken n s).eng = s.eng := rfl
@[simp] theorem dropToken_pll (n : Nat) (s : State) :
    (dropToken n s).pll = { s.pll with ndrop := s.pll.ndrop + 1, tc := s.pll.tc + n } := rfl
@[simp] theorem dropToken_framer (n : Nat) (s : State) : (dropToken n s).framer = s.framer := rfl
@[simp] theorem dropToken_parser (n : Nat) (s : State) : (dropToken n s).parser = s.parser := rfl
@[simp] theorem dropToken_cmp (n : Nat) (s : State) : (dropToken n s).cmp = s.cmp := rfl
@[simp] theorem dropToken_uninitRead (n : Nat) (s : State) : (dropToken n s).uninitRead = s.uninitRead := rfl
@[simp] theorem dropToken_draws (n : Nat) (s : State) : (dropToken n s).draws = s.draws := rfl
@[simp] theorem dropToken_hostDraws (n : Nat) (s : State) :
    (dropToken n s).hostDraws = s.hostDraws := rfl
@[simp] theorem dropToken_pending (n : Nat) (s : State) : (dropToken n s).pending = s.pending := rfl
@[simp] theorem dropToken_returned (n : Nat) (s : State) : (dropToken n s).returned = s.returned := rfl
@[simp] theorem dropToken_turns (n : Nat) (s : State) : (dropToken n s).turns = s.turns := rfl

/-! ## dropTruncated -/

@[simp] theorem dropTruncated_params (s : State) : (dropTruncated s).params = s.params := rfl
@[simp] theorem dropTruncated_regs (s : State) : (dropTruncated s).regs = s.regs := rfl
@[simp] theorem dropTruncated_mem (s : State) : (dropTruncated s).mem = s.mem := rfl
@[simp] theorem dropTruncated_eng (s : State) : (dropTruncated s).eng = s.eng := rfl
@[simp] theorem dropTruncated_pll (s : State) :
    (dropTruncated s).pll = { s.pll with ndrop := s.pll.ndrop + 1 } := rfl
@[simp] theorem dropTruncated_framer (s : State) : (dropTruncated s).framer = s.framer := rfl
@[simp] theorem dropTruncated_parser (s : State) : (dropTruncated s).parser = s.parser := rfl
@[simp] theorem dropTruncated_cmp (s : State) : (dropTruncated s).cmp = s.cmp := rfl
@[simp] theorem dropTruncated_uninitRead (s : State) : (dropTruncated s).uninitRead = s.uninitRead := rfl
@[simp] theorem dropTruncated_draws (s : State) : (dropTruncated s).draws = s.draws := rfl
@[simp] theorem dropTruncated_hostDraws (s : State) :
    (dropTruncated s).hostDraws = s.hostDraws := rfl
@[simp] theorem dropTruncated_pending (s : State) : (dropTruncated s).pending = s.pending := rfl
@[simp] theorem dropTruncated_returned (s : State) : (dropTruncated s).returned = s.returned := rfl
@[simp] theorem dropTruncated_turns (s : State) : (dropTruncated s).turns = s.turns := rfl

/-! ## startDecode -/

@[simp] theorem startDecode_params (s : State) : (startDecode s).params = s.params := rfl
@[simp] theorem startDecode_regs (s : State) : (startDecode s).regs = s.regs := rfl
@[simp] theorem startDecode_mem (s : State) : (startDecode s).mem = s.mem := rfl
@[simp] theorem startDecode_eng (s : State) : (startDecode s).eng = s.eng := rfl
@[simp] theorem startDecode_framer (s : State) : (startDecode s).framer = s.framer := rfl
@[simp] theorem startDecode_parser (s : State) : (startDecode s).parser = s.parser := rfl
@[simp] theorem startDecode_cmp (s : State) : (startDecode s).cmp = s.cmp := rfl
@[simp] theorem startDecode_uninitRead (s : State) : (startDecode s).uninitRead = s.uninitRead := rfl
@[simp] theorem startDecode_draws (s : State) : (startDecode s).draws = s.draws := rfl
@[simp] theorem startDecode_hostDraws (s : State) : (startDecode s).hostDraws = s.hostDraws := rfl
@[simp] theorem startDecode_pending (s : State) : (startDecode s).pending = s.pending := rfl
@[simp] theorem startDecode_returned (s : State) : (startDecode s).returned = s.returned := rfl
@[simp] theorem startDecode_turns (s : State) : (startDecode s).turns = s.turns := rfl

/-! ## commitDecode -/

@[simp] theorem commitDecode_params (s : State) : (commitDecode s).params = s.params := rfl
@[simp] theorem commitDecode_mem (s : State) :
    (commitDecode s).mem = { s.mem with bitbuf := bufWrite s.mem.bitbuf 0 (packBits s.pll.out) } := rfl
@[simp] theorem commitDecode_eng (s : State) : (commitDecode s).eng = s.eng := rfl
@[simp] theorem commitDecode_pll (s : State) :
    (commitDecode s).pll = { s.pll with live := false } := rfl
@[simp] theorem commitDecode_framer (s : State) : (commitDecode s).framer = s.framer := rfl
@[simp] theorem commitDecode_parser (s : State) : (commitDecode s).parser = s.parser := rfl
@[simp] theorem commitDecode_cmp (s : State) : (commitDecode s).cmp = s.cmp := rfl
@[simp] theorem commitDecode_uninitRead (s : State) : (commitDecode s).uninitRead = s.uninitRead := rfl
@[simp] theorem commitDecode_draws (s : State) : (commitDecode s).draws = s.draws := rfl
@[simp] theorem commitDecode_hostDraws (s : State) : (commitDecode s).hostDraws = s.hostDraws := rfl
@[simp] theorem commitDecode_pending (s : State) : (commitDecode s).pending = s.pending := rfl
@[simp] theorem commitDecode_returned (s : State) : (commitDecode s).returned = s.returned := rfl
@[simp] theorem commitDecode_turns (s : State) : (commitDecode s).turns = s.turns := rfl

/-! ## parseStage -/

@[simp] theorem parseStage_params (s : State) : (parseStage s).params = s.params := rfl
@[simp] theorem parseStage_regs (s : State) : (parseStage s).regs = s.regs := rfl
@[simp] theorem parseStage_mem (s : State) : (parseStage s).mem = s.mem := rfl
@[simp] theorem parseStage_eng (s : State) : (parseStage s).eng = s.eng := rfl
@[simp] theorem parseStage_pll (s : State) : (parseStage s).pll = s.pll := rfl
@[simp] theorem parseStage_framer (s : State) : (parseStage s).framer = s.framer := rfl
@[simp] theorem parseStage_parser (s : State) :
    (parseStage s).parser = parseEntries s.params s.regs.ctrl.encoding s.framer.raw s.framer.idam Parser.reset := rfl
@[simp] theorem parseStage_cmp (s : State) : (parseStage s).cmp = s.cmp := rfl
@[simp] theorem parseStage_uninitRead (s : State) : (parseStage s).uninitRead = s.uninitRead := rfl
@[simp] theorem parseStage_draws (s : State) : (parseStage s).draws = s.draws := rfl
@[simp] theorem parseStage_hostDraws (s : State) : (parseStage s).hostDraws = s.hostDraws := rfl
@[simp] theorem parseStage_pending (s : State) : (parseStage s).pending = s.pending := rfl
@[simp] theorem parseStage_returned (s : State) : (parseStage s).returned = s.returned := rfl
@[simp] theorem parseStage_turns (s : State) : (parseStage s).turns = s.turns := rfl

/-! ## commitFrame -/

@[simp] theorem commitFrame_params (s : State) : (commitFrame s).params = s.params := rfl
@[simp] theorem commitFrame_mem (s : State) :
    (commitFrame s).mem = { s.mem with
        raw := bufWrite s.mem.raw 0 s.framer.raw
        idam := bufWrite s.mem.idam 0 (s.framer.idam.map IdamEntry.word)
        sect := bufWrite s.mem.sect 0 (s.parser.sect.flatMap SectorRecord.words) } := rfl
@[simp] theorem commitFrame_eng (s : State) : (commitFrame s).eng = s.eng := rfl
@[simp] theorem commitFrame_pll (s : State) : (commitFrame s).pll = s.pll := rfl
@[simp] theorem commitFrame_framer (s : State) : (commitFrame s).framer = s.framer := rfl
@[simp] theorem commitFrame_parser (s : State) : (commitFrame s).parser = s.parser := rfl
@[simp] theorem commitFrame_cmp (s : State) : (commitFrame s).cmp = s.cmp := rfl
@[simp] theorem commitFrame_uninitRead (s : State) : (commitFrame s).uninitRead = s.uninitRead := rfl
@[simp] theorem commitFrame_draws (s : State) : (commitFrame s).draws = s.draws := rfl
@[simp] theorem commitFrame_hostDraws (s : State) : (commitFrame s).hostDraws = s.hostDraws := rfl
@[simp] theorem commitFrame_pending (s : State) : (commitFrame s).pending = s.pending := rfl
@[simp] theorem commitFrame_returned (s : State) : (commitFrame s).returned = s.returned := rfl
@[simp] theorem commitFrame_turns (s : State) : (commitFrame s).turns = s.turns := rfl

/-! ## commitWb -/

@[simp] theorem commitWb_params (s : State) : (commitWb s).params = s.params := rfl
@[simp] theorem commitWb_mem (s : State) :
    (commitWb s).mem = { s.mem with
        wbrec := bufWrite s.mem.wbrec 0 (s.cmp.recs.flatMap WeakRecord.words)
        wbbyte := bufWrite s.mem.wbbyte 0 (s.cmp.bytes.map (BitVec.ofNat 32)) } := rfl
@[simp] theorem commitWb_eng (s : State) : (commitWb s).eng = s.eng := rfl
@[simp] theorem commitWb_pll (s : State) : (commitWb s).pll = s.pll := rfl
@[simp] theorem commitWb_framer (s : State) : (commitWb s).framer = s.framer := rfl
@[simp] theorem commitWb_parser (s : State) : (commitWb s).parser = s.parser := rfl
@[simp] theorem commitWb_cmp (s : State) : (commitWb s).cmp = s.cmp := rfl
@[simp] theorem commitWb_uninitRead (s : State) : (commitWb s).uninitRead = s.uninitRead := rfl
@[simp] theorem commitWb_draws (s : State) :
    (commitWb s).draws = (wbCountWord s).2 := rfl
@[simp] theorem commitWb_hostDraws (s : State) : (commitWb s).hostDraws = s.hostDraws := rfl
@[simp] theorem commitWb_pending (s : State) : (commitWb s).pending = s.pending := rfl
@[simp] theorem commitWb_returned (s : State) : (commitWb s).returned = s.returned := rfl
@[simp] theorem commitWb_turns (s : State) : (commitWb s).turns = s.turns := rfl

/-! ## The registers a commit writes, and those it leaves -/

@[simp] theorem commitDecode_regs_cmd (s : State) : (commitDecode s).regs.cmd = s.regs.cmd := rfl
@[simp] theorem commitDecode_regs_status (s : State) :
    (commitDecode s).regs.status = s.regs.status.setDecodeFlags s.pll.ovf (decide (0 < s.pll.ndrop)) := rfl
@[simp] theorem commitDecode_regs_ctrl (s : State) : (commitDecode s).regs.ctrl = s.regs.ctrl := rfl
@[simp] theorem commitDecode_regs_sampleFreq (s : State) : (commitDecode s).regs.sampleFreq = s.regs.sampleFreq := rfl
@[simp] theorem commitDecode_regs_fluxLen (s : State) : (commitDecode s).regs.fluxLen = s.regs.fluxLen := rfl
@[simp] theorem commitDecode_regs_bitCount (s : State) :
    (commitDecode s).regs.bitCount = BitVec.ofNat 32 s.pll.out.length := rfl
@[simp] theorem commitDecode_regs_physTrack (s : State) : (commitDecode s).regs.physTrack = s.regs.physTrack := rfl
@[simp] theorem commitDecode_regs_physHead (s : State) : (commitDecode s).regs.physHead = s.regs.physHead := rfl
@[simp] theorem commitDecode_regs_rawLen (s : State) : (commitDecode s).regs.rawLen = s.regs.rawLen := rfl
@[simp] theorem commitDecode_regs_idamCount (s : State) : (commitDecode s).regs.idamCount = s.regs.idamCount := rfl
@[simp] theorem commitDecode_regs_sectorCount (s : State) : (commitDecode s).regs.sectorCount = s.regs.sectorCount := rfl
@[simp] theorem commitDecode_regs_crcErrors (s : State) : (commitDecode s).regs.crcErrors = s.regs.crcErrors := rfl
@[simp] theorem commitDecode_regs_pllIntervals (s : State) :
    (commitDecode s).regs.pllIntervals = BitVec.ofNat 32 s.pll.nint := rfl
@[simp] theorem commitDecode_regs_tokensDropped (s : State) :
    (commitDecode s).regs.tokensDropped = BitVec.ofNat 32 s.pll.ndrop := rfl
@[simp] theorem commitDecode_regs_wbLength (s : State) : (commitDecode s).regs.wbLength = s.regs.wbLength := rfl
@[simp] theorem commitDecode_regs_wbRevs (s : State) : (commitDecode s).regs.wbRevs = s.regs.wbRevs := rfl
@[simp] theorem commitDecode_regs_wbThreshold (s : State) : (commitDecode s).regs.wbThreshold = s.regs.wbThreshold := rfl
@[simp] theorem commitDecode_regs_wbCount (s : State) : (commitDecode s).regs.wbCount = s.regs.wbCount := rfl
@[simp] theorem commitDecode_regs_wbRecords (s : State) : (commitDecode s).regs.wbRecords = s.regs.wbRecords := rfl
@[simp] theorem commitDecode_regs_wbBytes (s : State) : (commitDecode s).regs.wbBytes = s.regs.wbBytes := rfl
@[simp] theorem commitDecode_regs_bytesAnalyzed (s : State) : (commitDecode s).regs.bytesAnalyzed = s.regs.bytesAnalyzed := rfl
@[simp] theorem commitDecode_regs_bitsAnalyzed (s : State) : (commitDecode s).regs.bitsAnalyzed = s.regs.bitsAnalyzed := rfl
@[simp] theorem commitDecode_regs_density (s : State) : (commitDecode s).regs.density = s.regs.density := rfl
@[simp] theorem commitDecode_regs_pllMaxCells (s : State) : (commitDecode s).regs.pllMaxCells = s.regs.pllMaxCells := rfl
@[simp] theorem commitDecode_regs_cellRateFm (s : State) : (commitDecode s).regs.cellRateFm = s.regs.cellRateFm := rfl
@[simp] theorem commitDecode_regs_cellRateMfm (s : State) : (commitDecode s).regs.cellRateMfm = s.regs.cellRateMfm := rfl
@[simp] theorem commitDecode_regs_phaseGain (s : State) : (commitDecode s).regs.phaseGain = s.regs.phaseGain := rfl
@[simp] theorem commitDecode_regs_freqGain (s : State) : (commitDecode s).regs.freqGain = s.regs.freqGain := rfl
@[simp] theorem commitDecode_regs_fminRatio (s : State) : (commitDecode s).regs.fminRatio = s.regs.fminRatio := rfl
@[simp] theorem commitDecode_regs_fmaxRatio (s : State) : (commitDecode s).regs.fmaxRatio = s.regs.fmaxRatio := rfl
@[simp] theorem commitDecode_regs_pllT0 (s : State) :
    (commitDecode s).regs.pllT0 = s.pll.t0 := rfl
@[simp] theorem commitDecode_regs_pllPhase (s : State) :
    (commitDecode s).regs.pllPhase = s.pll.phase := rfl
@[simp] theorem commitDecode_regs_pllFreq (s : State) :
    (commitDecode s).regs.pllFreq = s.pll.freq := rfl

@[simp] theorem commitFrame_regs_cmd (s : State) : (commitFrame s).regs.cmd = s.regs.cmd := rfl
@[simp] theorem commitFrame_regs_status (s : State) :
    (commitFrame s).regs.status = s.regs.status.setFrameFlags s.framer.rawOvf s.framer.capped s.parser.sectCapped := rfl
@[simp] theorem commitFrame_regs_ctrl (s : State) : (commitFrame s).regs.ctrl = s.regs.ctrl := rfl
@[simp] theorem commitFrame_regs_sampleFreq (s : State) : (commitFrame s).regs.sampleFreq = s.regs.sampleFreq := rfl
@[simp] theorem commitFrame_regs_fluxLen (s : State) : (commitFrame s).regs.fluxLen = s.regs.fluxLen := rfl
@[simp] theorem commitFrame_regs_bitCount (s : State) : (commitFrame s).regs.bitCount = s.regs.bitCount := rfl
@[simp] theorem commitFrame_regs_physTrack (s : State) : (commitFrame s).regs.physTrack = s.regs.physTrack := rfl
@[simp] theorem commitFrame_regs_physHead (s : State) : (commitFrame s).regs.physHead = s.regs.physHead := rfl
@[simp] theorem commitFrame_regs_rawLen (s : State) :
    (commitFrame s).regs.rawLen = BitVec.ofNat 32 s.framer.raw.length := rfl
@[simp] theorem commitFrame_regs_idamCount (s : State) :
    (commitFrame s).regs.idamCount = BitVec.ofNat 32 s.framer.idam.length := rfl
@[simp] theorem commitFrame_regs_sectorCount (s : State) :
    (commitFrame s).regs.sectorCount = BitVec.ofNat 32 s.parser.sect.length := rfl
@[simp] theorem commitFrame_regs_crcErrors (s : State) :
    (commitFrame s).regs.crcErrors = BitVec.ofNat 32 (crcErrorCount s.parser.sect) := rfl
@[simp] theorem commitFrame_regs_pllIntervals (s : State) : (commitFrame s).regs.pllIntervals = s.regs.pllIntervals := rfl
@[simp] theorem commitFrame_regs_tokensDropped (s : State) : (commitFrame s).regs.tokensDropped = s.regs.tokensDropped := rfl
@[simp] theorem commitFrame_regs_wbLength (s : State) : (commitFrame s).regs.wbLength = s.regs.wbLength := rfl
@[simp] theorem commitFrame_regs_wbRevs (s : State) : (commitFrame s).regs.wbRevs = s.regs.wbRevs := rfl
@[simp] theorem commitFrame_regs_wbThreshold (s : State) : (commitFrame s).regs.wbThreshold = s.regs.wbThreshold := rfl
@[simp] theorem commitFrame_regs_wbCount (s : State) : (commitFrame s).regs.wbCount = s.regs.wbCount := rfl
@[simp] theorem commitFrame_regs_wbRecords (s : State) : (commitFrame s).regs.wbRecords = s.regs.wbRecords := rfl
@[simp] theorem commitFrame_regs_wbBytes (s : State) : (commitFrame s).regs.wbBytes = s.regs.wbBytes := rfl
@[simp] theorem commitFrame_regs_bytesAnalyzed (s : State) : (commitFrame s).regs.bytesAnalyzed = s.regs.bytesAnalyzed := rfl
@[simp] theorem commitFrame_regs_bitsAnalyzed (s : State) : (commitFrame s).regs.bitsAnalyzed = s.regs.bitsAnalyzed := rfl
@[simp] theorem commitFrame_regs_density (s : State) : (commitFrame s).regs.density = s.regs.density := rfl
@[simp] theorem commitFrame_regs_pllMaxCells (s : State) : (commitFrame s).regs.pllMaxCells = s.regs.pllMaxCells := rfl
@[simp] theorem commitFrame_regs_cellRateFm (s : State) : (commitFrame s).regs.cellRateFm = s.regs.cellRateFm := rfl
@[simp] theorem commitFrame_regs_cellRateMfm (s : State) : (commitFrame s).regs.cellRateMfm = s.regs.cellRateMfm := rfl
@[simp] theorem commitFrame_regs_phaseGain (s : State) : (commitFrame s).regs.phaseGain = s.regs.phaseGain := rfl
@[simp] theorem commitFrame_regs_freqGain (s : State) : (commitFrame s).regs.freqGain = s.regs.freqGain := rfl
@[simp] theorem commitFrame_regs_fminRatio (s : State) : (commitFrame s).regs.fminRatio = s.regs.fminRatio := rfl
@[simp] theorem commitFrame_regs_fmaxRatio (s : State) : (commitFrame s).regs.fmaxRatio = s.regs.fmaxRatio := rfl
@[simp] theorem commitFrame_regs_pllT0 (s : State) : (commitFrame s).regs.pllT0 = s.regs.pllT0 := rfl
@[simp] theorem commitFrame_regs_pllPhase (s : State) : (commitFrame s).regs.pllPhase = s.regs.pllPhase := rfl
@[simp] theorem commitFrame_regs_pllFreq (s : State) : (commitFrame s).regs.pllFreq = s.regs.pllFreq := rfl

@[simp] theorem commitWb_regs_cmd (s : State) : (commitWb s).regs.cmd = s.regs.cmd := rfl
@[simp] theorem commitWb_regs_status (s : State) :
    (commitWb s).regs.status = s.regs.status.setWbFlag s.cmp.ovf := rfl
@[simp] theorem commitWb_regs_ctrl (s : State) : (commitWb s).regs.ctrl = s.regs.ctrl := rfl
@[simp] theorem commitWb_regs_sampleFreq (s : State) : (commitWb s).regs.sampleFreq = s.regs.sampleFreq := rfl
@[simp] theorem commitWb_regs_fluxLen (s : State) : (commitWb s).regs.fluxLen = s.regs.fluxLen := rfl
@[simp] theorem commitWb_regs_bitCount (s : State) : (commitWb s).regs.bitCount = s.regs.bitCount := rfl
@[simp] theorem commitWb_regs_physTrack (s : State) : (commitWb s).regs.physTrack = s.regs.physTrack := rfl
@[simp] theorem commitWb_regs_physHead (s : State) : (commitWb s).regs.physHead = s.regs.physHead := rfl
@[simp] theorem commitWb_regs_rawLen (s : State) : (commitWb s).regs.rawLen = s.regs.rawLen := rfl
@[simp] theorem commitWb_regs_idamCount (s : State) : (commitWb s).regs.idamCount = s.regs.idamCount := rfl
@[simp] theorem commitWb_regs_sectorCount (s : State) : (commitWb s).regs.sectorCount = s.regs.sectorCount := rfl
@[simp] theorem commitWb_regs_crcErrors (s : State) : (commitWb s).regs.crcErrors = s.regs.crcErrors := rfl
@[simp] theorem commitWb_regs_pllIntervals (s : State) : (commitWb s).regs.pllIntervals = s.regs.pllIntervals := rfl
@[simp] theorem commitWb_regs_tokensDropped (s : State) : (commitWb s).regs.tokensDropped = s.regs.tokensDropped := rfl
@[simp] theorem commitWb_regs_wbLength (s : State) : (commitWb s).regs.wbLength = s.regs.wbLength := rfl
@[simp] theorem commitWb_regs_wbRevs (s : State) : (commitWb s).regs.wbRevs = s.regs.wbRevs := rfl
@[simp] theorem commitWb_regs_wbThreshold (s : State) : (commitWb s).regs.wbThreshold = s.regs.wbThreshold := rfl
@[simp] theorem commitWb_regs_wbCount (s : State) :
    (commitWb s).regs.wbCount = (wbCountWord s).1 := rfl
@[simp] theorem commitWb_regs_wbRecords (s : State) :
    (commitWb s).regs.wbRecords = BitVec.ofNat 32 s.cmp.recs.length := rfl
@[simp] theorem commitWb_regs_wbBytes (s : State) :
    (commitWb s).regs.wbBytes = BitVec.ofNat 32 s.cmp.bytes.length := rfl
@[simp] theorem commitWb_regs_bytesAnalyzed (s : State) :
    (commitWb s).regs.bytesAnalyzed = s.regs.wbLength := rfl
@[simp] theorem commitWb_regs_bitsAnalyzed (s : State) :
    (commitWb s).regs.bitsAnalyzed = BitVec.ofNat 64 (8 * s.regs.wbLength.toNat) := rfl
@[simp] theorem commitWb_regs_density (s : State) :
    (commitWb s).regs.density = densityOf s.cmp.count s.regs.wbLength.toNat := rfl
@[simp] theorem commitWb_regs_pllMaxCells (s : State) : (commitWb s).regs.pllMaxCells = s.regs.pllMaxCells := rfl
@[simp] theorem commitWb_regs_cellRateFm (s : State) : (commitWb s).regs.cellRateFm = s.regs.cellRateFm := rfl
@[simp] theorem commitWb_regs_cellRateMfm (s : State) : (commitWb s).regs.cellRateMfm = s.regs.cellRateMfm := rfl
@[simp] theorem commitWb_regs_phaseGain (s : State) : (commitWb s).regs.phaseGain = s.regs.phaseGain := rfl
@[simp] theorem commitWb_regs_freqGain (s : State) : (commitWb s).regs.freqGain = s.regs.freqGain := rfl
@[simp] theorem commitWb_regs_fminRatio (s : State) : (commitWb s).regs.fminRatio = s.regs.fminRatio := rfl
@[simp] theorem commitWb_regs_fmaxRatio (s : State) : (commitWb s).regs.fmaxRatio = s.regs.fmaxRatio := rfl
@[simp] theorem commitWb_regs_pllT0 (s : State) : (commitWb s).regs.pllT0 = s.regs.pllT0 := rfl
@[simp] theorem commitWb_regs_pllPhase (s : State) : (commitWb s).regs.pllPhase = s.regs.pllPhase := rfl
@[simp] theorem commitWb_regs_pllFreq (s : State) : (commitWb s).regs.pllFreq = s.regs.pllFreq := rfl

/-! ## feed -/

@[simp] theorem feed_params (n len : Nat) (s : State) : (feed n len s).params = s.params := by
  unfold feed; dsimp only; split <;> rfl
@[simp] theorem feed_regs (n len : Nat) (s : State) : (feed n len s).regs = s.regs := by
  unfold feed; dsimp only; split <;> rfl
@[simp] theorem feed_mem (n len : Nat) (s : State) : (feed n len s).mem = s.mem := by
  unfold feed; dsimp only; split <;> rfl
@[simp] theorem feed_eng (n len : Nat) (s : State) : (feed n len s).eng = s.eng := by
  unfold feed; dsimp only; split <;> rfl
@[simp] theorem feed_framer (n len : Nat) (s : State) : (feed n len s).framer = s.framer := by
  unfold feed; dsimp only; split <;> rfl
@[simp] theorem feed_parser (n len : Nat) (s : State) : (feed n len s).parser = s.parser := by
  unfold feed; dsimp only; split <;> rfl
@[simp] theorem feed_cmp (n len : Nat) (s : State) : (feed n len s).cmp = s.cmp := by
  unfold feed; dsimp only; split <;> rfl
@[simp] theorem feed_uninitRead (n len : Nat) (s : State) : (feed n len s).uninitRead = s.uninitRead := by
  unfold feed; dsimp only; split <;> rfl
@[simp] theorem feed_pending (n len : Nat) (s : State) : (feed n len s).pending = s.pending := by
  unfold feed; dsimp only; split <;> rfl
@[simp] theorem feed_returned (n len : Nat) (s : State) : (feed n len s).returned = s.returned := by
  unfold feed; dsimp only; split <;> rfl
@[simp] theorem feed_turns (n len : Nat) (s : State) : (feed n len s).turns = s.turns := by
  unfold feed; dsimp only; split <;> rfl

end Sys2Proof.Machine
end

