-- ==== Sys2Proof/Laws/Reads.lean ====
section
/-! SUPPORT. What reads can do. An engine read changes only `uninit_read` and the draw counter, and
only at a ⊥ cell; a host read changes only the host's draw counter. -/

namespace Sys2Proof.Machine

/-- `t` is `s` but for the fault mark, which may only have been set, and the draw counter, which may
only have grown. -/
structure ReadsOnly (s t : State) : Prop where
  eq : t = { s with uninitRead := t.uninitRead, draws := t.draws }
  mark : s.uninitRead = true → t.uninitRead = true
  draws : s.draws ≤ t.draws

namespace ReadsOnly

theorem refl (s : State) : ReadsOnly s s := ⟨rfl, id, Nat.le_refl _⟩

theorem trans {s t u : State} (h : ReadsOnly s t) (g : ReadsOnly t u) : ReadsOnly s u := by
  refine ⟨?_, fun m => g.mark (h.mark m), Nat.le_trans h.draws g.draws⟩
  rw [g.eq, h.eq]

theorem params {s t : State} (h : ReadsOnly s t) : t.params = s.params := by rw [h.eq]
theorem regs {s t : State} (h : ReadsOnly s t) : t.regs = s.regs := by rw [h.eq]
theorem mem {s t : State} (h : ReadsOnly s t) : t.mem = s.mem := by rw [h.eq]
theorem eng {s t : State} (h : ReadsOnly s t) : t.eng = s.eng := by rw [h.eq]
theorem pll {s t : State} (h : ReadsOnly s t) : t.pll = s.pll := by rw [h.eq]
theorem framer {s t : State} (h : ReadsOnly s t) : t.framer = s.framer := by rw [h.eq]
theorem parser {s t : State} (h : ReadsOnly s t) : t.parser = s.parser := by rw [h.eq]
theorem cmp {s t : State} (h : ReadsOnly s t) : t.cmp = s.cmp := by rw [h.eq]
theorem pending {s t : State} (h : ReadsOnly s t) : t.pending = s.pending := by rw [h.eq]
theorem returned {s t : State} (h : ReadsOnly s t) : t.returned = s.returned := by rw [h.eq]
theorem turns {s t : State} (h : ReadsOnly s t) : t.turns = s.turns := by rw [h.eq]

end ReadsOnly

/-- A written cell reads its value and nothing changes; a ⊥ cell sets the mark and draws
(spec/20_memory.md R106). -/
theorem engineRead_cases (b : ByteBuf) (i : Nat) (s : State) :
    (∃ v, bufGet (s.mem.bytes b) i = some v ∧ engineRead b i s = (v, s)) ∨
    (bufGet (s.mem.bytes b) i = none ∧
      engineRead b i s
        = (Config.freeByte s.draws, { s with uninitRead := true, draws := s.draws + 1 })) := by
  unfold engineRead
  cases h : bufGet (s.mem.bytes b) i with
  | none => exact .inr ⟨rfl, rfl⟩
  | some v => exact .inl ⟨v, rfl, rfl⟩

theorem engineRead_written {b : ByteBuf} {i : Nat} {s : State} {v : Byte}
    (h : bufGet (s.mem.bytes b) i = some v) : engineRead b i s = (v, s) := by
  unfold engineRead; rw [h]

theorem engineRead_readsOnly (b : ByteBuf) (i : Nat) (s : State) :
    ReadsOnly s (engineRead b i s).2 := by
  rcases engineRead_cases b i s with ⟨v, _, e⟩ | ⟨_, e⟩
  · rw [e]; exact .refl s
  · rw [e]; exact ⟨rfl, fun _ => rfl, Nat.le_succ _⟩

/-- The token reader only reads. -/
theorem fetchToken_readsOnly (s : State) : ReadsOnly s (fetchToken s).2 := by
  unfold fetchToken
  have h0 := engineRead_readsOnly .flux s.pll.tc s
  have h1 := h0.trans (engineRead_readsOnly .flux (s.pll.tc + 1) _)
  have h2 := h1.trans (engineRead_readsOnly .flux (s.pll.tc + 2) _)
  have h3 := h2.trans (engineRead_readsOnly .flux (s.pll.tc + 3) _)
  have h4 := h3.trans (engineRead_readsOnly .flux (s.pll.tc + 4) _)
  dsimp only
  split_ifs
  · exact .refl s
  · exact h0
  · exact h0
  · exact h1
  · exact h1
  · exact h4

/-- The bit reader only reads. -/
theorem readStreamBit_readsOnly (k : Nat) (s : State) : ReadsOnly s (readStreamBit k s).2 :=
  engineRead_readsOnly .bitbuf (k / 8) s

/-- A written BITBUF byte gives its stream bit and nothing changes (spec/41_sync_framer.md R262). -/
theorem readStreamBit_written {k : Nat} {s : State} {v : Byte}
    (h : bufGet s.mem.bitbuf (k / 8) = some v) : readStreamBit k s = (streamBit v k, s) := by
  unfold readStreamBit
  rw [engineRead_written (b := .bitbuf) h]

/-- Reading samples only reads. -/
theorem readSamples_readsOnly (o b : Nat) (rs : List (Fin 10)) (s : State) :
    ReadsOnly s (readSamples o b rs s).2 := by
  induction rs generalizing s with
  | nil => exact .refl s
  | cons r rs ih => exact (engineRead_readsOnly (.rev r) o s).trans (ih _)

@[simp] theorem readSamples_length (o b : Nat) (rs : List (Fin 10)) (s : State) :
    (readSamples o b rs s).1.length = rs.length := by
  induction rs generalizing s with
  | nil => rfl
  | cons r rs ih => simp [readSamples, ih]

/-- A host register read changes at most the host's draw counter (spec/20_memory.md R102). -/
theorem readOffset_eq (offset : Nat) (s : State) :
    (readOffset offset s).2 = { s with hostDraws := (readOffset offset s).2.hostDraws } := by
  unfold readOffset
  cases regAt offset with
  | none => rfl
  | some g =>
    simp only [readReg, busyRegRead]
    split
    · rfl
    · split_ifs <;> rfl

/-- A host byte read changes at most the host's draw counter (spec/20_memory.md R104). -/
theorem readByteCell_eq (b : ByteBuf) (i : Nat) (s : State) :
    (readByteCell b i s).2 = { s with hostDraws := (readByteCell b i s).2.hostDraws } := by
  unfold readByteCell
  split_ifs
  · rfl
  · rfl
  · split <;> rfl

/-- A host word read changes at most the host's draw counter (spec/20_memory.md R104). -/
theorem readWordCell_eq (b : WordBuf) (i : Nat) (s : State) :
    (readWordCell b i s).2 = { s with hostDraws := (readWordCell b i s).2.hostDraws } := by
  unfold readWordCell
  split_ifs
  · rfl
  · rfl
  · split <;> rfl

end Sys2Proof.Machine
end

