-- ==== Sys2Proof/Laws/Pll.lean ====
section
/-! SUPPORT. What a token and the token loop can do: they change the loop state, the draw counter
and the fault mark and nothing else, and the stream never outgrows BITBUF. -/

namespace Sys2Proof.Machine

/-- `t` is `s` but for the PLL loop, the fault mark and the draw counter. -/
structure LoopOnly (s t : State) : Prop where
  eq : t = { s with pll := t.pll, uninitRead := t.uninitRead, draws := t.draws }
  live : t.pll.live = s.pll.live
  mark : s.uninitRead = true → t.uninitRead = true
  lo : t.pll.lo = s.pll.lo
  hi : t.pll.hi = s.pll.hi
  t0 : t.pll.t0 = s.pll.t0

namespace LoopOnly

theorem refl (s : State) : LoopOnly s s := ⟨rfl, rfl, id, rfl, rfl, rfl⟩

theorem trans {s t u : State} (h : LoopOnly s t) (g : LoopOnly t u) : LoopOnly s u := by
  refine ⟨?_, g.live.trans h.live, fun m => g.mark (h.mark m), g.lo.trans h.lo, g.hi.trans h.hi,
    g.t0.trans h.t0⟩
  rw [g.eq, h.eq]

theorem ofReads {s t : State} (h : ReadsOnly s t) : LoopOnly s t := by
  refine ⟨?_, by rw [h.pll], h.mark, by rw [h.pll], by rw [h.pll], by rw [h.pll]⟩
  rw [h.eq]

theorem params {s t : State} (h : LoopOnly s t) : t.params = s.params := by rw [h.eq]
theorem regs {s t : State} (h : LoopOnly s t) : t.regs = s.regs := by rw [h.eq]
theorem mem {s t : State} (h : LoopOnly s t) : t.mem = s.mem := by rw [h.eq]
theorem eng {s t : State} (h : LoopOnly s t) : t.eng = s.eng := by rw [h.eq]
theorem framer {s t : State} (h : LoopOnly s t) : t.framer = s.framer := by rw [h.eq]
theorem parser {s t : State} (h : LoopOnly s t) : t.parser = s.parser := by rw [h.eq]
theorem cmp {s t : State} (h : LoopOnly s t) : t.cmp = s.cmp := by rw [h.eq]
theorem pending {s t : State} (h : LoopOnly s t) : t.pending = s.pending := by rw [h.eq]
theorem returned {s t : State} (h : LoopOnly s t) : t.returned = s.returned := by rw [h.eq]
theorem turns {s t : State} (h : LoopOnly s t) : t.turns = s.turns := by rw [h.eq]

end LoopOnly

/-! ## One token -/

@[simp] theorem cellBits_length {c : Nat} (h : 1 ≤ c) : (cellBits c).length = c := by
  simp [cellBits]; omega

/-- A clamped cell count lies in `[1, max]` (spec/40_flux_pll.md R217). -/
theorem clampCells_range (n : Int) {max : Nat} (h : 1 ≤ max) :
    1 ≤ clampCells n max ∧ clampCells n max ≤ max := by
  unfold clampCells; omega

theorem cellsOfQuotient_range (x : F64) {max : Nat} (h : 1 ≤ max) :
    1 ≤ cellsOfQuotient x max ∧ cellsOfQuotient x max ≤ max := by
  unfold cellsOfQuotient
  split_ifs
  · exact clampCells_range 0 h
  · exact ⟨h, Nat.le_refl _⟩
  · exact clampCells_range _ h

/-- The cell count of an interval lies in `[1, PLL_MAX_CELLS]` (spec/40_flux_pll.md R217). -/
theorem cellCount_range (interval : Nat) {s : State} (h : 1 ≤ s.regs.pllMaxCells.toNat) :
    1 ≤ (cellCount interval s).1 ∧ (cellCount interval s).1 ≤ s.regs.pllMaxCells.toNat := by
  unfold cellCount
  dsimp only
  split_ifs
  · exact clampCells_range _ h
  · exact cellsOfQuotient_range _ h

/-- What `feed` can do: stop the loop on an interval that does not fit, or advance it
(spec/40_flux_pll.md R214, R224). -/
theorem feed_cases (interval len : Nat) (s : State) :
    (8 * s.params.bitbufCap < s.pll.out.length + (cellCount interval s).1 ∧
      feed interval len s
        = { s with pll := { s.pll with ovf := true }, draws := (cellCount interval s).2 }) ∨
    (s.pll.out.length + (cellCount interval s).1 ≤ 8 * s.params.bitbufCap ∧
      feed interval len s
        = { s with
            pll := s.pll.advance s.regs interval (cellCount interval s).1 len
            draws := (cellCount interval s).2 }) := by
  unfold feed
  dsimp only
  split_ifs with h
  · exact .inl ⟨h, rfl⟩
  · exact .inr ⟨by omega, rfl⟩

theorem feed_loopOnly (interval len : Nat) (s : State) : LoopOnly s (feed interval len s) := by
  rcases feed_cases interval len s with ⟨_, e⟩ | ⟨_, e⟩ <;> rw [e] <;>
    exact ⟨rfl, rfl, id, rfl, rfl, rfl⟩

/-- Every token acts only on the loop (spec/40_flux_pll.md section 1). -/
theorem tokenEffect_loopOnly (i : Instr) (s : State) : LoopOnly s (tokenEffect i s) := by
  cases i with
  | pllDecode => exact .refl s
  | frame => exact .refl s
  | decodeFrame => exact .refl s
  | wbDetect => exact .refl s
  | tokLit b => exact feed_loopOnly _ _ s
  | tokEsc8 e n => exact feed_loopOnly _ _ s
  | tokEsc24 b0 b1 b2 => exact feed_loopOnly _ _ s
  | tokEscUndef x => exact ⟨rfl, rfl, id, rfl, rfl, rfl⟩

theorem feed_fits {interval len : Nat} {s : State} (hm : 1 ≤ s.regs.pllMaxCells.toNat)
    (h : s.pll.out.length ≤ 8 * s.params.bitbufCap) :
    (feed interval len s).pll.out.length ≤ 8 * s.params.bitbufCap := by
  rcases feed_cases interval len s with ⟨_, e⟩ | ⟨hf, e⟩ <;> rw [e]
  · exact h
  · simpa [PllLoop.advance, (cellCount_range interval hm).1] using hf

/-- The stream fits in BITBUF after every token (spec/40_flux_pll.md R224). -/
theorem tokenEffect_fits {i : Instr} {s : State} (hm : 1 ≤ s.regs.pllMaxCells.toNat)
    (h : s.pll.out.length ≤ 8 * s.params.bitbufCap) :
    (tokenEffect i s).pll.out.length ≤ 8 * s.params.bitbufCap := by
  cases i with
  | pllDecode => exact h
  | frame => exact h
  | decodeFrame => exact h
  | wbDetect => exact h
  | tokLit b => exact feed_fits hm h
  | tokEsc8 e n => exact feed_fits hm h
  | tokEsc24 b0 b1 b2 => exact feed_fits hm h
  | tokEscUndef x => exact h

/-! ## The token loop -/

/-- Induction over the token loop: what reading, a dropped truncated token and every token keep, the
loop keeps. -/
theorem decodeLoop_keeps {P : State → Prop}
    (read : ∀ s, P s → P (fetchToken s).2)
    (trunc : ∀ s, P s → P (dropTruncated s))
    (token : ∀ i s, P s → P (tokenEffect i s)) (n : Nat) {s : State} (h : P s) :
    P (decodeLoop n s) := by
  induction n generalizing s with
  | zero => exact h
  | succ n ih =>
    unfold decodeLoop
    split_ifs
    · exact h
    · have hr := read s h
      rcases hf : fetchToken s with ⟨f, s'⟩
      rw [hf] at hr
      cases f with
      | stop => exact hr
      | trunc => exact trunc _ hr
      | token i => exact ih (token i _ hr)

/-- The token loop changes the loop state, the fault mark and the draw counter and nothing else. -/
theorem decodeLoop_loopOnly (n : Nat) (s : State) : LoopOnly s (decodeLoop n s) :=
  decodeLoop_keeps (P := LoopOnly s)
    (fun t h => h.trans (.ofReads (fetchToken_readsOnly t)))
    (fun _ h => h.trans ⟨rfl, rfl, id, rfl, rfl, rfl⟩)
    (fun i t h => h.trans (tokenEffect_loopOnly i t)) n (.refl s)

/-- The stream of a decode fits in BITBUF (spec/40_flux_pll.md R224). -/
theorem decodeLoop_fits {n : Nat} {s : State} (hm : 1 ≤ s.regs.pllMaxCells.toNat)
    (h : s.pll.out.length ≤ 8 * s.params.bitbufCap) :
    (decodeLoop n s).pll.out.length ≤ 8 * s.params.bitbufCap := by
  have key := decodeLoop_keeps
    (P := fun t => LoopOnly s t ∧ t.pll.out.length ≤ 8 * s.params.bitbufCap)
    (fun t ht => by
      have hr := fetchToken_readsOnly t
      exact ⟨ht.1.trans (.ofReads hr), by rw [hr.pll]; exact ht.2⟩)
    (fun t ht => ⟨ht.1.trans ⟨rfl, rfl, id, rfl, rfl, rfl⟩, ht.2⟩)
    (fun i t ht => by
      refine ⟨ht.1.trans (tokenEffect_loopOnly i t), ?_⟩
      have := tokenEffect_fits (i := i) (s := t) (by rw [ht.1.regs]; exact hm)
        (by rw [ht.1.params]; exact ht.2)
      rwa [ht.1.params] at this) n ⟨LoopOnly.refl s, h⟩
  exact key.2

/-! ## Validation -/

/-- What a decode may rely on once R215 has passed (spec/40_flux_pll.md R215). -/
theorem validateDecode_none {s : State} (h : validateDecode s = none) :
    s.regs.fluxLen.toNat ≠ 0 ∧ s.regs.fluxLen.toNat ≤ s.params.fluxCap ∧
    (s.regs.ctrl.encoding = encFm ∨ s.regs.ctrl.encoding = encMfm) ∧
    s.regs.sampleFreq.toNat ≠ 0 ∧ (cellRate s.regs).toNat ≠ 0 ∧
    1 ≤ s.regs.pllMaxCells.toNat ∧
    (gainLegal s.regs.phaseGain = true ∧ gainLegal s.regs.freqGain = true) ∧
    ratiosLegal s.regs.fminRatio s.regs.fmaxRatio = true := by
  unfold validateDecode at h
  dsimp only at h
  split_ifs at h with h1 h2 h3 h4 h5 h6 h7 h8
  refine ⟨h1, by omega, ?_, h4, h5, by omega, h7, h8⟩
  by_contra hc
  exact h3 (not_or.1 hc)

/-- Only the registers and the parameters decide whether a decode fails
(spec/60_exceptions.md R418). -/
theorem validateDecode_congr {s t : State} (hr : t.regs = s.regs) (hp : t.params = s.params) :
    validateDecode t = validateDecode s := by simp only [validateDecode, hr, hp]

/-! ## The body -/

/-- The token loop of a decode that passed R215 leaves everything but the loop, the mark and the
draws, and its stream fits. -/
theorem decodeTokens_startDecode {s : State} (hm : 1 ≤ s.regs.pllMaxCells.toNat) :
    LoopOnly (startDecode s) (decodeTokens (startDecode s)) ∧
      (decodeTokens (startDecode s)).pll.out.length ≤ 8 * s.params.bitbufCap :=
  ⟨decodeLoop_loopOnly _ _, decodeLoop_fits (s := startDecode s) hm (by simp [startDecode])⟩

/-- The body of a decode changes BITBUF, its result registers and flags, the loop, the mark and the
draws (spec/40_flux_pll.md R225). -/
theorem decodeBody_frame (s : State) :
    (decodeBody s).params = s.params ∧ (decodeBody s).eng = s.eng ∧
    (decodeBody s).framer = s.framer ∧ (decodeBody s).parser = s.parser ∧
    (decodeBody s).cmp = s.cmp ∧ (decodeBody s).pending = s.pending ∧
    (decodeBody s).returned = s.returned ∧ (decodeBody s).turns = s.turns ∧
    (decodeBody s).pll.live = false ∧
    (decodeBody s).mem = { s.mem with bitbuf := (decodeBody s).mem.bitbuf } := by
  have h := decodeLoop_loopOnly ((startDecode s).regs.fluxLen.toNat + 1) (startDecode s)
  simp only [decodeBody, decodeTokens, commitDecode_params, commitDecode_eng,
    commitDecode_framer, commitDecode_parser, commitDecode_cmp, commitDecode_pending,
    commitDecode_returned, commitDecode_turns, commitDecode_pll, commitDecode_mem, h.params,
    h.eng, h.framer, h.parser, h.cmp, h.pending, h.returned, h.turns, h.mem,
    startDecode_params, startDecode_eng, startDecode_framer, startDecode_parser,
    startDecode_cmp, startDecode_pending, startDecode_returned, startDecode_turns,
    startDecode_mem, and_self]

end Sys2Proof.Machine
end

