-- ==== Sys2Proof/Laws/Framer.lean ====
section
/-! SUPPORT. What the framing loop and the sector parser can do: what they change, and the bounds
their tables keep. -/

namespace Sys2Proof.Machine

/-- `t` is `s` but for the framer, the fault mark and the draw counter. -/
structure FrameOnly (s t : State) : Prop where
  eq : t = { s with framer := t.framer, uninitRead := t.uninitRead, draws := t.draws }
  mark : s.uninitRead = true → t.uninitRead = true

namespace FrameOnly

theorem refl (s : State) : FrameOnly s s := ⟨rfl, id⟩

theorem trans {s t u : State} (h : FrameOnly s t) (g : FrameOnly t u) : FrameOnly s u := by
  refine ⟨?_, fun m => g.mark (h.mark m)⟩
  rw [g.eq, h.eq]

theorem params {s t : State} (h : FrameOnly s t) : t.params = s.params := by rw [h.eq]
theorem regs {s t : State} (h : FrameOnly s t) : t.regs = s.regs := by rw [h.eq]
theorem mem {s t : State} (h : FrameOnly s t) : t.mem = s.mem := by rw [h.eq]
theorem eng {s t : State} (h : FrameOnly s t) : t.eng = s.eng := by rw [h.eq]
theorem pll {s t : State} (h : FrameOnly s t) : t.pll = s.pll := by rw [h.eq]
theorem parser {s t : State} (h : FrameOnly s t) : t.parser = s.parser := by rw [h.eq]
theorem cmp {s t : State} (h : FrameOnly s t) : t.cmp = s.cmp := by rw [h.eq]
theorem pending {s t : State} (h : FrameOnly s t) : t.pending = s.pending := by rw [h.eq]
theorem returned {s t : State} (h : FrameOnly s t) : t.returned = s.returned := by rw [h.eq]
theorem turns {s t : State} (h : FrameOnly s t) : t.turns = s.turns := by rw [h.eq]

end FrameOnly

/-! ## One stream bit -/

/-- The window, counts and cursor after one stream bit, before any byte is cut. -/
def Framer.slide (f : Framer) (b : Bool) : Framer :=
  { f with window := shiftIn f.window b, total := f.total + 1, cnt := f.cnt + 1, k := f.k + 1 }

/-- What one stream bit can do (spec/41_sync_framer.md R263 to R267): stop at a full buffer, record
a sync and emit its byte, emit a data byte, or only slide. -/
theorem Framer.bit_cases (p : Params) (enc : BitVec 2) (b : Bool) (f : Framer) :
    (f.raw.length = p.rawCap ∧ f.bit p enc b = { f.slide b with rawOvf := true }) ∨
    (f.raw.length ≠ p.rawCap ∧ 16 ≤ f.total + 1 ∧ shiftIn f.window b ∈ syncSet p enc ∧
      f.bit p enc b
        = ((f.slide b).recordSync enc).emitByte (dataBits (shiftIn f.window b))) ∨
    (f.raw.length ≠ p.rawCap ∧ ¬ (16 ≤ f.total + 1 ∧ shiftIn f.window b ∈ syncSet p enc) ∧
      f.cnt + 1 = 16 ∧
      f.bit p enc b = (f.slide b).emitByte (dataBits (shiftIn f.window b))) ∨
    (¬ (16 ≤ f.total + 1 ∧ shiftIn f.window b ∈ syncSet p enc) ∧ f.cnt + 1 ≠ 16 ∧
      f.bit p enc b = f.slide b) := by
  unfold Framer.bit Framer.slide
  dsimp only
  split_ifs with h1 h2 h3 h4
  · exact .inl ⟨h2, rfl⟩
  · exact .inr (.inl ⟨h2, h1.1, h1.2, rfl⟩)
  · exact .inl ⟨h4, rfl⟩
  · exact .inr (.inr (.inl ⟨h4, h1, h3, rfl⟩))
  · exact .inr (.inr (.inr ⟨h1, h3, rfl⟩))

/-- The bounds of the framer's tables (spec/41_sync_framer.md R264, R265, R267): entry offsets
strictly rising and below the number of bytes, at most IDAM_CAP entries, at most RAW_CAP bytes. -/
structure Framer.Bounded (p : Params) (f : Framer) : Prop where
  raw : f.raw.length ≤ p.rawCap
  idam : f.idam.length ≤ Config.idamCap
  below : ∀ e ∈ f.idam, e.offset < f.raw.length
  rising : f.idam.Pairwise fun a b => a.offset < b.offset

theorem Framer.bounded_reset (p : Params) : Framer.reset.Bounded p :=
  ⟨by simp [Framer.reset], by simp [Framer.reset], by simp [Framer.reset], by simp [Framer.reset]⟩

theorem Framer.recordSync_raw (f : Framer) (enc : BitVec 2) : (f.recordSync enc).raw = f.raw := by
  unfold Framer.recordSync; split_ifs <;> rfl

/-- A sync match records its own offset or finds the table full (spec/41_sync_framer.md R264,
R265). -/
theorem Framer.recordSync_idam (f : Framer) (enc : BitVec 2) :
    (f.idam.length < Config.idamCap ∧
      (f.recordSync enc).idam = f.idam ++ [⟨f.raw.length, enc⟩]) ∨
    (Config.idamCap ≤ f.idam.length ∧ (f.recordSync enc).idam = f.idam) := by
  unfold Framer.recordSync
  split_ifs with h
  · exact .inl ⟨h, rfl⟩
  · exact .inr ⟨by omega, rfl⟩

theorem Framer.Bounded.emit {p : Params} {f : Framer} (h : f.Bounded p) (v : Byte)
    (hr : f.raw.length ≠ p.rawCap) : (f.emitByte v).Bounded p := by
  refine ⟨?_, h.idam, ?_, h.rising⟩
  · have := h.raw
    simp only [Framer.emitByte, List.length_append, List.length_singleton]
    omega
  · intro e he
    have := h.below e he
    simp only [Framer.emitByte, List.length_append, List.length_singleton]
    omega

theorem Framer.Bounded.sync {p : Params} {f : Framer} (h : f.Bounded p) (enc : BitVec 2) (v : Byte)
    (hr : f.raw.length ≠ p.rawCap) : ((f.recordSync enc).emitByte v).Bounded p := by
  have hraw : (f.recordSync enc).raw = f.raw := f.recordSync_raw enc
  have hl := h.raw
  refine ⟨?_, ?_, ?_, ?_⟩
  · simp only [Framer.emitByte, hraw, List.length_append, List.length_singleton]
    omega
  · rcases f.recordSync_idam enc with ⟨hc, e⟩ | ⟨_, e⟩
    · simp only [Framer.emitByte, e, List.length_append, List.length_singleton]; omega
    · simpa only [Framer.emitByte, e] using h.idam
  · intro e he
    simp only [Framer.emitByte, hraw, List.length_append, List.length_singleton] at he ⊢
    rcases f.recordSync_idam enc with ⟨hc, eq⟩ | ⟨_, eq⟩ <;> rw [eq] at he
    · rcases List.mem_append.1 he with he | he
      · have := h.below e he; omega
      · rw [List.mem_singleton] at he; subst he; show f.raw.length < _; omega
    · have := h.below e he; omega
  · simp only [Framer.emitByte]
    rcases f.recordSync_idam enc with ⟨hc, eq⟩ | ⟨_, eq⟩ <;> rw [eq]
    · refine List.pairwise_append.2 ⟨h.rising, List.pairwise_singleton _ _, ?_⟩
      intro a ha b hb
      rw [List.mem_singleton] at hb
      subst hb
      exact h.below a ha
    · exact h.rising

/-- Every stream bit keeps the bounds. -/
theorem Framer.Bounded.bit {p : Params} {f : Framer} (h : f.Bounded p) (enc : BitVec 2)
    (b : Bool) : (f.bit p enc b).Bounded p := by
  have hs : (f.slide b).Bounded p := ⟨h.raw, h.idam, h.below, h.rising⟩
  rcases f.bit_cases p enc b with ⟨_, e⟩ | ⟨hr, _, _, e⟩ | ⟨hr, _, _, e⟩ | ⟨_, _, e⟩ <;> rw [e]
  · exact ⟨h.raw, h.idam, h.below, h.rising⟩
  · exact hs.sync enc _ hr
  · exact hs.emit _ hr
  · exact hs

@[simp] theorem Framer.bit_k (p : Params) (enc : BitVec 2) (b : Bool) (f : Framer) :
    (f.bit p enc b).k = f.k + 1 := by
  rcases f.bit_cases p enc b with ⟨_, e⟩ | ⟨_, _, _, e⟩ | ⟨_, _, _, e⟩ | ⟨_, _, e⟩ <;> rw [e]
  · rfl
  · unfold Framer.recordSync; split_ifs <;> rfl
  · rfl
  · rfl

/-! ## The framing loop -/

theorem frameStep_frameOnly (s : State) : FrameOnly s (frameStep s) := by
  have h := readStreamBit_readsOnly s.framer.k s
  refine ⟨?_, h.mark⟩
  unfold frameStep
  dsimp only
  rw [h.eq]

@[simp] theorem frameStep_framer (s : State) :
    (frameStep s).framer
      = s.framer.bit s.params s.regs.ctrl.encoding (readStreamBit s.framer.k s).1 := rfl

/-- The framing loop changes the framer, the fault mark and the draw counter and nothing else. -/
theorem frameLoop_frameOnly (n : Nat) (s : State) : FrameOnly s (frameLoop n s) := by
  induction n generalizing s with
  | zero => exact .refl s
  | succ n ih =>
    unfold frameLoop
    split_ifs
    · exact .refl s
    · exact (frameStep_frameOnly s).trans (ih _)

/-- The framing loop keeps the bounds of its tables. -/
theorem frameLoop_bounded {n : Nat} {s : State} (h : s.framer.Bounded s.params) :
    (frameLoop n s).framer.Bounded s.params := by
  induction n generalizing s with
  | zero => exact h
  | succ n ih =>
    unfold frameLoop
    split_ifs
    · exact h
    · have hs := frameStep_frameOnly s
      have := ih (s := frameStep s) (by rw [hs.params]; exact h.bit _ _)
      rwa [hs.params] at this

theorem frameStage_frameOnly (s : State) :
    FrameOnly { s with framer := Framer.reset } (frameStage s) := frameLoop_frameOnly _ _

theorem frameStage_bounded (s : State) : (frameStage s).framer.Bounded s.params :=
  frameLoop_bounded (s := { s with framer := Framer.reset }) (Framer.bounded_reset _)

/-- The framing loop over bits already read, for streams whose bytes are all written. -/
def frameList (p : Params) (enc : BitVec 2) : List Bool → Framer → Framer
  | [], f => f
  | b :: bs, f => if f.rawOvf then f else frameList p enc bs (f.bit p enc b)

/-- On written bytes the framing loop reads no ⊥ cell and is the loop over the stream's bits
(spec/41_sync_framer.md R262, R263). -/
theorem frameLoop_written (bits : List Bool) (s : State)
    (h : ∀ i (hi : i < bits.length), ∃ v, bufGet s.mem.bitbuf ((s.framer.k + i) / 8) = some v ∧
      streamBit v (s.framer.k + i) = bits[i]) :
    frameLoop bits.length s
      = { s with framer := frameList s.params s.regs.ctrl.encoding bits s.framer } := by
  induction bits generalizing s with
  | nil => rfl
  | cons b bs ih =>
    simp only [List.length_cons, frameLoop, frameList]
    split_ifs with ho
    · rfl
    · obtain ⟨v, hv, hb⟩ := h 0 (by simp)
      simp only [Nat.add_zero, List.getElem_cons_zero] at hv hb
      have hstep : frameStep s
          = { s with framer := s.framer.bit s.params s.regs.ctrl.encoding b } := by
        unfold frameStep
        rw [readStreamBit_written hv, hb]
      rw [hstep, ih]
      intro i hi
      obtain ⟨v, hv, hb⟩ := h (i + 1) (by simpa using hi)
      refine ⟨v, ?_, ?_⟩
      · simpa [Nat.add_assoc, Nat.add_comm 1 i] using hv
      · simpa [Nat.add_assoc, Nat.add_comm 1 i] using hb

/-! ## The sector parser -/

/-- The parse of one entry either makes a record, gives one its data field, or changes only
`consumed`, `awaiting` and the cap mark (spec/41_sync_framer.md R272 to R276). -/
theorem parseMark_cases (p : Params) (enc : BitVec 2) (raw : List Byte) (o mp : Nat)
    (ps : Parser) :
    (parseMark p enc raw o mp ps).sect = ps.sect ∨
    (ps.sect.length ≠ p.sectorCap ∧ mp + 6 < raw.length ∧ rawAt raw mp ∈ p.idamMarks ∧
      (parseMark p enc raw o mp ps).sect = ps.sect ++ [idRecord enc raw o mp] ∧
      (parseMark p enc raw o mp ps).awaiting = some ps.sect.length) ∨
    (∃ i r, ps.awaiting = some i ∧ ps.sect[i]? = some r ∧ rawAt raw mp ∈ p.damMarks ∧
      (parseMark p enc raw o mp ps).sect = ps.sect.set i (r.withData raw o mp (rawAt raw mp)) ∧
      (parseMark p enc raw o mp ps).awaiting = none) := by
  unfold parseMark
  dsimp only
  split_ifs with h1 h2
  · unfold parseId
    split_ifs with h3 h4
    · exact .inl rfl
    · exact .inl rfl
    · exact .inr (.inl ⟨h4, by omega, h1, rfl, rfl⟩)
  · unfold parseData
    cases ha : ps.awaiting with
    | none => exact .inl rfl
    | some i =>
      cases hr : ps.sect[i]? with
      | none => exact .inl (by simp [hr])
      | some r => exact .inr (.inr ⟨i, r, rfl, hr, h2, by simp [hr], by simp [hr]⟩)
  · exact .inl rfl

/-- Induction over the parse: what the parse of every entry keeps, the parse keeps. -/
theorem parseEntries_keeps {p : Params} {enc : BitVec 2} {raw : List Byte} {P : Parser → Prop}
    (mark : ∀ o ps, P ps → markPos enc raw o < raw.length →
      P (parseMark p enc raw o (markPos enc raw o) ps))
    (es : List IdamEntry) {ps : Parser} (h : P ps) : P (parseEntries p enc raw es ps) := by
  induction es generalizing ps with
  | nil => exact h
  | cons e es ih =>
    unfold parseEntries
    split_ifs with h1 h2
    · exact ih h
    · exact h
    · exact ih (mark _ _ h (by omega))

/-- The parser makes at most one record per entry and never more than SECTOR_CAP
(spec/41_sync_framer.md R279). -/
theorem parseEntries_length (p : Params) (enc : BitVec 2) (raw : List Byte)
    (es : List IdamEntry) (ps : Parser) (hc : ps.sect.length ≤ p.sectorCap) :
    (parseEntries p enc raw es ps).sect.length ≤ p.sectorCap ∧
    (parseEntries p enc raw es ps).sect.length ≤ ps.sect.length + es.length := by
  induction es generalizing ps with
  | nil => exact ⟨hc, Nat.le_refl _⟩
  | cons e es ih =>
    unfold parseEntries
    simp only [List.length_cons]
    split_ifs with h1 h2
    · have := ih ps hc; omega
    · exact ⟨hc, by omega⟩
    · rcases parseMark_cases p enc raw e.offset (markPos enc raw e.offset) ps with
        hs | ⟨hn, _, _, hs, _⟩ | ⟨i, r, _, _, _, hs, _⟩
      · have := ih (parseMark p enc raw e.offset (markPos enc raw e.offset) ps) (by rw [hs]; exact hc)
        rw [hs] at this; omega
      · have := ih (parseMark p enc raw e.offset (markPos enc raw e.offset) ps)
          (by rw [hs]; simp; omega)
        rw [hs] at this
        simp only [List.length_append, List.length_singleton] at this
        omega
      · have := ih (parseMark p enc raw e.offset (markPos enc raw e.offset) ps)
          (by rw [hs]; simpa using hc)
        rw [hs] at this
        simp only [List.length_set] at this
        omega

/-- A record's data field lies within the framed bytes and its size is 0 or `128 << SIZE_CODE`
(spec/41_sync_framer.md R279). -/
def SectorRecord.Within (len : Nat) (r : SectorRecord) : Prop :=
  r.dataOffset + r.dataSize ≤ len ∧ (r.dataSize = 0 ∨ r.dataSize = sectorSize r.sizeCode) ∧
    (r.dataCrcOk = true → r.dataSize ≠ 0)

theorem sectorSize_pos (n : Byte) : 0 < sectorSize n := by unfold sectorSize; positivity

theorem idRecord_within (enc : BitVec 2) (raw : List Byte) (o mp : Nat) :
    (idRecord enc raw o mp).Within raw.length := by simp [SectorRecord.Within, idRecord]

theorem withData_within {raw : List Byte} {o mp : Nat} {m : Byte} (r : SectorRecord)
    (h : mp < raw.length) : (r.withData raw o mp m).Within raw.length := by
  have hp := sectorSize_pos r.sizeCode
  unfold SectorRecord.withData SectorRecord.Within
  dsimp only
  split_ifs with hs
  · exact ⟨by show mp + 1 + 0 ≤ raw.length; omega, .inl rfl, by simp⟩
  · exact ⟨by show mp + 1 + sectorSize r.sizeCode ≤ raw.length; omega, .inr rfl,
      fun _ => Nat.ne_of_gt hp⟩

/-- Every record of a parse lies within the framed bytes (spec/41_sync_framer.md R277, R279). -/
theorem parseEntries_within (p : Params) (enc : BitVec 2) (raw : List Byte)
    (es : List IdamEntry) :
    ∀ r ∈ (parseEntries p enc raw es Parser.reset).sect, r.Within raw.length := by
  refine parseEntries_keeps (P := fun ps => ∀ r ∈ ps.sect, r.Within raw.length) ?_ es ?_
  · intro o ps h hm
    rcases parseMark_cases p enc raw o (markPos enc raw o) ps with
      hs | ⟨_, _, _, hs, _⟩ | ⟨i, r, _, _, _, hs, _⟩ <;> rw [hs]
    · exact h
    · intro r hr
      rcases List.mem_append.1 hr with hr | hr
      · exact h r hr
      · rw [List.mem_singleton] at hr; rw [hr]; exact idRecord_within ..
    · intro r' hr
      rcases List.mem_or_eq_of_mem_set hr with hr | hr
      · exact h r' hr
      · rw [hr]; exact withData_within r hm
  · simp [Parser.reset]

@[simp] theorem SectorRecord.words_length (r : SectorRecord) : r.words.length = 3 := rfl

theorem sectorWords_length (l : List SectorRecord) :
    (l.flatMap SectorRecord.words).length = 3 * l.length := by
  induction l with
  | nil => rfl
  | cons r l ih => simp only [List.flatMap_cons, List.length_append, ih,
      SectorRecord.words_length, List.length_cons]; omega

/-! ## The body -/

/-- The body of a frame leaves the parameters, the engine, the loop, the comparator and the host as
they were, and of the memory changes only RAW, IDAM and SECT (spec/41_sync_framer.md R280). -/
theorem frameBody_frame (s : State) :
    (frameBody s).params = s.params ∧ (frameBody s).eng = s.eng ∧ (frameBody s).pll = s.pll ∧
    (frameBody s).cmp = s.cmp ∧ (frameBody s).pending = s.pending ∧
    (frameBody s).returned = s.returned ∧ (frameBody s).turns = s.turns ∧
    (frameBody s).mem
      = { s.mem with
          raw := (frameBody s).mem.raw
          idam := (frameBody s).mem.idam
          sect := (frameBody s).mem.sect } := by
  have h := frameStage_frameOnly s
  simp only [frameBody, commitFrame_params, commitFrame_eng, commitFrame_pll, commitFrame_cmp,
    commitFrame_pending, commitFrame_returned, commitFrame_turns, commitFrame_mem,
    parseStage_params, parseStage_eng, parseStage_pll, parseStage_cmp, parseStage_pending,
    parseStage_returned, parseStage_turns, parseStage_mem, h.params, h.eng, h.pll, h.cmp,
    h.pending, h.returned, h.turns, h.mem, and_self]

end Sys2Proof.Machine
end

