-- ==== Sys2Proof/Laws/WeakBit.lean ====
section
/-! SUPPORT. What the comparator can do: what the scan changes, and the bounds and order its tables
keep. -/

namespace Sys2Proof.Machine

/-- `t` is `s` but for the comparator, the fault mark and the draw counter. -/
structure CompareOnly (s t : State) : Prop where
  eq : t = { s with cmp := t.cmp, uninitRead := t.uninitRead, draws := t.draws }
  mark : s.uninitRead = true → t.uninitRead = true

namespace CompareOnly

theorem refl (s : State) : CompareOnly s s := ⟨rfl, id⟩

theorem trans {s t u : State} (h : CompareOnly s t) (g : CompareOnly t u) : CompareOnly s u := by
  refine ⟨?_, fun m => g.mark (h.mark m)⟩
  rw [g.eq, h.eq]

theorem params {s t : State} (h : CompareOnly s t) : t.params = s.params := by rw [h.eq]
theorem regs {s t : State} (h : CompareOnly s t) : t.regs = s.regs := by rw [h.eq]
theorem mem {s t : State} (h : CompareOnly s t) : t.mem = s.mem := by rw [h.eq]
theorem eng {s t : State} (h : CompareOnly s t) : t.eng = s.eng := by rw [h.eq]
theorem pll {s t : State} (h : CompareOnly s t) : t.pll = s.pll := by rw [h.eq]
theorem framer {s t : State} (h : CompareOnly s t) : t.framer = s.framer := by rw [h.eq]
theorem parser {s t : State} (h : CompareOnly s t) : t.parser = s.parser := by rw [h.eq]
theorem pending {s t : State} (h : CompareOnly s t) : t.pending = s.pending := by rw [h.eq]
theorem returned {s t : State} (h : CompareOnly s t) : t.returned = s.returned := by rw [h.eq]
theorem turns {s t : State} (h : CompareOnly s t) : t.turns = s.turns := by rw [h.eq]

end CompareOnly

/-! ## One bit position -/

/-- `distinct` is 2 exactly where the samples differ (spec/42_weakbit.md R335). -/
theorem one_lt_distinctCount (smp : List Bool) :
    1 < distinctCount smp ↔ false ∈ smp ∧ true ∈ smp := by
  unfold distinctCount
  by_cases hf : false ∈ smp <;> by_cases ht : true ∈ smp <;> simp [hf, ht]

theorem distinctCount_eq_two {smp : List Bool} (h : 1 < distinctCount smp) :
    distinctCount smp = 2 := by
  have := (one_lt_distinctCount smp).1 h
  simp [distinctCount, this]

/-- What the judgement of one position can do (spec/42_weakbit.md R330): nothing, or count a weak
bit. -/
theorem Comparator.judge_cases (c : Comparator) (p : Params) (k thr : Nat) (ctrl : Ctrl)
    (smp : List Bool) :
    (¬ (1 < distinctCount smp ∧ thr ≤ variation (distinctCount smp) k) ∧
      c.judge p k thr ctrl smp = c) ∨
    ((1 < distinctCount smp ∧ thr ≤ variation (distinctCount smp) k) ∧
      (c.judge p k thr ctrl smp).count = c.count + 1 ∧
      ((c.recs.length < p.wbCap ∧ (c.judge p k thr ctrl smp).recs = c.recs ++
          [⟨c.o, c.b, variation (distinctCount smp) k, distinctCount smp, smp,
            classify ctrl.wbPattern smp⟩]) ∨
        (p.wbCap ≤ c.recs.length ∧ (c.judge p k thr ctrl smp).recs = c.recs)) ∧
      ((ctrl.wbByteLevel = true ∧ c.first = true ∧ c.bytes.length < p.wbCap ∧
          (c.judge p k thr ctrl smp).bytes = c.bytes ++ [c.o]) ∨
        (c.judge p k thr ctrl smp).bytes = c.bytes)) := by
  unfold Comparator.judge
  dsimp only
  split_ifs with h hb
  · refine .inr ⟨h, ?_, ?_, ?_⟩
    · unfold Comparator.addByte Comparator.addRecord; split_ifs <;> rfl
    · unfold Comparator.addByte Comparator.addRecord
      by_cases hr : c.recs.length < p.wbCap
      · exact .inl ⟨hr, by split_ifs <;> rfl⟩
      · exact .inr ⟨by omega, by split_ifs <;> rfl⟩
    · have hfb : (c.addRecord p ⟨c.o, c.b, variation (distinctCount smp) k, distinctCount smp, smp,
          classify ctrl.wbPattern smp⟩).first = c.first := by
        unfold Comparator.addRecord; split_ifs <;> rfl
      rw [hfb, Bool.and_eq_true] at hb
      unfold Comparator.addByte Comparator.addRecord
      by_cases hc : c.bytes.length < p.wbCap
      · exact .inl ⟨hb.1, hb.2, hc, by split_ifs <;> rfl⟩
      · exact .inr (by split_ifs <;> rfl)
  · refine .inr ⟨h, ?_, ?_, .inr ?_⟩
    · unfold Comparator.addRecord; split_ifs <;> rfl
    · unfold Comparator.addRecord
      by_cases hr : c.recs.length < p.wbCap
      · exact .inl ⟨hr, by rw [if_pos hr]⟩
      · exact .inr ⟨by omega, by rw [if_neg hr]⟩
    · unfold Comparator.addRecord; split_ifs <;> rfl
  · exact .inl ⟨h, rfl⟩

@[simp] theorem Comparator.judge_o (c : Comparator) (p : Params) (k thr : Nat) (ctrl : Ctrl)
    (smp : List Bool) : (c.judge p k thr ctrl smp).o = c.o := by
  unfold Comparator.judge Comparator.addByte Comparator.addRecord
  dsimp only
  split_ifs <;> rfl

/-- The bounds of the comparator's tables (spec/42_weakbit.md R342): at most WB_CAP records and
entries, no more records than weak bits counted. -/
structure Comparator.Bounded (p : Params) (c : Comparator) : Prop where
  recs : c.recs.length ≤ p.wbCap
  bytes : c.bytes.length ≤ p.wbCap
  counted : c.recs.length ≤ c.count
  stored : c.recs.length < p.wbCap → c.recs.length = c.count

theorem Comparator.bounded_reset (p : Params) : Comparator.reset.Bounded p :=
  ⟨by simp [Comparator.reset], by simp [Comparator.reset], by simp [Comparator.reset],
    by simp [Comparator.reset]⟩

theorem Comparator.Bounded.judge {p : Params} {c : Comparator} (h : c.Bounded p) (k thr : Nat)
    (ctrl : Ctrl) (smp : List Bool) : (c.judge p k thr ctrl smp).Bounded p := by
  have h1 := h.recs
  have h2 := h.counted
  have h3 := h.stored
  have h4 := h.bytes
  rcases c.judge_cases p k thr ctrl smp with ⟨_, e⟩ | ⟨_, hc, hr, hb⟩
  · rw [e]; exact h
  · have hrec : (c.judge p k thr ctrl smp).recs.length ≤ p.wbCap ∧
        (c.judge p k thr ctrl smp).recs.length ≤ (c.judge p k thr ctrl smp).count ∧
        ((c.judge p k thr ctrl smp).recs.length < p.wbCap →
          (c.judge p k thr ctrl smp).recs.length = (c.judge p k thr ctrl smp).count) := by
      rw [hc]
      rcases hr with ⟨hlt, e⟩ | ⟨hge, e⟩ <;> rw [e]
      · simp only [List.length_append, List.length_singleton]; omega
      · omega
    have hbyte : (c.judge p k thr ctrl smp).bytes.length ≤ p.wbCap := by
      rcases hb with ⟨_, _, hlt, e⟩ | e <;> rw [e]
      · simp only [List.length_append, List.length_singleton]; omega
      · exact h4
    exact ⟨hrec.1, hbyte, hrec.2.1, hrec.2.2⟩

/-! ## The scan -/

theorem wbBit_compareOnly (s : State) (b : Nat) : CompareOnly s (wbBit s b) := by
  have h := readSamples_readsOnly s.cmp.o b (revolutions s.regs.wbRevs.toNat) s
  refine ⟨?_, h.mark⟩
  unfold wbBit
  dsimp only
  rw [h.eq]

/-- Induction over the bit positions of one byte. -/
theorem wbBits_keeps {P : State → Prop} (bit : ∀ s b, P s → P (wbBit s b)) (bs : List Nat)
    {s : State} (h : P s) : P (bs.foldl wbBit s) := by
  induction bs generalizing s with
  | nil => exact h
  | cons b bs ih => exact ih (bit s b h)

/-- Induction over the scan: what every bit position and the moves of the byte cursor keep, the scan
keeps. -/
theorem wbScan_keeps {P : State → Prop} (bit : ∀ s b, P s → P (wbBit s b))
    (enter : ∀ s, P s → P { s with cmp := { s.cmp with first := true } })
    (leave : ∀ s, P s → P { s with cmp := { s.cmp with o := s.cmp.o + 1 } }) (n : Nat)
    {s : State} (h : P s) : P (wbScan n s) := by
  induction n generalizing s with
  | zero => exact h
  | succ n ih => exact ih (leave _ (wbBits_keeps bit _ (enter s h)))

/-- The scan changes the comparator, the fault mark and the draw counter and nothing else
(spec/42_weakbit.md R344). -/
theorem wbScan_compareOnly (n : Nat) (s : State) : CompareOnly s (wbScan n s) :=
  wbScan_keeps (P := CompareOnly s) (fun t b h => h.trans (wbBit_compareOnly t b))
    (fun _ h => h.trans ⟨rfl, id⟩) (fun _ h => h.trans ⟨rfl, id⟩) n (.refl s)

/-- The scan keeps the bounds of its tables. -/
theorem wbScan_bounded {n : Nat} {s : State} (h : s.cmp.Bounded s.params) :
    (wbScan n s).cmp.Bounded s.params := by
  have key := wbScan_keeps
    (P := fun t => t.params = s.params ∧ t.cmp.Bounded s.params)
    (fun t b ht => by
      refine ⟨(wbBit_compareOnly t b).params.trans ht.1, ?_⟩
      have hb : ({ t.cmp with b := b } : Comparator).Bounded s.params :=
        ⟨ht.2.recs, ht.2.bytes, ht.2.counted, ht.2.stored⟩
      have := hb.judge t.regs.wbRevs.toNat t.regs.wbThreshold.toNat t.regs.ctrl
        (readSamples t.cmp.o b (revolutions t.regs.wbRevs.toNat) t).1
      simp only [wbBit]
      rw [ht.1]
      exact this)
    (fun t ht => ⟨ht.1, ht.2.recs, ht.2.bytes, ht.2.counted, ht.2.stored⟩)
    (fun t ht => ⟨ht.1, ht.2.recs, ht.2.bytes, ht.2.counted, ht.2.stored⟩) n ⟨rfl, h⟩
  exact key.2

/-! ## Validation and body -/

/-- What a detection may rely on once R331 has passed (spec/42_weakbit.md R331). -/
theorem validateWb_none {s : State} (h : validateWb s = none) :
    2 ≤ s.regs.wbRevs.toNat ∧ s.regs.wbRevs.toNat ≤ 10 ∧ s.regs.wbLength.toNat ≠ 0 ∧
    s.regs.wbLength.toNat ≤ s.params.revCap := by
  unfold validateWb Config.minRevs Config.maxRevs at h
  dsimp only at h
  split_ifs at h
  omega

@[simp] theorem WeakRecord.words_length (r : WeakRecord) : r.words.length = 3 := rfl

theorem weakWords_length (l : List WeakRecord) :
    (l.flatMap WeakRecord.words).length = 3 * l.length := by
  induction l with
  | nil => rfl
  | cons r l ih => simp only [List.flatMap_cons, List.length_append, ih,
      WeakRecord.words_length, List.length_cons]; omega

/-- The body of WB_DETECT leaves everything but WBREC, WBBYTE, its result registers and flag, the
comparator, the mark and the draws (spec/42_weakbit.md R344). -/
theorem wbBody_frame (s : State) :
    (wbBody s).params = s.params ∧ (wbBody s).eng = s.eng ∧ (wbBody s).pll = s.pll ∧
    (wbBody s).framer = s.framer ∧ (wbBody s).parser = s.parser ∧
    (wbBody s).pending = s.pending ∧ (wbBody s).returned = s.returned ∧
    (wbBody s).turns = s.turns ∧
    (wbBody s).mem
      = { s.mem with wbrec := (wbBody s).mem.wbrec, wbbyte := (wbBody s).mem.wbbyte } := by
  have h := wbScan_compareOnly s.regs.wbLength.toNat { s with cmp := Comparator.reset }
  simp only [wbBody, commitWb_params, commitWb_eng, commitWb_pll, commitWb_framer,
    commitWb_parser, commitWb_pending, commitWb_returned, commitWb_turns, commitWb_mem, h.params,
    h.eng, h.pll, h.framer, h.parser, h.pending, h.returned, h.turns, h.mem, and_self]

end Sys2Proof.Machine
end

