-- ==== Sys2Proof/Laws/Step.lean ====
section
/-! SUPPORT. What one step can do: the inversion of `step`, of a token step and of a host register
write, and that every memory update keeps the canonical form and the bounds. -/

namespace Sys2Proof.Machine

/-! ## Tokens -/

/-- A token's meaning is its effect on the loop. -/
theorem exec_token {i : Instr} (h : opOfInstr i = none) (s : State) :
    exec i s = .next (tokenEffect i s) := by
  cases i <;> first | rfl | exact absurd h (by simp [opOfInstr])

theorem decodeToken_isToken {bytes rest : List Byte} {i : Instr}
    (h : decodeToken bytes = .ok (i, rest)) : opOfInstr i = none ∧ i.wf = true := by
  match bytes with
  | [] => simp [decodeToken] at h
  | [b] =>
    simp only [decodeToken] at h
    split_ifs at h with h1
    simp only [Except.ok.injEq, Prod.mk.injEq] at h
    obtain ⟨rfl, rfl⟩ := h
    exact ⟨rfl, by simpa [Instr.wf] using h1⟩
  | b :: n :: rest2 =>
    simp only [decodeToken] at h
    split_ifs at h with h1 h2 h3
    · simp only [Except.ok.injEq, Prod.mk.injEq] at h
      obtain ⟨rfl, rfl⟩ := h
      exact ⟨rfl, by simpa [Instr.wf] using h1⟩
    · simp only [Except.ok.injEq, Prod.mk.injEq] at h
      obtain ⟨rfl, rfl⟩ := h
      exact ⟨rfl, by simp only [Instr.wf, decide_eq_true_eq]; omega⟩
    · simp only [Except.ok.injEq, Prod.mk.injEq] at h
      obtain ⟨rfl, rfl⟩ := h
      exact ⟨rfl, by simpa [Instr.wf] using h3⟩
    · split at h
      · simp only [Except.ok.injEq, Prod.mk.injEq] at h
        obtain ⟨rfl, rfl⟩ := h
        exact ⟨rfl, rfl⟩
      · simp at h

theorem fetchedOf_token {bytes : List Byte} {i : Instr} (h : fetchedOf bytes = .token i) :
    opOfInstr i = none ∧ i.wf = true := by
  unfold fetchedOf at h
  split at h
  · next j rest e =>
    simp only [Fetched.token.injEq] at h
    subst h
    exact decodeToken_isToken e
  · simp at h

/-- The token reader yields only well-formed tokens (spec/40_flux_pll.md R205). -/
theorem fetchToken_token {s : State} {i : Instr} (h : (fetchToken s).1 = .token i) :
    opOfInstr i = none ∧ i.wf = true := by
  unfold fetchToken at h
  dsimp only at h
  split_ifs at h <;> exact fetchedOf_token h

/-- What a token step can do. -/
theorem tokenStep_cases {s t : State} (h : tokenStep s = .next t) :
    (s.pll.ovf = true ∧ t = finishDecode s) ∨
    (∃ u, ReadsOnly s u ∧ t = finishDecode u) ∨
    (∃ u, ReadsOnly s u ∧ t = finishDecode (dropTruncated u)) ∨
    (∃ i u, ReadsOnly s u ∧ opOfInstr i = none ∧ i.wf = true ∧ t = tokenEffect i u) := by
  unfold tokenStep at h
  split_ifs at h with ho
  · exact .inl ⟨ho, (Host.Outcome.next.inj h).symm⟩
  · have hr := fetchToken_readsOnly s
    rcases hf : fetchToken s with ⟨f, u⟩
    rw [hf] at h hr
    cases f with
    | stop => exact .inr (.inl ⟨u, hr, (Host.Outcome.next.inj h).symm⟩)
    | trunc => exact .inr (.inr (.inl ⟨u, hr, (Host.Outcome.next.inj h).symm⟩))
    | token i =>
      have hi := fetchToken_token (s := s) (i := i) (by rw [hf])
      have h' : exec i u = .next t := h
      rw [exec_token hi.1] at h'
      exact .inr (.inr (.inr ⟨i, u, hr, hi.1, hi.2, (Host.Outcome.next.inj h').symm⟩))

/-! ## Steps -/

/-- What a step can do (spec/60_exceptions.md R411): a token of a decode at a token boundary,
nothing where no agent can move, the busy engine's command, or a host access. -/
theorem step_cases {s t : State} (h : step s = .next t) :
    (s.pll.live = true ∧ tokenStep s = .next t) ∨
    (s.pll.live = false ∧ s.eng = .idle ∧ s.pending = [] ∧ t = s) ∨
    (∃ c ts, s.pll.live = false ∧ s.eng = .busy c ∧
      exec c.instr { s with turns := ts } = .next t) ∨
    (∃ op rest ts, s.pll.live = false ∧ s.pending = op :: rest ∧
      hostAccess op { s with pending := rest, turns := ts } = .next t) := by
  unfold step nextMove at h
  by_cases hl : s.pll.live = true
  · rw [if_pos hl] at h; exact .inl ⟨hl, h⟩
  · rw [if_neg hl] at h
    have hl' : s.pll.live = false := by simpa using hl
    refine .inr ?_
    split at h
    · next hm => split at hm <;> simp at hm
    · next i u hm =>
      refine .inr (.inl ?_)
      split at hm <;> simp only [Move.command.injEq, reduceCtorEq] at hm
      · next c he hp => obtain ⟨rfl, rfl⟩ := hm; exact ⟨c, s.turns, hl', he, h⟩
      · next c _ _ he hp ht => obtain ⟨rfl, rfl⟩ := hm; exact ⟨c, s.turns, hl', he, h⟩
      · next c _ _ ts he hp ht => obtain ⟨rfl, rfl⟩ := hm; exact ⟨c, ts, hl', he, h⟩
    · next op u hm =>
      refine .inr (.inr ?_)
      split at hm <;> simp only [Move.access.injEq, reduceCtorEq] at hm
      · next op' rest he hp =>
        obtain ⟨rfl, rfl⟩ := hm; exact ⟨op', rest, s.turns, hl', hp, h⟩
      · next op' rest ts he hp ht =>
        obtain ⟨rfl, rfl⟩ := hm; exact ⟨op', rest, ts, hl', hp, h⟩
    · next hm =>
      split at hm <;> simp only [reduceCtorEq] at hm
      next he hp => exact .inl ⟨hl', he, hp, (Host.Outcome.next.inj h).symm⟩

/-! ## Host register writes -/

/-- What a host register write can do (spec/20_memory.md R103): nothing, clear STATUS bits, be
rejected, issue a command, write CTRL, or store an RW register. -/
theorem writeOffset_cases (offset : Nat) (v : Word) (s : State) :
    writeOffset offset v s = s ∨
    writeOffset offset v s = writeStatus v s ∨
    (s.busy = true ∧ writeOffset offset v s = rejectWrite s) ∨
    (s.busy = false ∧ writeOffset offset v s = acceptCommand v s) ∨
    (s.busy = false ∧ writeOffset offset v s = writeCtrl v s) ∨
    (s.busy = false ∧ ∃ g, g.access = .rw ∧
      writeOffset offset v s = { s with regs := s.regs.store g v }) := by
  unfold writeOffset
  cases regAt offset with
  | none => exact .inl rfl
  | some g =>
    simp only [writeReg]
    cases ha : g.access with
    | status => exact .inr (.inl rfl)
    | ignored => exact .inl rfl
    | cmd =>
      cases hb : s.busy
      · exact .inr (.inr (.inr (.inl ⟨rfl, by simp⟩)))
      · exact .inr (.inr (.inl ⟨rfl, by simp⟩))
    | ctrl =>
      cases hb : s.busy
      · exact .inr (.inr (.inr (.inr (.inl ⟨rfl, by simp⟩))))
      · exact .inr (.inr (.inl ⟨rfl, by simp⟩))
    | rw =>
      cases hb : s.busy
      · exact .inr (.inr (.inr (.inr (.inr ⟨rfl, g, ha, by simp⟩))))
      · exact .inr (.inr (.inl ⟨rfl, by simp⟩))

/-- Storing an RW register changes no result register and no flag. -/
theorem store_keeps (r : Regs) (g : Reg) (v : Word) :
    (r.store g v).cmd = r.cmd ∧ (r.store g v).status = r.status ∧ (r.store g v).ctrl = r.ctrl ∧
    (r.store g v).rawLen = r.rawLen ∧ (r.store g v).idamCount = r.idamCount ∧
    (r.store g v).sectorCount = r.sectorCount ∧ (r.store g v).crcErrors = r.crcErrors ∧
    (r.store g v).pllIntervals = r.pllIntervals ∧
    (r.store g v).tokensDropped = r.tokensDropped ∧ (r.store g v).wbCount = r.wbCount ∧
    (r.store g v).wbRecords = r.wbRecords ∧ (r.store g v).wbBytes = r.wbBytes ∧
    (r.store g v).bytesAnalyzed = r.bytesAnalyzed ∧
    (r.store g v).bitsAnalyzed = r.bitsAnalyzed ∧ (r.store g v).density = r.density ∧
    (r.store g v).pllT0 = r.pllT0 ∧ (r.store g v).pllPhase = r.pllPhase ∧
    (r.store g v).pllFreq = r.pllFreq := by
  cases g <;> exact ⟨rfl, rfl, rfl, rfl, rfl, rfl, rfl, rfl, rfl, rfl, rfl, rfl, rfl, rfl, rfl,
    rfl, rfl, rfl⟩

/-! ## Memory -/

/-- The canonical form of the memory, buffer by buffer. -/
theorem memory_wf_iff (m : Memory) :
    m.wf = true ↔ bufWf m.flux = true ∧ bufWf m.bitbuf = true ∧ bufWf m.raw = true ∧
      bufWf m.idam = true ∧ bufWf m.sect = true ∧ (∀ b ∈ m.rev.toList, bufWf b = true) ∧
      bufWf m.wbrec = true ∧ bufWf m.wbbyte = true := by
  simp only [Memory.wf, Bool.and_eq_true, List.all_eq_true, and_assoc]

/-- The bounds of the memory, buffer by buffer. -/
theorem memory_within_iff (p : Params) (m : Memory) :
    m.within p = true ↔ bufBelow p.fluxCap m.flux = true ∧ bufBelow p.bitbufCap m.bitbuf = true ∧
      bufBelow p.rawCap m.raw = true ∧ bufBelow Config.idamCap m.idam = true ∧
      bufBelow (3 * p.sectorCap) m.sect = true ∧
      (∀ b ∈ m.rev.toList, bufBelow p.revCap b = true) ∧
      bufBelow (3 * p.wbCap) m.wbrec = true ∧ bufBelow p.wbCap m.wbbyte = true := by
  simp only [Memory.within, Bool.and_eq_true, List.all_eq_true, and_assoc]

theorem mem_vector_set {b : Buf 8} {v : Vector (Buf 8) 10} {i : Nat} {h : i < 10} {x : Buf 8}
    (hb : b ∈ (v.set i x h).toList) : b = x ∨ b ∈ v.toList := by
  rw [Vector.toList_set] at hb
  exact (List.mem_or_eq_of_mem_set hb).symm

theorem vector_getElem_mem (v : Vector (Buf 8) 10) (r : Fin 10) : v[r] ∈ v.toList := by
  simp [Fin.getElem_fin]

theorem bytes_wf {m : Memory} (h : m.wf = true) (b : ByteBuf) : bufWf (m.bytes b) = true := by
  obtain ⟨h1, h2, h3, _, _, h6, _⟩ := (memory_wf_iff m).1 h
  cases b with
  | flux => exact h1
  | bitbuf => exact h2
  | raw => exact h3
  | rev r => exact h6 _ (vector_getElem_mem m.rev r)

theorem bytes_within {p : Params} {m : Memory} (h : m.within p = true) (b : ByteBuf) :
    bufBelow (b.cells p) (m.bytes b) = true := by
  obtain ⟨h1, h2, h3, _, _, h6, _⟩ := (memory_within_iff p m).1 h
  cases b with
  | flux => exact h1
  | bitbuf => exact h2
  | raw => exact h3
  | rev r => exact h6 _ (vector_getElem_mem m.rev r)

/-- Replacing a byte buffer by a canonical one keeps the canonical form. -/
theorem setBytes_wf {m : Memory} (h : m.wf = true) (b : ByteBuf) {v : Buf 8}
    (hv : bufWf v = true) : (m.setBytes b v).wf = true := by
  obtain ⟨h1, h2, h3, h4, h5, h6, h7, h8⟩ := (memory_wf_iff m).1 h
  rw [memory_wf_iff]
  cases b with
  | flux => exact ⟨hv, h2, h3, h4, h5, h6, h7, h8⟩
  | bitbuf => exact ⟨h1, hv, h3, h4, h5, h6, h7, h8⟩
  | raw => exact ⟨h1, h2, hv, h4, h5, h6, h7, h8⟩
  | rev r =>
    refine ⟨h1, h2, h3, h4, h5, fun b hb => ?_, h7, h8⟩
    rcases mem_vector_set (h := r.isLt) hb with hb | hb
    · rw [hb]; exact hv
    · exact h6 b hb

/-- Replacing a byte buffer by one within its bounds keeps the bounds. -/
theorem setBytes_within {p : Params} {m : Memory} (h : m.within p = true) (b : ByteBuf) {v : Buf 8}
    (hv : bufBelow (b.cells p) v = true) : (m.setBytes b v).within p = true := by
  obtain ⟨h1, h2, h3, h4, h5, h6, h7, h8⟩ := (memory_within_iff p m).1 h
  rw [memory_within_iff]
  cases b with
  | flux => exact ⟨hv, h2, h3, h4, h5, h6, h7, h8⟩
  | bitbuf => exact ⟨h1, hv, h3, h4, h5, h6, h7, h8⟩
  | raw => exact ⟨h1, h2, hv, h4, h5, h6, h7, h8⟩
  | rev r =>
    refine ⟨h1, h2, h3, h4, h5, fun b hb => ?_, h7, h8⟩
    rcases mem_vector_set (h := r.isLt) hb with hb | hb
    · rw [hb]; exact hv
    · exact h6 b hb

/-- A host byte write keeps the canonical form (spec/20_memory.md R105). -/
theorem writeByteCell_wf {s : State} (b : ByteBuf) (i : Nat) (v : Byte) (h : s.mem.wf = true) :
    (writeByteCell b i v s).mem.wf = true := by
  unfold writeByteCell
  split_ifs
  · exact h
  · exact h
  · exact h
  · exact setBytes_wf h b (bufWf_bufSet i v (bytes_wf h b))

/-- A host byte write stays within the buffer (spec/20_memory.md R107). -/
theorem writeByteCell_within {s : State} (b : ByteBuf) (i : Nat) (v : Byte)
    (h : s.mem.within s.params = true) :
    (writeByteCell b i v s).mem.within s.params = true := by
  unfold writeByteCell
  split_ifs with h1
  · exact h
  · exact h
  · exact h
  · exact setBytes_within h b (bufBelow_bufSet v (by omega) (bytes_within h b))

/-- The commit of a decode keeps the canonical form. -/
theorem commitDecode_wf {s : State} (h : s.mem.wf = true) : (commitDecode s).mem.wf = true := by
  obtain ⟨h1, h2, h3, h4, h5, h6, h7, h8⟩ := (memory_wf_iff _).1 h
  rw [commitDecode_mem, memory_wf_iff]
  exact ⟨h1, bufWf_bufWrite 0 _ h2, h3, h4, h5, h6, h7, h8⟩

/-- The commit of a decode whose stream fits stays within BITBUF (spec/40_flux_pll.md R224). -/
theorem commitDecode_within {s : State} (h : s.mem.within s.params = true)
    (hf : s.pll.out.length ≤ 8 * s.params.bitbufCap) :
    (commitDecode s).mem.within s.params = true := by
  obtain ⟨h1, h2, h3, h4, h5, h6, h7, h8⟩ := (memory_within_iff _ _).1 h
  rw [commitDecode_mem, memory_within_iff]
  exact ⟨h1, bufBelow_bufWrite _ (by rw [packBits_length]; omega) h2, h3, h4, h5, h6, h7, h8⟩

/-- The commit of a frame keeps the canonical form. -/
theorem commitFrame_wf {s : State} (h : s.mem.wf = true) : (commitFrame s).mem.wf = true := by
  obtain ⟨h1, h2, h3, h4, h5, h6, h7, h8⟩ := (memory_wf_iff _).1 h
  rw [commitFrame_mem, memory_wf_iff]
  exact ⟨h1, h2, bufWf_bufWrite 0 _ h3, bufWf_bufWrite 0 _ h4, bufWf_bufWrite 0 _ h5, h6, h7, h8⟩

/-- The commit of bounded tables stays within RAW, IDAM and SECT. -/
theorem commitFrame_within {s : State} (h : s.mem.within s.params = true)
    (hb : s.framer.Bounded s.params) (hs : s.parser.sect.length ≤ s.params.sectorCap) :
    (commitFrame s).mem.within s.params = true := by
  obtain ⟨h1, h2, h3, h4, h5, h6, h7, h8⟩ := (memory_within_iff _ _).1 h
  have hr := hb.raw
  have hi := hb.idam
  rw [commitFrame_mem, memory_within_iff]
  refine ⟨h1, h2, bufBelow_bufWrite _ (by omega) h3, bufBelow_bufWrite _ ?_ h4,
    bufBelow_bufWrite _ ?_ h5, h6, h7, h8⟩
  · rw [List.length_map]; omega
  · rw [sectorWords_length]; omega

/-- The commit of a report keeps the canonical form. -/
theorem commitWb_wf {s : State} (h : s.mem.wf = true) : (commitWb s).mem.wf = true := by
  obtain ⟨h1, h2, h3, h4, h5, h6, h7, h8⟩ := (memory_wf_iff _).1 h
  rw [commitWb_mem, memory_wf_iff]
  exact ⟨h1, h2, h3, h4, h5, h6, bufWf_bufWrite 0 _ h7, bufWf_bufWrite 0 _ h8⟩

/-- The commit of bounded tables stays within WBREC and WBBYTE (spec/42_weakbit.md R342). -/
theorem commitWb_within {s : State} (h : s.mem.within s.params = true)
    (hb : s.cmp.Bounded s.params) : (commitWb s).mem.within s.params = true := by
  obtain ⟨h1, h2, h3, h4, h5, h6, h7, h8⟩ := (memory_within_iff _ _).1 h
  have hr := hb.recs
  have hy := hb.bytes
  rw [commitWb_mem, memory_within_iff]
  refine ⟨h1, h2, h3, h4, h5, h6, bufBelow_bufWrite _ ?_ h7, bufBelow_bufWrite _ ?_ h8⟩
  · rw [weakWords_length]; omega
  · rw [List.length_map]; omega

end Sys2Proof.Machine
end

