-- ==== Sys2Proof/Laws/HostAccess.lean ====
section
/-! SUPPORT. The busy window: a command is its validation and its body, the memory its body leaves,
and the cells it is not said to write are cells its completion leaves as they were
(spec/20_memory.md R121). -/

namespace Sys2Proof.Machine

/-- The meaning of a command is its validation and its body. -/
theorem exec_op (c : Op) (s : State) :
    exec c.instr s = .next (runCommand (c.check s) c.body s) := by
  cases c <;> rfl

/-- The memory the body of a decode leaves (spec/40_flux_pll.md R225). -/
theorem decodeBody_mem (s : State) :
    (decodeBody s).mem
      = { s.mem with bitbuf := bufWrite s.mem.bitbuf 0 (packBits (decodeBody s).pll.out) } := by
  have h := decodeLoop_loopOnly ((startDecode s).regs.fluxLen.toNat + 1) (startDecode s)
  simp only [decodeBody, decodeTokens, commitDecode_mem, commitDecode_pll, h.mem, startDecode_mem]

/-- The memory the body of a frame leaves (spec/41_sync_framer.md R280). -/
theorem frameBody_mem (s : State) :
    (frameBody s).mem
      = { s.mem with
          raw := bufWrite s.mem.raw 0 (frameBody s).framer.raw
          idam := bufWrite s.mem.idam 0 ((frameBody s).framer.idam.map IdamEntry.word)
          sect := bufWrite s.mem.sect 0
            ((frameBody s).parser.sect.flatMap SectorRecord.words) } := by
  have h := frameStage_frameOnly s
  simp only [frameBody, commitFrame_mem, commitFrame_framer, commitFrame_parser, parseStage_mem,
    parseStage_framer, h.mem]

/-- The memory the body of a detection leaves (spec/42_weakbit.md R343). -/
theorem wbBody_mem (s : State) :
    (wbBody s).mem
      = { s.mem with
          wbrec := bufWrite s.mem.wbrec 0 ((wbBody s).cmp.recs.flatMap WeakRecord.words)
          wbbyte := bufWrite s.mem.wbbyte 0 ((wbBody s).cmp.bytes.map (BitVec.ofNat 32)) } := by
  have h := wbScan_compareOnly s.regs.wbLength.toNat { s with cmp := Comparator.reset }
  simp only [wbBody, commitWb_mem, commitWb_cmp, h.mem]

/-- A cell past those written from index 0 on keeps its value. -/
theorem bufGet_bufWrite_past {w : Nat} (m : Buf w) (vs : List (BitVec w)) {j : Nat}
    (h : vs.length ≤ j) : bufGet (bufWrite m 0 vs) j = bufGet m j :=
  bufGet_bufWrite_out m 0 vs (.inr (by omega))

/-- The body of a command leaves every byte cell past those it makes, and every cell of a buffer it
does not write. -/
theorem body_byte_kept (c : Op) (b : ByteBuf) (i : Nat) (s : State)
    (h : c.writesBytes b = true → bytesMade (c.body s) b ≤ i) :
    bufGet ((c.body s).mem.bytes b) i = bufGet (s.mem.bytes b) i := by
  cases c <;> cases b <;>
    simp only [Op.body, Op.writesBytes, bytesMade, decodeFrameBody, Memory.bytes,
      frameBody_mem, decodeBody_mem, wbBody_mem, (frameBody_frame _).2.2.1, reduceCtorEq,
      beq_iff_eq, beq_self_eq_true, Bool.or_true, Bool.true_or, forall_const] at h ⊢
  all_goals exact bufGet_bufWrite_past _ _ (by simpa using h)

/-- The body of a command leaves every word cell past those it makes, and every cell of a buffer it
does not write. -/
theorem body_word_kept (c : Op) (b : WordBuf) (i : Nat) (s : State)
    (h : c.writesWords b = true → wordsMade (c.body s) b ≤ i) :
    bufGet ((c.body s).mem.words b) i = bufGet (s.mem.words b) i := by
  cases c <;> cases b <;>
    simp only [Op.body, Op.writesWords, wordsMade, decodeFrameBody, Memory.words,
      frameBody_mem, decodeBody_mem, wbBody_mem, reduceCtorEq,
      beq_self_eq_true, Bool.or_true, Bool.true_or, forall_const] at h ⊢
  all_goals
    exact bufGet_bufWrite_past _ _
      (by simpa only [List.length_map, sectorWords_length, weakWords_length] using h)

/-- A byte cell the command does not write holds its old value at the completion
(spec/20_memory.md R121, spec/60_exceptions.md R413). -/
theorem byte_kept {c : Op} {b : ByteBuf} {i : Nat} {s t : State}
    (h : c.writesByteCell b i s = false) (he : exec c.instr s = .next t) :
    bufGet (t.mem.bytes b) i = bufGet (s.mem.bytes b) i := by
  rw [exec_op] at he
  cases Host.Outcome.next.inj he
  unfold Op.writesByteCell Op.passes at h
  cases hc : c.check s with
  | some e => rfl
  | none => exact body_byte_kept c b i s (fun hb => by simpa [hc, hb] using h)

/-- A word cell the command does not write holds its old value at the completion
(spec/20_memory.md R121, spec/60_exceptions.md R413). -/
theorem word_kept {c : Op} {b : WordBuf} {i : Nat} {s t : State}
    (h : c.writesWordCell b i s = false) (he : exec c.instr s = .next t) :
    bufGet (t.mem.words b) i = bufGet (s.mem.words b) i := by
  rw [exec_op] at he
  cases Host.Outcome.next.inj he
  unfold Op.writesWordCell Op.passes at h
  cases hc : c.check s with
  | some e => rfl
  | none => exact body_word_kept c b i s (fun hb => by simpa [hc, hb] using h)

end Sys2Proof.Machine
end

