-- ==== Sys2Proof/Laws/PerInstr.lean ====
section
/-! SUPPORT. Statements made of every instruction as syntax, one lemma per constructor. -/

namespace Sys2Proof.Laws.EncodedLength

/-- The length of an encoded instruction: 32 bits for a command word (spec/30_encoding.md R140),
and 1, 2 or 5 bytes for a flux token by its form (R150). -/
def Statement (i : Sys2Proof.Instr) : Prop :=
  match i, Sys2Proof.encode i with
  | .pllDecode, .command _ => True
  | .frame, .command _ => True
  | .decodeFrame, .command _ => True
  | .wbDetect, .command _ => True
  | .tokLit _, .token bytes => bytes.length = 1
  | .tokEsc8 _ _, .token bytes => bytes.length = 2
  | .tokEsc24 _ _ _, .token bytes => bytes.length = 5
  | .tokEscUndef _, .token bytes => bytes.length = 2
  | _, _ => False

theorem pllDecode : Statement .pllDecode := trivial

theorem frame : Statement .frame := trivial

theorem decodeFrame : Statement .decodeFrame := trivial

theorem wbDetect : Statement .wbDetect := trivial

theorem tokLit (b : Sys2Proof.Byte) : Statement (.tokLit b) := rfl

theorem tokEsc8 (e n : Sys2Proof.Byte) : Statement (.tokEsc8 e n) := rfl

theorem tokEsc24 (b0 b1 b2 : Sys2Proof.Byte) : Statement (.tokEsc24 b0 b1 b2) := rfl

theorem tokEscUndef (x : Sys2Proof.Byte) : Statement (.tokEscUndef x) := rfl

end Sys2Proof.Laws.EncodedLength
end

