-- ==== Sys2Proof/Tests/Slice0.lean ====
section
/-! SUPPORT. The tests: ill-formed instructions, instruction words written out bit by bit, small steps
checked against the vectors of spec/95_test_vectors.md, and for every statement a state and operands
that meet its hypotheses. -/

namespace Sys2Proof.Tests

open Sys2Proof Sys2Proof.Machine Sys2Proof.Claims

/-! ## Well-formedness -/

theorem test_wf_lit_250_refused : (Instr.tokLit 250).wf = false := by decide

theorem test_wf_lit_249 : (Instr.tokLit 249).wf = true := by decide

theorem test_wf_esc8_249_refused : (Instr.tokEsc8 249 0).wf = false := by decide

theorem test_wf_esc8_255_refused : (Instr.tokEsc8 255 0).wf = false := by decide

theorem test_wf_esc8_bounds : (Instr.tokEsc8 250 0).wf = true ∧ (Instr.tokEsc8 254 255).wf = true := by
  decide

theorem test_wf_undef_255_refused : (Instr.tokEscUndef 255).wf = false := by decide

/-! ## Decoding, from the words and bytes of spec/30_encoding.md R141 and R150 -/

theorem test_decode_pllDecode :
    decodeTableWord 32 0b00000000000000000000000000000001 = some .pllDecode := by decide

theorem test_decode_frame :
    decodeTableWord 32 0b00000000000000000000000000000010 = some .frame := by decide

theorem test_decode_decodeFrame :
    decodeTableWord 32 0b00000000000000000000000000000011 = some .decodeFrame := by decide

theorem test_decode_wbDetect :
    decodeTableWord 32 0b00000000000000000000000000000100 = some .wbDetect := by decide

/-- R143: opcode 0, opcode 5 and a bit above the opcode. -/
theorem test_decode_illegal :
    decodeTableWord 32 0 = none ∧ decodeTableWord 32 5 = none ∧ decodeTableWord 32 0x80000001 = none := by
  decide

/-- R151's example: 0x60 is interval 96. -/
theorem test_decode_lit : decodeTableWord 8 0b01100000 = some (.tokLit 0x60) := by decide

/-- R152's example: FA 26, first byte in the low bits. -/
theorem test_decode_esc8 : decodeTableWord 16 0b0010011011111010 = some (.tokEsc8 0xFA 0x26) := by
  decide

/-- R153's example: FF FF E8 03 00. -/
theorem test_decode_esc24 :
    decodeTableWord 40 0b0000000000000011111010001111111111111111
      = some (.tokEsc24 0xE8 0x03 0x00) := by decide

/-- R154's example: FF 00. -/
theorem test_decode_escUndef : decodeTableWord 16 0b0000000011111111 = some (.tokEscUndef 0x00) := by
  decide

/-! ## Small states -/

/-- An MFM decode at 24 MHz, T0 = 96, of the FLUX bytes given (spec/95_test_vectors.md section 2). -/
def decodeState (bytes : List Byte) : State :=
  { State.reset with
    mem := { Memory.reset with flux := bufWrite [] 0 bytes }
    regs :=
      { Regs.reset with
        sampleFreq := 24000000, fluxLen := BitVec.ofNat 32 bytes.length, ctrl := ⟨1, false, false, false⟩ } }

/-- The same decode at its first token boundary. -/
def tokenState (bytes : List Byte) : State :=
  startDecode { decodeState bytes with eng := .busy .pllDecode }

/-- An MFM frame of the first `n` bits of the BITBUF bytes given. -/
def frameState (n : Nat) (bytes : List Byte) : State :=
  { State.reset with
    mem := { Memory.reset with bitbuf := bufWrite [] 0 bytes }
    regs := { Regs.reset with bitCount := BitVec.ofNat 32 n, ctrl := ⟨1, false, false, false⟩ } }

/-- A detection over one byte of each of five revolutions, both flags set. -/
def detectState (thr : Byte) (v0 v1 v2 v3 v4 : Byte) : State :=
  { State.reset with
    mem :=
      { Memory.reset with
        rev := #v[[(0, v0)], [(0, v1)], [(0, v2)], [(0, v3)], [(0, v4)], [], [], [], [], []] }
    regs :=
      { Regs.reset with
        wbLength := 1, wbRevs := 5, wbThreshold := thr, ctrl := ⟨0, true, true, false⟩ } }

/-- A property of the next state. -/
def after (o : Host.Outcome State Fault Refusal) (p : State → Bool) : Bool :=
  match o with
  | .next t => p t
  | .fault _ => false
  | .refused _ => false

/-- A state busy with a command, its operands as the reset left them. -/
def busyState (c : Op) : State := { State.reset with eng := .busy c }

/-! ## Steps, against spec/95_test_vectors.md -/

/-- V-PLL-2: the tie 144 / 96 = 1.5 gives two cells. -/
theorem test_pllDecode_tie : after (exec .pllDecode (decodeState [0x90])) (fun t =>
    t.mem.bitbuf == [(0, 0x40)] && t.regs.pllPhase == 0xC013333333333334
      && t.regs.pllFreq == 0x4057F0A3D70A3D71 && t.regs.bitCount == 2) = true := by decide +kernel

/-- V-PLL-8: a truncated ESC8 is dropped and flagged. -/
theorem test_pllDecode_truncated : after (exec .pllDecode (decodeState [0x60, 0xFA])) (fun t =>
    t.mem.bitbuf == [(0, 0x80)] && t.regs.tokensDropped == 1 && regValue t .status == 0x202) = true := by
  decide +kernel

/-- V-FR-7: the window holds the sync after 15 bits, which does not match. -/
theorem test_frame_needs_sixteen_bits :
    after (exec .frame (frameState 32 [0x89, 0x12, 0x00, 0x00])) (fun t =>
      t.mem.raw == [(0, 0x14), (1, 0x00)] && t.regs.idamCount == 0) = true := by decide +kernel

/-- V-FR-9: a false sync inside a cell pattern is recorded like any other. -/
theorem test_frame_false_sync :
    after (exec .frame (frameState 41 [0x44, 0x89, 0x12, 0x54, 0x55, 0x00])) (fun t =>
      t.mem.raw == [(0, 0xA1), (1, 0xA1), (2, 0x00)] && t.mem.idam == [(0, 0x10000), (1, 0x10001)]
        && t.regs.sectorCount == 0) = true := by decide +kernel

/-- R290 with V-PLL-1's kind of input: sixteen intervals of T0 make one data byte FF. -/
theorem test_decodeFrame_both_stages :
    after (exec .decodeFrame (decodeState (List.replicate 16 0x60))) (fun t =>
      t.mem.bitbuf == [(0, 0xFF), (1, 0xFF)] && t.mem.raw == [(0, 0xFF)] && t.regs.rawLen == 1) = true := by
  decide +kernel

/-- V-DF-2: FLUX_LEN = 0 fails with EMPTY_INPUT and writes nothing. -/
theorem test_decodeFrame_empty :
    after (exec .decodeFrame (decodeState [])) (fun t => regValue t .status == 0x26
      && t.mem == (decodeState []).mem) = true := by decide +kernel

/-- V-WB-3: samples 0 0 1 1 0 at bit 3 are Custom, density 125. -/
theorem test_wbDetect_custom :
    after (exec .wbDetect (detectState 0 0x00 0x00 0x08 0x08 0x00)) (fun t =>
      t.mem.wbrec == [(0, 0x00000000), (1, 0x02022803), (2, 0x0000000C)]
        && t.mem.wbbyte == [(0, 0)] && t.regs.density == 0x405F400000000000) = true := by
  decide +kernel

/-- R336, R337: with K = 5 the variation is 40, which a threshold of 41 does not pass. -/
theorem test_wbDetect_threshold :
    after (exec .wbDetect (detectState 41 0x00 0x08 0x00 0x08 0x00)) (fun t =>
      t.regs.wbCount == 0 && t.mem.wbrec == []) = true := by decide +kernel

/-- V-PLL-4: interval 0 emits one 1 bit. -/
theorem test_lit_zero : after (exec (.tokLit 0) (tokenState [0x00])) (fun t =>
    t.pll.out == [true] && t.pll.phase == 0xC023333333333334 && t.pll.tc == 1) = true := by
  decide +kernel

/-- V-PLL-5b: FE 00 feeds 250. -/
theorem test_esc8_ignores_escape : after (exec (.tokEsc8 0xFE 0) (tokenState [0xFE, 0x00])) (fun t =>
    t.pll.out == [false, false, true] && t.pll.phase == 0xC00E666666666667 && t.pll.tc == 2) = true := by
  decide +kernel

/-- V-PLL-6: FF FF E8 03 00 feeds 1000, clamped to three cells. -/
theorem test_esc24_little_endian :
    after (exec (.tokEsc24 0xE8 0x03 0x00) (tokenState [0xFF, 0xFF, 0xE8, 0x03, 0x00])) (fun t =>
      t.pll.out == [false, false, true] && t.pll.freq == 0x405897E4B17E4B18 && t.pll.tc == 5) = true := by
  decide +kernel

/-- V-PLL-7: FF 00 feeds nothing. -/
theorem test_escUndef_drops : after (exec (.tokEscUndef 0) (tokenState [0xFF, 0x00])) (fun t =>
    t.pll.out == [] && t.pll.ndrop == 1 && t.pll.tc == 2
      && t.pll.freq == (tokenState []).pll.freq) = true := by decide +kernel

/-- The step that `withFetchWord` prepares runs a command word. -/
theorem test_fetch_runs_command :
    after (step (State.reset.withFetchWord 32 2)) (fun t => t.regs.status.done && t.regs.cmd == 2)
      = true := by decide +kernel

/-- The step that `withFetchWord` prepares runs a token. -/
theorem test_fetch_runs_token :
    after (step (State.reset.withFetchWord 16 0xFF)) (fun t => t.pll.ndrop == 1 && t.pll.tc == 2)
      = true := by decide +kernel

/-! ## Witnesses: for every statement with hypotheses, a state and operands that meet them -/

/-- A legal decode of three intervals of T0, its command accepted. -/
def decodeBusy (c : Op) : State := { decodeState [0x60, 0x60, 0x60] with eng := .busy c }

/-- A legal detection over written revolutions. -/
def detectLegalState : State := detectState 0 0x00 0x08 0x00 0x08 0x00

theorem witness_HardwareResetClearsTheBlock : (decodeBusy .pllDecode).params.wf = true := by decide

theorem witness_SoftResetSparesTheBuffers :
    (0x80000003 : Word).getLsbD 31 = true ∧ (decodeState [0x60]).eng = .idle ∧
      (busyState .frame).eng = .busy .frame := by decide

theorem witness_MisalignedOrNarrowAccessIsRefused :
    (32 ≠ 32 ∨ ¬ legalOffset 0x0FE) ∧ (16 ≠ 32 ∨ ¬ legalOffset 0x000) ∧ legalOffset 0x000 ∧
      legalOffset 0x0FC := by
  decide

theorem witness_ReservedSpaceReadsZero :
    (legalOffset 0x06C ∧ 0x06C ∉ namedOffsets) ∧ (legalOffset 0x0A8 ∧ 0x0A8 ∉ namedOffsets) ∧
      (legalOffset 0x0FC ∧ 0x0FC ∉ namedOffsets) ∧ (0x004, 0xFFFEC008) ∈ reservedBits := by decide

theorem witness_CapacityRegistersAreConstant :
    State.reset.params.wf = true ∧ step State.reset = .next State.reset := ⟨by decide, rfl⟩

theorem witness_StoredRegisterReadsBack :
    State.reset.eng = .idle ∧ (0x008, 0x00010303) ∈ (0x008, 0x00010303) :: rwRegisters ∧
      (0x7FFFFFFF : Word).getLsbD 31 = false ∧ (0x08C, 0xFFFFFFFF) ∈ rwRegisters := by decide

theorem witness_HostReadsHaveNoSideEffect :
    ∃ t u v, hostAccess (.regRead 0x0FC 32) State.reset = .next t ∧
      hostAccess (.byteRead .flux 0) State.reset = .next u ∧
      hostAccess (.wordRead .wbbyte 4095) State.reset = .next v := ⟨_, _, _, rfl, rfl, rfl⟩

theorem witness_BusyWindowSparesOtherRegisters :
    (busyState .pllDecode).eng = .busy .pllDecode ∧
      (legalOffset 0x01C ∧ 0x01C ≠ 0x004 ∧ 0x01C ∉ registersWritten .pllDecode) ∧
      (legalOffset 0x0A4 ∧ 0x0A4 ∈ registersWritten .pllDecode) ∧ legalOffset 0x004 ∧
      ¬ commandLegal (busyState .pllDecode) .pllDecode ∧
      (busyState .frame).eng = .busy .frame ∧ legalOffset 0x028 ∧ 0x028 ∈ registersWritten .frame ∧
      commandLegal (busyState .frame) .frame := by
  refine ⟨by decide, by decide, by decide, by decide, ?_, by decide, by decide, by decide, ?_⟩
  · show ¬ decodeLegal _; decide
  · show frameLegal _; decide

/-- A decode of three cells writes the first cell of BITBUF alone. -/
theorem witness_BufferReadReturnsItsCell :
    let s : State := { decodeBusy .pllDecode with
      mem := { (decodeBusy .pllDecode).mem with bitbuf := [(0, 7), (1, 8)] } }
    1 < ByteBuf.bitbuf.cells s.params ∧ s.eng = .busy .pllDecode ∧
      0 < bytesWritten s .pllDecode .bitbuf ∧ bytesWritten s .pllDecode .bitbuf ≤ 1 ∧
      bufGet (s.mem.bytes .bitbuf) 1 = some 8 ∧ bufGet (s.mem.bytes .bitbuf) 2 = none := by
  decide +kernel

/-- A frame of one sync writes the first cell of IDAM alone. -/
theorem witness_BufferReadReturnsItsCell_words :
    let s : State := { frameState 16 [0x44, 0x89] with
      eng := .busy .frame
      mem := { (frameState 16 [0x44, 0x89]).mem with idam := [(0, 7), (63, 5)] } }
    63 < WordBuf.idam.cells s.params ∧ s.eng = .busy .frame ∧
      0 < wordsWritten s .frame .idam ∧ wordsWritten s .frame .idam ≤ 1 ∧
      bufGet (s.mem.words .idam) 63 = some 5 ∧ bufGet (s.mem.words .idam) 62 = none := by
  decide +kernel

/-- R121: in the busy window a cell past the last one the command writes reads its old value, and so
does a result register of a command that will fail (R413). -/
theorem test_busy_window_keeps_unwritten :
    after (hostAccess (.byteRead .bitbuf 1) { decodeBusy .pllDecode with
        mem := { (decodeBusy .pllDecode).mem with bitbuf := [(0, 7), (1, 8)] } })
      (fun t => t.returned == [.byte 8] && t.hostDraws == 0) = true ∧
    after (hostAccess (.regRead 0x014 32) { busyState .pllDecode with
        regs := { Regs.reset with bitCount := 9 } })
      (fun t => t.returned == [.word 9] && t.hostDraws == 0) = true := by decide +kernel

theorem witness_BufferWriteLandsInItsCell :
    (0x7FFF < (ByteBuf.rev 9).cells State.reset.params ∧ .rev 9 ∈ hostRw ∧ State.reset.eng = .idle) ∧
      (busyState .frame).eng = .busy .frame ∧ 0x3FFF < ByteBuf.raw.cells State.reset.params ∧
      4095 < WordBuf.wbbyte.cells State.reset.params := by decide

theorem witness_OutOfRangeBufferAccessIsInert :
    ByteBuf.flux.cells State.reset.params ≤ 0x100000 ∧ WordBuf.idam.cells State.reset.params ≤ 64 := by
  decide

theorem witness_MarkFollowsUnwrittenOperands :
    (decodeLegal { decodeState [0x60] with mem := Memory.reset } ∧
      bufGet ({ decodeState [0x60] with mem := Memory.reset } : State).mem.flux 0 = none) ∧
    (frameLegal (frameState 16 []) ∧ (frameState 16 []).regs.bitCount ≠ 0 ∧
      bufGet (frameState 16 []).mem.bitbuf 0 = none) ∧
    (detectLegal { detectLegalState with mem := Memory.reset } ∧
      bufGet (({ detectLegalState with mem := Memory.reset } : State).mem.bytes (.rev 0)) 0 = none) :=
  ⟨⟨by decide +kernel, by decide⟩, ⟨by decide, by decide, by decide⟩, ⟨by decide, by decide⟩⟩

theorem witness_MarkFollowsUnwrittenOperands_written :
    (decodeState [0x60]).params.wf = true ∧ commandLegal (decodeState [0x60]) .pllDecode ∧
      operandsWritten (decodeState [0x60]) .pllDecode ∧
      (∃ t, exec .pllDecode (decodeState [0x60]) = .next t) ∧
      commandLegal (frameState 16 [0x44, 0x89]) .frame ∧
      operandsWritten (frameState 16 [0x44, 0x89]) .frame ∧
      (∃ t, exec .frame (frameState 16 [0x44, 0x89]) = .next t) ∧
      commandLegal detectLegalState .wbDetect ∧ operandsWritten detectLegalState .wbDetect ∧
      ∃ t, exec .wbDetect detectLegalState = .next t := by
  refine ⟨by decide, ?_, ?_, ⟨_, rfl⟩, ?_, ?_, ⟨_, rfl⟩, ?_, ?_, ⟨_, rfl⟩⟩
  · show decodeLegal _; decide +kernel
  · show ∀ i, i < (decodeState [0x60]).regs.fluxLen.toNat → _; decide
  · show frameLegal _; decide
  · show ∀ i, i < byteCount (frameState 16 [0x44, 0x89]).regs.bitCount.toNat → _; decide
  · show detectLegal _; decide
  · show ∀ r : Fin 10, _; decide

/-- The clauses on which cells are read: a last REV byte and a BITBUF byte unwritten, a decode that
ends with a truncated token, and one that stops at an interval that does not fit. -/
theorem witness_MarkFollowsUnwrittenOperands_later :
    (let s : State := { detectLegalState with regs := { detectLegalState.regs with wbLength := 2 } };
      detectLegal s ∧ bufGet (s.mem.bytes (.rev 4)) 1 = none ∧ ∃ t, exec .wbDetect s = .next t) ∧
    (frameLegal (frameState 8 []) ∧ (framed (frameState 8 [])).rawOvf = false ∧
      bufGet (frameState 8 []).mem.bitbuf 0 = none) ∧
    (decodeLegal (decodeState [0x60, 0xFA]) ∧ (decoded (decodeState [0x60, 0xFA])).ovf = false) ∧
    (let s : State := { decodeState (List.replicate 9 0x60) with
        params := { Params.default with bitbufCap := 1 } };
      s.params.wf = true ∧ decodeLegal s ∧ (decoded s).ovf = true) := by
  exact ⟨⟨by decide, by decide, _, rfl⟩, by decide +kernel, by decide +kernel, by decide +kernel⟩

theorem witness_OnlyHardwareResetClearsTheMark :
    after (step { State.reset with uninitRead := true, pending := [.hardReset] })
      (fun t => !t.uninitRead) = true := by decide +kernel

theorem witness_CommandWriteIsAcceptedOnce :
    (busyState .wbDetect).eng = .busy .wbDetect ∧ State.reset.eng = .idle ∧ illegalWord 0 ∧
      illegalWord 5 ∧ illegalWord 0xFF ∧ illegalWord 0x101 ∧ ¬ illegalWord 1 ∧ ¬ illegalWord 4 := by
  decide

theorem witness_BusyBlockRejectsWrites :
    (busyState .decodeFrame).eng = .busy .decodeFrame ∧ .rev 9 ∈ hostRw ∧
      0x7FFF < (ByteBuf.rev 9).cells State.reset.params ∧ legalOffset 0x0C8 ∧
      0x0C8 ∈ readOnlyOffsets ∧ legalOffset 0x0CC ∧ 0x0CC ∉ namedOffsets := by decide

theorem witness_BusyBlockRejectsWrites_cleared :
    after (step { rejected (busyState .frame) with
        pending := [.regWrite 0x004 32 0x10000], turns := [.host] })
      (fun t => !t.regs.status.rejected) = true ∧
    after (step { rejected State.reset with pending := [.regWrite 0x008 32 0x80000000] })
      (fun t => !t.regs.status.rejected) = true ∧
    after (step { rejected State.reset with pending := [.hardReset] })
      (fun t => !t.regs.status.rejected) = true := by decide +kernel

theorem witness_WaitEndsOnceTheEngineMoves :
    let s : State := { busyState .frame with pending := [.wait], turns := [.host, .engine] }
    s.pll.live = false ∧ s.eng = .busy .frame ∧ s.pending = .wait :: [] ∧
      s.turns = List.replicate 1 .host ++ .engine :: [] := by decide

theorem witness_ErrorsDependOnRegistersOnly :
    (frameState 8 [0xFF]).regs = (frameState 8 [0x00]).regs ∧
      (frameState 8 [0xFF]).params = (frameState 8 [0x00]).params ∧
      (∃ t, exec .frame (frameState 8 [0xFF]) = .next t) ∧
      ∃ t, exec .frame (frameState 8 [0x00]) = .next t := ⟨rfl, rfl, ⟨_, rfl⟩, ⟨_, rfl⟩⟩

/-- So does a state at a token boundary. -/
theorem witness_EveryStepKeepsTheInvariant_live :
    (tokenState [0x60]).Inv ∧ ∃ t, step (tokenState [0x60]) = .next t := by
  refine ⟨⟨by decide, by decide, by decide, by decide, by decide, ?_, ?_, ?_, ?_, by decide,
    by decide, by decide, by decide, by decide⟩, _, rfl⟩
  · exact fun _ => by decide
  · exact fun _ => .inl rfl
  · exact fun _ => by decide +kernel
  · exact fun _ => by decide

theorem witness_FailedCommandWritesNothing :
    after (exec .wbDetect State.reset) (fun t => t.regs.status.err) = true ∧
      after (exec .pllDecode State.reset) (fun t => t.regs.status.err) = true := by decide +kernel

theorem witness_InterruptFollowsDoneAndEnable :
    (∃ t, exec .frame State.reset = .next t) ∧ State.reset.eng = .idle ∧ illegalWord 0x100 ∧
      ¬ illegalWord 3 ∧ (∃ t, hostAccess (.regWrite 0x000 32 3) State.reset = .next t) ∧
      (0x00000002 : Word).getLsbD 1 = true ∧ (0x00010000 : Word).getLsbD 31 = false ∧
      ∃ t, hostAccess (.regWrite 0x008 32 0x00010000) State.reset = .next t :=
  ⟨⟨_, rfl⟩, by decide, by decide, by decide, ⟨_, rfl⟩, by decide, by decide, ⟨_, rfl⟩⟩

theorem witness_CommandsIgnoreEarlierHiddenState :
    ∃ t t', exec .frame (frameState 8 [0xFF]) = .next t ∧
      exec .frame { frameState 8 [0xFF] with
        pll := { PllLoop.reset with nint := 7 }, framer := { Framer.reset with cnt := 3 },
        parser := { Parser.reset with consumed := 9 },
        cmp := { Comparator.reset with count := 2 } } = .next t' := ⟨_, _, rfl, rfl⟩

theorem witness_StepRunsTheDecodedCommand :
    (decodeCommand 4 = .ok .wbDetect ∧ State.reset.pll.live = false ∧ State.reset.eng = .idle) ∧
      (busyState .frame).pll.live = false ∧ (busyState .frame).eng = .busy .frame ∧
      (busyState .frame).pending = [] ∧ (busyState .frame).turns = [] ∧
      ([.wait] : List HostOp) ≠ [] ∧ ([.engine] : List Agent) = .engine :: [] := by decide

theorem witness_StepRunsTheDecodedToken :
    let s := tokenState [0xFF, 0xFF, 0xE8, 0x03, 0x00]
    isToken (.tokEsc24 0xE8 0x03 0x00) = true ∧ (Instr.tokEsc24 0xE8 0x03 0x00).wf = true ∧
      s.pll.live = true ∧ s.pll.ovf = false ∧
      fluxHolds s s.pll.tc (tokenBytes (.tokEsc24 0xE8 0x03 0x00)) ∧
      s.pll.tc + (tokenBytes (.tokEsc24 0xE8 0x03 0x00)).length ≤ s.regs.fluxLen.toNat := by
  refine ⟨by decide, by decide, by decide +kernel, by decide +kernel, ?_, by decide +kernel⟩
  show ∀ k, k < 5 → _
  decide +kernel

theorem witness_StepRunsTheDecodedToken_ends :
    (tokenState []).pll.live = true ∧
      (tokenState []).regs.fluxLen.toNat ≤ (tokenState []).pll.tc ∧
      (tokenState [0xFF, 0xFF, 0x01, 0x02]).pll.live = true ∧
      (tokenState [0xFF, 0xFF, 0x01, 0x02]).pll.ovf = false ∧
      fluxHolds (tokenState [0xFF, 0xFF, 0x01, 0x02]) (tokenState [0xFF, 0xFF, 0x01, 0x02]).pll.tc
        [0xFF, 0xFF, 0x01, 0x02] ∧
      decodeToken [0xFF, 0xFF, 0x01, 0x02] = .error .truncatedToken := by
  refine ⟨by decide +kernel, by decide +kernel, by decide +kernel, by decide +kernel, ?_, by decide⟩
  show ∀ k, k < 4 → _
  decide +kernel

theorem decodeBusy_legal (c : Op) : decodeLegal (decodeBusy c) := by
  show decodeLegal (decodeState [0x60, 0x60, 0x60])
  decide +kernel

theorem witness_DecodeIsItsTokenSteps :
    decodeLegal (decodeBusy .pllDecode) ∧ (decodeBusy .pllDecode).eng = .busy .pllDecode ∧
      decodeLegal (decodeBusy .decodeFrame) ∧ (decodeBusy .decodeFrame).eng = .busy .decodeFrame :=
  ⟨decodeBusy_legal _, rfl, decodeBusy_legal _, rfl⟩

theorem witness_NoStepEntersATokenBoundary :
    (decodeBusy .pllDecode).pll.live = false ∧ ∃ t, step (decodeBusy .pllDecode) = .next t :=
  ⟨rfl, _, rfl⟩

/-- A state with an accepted command and written buffers meets the invariant. -/
theorem witness_EveryStepKeepsTheInvariant :
    (decodeBusy .pllDecode).Inv ∧ ∃ t, step (decodeBusy .pllDecode) = .next t := by
  refine ⟨⟨by decide, by decide, by decide, by decide, by decide, by decide, ?_, ?_, ?_, by decide,
    by decide, by decide, by decide, by decide⟩, _, rfl⟩ <;>
  exact fun h => absurd h (by decide)

theorem witness_DecodeUndoesEncode :
    (Instr.tokLit 249).wf = true ∧ (Instr.tokEsc8 250 255).wf = true ∧
      isToken (.tokEscUndef 254) = true ∧ (Instr.tokEscUndef 254).wf = true ∧
      decodeToken [0xFE, 0x26, 0x60] = .ok (.tokEsc8 0xFE 0x26, [0x60]) := by decide

theorem witness_IntervalTokensFeedTheirValue :
    1 ≤ (tokenState [0x60]).regs.pllMaxCells.toNat ∧ (Instr.tokLit 0).wf = true ∧
      (Instr.tokLit 249).wf = true ∧ (Instr.tokEsc8 250 0).wf = true ∧
      (Instr.tokEsc8 254 255).wf = true ∧
      F64.isNaN (quotient (tokenState [0x60]).pll 0x60) = false := by decide +kernel

theorem witness_UndefinedEscapeIsDropped :
    (Instr.tokEscUndef 0).wf = true ∧ (Instr.tokEscUndef 254).wf = true := by decide

theorem witness_RoundHalfAwayIsNearest :
    F64.isFinite 0x4004000000000000 = true ∧ F64.isFinite 0xC004000000000000 = true := by decide

theorem witness_RoundingIsToNearestEven :
    0 < 2 ∧ F64.isFinite 0x3FF0000000000000 = true ∧ F64.isFinite 0x8000000000000000 = true ∧
      F64.isZero 0x3FF0000000000000 = false ∧ F64.isZero 0x8000000000000000 = true ∧
      F64.isInf 0xFFF0000000000000 = true ∧ 2 ^ 53 - 1 < 2 ^ 53 := by decide

/-- R221 with its own bounds at T0 = 96, 86.4 and 105.60000000000001: a frequency between them stays,
one above the upper becomes the upper, one below the lower the lower. -/
theorem test_clamp :
    F64.clamp 0x4058000000000000 0x405599999999999A 0x405A666666666667 = 0x4058000000000000 ∧
    F64.clamp 0x4059000000000000 0x405599999999999A 0x405A666666666667 = 0x4059000000000000 ∧
    F64.clamp 0x4069000000000000 0x405599999999999A 0x405A666666666667 = 0x405A666666666667 ∧
    F64.clamp 0x4014000000000000 0x405599999999999A 0x405A666666666667 = 0x405599999999999A := by
  decide

theorem witness_DecodeValidatesInOrder :
    State.reset.regs.fluxLen = 0 ∧
      ((decodeBusy .pllDecode).regs.fluxLen ≠ 0 ∧ ¬ decodeParamsLegal
        { decodeBusy .pllDecode with
          regs := { (decodeBusy .pllDecode).regs with pllMaxCells := 0 } }) ∧
      ¬ decodeParamsLegal { decodeBusy .pllDecode with
          regs := { (decodeBusy .pllDecode).regs with phaseGain := 0x4000000000000000 } } := by
  decide +kernel

/-- The state the statements about a legal decode are witnessed by: PllDecodeCommitsItsStream,
StreamHasOneOnePerInterval, FrequencyStaysInItsClamp and DecodeFrameIsDecodeThenFrame. -/
theorem witness_PllDecodeCommitsItsStream :
    (decodeBusy .pllDecode).params.wf = true ∧ decodeLegal (decodeBusy .pllDecode) :=
  ⟨by decide, decodeBusy_legal _⟩

theorem witness_PllDecodeLeavesTheRest :
    (∃ t, exec .pllDecode (decodeBusy .pllDecode) = .next t) ∧
      ∃ t, exec .pllDecode State.reset = .next t := ⟨⟨_, rfl⟩, ⟨_, rfl⟩⟩

/-- Three intervals of T0 = 96 as LIT tokens, and two of T0 = 288 as ESC8 and as ESC24. -/
theorem witness_ConstantPeriodDecodesToOnes :
    let s := decodeBusy .pllDecode
    let tokens : List Instr := [.tokLit 0x60, .tokLit 0x60, .tokLit 0x60]
    (∀ i ∈ tokens, i.wf = true ∧ tokenInterval i = some 96) ∧
      s.regs.sampleFreq.toNat = 96 * selectedRate s.regs ∧
      F64.le s.regs.fminRatio 0x3FF0000000000000 = true ∧
      F64.le 0x3FF0000000000000 s.regs.fmaxRatio = true ∧
      tokens.length ≤ 8 * s.params.bitbufCap ∧
      s.regs.fluxLen.toNat = (tokens.flatMap tokenBytes).length ∧
      ∀ k, k < (tokens.flatMap tokenBytes).length →
        bufGet s.mem.flux (0 + k) = (tokens.flatMap tokenBytes)[k]? := by decide +kernel

theorem witness_ConstantPeriodDecodesToOnes_escapes :
    let s : State := { decodeState [0xFA, 0x26, 0xFF, 0xFF, 0x20, 0x01, 0x00] with
      regs := { (decodeState [0xFA, 0x26, 0xFF, 0xFF, 0x20, 0x01, 0x00]).regs with
        sampleFreq := 72000000 } }
    let tokens : List Instr := [.tokEsc8 0xFA 0x26, .tokEsc24 0x20 0x01 0x00]
    s.params.wf = true ∧ decodeLegal s ∧
      (∀ i ∈ tokens, i.wf = true ∧ tokenInterval i = some 288) ∧
      s.regs.sampleFreq.toNat = 288 * selectedRate s.regs ∧
      s.regs.fluxLen.toNat = (tokens.flatMap tokenBytes).length ∧
      ∀ k, k < (tokens.flatMap tokenBytes).length →
        bufGet s.mem.flux (0 + k) = (tokens.flatMap tokenBytes)[k]? := by decide +kernel

theorem witness_ThreeCellsHideMfmSync :
    (decodeBusy .decodeFrame).params.wf = true ∧ decodeLegal (decodeBusy .decodeFrame) ∧
      (decodeBusy .decodeFrame).regs.pllMaxCells.toNat ≤ 3 ∧
      (decodeBusy .decodeFrame).regs.ctrl.encoding = 1 :=
  ⟨by decide, decodeBusy_legal _, by decide, by decide⟩

theorem witness_FrameValidatesEncodingAndLength :
    (frameLegal (frameState 0 []) ∧ (frameState 0 []).regs.bitCount = 0) ∧
    ¬ frameLegal (frameState 0x200001 []) ∧
      ¬ frameLegal { frameState 0 [] with
          regs := { (frameState 0 []).regs with ctrl := ⟨2, false, false, false⟩ } } := by decide

/-- The state the statements about a legal frame are witnessed by. -/
theorem witness_FrameCommitsItsTables :
    (frameState 0x200000 []).params.wf = true ∧ frameLegal (frameState 0x200000 []) ∧
      frameLegal (frameState 0 []) := by decide

theorem witness_FrameLeavesTheRest :
    (∃ t, exec .frame (frameState 16 [0x44, 0x89]) = .next t) ∧
      ∃ t, exec .frame (frameState 0x200001 []) = .next t := ⟨⟨_, rfl⟩, ⟨_, rfl⟩⟩

theorem witness_IdamOffsetsRiseWithinRaw : (frameState 15 []).regs.bitCount.toNat < 16 := by decide

/-- The bits of 0x4489, first bit first. -/
def syncBits : List Bool :=
  [false, true, false, false, false, true, false, false, true, false, false, false, true, false,
    false, true]

/-- The bits of MFM 0x2AAA, the cells of byte 00 after a 1 bit. -/
def zeroBits : List Bool :=
  [false, false, true, false, true, false, true, false, true, false, true, false, true, false,
    true, false]

/-- Two windows, a sync and a byte, in a RAW of one byte: RAW overflows, and the fifteen windows
that straddle the two are no syncs. -/
theorem witness_AlignedStreamFramesByWindows :
    let s : State := { frameState 32 [0x44, 0x89, 0x2A, 0xAA] with
      params := { Params.default with rawCap := 1 } }
    let bits := syncBits ++ zeroBits
    bits.length = 16 * 2 ∧ s.regs.bitCount.toNat = bits.length ∧ s.params.rawCap < 2 ∧
      (∀ k, k < bits.length →
        (bufGet s.mem.bitbuf (k / 8)).map (fun v => v.getLsbD (7 - k % 8)) = bits[k]?) ∧
      ∀ q, q < 17 → q % 16 ≠ 0 → windowAt bits q ∉ syncPatterns s.params s.regs.ctrl.encoding := by
  decide

/-- V-FR-6's kind of stream: three bits 1 0 1, then the sync, then the cells of a byte, which the sync
realigned to stream bit 19. -/
theorem witness_FirstSyncGetsItsByteOffset :
    let s := frameState 35 [0xA8, 0x91, 0x25, 0x55, 0x40]
    let bits := [true, false, true] ++ syncBits ++ zeroBits
    s.params.wf = true ∧ frameLegal s ∧ s.regs.bitCount.toNat = bits.length ∧
      (∀ k, k < bits.length →
        (bufGet s.mem.bitbuf (k / 8)).map (fun v => v.getLsbD (7 - k % 8)) = bits[k]?) ∧
      3 + 16 ≤ bits.length ∧ windowAt bits 3 ∈ syncPatterns s.params s.regs.ctrl.encoding ∧
      (∀ q', q' < 3 → windowAt bits q' ∉ syncPatterns s.params s.regs.ctrl.encoding) ∧
      3 + 16 * 1 + 16 ≤ bits.length ∧
      (∀ q', 3 < q' → q' < 3 + 16 * 1 →
        windowAt bits q' ∉ syncPatterns s.params s.regs.ctrl.encoding) ∧
      (3 + 15) / 16 + 1 < s.params.rawCap := by
  refine ⟨by decide, by decide, by decide, by decide, by decide, by decide, by decide, by decide,
    ?_, by decide⟩
  have h : ∀ q', q' < 19 → 3 < q' → windowAt ([true, false, true] ++ syncBits ++ zeroBits) q' ∉
      syncPatterns Params.default 1 := by decide
  exact fun q' h1 h2 => h q' h2 h1

theorem witness_CrcChecksItsField : (0xE4 : Byte) ≠ 0xE5 := by decide

/-- A sector with its own CRC bytes, those of V-FR-2, and with others. -/
theorem witness_GoodSectorMakesAGoodRecord :
    Params.default.wf = true ∧ Params.default.idamMarks = [0xFE] ∧
      (0xFB : Byte) ∈ Params.default.damMarks ∧ (0xFB : Byte) ≠ 0xFE ∧ (0xFB : Byte) ≠ 0xA1 ∧
      (List.replicate 128 (0xE5 : Byte)).length = 128 * 2 ^ (0 : Byte).toNat ∧
      crcBytes [0xA1, 0xA1, 0xA1, 0xFE, 1, 0, 3, 0] = [0xFA, 0xFB] ∧
      [0xFA, 0xFA] ≠ crcBytes [0xA1, 0xA1, 0xA1, 0xFE, 1, 0, 3, 0] := by
  refine ⟨by decide, by decide, by decide, by decide, by decide, by simp, by decide +kernel,
    by decide +kernel⟩

/-- An entry whose mark stands behind three sync bytes and one whose mark is its own byte, at the
bounds the clauses part at: a mark with six bytes after it and one with five, a table that is full and
one that is not, a data field that does not fit. -/
theorem witness_SectorRecordsStayWithinRaw :
    let id : List Byte := [0xA1, 0xA1, 0xA1, 0xFE, 1, 0, 3, 0, 0xFA, 0xFB]
    markAt 1 id 0 3 0xFE ∧ 3 + 6 < id.length ∧ markAt 0 [0xFE, 1, 0, 3, 0, 0xFA] 0 0 0xFE ∧
      [0xFE, 1, 0, 3, 0, 0xFA].length ≤ 0 + 6 ∧ (0xFE : Byte) ∈ Params.default.idamMarks ∧
      markAt 0 [0xFB] 0 0 0xFB ∧ (0xFB : Byte) ∉ Params.default.idamMarks ∧
      (0xFB : Byte) ∈ Params.default.damMarks ∧ Parser.reset.awaiting = none ∧
      [(0xFB : Byte)].length < 0 + 1 + 128 * 2 ^ (0 : Byte).toNat + 2 ∧
      markAt 0 [0xFC] 0 0 0xFC ∧ (0xFC : Byte) ∉ Params.default.damMarks ∧
      (∃ q : Parser, q.sect.length = 1 ∧ q.awaiting = some 0 ∧
        (q.sect[0]?).isSome = true ∧ q.consumed ≤ 0) := by
  refine ⟨⟨rfl, fun _ => ⟨by decide, by decide, ?_⟩, fun h => absurd rfl h⟩, by decide,
    ⟨rfl, fun h => absurd h (by decide), fun _ => rfl⟩, by decide, by decide,
    ⟨rfl, fun h => absurd h (by decide), fun _ => rfl⟩, by decide, by decide, rfl, by decide,
    ⟨rfl, fun h => absurd h (by decide), fun _ => rfl⟩, by decide, ?_⟩
  · intro j _ h
    obtain rfl | rfl | rfl : j = 0 ∨ j = 1 ∨ j = 2 := by omega
    all_goals rfl
  · exact ⟨⟨0, some 0, [⟨1, 0, 3, 0, 1, 0, true, false, 0, 0⟩], false⟩, rfl, rfl, rfl, by decide⟩

/-- The clauses on complete fields, on an entry inside a parsed field and on a run of sync bytes that
reaches the end. -/
theorem witness_SectorRecordsStayWithinRaw_complete :
    let id : List Byte := [0xA1, 0xA1, 0xA1, 0xFE, 1, 0, 3, 0, 0xFA, 0xFB]
    let data : List Byte := 0xFB :: List.replicate 130 0xE5
    Parser.reset.consumed ≤ 0 ∧ Parser.reset.sect.length ≠ Params.default.sectorCap ∧
      id[3 + 1]? = some 1 ∧ id[3 + 5]? = some 0xFA ∧ id[3 + 6]? = some 0xFB ∧
      data[0 + 1 + 128 * 2 ^ (0 : Byte).toNat]? = some 0xE5 ∧
      data[0 + 2 + 128 * 2 ^ (0 : Byte).toNat]? = some 0xE5 ∧
      (∀ j, 0 ≤ j → j < [(0xA1 : Byte), 0xA1].length → [(0xA1 : Byte), 0xA1][j]? = some 0xA1) ∧
      (0 : Nat) < ({ Parser.reset with consumed := 1 } : Parser).consumed := by
  refine ⟨by decide, by decide, rfl, rfl, rfl, rfl, rfl, ?_, by decide⟩
  intro j _ h
  obtain rfl | rfl : j = 0 ∨ j = 1 := by simp at h; omega
  all_goals rfl

theorem witness_DecodeFrameLeavesTheRest :
    (∃ t, exec .decodeFrame (decodeBusy .decodeFrame) = .next t) ∧
      ∃ t, exec .decodeFrame State.reset = .next t := ⟨⟨_, rfl⟩, ⟨_, rfl⟩⟩

theorem witness_DetectValidatesInOrder :
    let s (k : Byte) (n : Word) : State :=
      { State.reset with regs := { Regs.reset with wbRevs := k, wbLength := n } }
    (s 1 1).regs.wbRevs.toNat < 2 ∧ (2 ≤ (s 2 0).regs.wbRevs.toNat ∧ (s 2 0).regs.wbLength = 0) ∧
      (2 ≤ (s 11 1).regs.wbRevs.toNat ∧ (s 11 1).regs.wbLength ≠ 0 ∧
        10 < (s 11 1).regs.wbRevs.toNat) ∧
      (s 10 0x8001).params.revCap < (s 10 0x8001).regs.wbLength.toNat := by decide

/-- The state the statements about a legal detection are witnessed by: DetectCommitsItsReport,
RecordsAreTheWeakPositions, WeakBytesAreTheWeakOffsets. -/
theorem witness_RecordsAreTheWeakPositions :
    detectLegalState.params.wf = true ∧ detectLegal detectLegalState ∧ revsWritten detectLegalState ∧
      detectLegalState.regs.ctrl.wbByteLevel = true := by
  refine ⟨by decide, by decide, ?_, by decide⟩
  show ∀ r : Fin 10, _
  decide

/-- WeakBytesAreTheWeakOffsets with the flag clear. -/
theorem witness_WeakBytesAreTheWeakOffsets_flag_clear :
    let s : State := { detectLegalState with
      regs := { detectLegalState.regs with ctrl := ⟨0, false, true, false⟩ } }
    detectLegal s ∧ revsWritten s ∧ s.regs.ctrl.wbByteLevel = false := by
  refine ⟨by decide, ?_, by decide⟩
  show ∀ r : Fin 10, _
  decide

theorem witness_DetectLeavesTheRest :
    (∃ t, exec .wbDetect detectLegalState = .next t) ∧ ∃ t, exec .wbDetect State.reset = .next t :=
  ⟨⟨_, rfl⟩, ⟨_, rfl⟩⟩

theorem witness_IdenticalRevolutionsReportNothing :
    let s := detectState 0 0x5A 0x5A 0x5A 0x5A 0x5A
    detectLegal s ∧ revsWritten s ∧
      ∀ r : Fin 10, r.val < s.regs.wbRevs.toNat → ∀ o, o < s.regs.wbLength.toNat →
        bufGet (s.mem.bytes (.rev r)) o = bufGet (s.mem.bytes (.rev 0)) o := by
  refine ⟨by decide, ?_, by decide⟩
  show ∀ r : Fin 10, _
  decide

theorem witness_ReportFlagsAreIndependent :
    (true = detectLegalState.regs.ctrl.wbPattern) ∧ true = detectLegalState.regs.ctrl.wbByteLevel ∧
      ∃ t, exec .wbDetect detectLegalState = .next t := ⟨by decide, by decide, _, rfl⟩

end Sys2Proof.Tests
end

section
/-! PROOF. `roundHalfAway` of a binary64 value is nearest, ties away from zero (spec/00_scope.md
R12). -/

namespace Sys2Proof.Machine.F64

/-! ## Nearness -/

/-- Of two values on either side of a midpoint, the one on `c`'s side, the midpoint included, is the
nearer to `c`, and they are equally near only if `c` is the midpoint. -/
theorem nearer_of_midpoint {a b c : Int}
    (h : (b < a ∧ a + b ≤ 2 * c) ∨ (a < b ∧ 2 * c ≤ a + b)) :
    |a - c| ≤ |b - c| ∧ (|a - c| = |b - c| → a + b = 2 * c) := by
  rcases abs_cases (a - c) with ha | ha <;> rcases abs_cases (b - c) with hb | hb <;> omega

/-! ## The nearest integer (R12) -/

theorem value_of_neg_eq_false {x : F64} (h : neg x = false) : value x = units x := by
  simp [value, h]

theorem value_of_neg_eq_true {x : F64} (h : neg x = true) : value x = -(units x : Int) := by
  simp [value, h]

theorem roundHalfAway_of_neg_eq_false {x : F64} (h : neg x = false) :
    roundHalfAway x = ((one + 2 * units x) / (2 * one) : Nat) := by simp [roundHalfAway, h]

theorem roundHalfAway_of_neg_eq_true {x : F64} (h : neg x = true) :
    roundHalfAway x = -((one + 2 * units x) / (2 * one) : Nat) := by simp [roundHalfAway, h]

/-- With `N` the quotient that `roundHalfAway` takes of a magnitude of `u` units, `o` units being 1,
no other integer is nearer to the magnitude, and one as near is nearer to zero. -/
theorem halfUp_quotient_nearest {u o : Nat} (ho : 0 < o) {N n : Int}
    (hN : N = ((o + 2 * u) / (2 * o) : Nat)) (hn : n ≠ N) :
    |N * o - u| ≤ |n * o - u| ∧ (|N * o - u| = |n * o - u| → |n| < |N|) := by
  have hlow : 2 * (N * o) ≤ o + 2 * u := by
    have := Nat.div_mul_le_self (o + 2 * u) (2 * o)
    rw [hN]; zify at this ⊢; linarith
  have hhigh : (o : Int) + 2 * u < 2 * (N * o) + 2 * o := by
    have := Nat.lt_div_mul_add (a := o + 2 * u) (b := 2 * o) (by omega)
    rw [hN]; zify at this ⊢; linarith
  rcases Int.lt_or_gt_of_ne hn with hlt | hgt
  · have hbelow : n * o ≤ N * o - o := by nlinarith
    obtain ⟨hnear, htie⟩ := nearer_of_midpoint (a := N * o) (b := n * o) (c := u) (by omega)
    refine ⟨hnear, fun heq => ?_⟩
    have hmid := htie heq
    have hNpos : 0 < N := pos_of_mul_pos_left (b := (o : Int)) (by omega) (by omega)
    have hsum : 0 < N + n := by nlinarith
    rw [abs_of_pos hNpos, abs_lt]
    omega
  · have habove : N * o + o ≤ n * o := by nlinarith
    obtain ⟨hnear, htie⟩ := nearer_of_midpoint (a := N * o) (b := n * o) (c := u) (by omega)
    exact ⟨hnear, fun heq => absurd (htie heq) (by omega)⟩

/-- `roundHalfAway` is nearest to the exact value, and of two equally near integers the one farther
from zero: by the sign, from the fact about magnitudes. -/
theorem roundHalfAway_nearest (x : F64) {n : Int} (hn : n ≠ roundHalfAway x) :
    |value x - roundHalfAway x * one| ≤ |value x - n * one| ∧
      (|value x - roundHalfAway x * one| = |value x - n * one| → |n| < |roundHalfAway x|) := by
  rw [abs_sub_comm (value x), abs_sub_comm (value x)]
  cases hs : neg x with
  | false =>
    rw [value_of_neg_eq_false hs]
    exact halfUp_quotient_nearest one_pos (roundHalfAway_of_neg_eq_false hs) hn
  | true =>
    have hflip (k : Int) : |k * one - value x| = |-k * one - units x| := by
      rw [value_of_neg_eq_true hs, ← abs_neg]
      congr 1
      ring
    rw [hflip, hflip, ← abs_neg n, ← abs_neg (roundHalfAway x)]
    refine halfUp_quotient_nearest one_pos ?_ (by omega)
    rw [roundHalfAway_of_neg_eq_true hs, Int.neg_neg]

end Sys2Proof.Machine.F64

namespace Sys2Proof

open Machine

/-- Settles O34: the quotient by twice the unit is nearest, and exceeds the magnitude at a tie. -/
theorem roundHalfAwayIsNearest : Obligations.RoundHalfAwayIsNearest := by
  intro x _
  refine ⟨fun n => ?_, fun n hn => (F64.roundHalfAway_nearest x hn).2⟩
  by_cases hn : n = F64.roundHalfAway x
  · rw [hn]
  · exact (F64.roundHalfAway_nearest x hn).1

end Sys2Proof

end

section
/-! PROOF. Binary64 arithmetic rounds once, to nearest, ties to even (spec/00_scope.md R11): the
magnitude that `roundMag` computes lies between the midpoints to its neighbours, and no finite value
is nearer than one that does. -/

namespace Sys2Proof.Machine.F64

open Claims (roundsTo)

/-! ## Magnitudes in units -/

/-- A significand `q` above `k` doublings: the value of the encoding `2^52 · k + q`. The significand
may be the next power of two, which the encoding carries into the exponent. -/
theorem magUnits_significand {k q : Nat} (hk : k = 0 ∨ 2 ^ 52 ≤ q) (hq : q ≤ 2 ^ 53) :
    magUnits (2 ^ 52 * k + q) = q * 2 ^ k := by
  unfold magUnits
  rcases Nat.lt_or_ge q (2 ^ 52) with hsub | hnorm
  · obtain rfl : k = 0 := by omega
    rw [if_pos (by omega)]; simp
  rcases Nat.lt_or_eq_of_le hq with hlt | rfl
  · have hexp : (2 ^ 52 * k + q) / 2 ^ 52 = k + 1 := by omega
    have hfrac : 2 ^ 52 + (2 ^ 52 * k + q) % 2 ^ 52 = q := by omega
    rw [hexp, hfrac, if_neg (by omega), Nat.add_sub_cancel]
  · have hexp : (2 ^ 52 * k + 2 ^ 53) / 2 ^ 52 = k + 1 + 1 := by omega
    have hfrac : (2 ^ 52 * k + 2 ^ 53) % 2 ^ 52 = 0 := by omega
    rw [hexp, hfrac, if_neg (by omega), Nat.add_sub_cancel]
    ring

/-- The unit, with its exponent held as a variable so that no proof computes the power. -/
theorem one_eq_two_pow {e : Nat} (h : e = 1074) : one = 2 ^ e := by
  unfold one; rw [h]

/-- Every magnitude has an exponent and a significand. -/
theorem exists_significand (m : Nat) :
    ∃ k q, m = 2 ^ 52 * k + q ∧ (k = 0 ∨ 2 ^ 52 ≤ q) ∧ q < 2 ^ 53 :=
  ⟨m / 2 ^ 52 - 1, m - 2 ^ 52 * (m / 2 ^ 52 - 1), by omega, by omega, by omega⟩

theorem magUnits_strictMono : StrictMono magUnits := by
  refine strictMono_nat_of_lt_succ fun m => ?_
  obtain ⟨k, q, rfl, hk, hq⟩ := exists_significand m
  rw [Nat.add_assoc, magUnits_significand hk (by omega), magUnits_significand (by omega) (by omega)]
  exact Nat.mul_lt_mul_of_pos_right (Nat.lt_succ_self q) (by positivity)

theorem infMag_pos : 0 < infMag := by decide

@[simp] theorem magUnits_zero : magUnits 0 = 0 := rfl

theorem magUnits_pos {m : Nat} : 0 < magUnits m ↔ 0 < m :=
  magUnits_strictMono.lt_iff_lt (a := 0)

/-! ## Rounding to nearest, ties to even (R11) -/

/-- `m` rounds `num / den`: the fraction lies between the midpoints of `m`'s value and the values
next to it, and on a midpoint only if `m` is even. No magnitude is too large here. -/
def BetweenMidpoints (num den m : Nat) : Prop :=
  (2 * num ≤ magUnits m * den + magUnits (m + 1) * den ∧
    (2 * num = magUnits m * den + magUnits (m + 1) * den → m % 2 = 0)) ∧
  ∀ p, m = p + 1 → magUnits p * den + magUnits m * den ≤ 2 * num ∧
    (magUnits p * den + magUnits m * den = 2 * num → m % 2 = 0)

section
variable {num den m n : Nat}

theorem magUnits_mul_lt (hden : 0 < den) (h : m < n) : magUnits m * den < magUnits n * den :=
  Nat.mul_lt_mul_of_pos_right (magUnits_strictMono h) hden

theorem magUnits_mul_le (den : Nat) (h : m ≤ n) : magUnits m * den ≤ magUnits n * den :=
  Nat.mul_le_mul_right den (magUnits_strictMono.monotone h)

/-- Between the midpoints, no value is nearer, and as near only if `m` is even. -/
theorem BetweenMidpoints.nearest (h : BetweenMidpoints num den m) (hden : 0 < den) (hn : n ≠ m) :
    |(magUnits m * den : Int) - num| ≤ |(magUnits n * den : Int) - num| ∧
      (|(magUnits m * den : Int) - num| = |(magUnits n * den : Int) - num| → m % 2 = 0) := by
  obtain ⟨⟨hup, hupTie⟩, hdown⟩ := h
  rcases Nat.lt_or_gt_of_ne hn with hlt | hgt
  · obtain ⟨p, rfl⟩ := Nat.exists_eq_add_one_of_ne_zero (Nat.ne_zero_of_lt hlt)
    obtain ⟨hlow, hlowTie⟩ := hdown p rfl
    have hnp := magUnits_mul_le den (Nat.le_of_lt_succ hlt)
    have hnm := magUnits_mul_lt hden hlt
    zify at hlow hlowTie hnp hnm
    obtain ⟨hnear, htie⟩ := nearer_of_midpoint (a := magUnits (p + 1) * den)
      (b := magUnits n * den) (c := num) (by omega)
    refine ⟨hnear, fun heq => ?_⟩
    have := htie heq
    exact_mod_cast hlowTie (by omega)
  · have hmn := magUnits_mul_lt hden hgt
    have hsn := magUnits_mul_le den (show m + 1 ≤ n from hgt)
    zify at hup hupTie hmn hsn
    obtain ⟨hnear, htie⟩ := nearer_of_midpoint (a := magUnits m * den)
      (b := magUnits n * den) (c := num) (by omega)
    refine ⟨hnear, fun heq => ?_⟩
    have := htie heq
    exact_mod_cast hupTie (by omega)

/-- With `a` the last magnitude not above the fraction, the nearer of `a` and `a + 1`, on their
midpoint the even one, lies between its midpoints. -/
theorem betweenMidpoints_of_bracket {a : Nat} (hden : 0 < den) (hlow : magUnits a * den ≤ num)
    (hhigh : num < magUnits (a + 1) * den)
    (hm : m = if magUnits a * den + magUnits (a + 1) * den < 2 * num ∨
        (magUnits a * den + magUnits (a + 1) * den = 2 * num ∧ a % 2 = 1) then a + 1 else a) :
    BetweenMidpoints num den m := by
  unfold BetweenMidpoints
  split_ifs at hm with hup
  · subst hm
    have := magUnits_mul_lt hden (Nat.lt_add_one (a + 1))
    refine ⟨⟨by omega, by omega⟩, fun p hp => ?_⟩
    obtain rfl : a = p := by omega
    exact ⟨by omega, by omega⟩
  · subst hm
    refine ⟨⟨by omega, by omega⟩, fun p hp => ?_⟩
    have := magUnits_mul_lt hden (show p < m by omega)
    exact ⟨by omega, by omega⟩

end

/-- The exponent above the subnormal one that `roundMag` takes, with the bounds of the significand
at that exponent. -/
theorem significand_bounds (num den : Nat) {k : Nat} (hk : k = Nat.log2 (num / den) - 52) :
    (k = 0 ∨ 2 ^ 52 ≤ num / (den * 2 ^ k)) ∧ num / (den * 2 ^ k) < 2 ^ 53 := by
  rw [← Nat.div_div_eq_div_mul]
  by_cases h0 : num / den = 0
  · have : k = 0 := by rw [hk, h0]; simp
    simp [h0, this]
  · have hself := Nat.log2_self_le h0
    constructor
    · by_cases hk0 : k = 0
      · exact .inl hk0
      · refine .inr ((Nat.le_div_iff_mul_le (by positivity)).2 ?_)
        rw [← Nat.pow_add]
        exact (Nat.le_log2 h0).1 (by omega)
    · rw [Nat.div_lt_iff_lt_mul (by positivity), ← Nat.pow_add]
      exact (Nat.log2_lt h0).1 (by omega)

/-- What `roundMag` computes, infinity aside, lies between its midpoints. -/
theorem roundQuot_betweenMidpoints (num : Nat) {den : Nat} (hden : 0 < den) {k : Nat}
    (hk : k = Nat.log2 (num / den) - 52) :
    BetweenMidpoints num den (2 ^ 52 * k + roundQuot num (den * 2 ^ k)) := by
  obtain ⟨hnorm, hlt⟩ := significand_bounds num den hk
  have hd : 0 < den * 2 ^ k := by positivity
  have hdiv := Nat.div_add_mod num (den * 2 ^ k)
  have hrem := Nat.mod_lt num hd
  unfold roundQuot
  generalize num / (den * 2 ^ k) = q at *
  have ha : magUnits (2 ^ 52 * k + q) * den = den * 2 ^ k * q := by
    rw [magUnits_significand hnorm (by omega)]; ring
  have hs : magUnits (2 ^ 52 * k + q + 1) * den = den * 2 ^ k * q + den * 2 ^ k := by
    rw [Nat.add_assoc, magUnits_significand (by omega) (by omega)]; ring
  refine betweenMidpoints_of_bracket (a := 2 ^ 52 * k + q) hden (by omega) (by omega) ?_
  rw [ha, hs]
  split_ifs <;> omega

/-- Twice the bound from which on a value is infinite is the sum of the largest finite value and the
value that infinity's encoding would have. -/
theorem overflow_midpoint :
    2 * ((2 ^ 54 - 1) * 2 ^ 970 * one) = magUnits (infMag - 1) + magUnits infMag := by
  obtain ⟨e, he⟩ : ∃ e, e = 1074 := ⟨_, rfl⟩
  have hmax : magUnits (infMag - 1) = (2 ^ 53 - 1) * 2 ^ (971 + e) := by
    rw [show infMag - 1 = 2 ^ 52 * (971 + e) + (2 ^ 53 - 1) by rw [he]; decide]
    exact magUnits_significand (by omega) (by omega)
  have hinf : magUnits infMag = 2 ^ 53 * 2 ^ (971 + e) := by
    rw [show infMag = 2 ^ 52 * (971 + e) + 2 ^ 53 by rw [he]; decide]
    exact magUnits_significand (by omega) (by omega)
  rw [hmax, hinf, Nat.pow_add, one_eq_two_pow he]
  generalize 2 ^ e = u
  omega

/-- A magnitude between its midpoints is finite exactly where the fraction is below the bound. -/
theorem BetweenMidpoints.lt_infMag_iff {num den m : Nat} (h : BetweenMidpoints num den m)
    (hden : 0 < den) : m < infMag ↔ num < (2 ^ 54 - 1) * 2 ^ 970 * one * den := by
  obtain ⟨⟨hup, hupTie⟩, hdown⟩ := h
  have hbound : 2 * ((2 ^ 54 - 1) * 2 ^ 970 * one * den)
      = magUnits (infMag - 1) * den + magUnits infMag * den := by
    rw [← Nat.mul_assoc, overflow_midpoint, Nat.add_mul]
  constructor
  · intro hm
    rcases Nat.eq_or_lt_of_le (Nat.le_sub_one_of_lt hm) with rfl | hlt
    · -- the largest finite magnitude is odd, so the fraction is not the midpoint above it
      have hodd : (infMag - 1) % 2 = 1 := by decide
      rw [show infMag - 1 + 1 = infMag by decide] at hup hupTie
      omega
    · have hm := magUnits_mul_lt hden hlt
      have hs := magUnits_mul_le den (show m + 1 ≤ infMag by omega)
      omega
  · contrapose!
    intro hm
    obtain ⟨p, rfl⟩ := Nat.exists_eq_add_one_of_ne_zero (show m ≠ 0 by have := infMag_pos; omega)
    have hlow := (hdown p rfl).1
    have hp := magUnits_mul_le den (show infMag - 1 ≤ p by omega)
    have hm := magUnits_mul_le den hm
    omega

/-- `roundMag`, packed with a sign, is the fraction rounded once. -/
theorem roundsTo_pack_roundMag (s : Bool) (num : Nat) {den : Nat} (hden : 0 < den) :
    roundsTo (pack s (roundMag num den)) s num den := by
  have hmag := mag_pack s (roundMag_lt num den)
  have hneg := neg_pack s (roundMag_lt num den)
  have hmid := roundQuot_betweenMidpoints num hden rfl
  rw [roundMag_eq] at hmag hneg ⊢
  generalize 2 ^ 52 * _ + _ = m at hmid hmag hneg ⊢
  have hfin := hmid.lt_infMag_iff hden
  refine ⟨hneg, fun hover => ?_, fun hbelow => ?_⟩
  · rw [hmag, Nat.min_eq_right (Nat.le_of_not_lt fun hlt => Nat.not_lt.2 hover (hfin.1 hlt))]
  · have hlt := hfin.2 hbelow
    rw [hmag, Nat.min_eq_left (Nat.le_of_lt hlt)]
    exact ⟨hlt, fun n _ hn => hmid.nearest hden hn⟩

/-! ## Classes of encodings -/

theorem isNaN_of_isFinite {x : F64} (h : isFinite x = true) : isNaN x = false := by
  simp only [isFinite, isNaN, decide_eq_true_eq, decide_eq_false_iff_not] at h ⊢; omega

theorem isInf_of_isFinite {x : F64} (h : isFinite x = true) : isInf x = false := by
  simp only [isFinite, isInf, decide_eq_true_eq, decide_eq_false_iff_not] at h ⊢; omega

theorem isNaN_of_isInf {x : F64} (h : isInf x = true) : isNaN x = false := by
  simp only [isInf, isNaN, decide_eq_true_eq, decide_eq_false_iff_not] at h ⊢; omega

theorem isZero_of_isInf {x : F64} (h : isInf x = true) : isZero x = false := by
  simp only [isInf, isZero, decide_eq_true_eq, decide_eq_false_iff_not] at h ⊢
  rw [h]; decide

/-- The free sign and payload bits leave a NaN's magnitude above infinity's (log 9). -/
theorem isNaN_nan (x y : F64) : isNaN (nan x y) = true := by
  have hquiet : 0x7FF8000000000000 ≤ mag (nan x y) := by
    unfold nan mag
    rw [BitVec.toNat_or, BitVec.toNat_or, Nat.or_assoc, Nat.or_mod_two_pow]
    exact Nat.left_le_or
  simp only [isNaN, decide_eq_true_eq]
  exact Nat.lt_of_lt_of_le (by decide) hquiet

@[simp] theorem mag_negate (x : F64) : mag (negate x) = mag x := mag_pack _ (mag_lt x)

@[simp] theorem neg_negate (x : F64) : neg (negate x) = !neg x := neg_pack _ (mag_lt x)

@[simp] theorem isFinite_negate (x : F64) : isFinite (negate x) = isFinite x := by simp [isFinite]

@[simp] theorem value_negate (x : F64) : value (negate x) = -value x := by
  cases h : neg x <;> simp [value, units, h]

/-! ## Operations on finite values -/

/-- An exact zero rounds to the zero of the given sign. -/
theorem roundsTo_pack_zero (s : Bool) : roundsTo (pack s 0) s 0 1 := by
  have hzero : roundMag 0 1 = 0 := roundMag_exact (m := 0) infMag_pos Nat.one_pos
  have h := roundsTo_pack_roundMag s 0 Nat.one_pos
  rwa [hzero] at h

theorem units_pos {x : F64} (h : isZero x = false) : 0 < units x := by
  rw [units, magUnits_pos]
  exact Nat.pos_of_ne_zero (of_decide_eq_false h)

/-- `key` orders encodings as their values are ordered. -/
theorem key_lt_key_iff {x y : F64} : key x < key y ↔ value x < value y := by
  have hlt : units x < units y ↔ mag x < mag y := magUnits_strictMono.lt_iff_lt
  have hgt : units y < units x ↔ mag y < mag x := magUnits_strictMono.lt_iff_lt
  have hx : 0 < units x ↔ 0 < mag x := magUnits_pos
  have hy : 0 < units y ↔ 0 < mag y := magUnits_pos
  unfold key value
  split_ifs <;> omega

section
variable {x y : F64} (hx : isFinite x = true) (hy : isFinite y = true)
include hx hy

theorem add_of_isFinite :
    add x y = if value x + value y = 0 then pack (neg x && neg y) 0
      else pack (decide (value x + value y < 0)) (roundMag (value x + value y).natAbs 1) := by
  simp [add, isNaN_of_isFinite, isInf_of_isFinite, hx, hy]

theorem sub_of_isFinite : sub x y = add x (negate y) := by
  simp [sub, isNaN_of_isFinite, hx, hy]

theorem mul_of_isFinite :
    mul x y = pack (neg x != neg y) (roundMag (units x * units y) one) := by
  simp [mul, isNaN_of_isFinite, isInf_of_isFinite, hx, hy]

theorem div_of_isFinite :
    div x y = if isZero y then if isZero x then nan x y else inf (neg x != neg y)
      else pack (neg x != neg y) (roundMag (one * units x) (units y)) := by
  simp [div, isNaN_of_isFinite, isInf_of_isFinite, hx, hy]

theorem add_roundsTo :
    roundsTo (add x y)
      (if value x + value y = 0 then neg x && neg y else decide (value x + value y < 0))
      (value x + value y).natAbs 1 := by
  rw [add_of_isFinite hx hy]
  split_ifs with hzero
  · rw [hzero]; exact roundsTo_pack_zero _
  · exact roundsTo_pack_roundMag _ _ Nat.one_pos

theorem sub_roundsTo :
    roundsTo (sub x y)
      (if value x - value y = 0 then neg x && !neg y else decide (value x - value y < 0))
      (value x - value y).natAbs 1 := by
  have h := add_roundsTo hx (y := negate y) (by simpa using hy)
  rwa [value_negate, neg_negate, ← Int.sub_eq_add_neg, ← sub_of_isFinite hx hy] at h

theorem mul_roundsTo :
    roundsTo (mul x y) (neg x != neg y) (units x * units y) one := by
  rw [mul_of_isFinite hx hy]
  exact roundsTo_pack_roundMag _ _ one_pos

theorem div_roundsTo (hz : isZero y = false) :
    roundsTo (div x y) (neg x != neg y) (one * units x) (units y) := by
  rw [div_of_isFinite hx hy, hz, if_neg Bool.false_ne_true]
  exact roundsTo_pack_roundMag _ _ (units_pos hz)

theorem div_zero_of_isFinite (hz : isZero y = true) :
    (isZero x = false → div x y = inf (neg x != neg y)) ∧
      (isZero x = true → isNaN (div x y) = true) := by
  rw [div_of_isFinite hx hy, if_pos hz]
  refine ⟨fun hnz => ?_, fun hxz => ?_⟩
  · rw [hnz, if_neg Bool.false_ne_true]
  · rw [if_pos hxz]
    exact isNaN_nan x y

/-! ## Comparisons -/

theorem lt_iff_value : lt x y = true ↔ value x < value y := by
  rw [lt_iff (isNaN_of_isFinite hx) (isNaN_of_isFinite hy), key_lt_key_iff]

theorem le_iff_value : le x y = true ↔ value x ≤ value y := by
  rw [le_iff (isNaN_of_isFinite hx) (isNaN_of_isFinite hy), ← Int.not_lt, key_lt_key_iff,
    Int.not_lt]

theorem value_min : value (F64.min x y) = Min.min (value x) (value y) := by
  unfold F64.min
  split_ifs with h <;> rw [lt_iff_value hy hx] at h
  · rw [min_eq_right h.le]
  · rw [min_eq_left (not_lt.1 h)]

theorem value_max : value (F64.max x y) = Max.max (value x) (value y) := by
  unfold F64.max
  split_ifs with h <;> rw [lt_iff_value hx hy] at h
  · rw [max_eq_right h.le]
  · rw [max_eq_left (not_lt.1 h)]

theorem isFinite_max : isFinite (F64.max x y) = true := by
  unfold F64.max
  split_ifs
  · exact hy
  · exact hx

theorem value_clamp {z : F64} (hz : isFinite z = true) :
    value (clamp x y z) = Min.min (Max.max (value x) (value y)) (value z) := by
  rw [clamp, value_min (isFinite_max hx hy) hz, value_max hx hy]

end

/-! ## An infinite operand -/

section
variable {x y : F64} (hx : isInf x = true) (hy : isFinite y = true)
include hx hy

theorem add_isInf_left : add x y = x := by
  simp [add, isNaN_of_isInf, isNaN_of_isFinite, isInf_of_isFinite, hx, hy]

theorem add_isInf_right : add y x = x := by
  simp [add, isNaN_of_isInf, isNaN_of_isFinite, isInf_of_isFinite, hx, hy]

theorem sub_isInf_left : sub x y = x := by
  have h := add_isInf_left hx (y := negate y) (by simpa using hy)
  simpa [sub, isNaN_of_isInf, isNaN_of_isFinite, hx, hy] using h

theorem div_isInf_left : div x y = inf (neg x != neg y) := by
  simp [div, isNaN_of_isInf, isNaN_of_isFinite, isInf_of_isFinite, hx, hy]

theorem div_isInf_right : div y x = pack (neg y != neg x) 0 := by
  simp [div, isNaN_of_isInf, isNaN_of_isFinite, isInf_of_isFinite, hx, hy]

theorem mul_isInf_left : mul x y = if isZero y then nan x y else inf (neg x != neg y) := by
  simp [mul, isNaN_of_isInf, isNaN_of_isFinite, isZero_of_isInf, hx, hy]

theorem mul_isInf_right : mul y x = if isZero y then nan y x else inf (neg x != neg y) := by
  simp [mul, isNaN_of_isInf, isNaN_of_isFinite, isZero_of_isInf, hx, hy, bne_comm]

end

/-! ## Whole numbers -/

/-- A whole number below 2^53 has an exact encoding: its significand is shifted up to 53 bits. -/
theorem exists_magUnits_eq {n : Nat} (hn : n < 2 ^ 53) : ∃ m < infMag, magUnits m = one * n := by
  by_cases h0 : n = 0
  · exact ⟨0, infMag_pos, by simp [h0]⟩
  have hlog : Nat.log2 n < 53 := (Nat.log2_lt h0).2 hn
  have hlow := Nat.log2_self_le h0
  have hhigh := Nat.lt_log2_self (n := n)
  generalize Nat.log2 n = l at hlog hlow hhigh
  have hq : 2 ^ 52 ≤ n * 2 ^ (52 - l) := by
    calc 2 ^ 52 = 2 ^ l * 2 ^ (52 - l) := by rw [← Nat.pow_add, Nat.add_sub_cancel' (by omega)]
      _ ≤ n * 2 ^ (52 - l) := Nat.mul_le_mul_right _ hlow
  have hq' : n * 2 ^ (52 - l) < 2 ^ 53 := by
    calc n * 2 ^ (52 - l) < 2 ^ (l + 1) * 2 ^ (52 - l) :=
          Nat.mul_lt_mul_of_pos_right hhigh (by positivity)
      _ = 2 ^ 53 := by rw [← Nat.pow_add, show l + 1 + (52 - l) = 53 by omega]
  refine ⟨2 ^ 52 * (1022 + l) + n * 2 ^ (52 - l), ?_, ?_⟩
  · unfold infMag; omega
  · rw [magUnits_significand (.inr hq) hq'.le]
    rw [Nat.mul_assoc, ← Nat.pow_add, ← one_eq_two_pow (by omega), Nat.mul_comm]

theorem value_ofNat {n : Nat} (hn : n < 2 ^ 53) :
    isFinite (ofNat n) = true ∧ value (ofNat n) = n * one := by
  obtain ⟨m, hm, hunits⟩ := exists_magUnits_eq hn
  have hround : roundMag (one * n) 1 = m := by
    rw [← hunits, ← Nat.one_mul (magUnits m)]
    exact roundMag_exact hm Nat.one_pos
  have hlt := Nat.lt_trans hm infMag_lt
  rw [ofNat, hround]
  constructor
  · simp [isFinite, mag_pack _ hlt, hm]
  · rw [value_of_neg_eq_false (neg_pack _ hlt), units, mag_pack _ hlt, hunits]
    push_cast
    ring

end Sys2Proof.Machine.F64

namespace Sys2Proof

open Machine F64

/-- Settles O35: every operation packs a magnitude rounded by `roundMag`, which lies between its
midpoints, and encodings are ordered as their values are. -/
theorem roundingIsToNearestEven : Obligations.RoundingIsToNearestEven := by
  refine ⟨fun s num _ hden => roundsTo_pack_roundMag s num hden, fun x y hx hy => ?_,
    fun x y hx hy => ?_, fun _ hn => value_ofNat hn,
    fun x lo hi hx hlo hhi => value_clamp hx hlo hhi⟩
  · exact ⟨add_roundsTo hx hy, sub_roundsTo hx hy, mul_roundsTo hx hy, div_roundsTo hx hy,
      div_zero_of_isFinite hx hy, lt_iff_value hx hy, le_iff_value hx hy, value_min hx hy,
      value_max hx hy⟩
  · refine ⟨add_isInf_left hx hy, add_isInf_right hx hy, sub_isInf_left hx hy,
      div_isInf_left hx hy, div_isInf_right hx hy, fun hz => ?_, fun hz => ?_⟩
    · rw [mul_isInf_left hx hy, mul_isInf_right hx hy, hz, if_neg Bool.false_ne_true,
        if_neg Bool.false_ne_true]
      exact ⟨rfl, rfl⟩
    · rw [mul_isInf_left hx hy, mul_isInf_right hx hy, if_pos hz, if_pos hz]
      exact ⟨isNaN_nan x y, isNaN_nan y x⟩

end Sys2Proof

end

section
/-! PROOF. What one step leaves as it was: the parameters, a clear token-boundary mark, and a set
`uninit_read`, which a hardware reset alone clears (spec/10_state.md R58, R75, log 8). -/

namespace Sys2Proof.Machine

/-! ## Host accesses -/

theorem checkedAccess_next {offset : Fin 256} {width : Nat} {t u : State}
    (h : checkedAccess offset width t = .next u) : u = t := by
  unfold checkedAccess at h
  split_ifs at h
  exact (Host.Outcome.next.inj h).symm

/-- A reply after a read that moved only the host's draws changes the host's own side alone. -/
theorem reply_eq {s u : State} (h : u = { s with hostDraws := u.hostDraws }) (a : Reply) :
    ∃ d p r, u.reply a = { s with hostDraws := d, pending := p, returned := r } :=
  ⟨u.hostDraws, s.pending, a :: s.returned, congrArg (State.reply · a) h⟩

/-- WAIT changes the host's own side alone: its draws, its list and its replies. -/
theorem hostWait_eq (s : State) :
    ∃ d p r, hostWait s = { s with hostDraws := d, pending := p, returned := r } := by
  obtain ⟨d, p, r, e⟩ :=
    reply_eq (readOffset_eq statusOffset s) (.word (readOffset statusOffset s).1)
  unfold hostWait
  dsimp only
  rw [e]
  split_ifs <;> exact ⟨_, _, _, rfl⟩

/-- What a host access can do: reset the block, move only the host's own side, write a register, or
write a byte cell (spec/20_memory.md R102 to R105). -/
theorem hostAccess_cases {op : HostOp} {s t : State} (h : hostAccess op s = .next t) :
    (op = .hardReset ∧ t = hardReset s) ∨
    (∃ d p r, t = { s with hostDraws := d, pending := p, returned := r }) ∨
    (∃ offset v, t = writeOffset offset v s) ∨
    (∃ b i v, t = writeByteCell b i v s) := by
  cases op with
  | regRead offset width =>
    rw [checkedAccess_next h]
    exact .inr (.inl (reply_eq (readOffset_eq offset s) _))
  | regWrite offset width v => exact .inr (.inr (.inl ⟨offset, v, checkedAccess_next h⟩))
  | byteRead b i =>
    rw [← Host.Outcome.next.inj h]
    exact .inr (.inl (reply_eq (readByteCell_eq b i s) _))
  | byteWrite b i v => exact .inr (.inr (.inr ⟨b, i, v, (Host.Outcome.next.inj h).symm⟩))
  | wordRead b i =>
    rw [← Host.Outcome.next.inj h]
    exact .inr (.inl (reply_eq (readWordCell_eq b i s) _))
  | wordWrite b i v => exact .inr (.inl ⟨_, _, _, (Host.Outcome.next.inj h).symm⟩)
  | wait =>
    rw [← Host.Outcome.next.inj h]
    exact .inr (.inl (hostWait_eq s))
  | hardReset => exact .inl ⟨rfl, (Host.Outcome.next.inj h).symm⟩

/-- What the acceptance of a CMD word can do (spec/60_exceptions.md R410): complete at once with
BAD_CMD, or make the engine busy; a token, which no word decodes to, would do nothing. -/
theorem acceptCommand_cases (v : Word) (s : State) :
    acceptCommand v s = s ∨
    acceptCommand v s
      = { s with regs := { s.regs with cmd := v, status := s.regs.status.fail .badCmd } } ∨
    ∃ c, acceptCommand v s
      = { s with
          eng := .busy c
          regs := { s.regs with
            cmd := v
            status := { s.regs.status with done := false, err := false, errcode := 0 } } } := by
  unfold acceptCommand
  cases decodeCommand v with
  | error r => exact .inr (.inl rfl)
  | ok i =>
    cases hc : opOfInstr i with
    | none => exact .inl (by simp [hc])
    | some c => exact .inr (.inr ⟨c, by simp [hc]⟩)

/-- A register write changes registers and the engine alone. -/
theorem writeOffset_eq (offset : Nat) (v : Word) (s : State) :
    writeOffset offset v s
      = { s with regs := (writeOffset offset v s).regs, eng := (writeOffset offset v s).eng } := by
  rcases writeOffset_cases offset v s with
    e | e | ⟨_, e⟩ | ⟨_, e⟩ | ⟨_, e⟩ | ⟨_, g, _, e⟩ <;> rw [e]
  · rfl
  · rfl
  · rcases acceptCommand_cases v s with e | e | ⟨c, e⟩ <;> rw [e]
  · unfold writeCtrl
    split_ifs <;> rfl

/-- A byte write changes buffers and registers alone. -/
theorem writeByteCell_eq (b : ByteBuf) (i : Nat) (v : Byte) (s : State) :
    writeByteCell b i v s
      = { s with regs := (writeByteCell b i v s).regs, mem := (writeByteCell b i v s).mem } := by
  unfold writeByteCell
  split_ifs <;> rfl

/-! ## Commands -/

@[simp] theorem body_params (c : Op) (s : State) : (c.body s).params = s.params := by
  cases c with
  | pllDecode => exact (decodeBody_frame s).1
  | frame => exact (frameBody_frame s).1
  | decodeFrame => exact (frameBody_frame _).1.trans (decodeBody_frame s).1
  | wbDetect => exact (wbBody_frame s).1

@[simp] theorem frameBody_pll (s : State) : (frameBody s).pll = s.pll := (frameBody_frame s).2.2.1

@[simp] theorem wbBody_pll (s : State) : (wbBody s).pll = s.pll := (wbBody_frame s).2.2.1

@[simp] theorem decodeBody_live (s : State) : (decodeBody s).pll.live = false := by
  simp [decodeBody]

/-- No command's body ends at a token boundary it did not begin at (log 8). -/
theorem body_live (c : Op) {s : State} (h : s.pll.live = false) : (c.body s).pll.live = false := by
  cases c with
  | pllDecode => exact decodeBody_live s
  | frame => rwa [Op.body, frameBody_pll]
  | decodeFrame => rw [Op.body, decodeFrameBody, frameBody_pll]; exact decodeBody_live s
  | wbDetect => rwa [Op.body, wbBody_pll]

theorem decodeBody_mark {s : State} (h : s.uninitRead = true) :
    (decodeBody s).uninitRead = true :=
  (decodeLoop_loopOnly _ (startDecode s)).mark h

theorem frameBody_mark {s : State} (h : s.uninitRead = true) :
    (frameBody s).uninitRead = true :=
  (frameStage_frameOnly s).mark h

theorem wbBody_mark {s : State} (h : s.uninitRead = true) : (wbBody s).uninitRead = true :=
  (wbScan_compareOnly _ { s with cmp := Comparator.reset }).mark h

/-- No command's body clears the fault mark (spec/10_state.md R75). -/
theorem body_mark (c : Op) {s : State} (h : s.uninitRead = true) :
    (c.body s).uninitRead = true := by
  cases c with
  | pllDecode => exact decodeBody_mark h
  | frame => exact frameBody_mark h
  | decodeFrame => exact frameBody_mark (decodeBody_mark h)
  | wbDetect => exact wbBody_mark h

/-- The rest of a decode is its commit, or the commit and the frame stage of DECODE_FRAME. -/
theorem finishDecode_cases (s : State) :
    finishDecode s = succeedCommand (commitDecode s) ∨
    finishDecode s = succeedCommand (frameBody (commitDecode s)) := by
  unfold finishDecode
  split
  · exact .inl rfl
  · exact .inl rfl
  · exact .inl rfl
  · exact .inr rfl
  · exact .inl rfl

/-! ## Steps -/

/-- What every step but a hardware reset carries over: the parameters, a clear token-boundary mark
and a set fault mark. -/
structure Persists (s t : State) : Prop where
  params : t.params = s.params
  notLive : s.pll.live = false → t.pll.live = false
  mark : s.uninitRead = true → t.uninitRead = true

theorem Persists.trans {s t u : State} (h : Persists s t) (g : Persists t u) : Persists s u :=
  ⟨g.params.trans h.params, fun hl => g.notLive (h.notLive hl), fun hm => g.mark (h.mark hm)⟩

theorem ReadsOnly.persists {s t : State} (h : ReadsOnly s t) : Persists s t :=
  ⟨h.params, fun hl => by rwa [h.pll], h.mark⟩

theorem LoopOnly.persists {s t : State} (h : LoopOnly s t) : Persists s t :=
  ⟨h.params, fun hl => by rwa [h.live], h.mark⟩

theorem finishDecode_persists (s : State) : Persists s (finishDecode s) := by
  rcases finishDecode_cases s with e | e <;> rw [e]
  · exact ⟨rfl, fun _ => rfl, id⟩
  · exact ⟨(frameBody_frame _).1, fun _ => by simp, fun hm => frameBody_mark hm⟩

theorem tokenStep_persists {s t : State} (h : tokenStep s = .next t) : Persists s t := by
  rcases tokenStep_cases h with ⟨_, rfl⟩ | ⟨u, hr, rfl⟩ | ⟨u, hr, rfl⟩ | ⟨i, u, hr, _, _, rfl⟩
  · exact finishDecode_persists s
  · exact hr.persists.trans (finishDecode_persists u)
  · have hdrop : Persists u (dropTruncated u) := ⟨rfl, id, id⟩
    exact hr.persists.trans (hdrop.trans (finishDecode_persists _))
  · exact hr.persists.trans (tokenEffect_loopOnly i u).persists

theorem exec_op_persists {c : Op} {s t : State} (h : exec c.instr s = .next t) : Persists s t := by
  rw [exec_op] at h
  obtain rfl := Host.Outcome.next.inj h
  cases c.check s with
  | some e => exact ⟨rfl, id, id⟩
  | none => exact ⟨body_params c s, body_live c, body_mark c⟩

theorem hostAccess_persists {op : HostOp} {s t : State} (h : hostAccess op s = .next t) :
    Persists s t ∨ (op = .hardReset ∧ t = hardReset s) := by
  rcases hostAccess_cases h with hr | ⟨d, p, r, rfl⟩ | ⟨offset, v, rfl⟩ | ⟨b, i, v, rfl⟩
  · exact .inr hr
  · exact .inl ⟨rfl, id, id⟩
  · rw [writeOffset_eq]; exact .inl ⟨rfl, id, id⟩
  · rw [writeByteCell_eq]; exact .inl ⟨rfl, id, id⟩

/-- A step either persists or is a hardware reset (spec/60_exceptions.md R411). -/
theorem step_persists {s t : State} (h : step s = .next t) :
    Persists s t ∨
    ∃ rest ts, s.pending = .hardReset :: rest ∧
      t = hardReset { s with pending := rest, turns := ts } := by
  rcases step_cases h with
    ⟨_, ht⟩ | ⟨_, _, _, rfl⟩ | ⟨c, ts, _, _, hc⟩ | ⟨op, rest, ts, _, hp, ha⟩
  · exact .inl (tokenStep_persists ht)
  · exact .inl ⟨rfl, id, id⟩
  · obtain ⟨hparams, hlive, hmark⟩ := exec_op_persists hc
    exact .inl ⟨hparams, hlive, hmark⟩
  · rcases hostAccess_persists ha with ⟨hparams, hlive, hmark⟩ | ⟨rfl, rfl⟩
    · exact .inl ⟨hparams, hlive, hmark⟩
    · exact .inr ⟨rest, ts, hp, rfl⟩

/-- No step changes the parameters (log 1). -/
theorem step_params {s t : State} (h : step s = .next t) : t.params = s.params := by
  rcases step_persists h with hp | ⟨rest, ts, _, rfl⟩
  · exact hp.params
  · rfl

end Sys2Proof.Machine

namespace Sys2Proof

open Machine

/-- Settles O14: every step persists or is a hardware reset, and what persists keeps the mark. -/
theorem onlyHardwareResetClearsTheMark : Obligations.OnlyHardwareResetClearsTheMark := by
  intro s t h hset hclear
  rcases step_persists h with hp | ⟨rest, _, hreset, _⟩
  · exact absurd (hp.mark hset) (by simp [hclear])
  · exact ⟨rest, hreset⟩

/-- Settles O27: what persists stays off a token boundary, and a hardware reset leaves none. -/
theorem noStepEntersATokenBoundary : Obligations.NoStepEntersATokenBoundary := by
  intro s t hlive h
  rcases step_persists h with hp | ⟨_, _, _, rfl⟩
  · exact hp.notLive hlive
  · rfl

end Sys2Proof

end

section
/-! PROOF. Every step keeps State.Inv (Sys2Proof/Safety.lean): the facts of registers and buffers
first, then those of STATUS and of a live decode. -/

namespace Sys2Proof.Machine

/-! ## Registers and buffers -/

/-- The facts of State.Inv that speak of the parameters, the buffers and the result registers. -/
structure Stored (p : Params) (m : Memory) (r : Regs) : Prop where
  params_wf : p.wf = true
  mem_wf : m.wf = true
  mem_within : m.within p = true
  raw_len : r.rawLen.toNat ≤ p.rawCap
  idam_count : r.idamCount.toNat ≤ Config.idamCap
  sector_count : r.sectorCount.toNat ≤ p.sectorCap ∧ r.sectorCount.toNat ≤ r.idamCount.toNat
  wb_tables : r.wbRecords.toNat ≤ p.wbCap ∧ r.wbBytes.toNat ≤ p.wbCap
  bits_analyzed : r.bitsAnalyzed.toNat = 8 * r.bytesAnalyzed.toNat

theorem State.Inv.stored {s : State} (h : s.Inv) : Stored s.params s.mem s.regs :=
  ⟨h.params_wf, h.mem_wf, h.mem_within, h.raw_len, h.idam_count, h.sector_count, h.wb_tables,
    h.bits_analyzed⟩

theorem memory_reset_within (p : Params) : Memory.reset.within p = true := by
  rw [memory_within_iff]
  simp [Memory.reset, bufBelow]

theorem stored_reset {p : Params} (h : p.wf = true) : Stored p Memory.reset Regs.reset :=
  ⟨h, by decide, memory_reset_within p, Nat.zero_le _, Nat.zero_le _,
    ⟨Nat.zero_le _, Nat.le_refl _⟩, ⟨Nat.zero_le _, Nat.zero_le _⟩, rfl⟩

section
variable {p : Params} {m : Memory} {r : Regs} (h : Stored p m r)
include h

theorem Stored.resetRegs : Stored p m Regs.reset :=
  { stored_reset h.params_wf with mem_wf := h.mem_wf, mem_within := h.mem_within }

theorem Stored.withMem {m' : Memory} (hwf : m'.wf = true) (hin : m'.within p = true) :
    Stored p m' r := { h with mem_wf := hwf, mem_within := hin }

/-- STATUS, CMD and CTRL are not among the result registers. -/
theorem Stored.withControl (cmd : Word) (st : Status) (ctrl : Ctrl) :
    Stored p m { r with cmd := cmd, status := st, ctrl := ctrl } := { h with }

theorem Stored.store (g : Reg) (v : Word) : Stored p m (r.store g v) := by
  obtain ⟨_, _, _, hraw, hidam, hsect, _, _, _, _, hrecs, hbytes, hanalyzed, hbits, _⟩ :=
    store_keeps r g v
  exact ⟨h.params_wf, h.mem_wf, h.mem_within, by rw [hraw]; exact h.raw_len,
    by rw [hidam]; exact h.idam_count, by rw [hsect, hidam]; exact h.sector_count,
    by rw [hrecs, hbytes]; exact h.wb_tables, by rw [hbits, hanalyzed]; exact h.bits_analyzed⟩

end

/-! ## Commits -/

theorem toNat_ofNat_le (w n : Nat) : (BitVec.ofNat w n).toNat ≤ n := by
  rw [BitVec.toNat_ofNat]; exact Nat.mod_le _ _

theorem toNat_word_ofNat {n : Nat} (h : n < 2 ^ 32) : (BitVec.ofNat 32 n).toNat = n := by
  rw [BitVec.toNat_ofNat, Nat.mod_eq_of_lt h]

section
variable {p : Params} {s : State} (hp : s.params = p) (h : Stored p s.mem s.regs)
include hp h

theorem commitDecode_stored (hfits : s.pll.out.length ≤ 8 * p.bitbufCap) :
    Stored p (commitDecode s).mem (commitDecode s).regs := by
  subst hp
  exact
    { h with
      mem_wf := commitDecode_wf h.mem_wf
      mem_within := commitDecode_within h.mem_within hfits }

/-- The commit of bounded tables: at most IDAM_CAP entries, so no count is narrowed. -/
theorem commitFrame_stored (hf : s.framer.Bounded p) (hcap : s.parser.sect.length ≤ p.sectorCap)
    (hidam : s.parser.sect.length ≤ s.framer.idam.length) :
    Stored p (commitFrame s).mem (commitFrame s).regs := by
  subst hp
  have hentries : s.framer.idam.length ≤ 64 := hf.idam
  have hcount : (commitFrame s).regs.idamCount.toNat = s.framer.idam.length :=
    toNat_word_ofNat (by omega)
  have hsect : (commitFrame s).regs.sectorCount.toNat = s.parser.sect.length :=
    toNat_word_ofNat (by omega)
  exact
    { h with
      mem_wf := commitFrame_wf h.mem_wf
      mem_within := commitFrame_within h.mem_within hf hcap
      raw_len := (toNat_ofNat_le _ _).trans hf.raw
      idam_count := by rw [hcount]; exact hf.idam
      sector_count := by rw [hsect, hcount]; exact ⟨hcap, hidam⟩ }

theorem commitWb_stored (hc : s.cmp.Bounded p) :
    Stored p (commitWb s).mem (commitWb s).regs := by
  subst hp
  exact
    { h with
      mem_wf := commitWb_wf h.mem_wf
      mem_within := commitWb_within h.mem_within hc
      wb_tables := ⟨(toNat_ofNat_le _ _).trans hc.recs, (toNat_ofNat_le _ _).trans hc.bytes⟩
      bits_analyzed := by
        rw [commitWb_regs_bitsAnalyzed, commitWb_regs_bytesAnalyzed, BitVec.toNat_ofNat]
        omega }

/-! ## Bodies -/

theorem decodeBody_stored (hcells : 1 ≤ s.regs.pllMaxCells.toNat) :
    Stored p (decodeBody s).mem (decodeBody s).regs := by
  obtain ⟨hloop, hfits⟩ := decodeTokens_startDecode hcells
  rw [hp] at hfits
  exact commitDecode_stored (hloop.params.trans hp) (by rw [hloop.mem, hloop.regs]; exact h) hfits

theorem frameBody_stored : Stored p (frameBody s).mem (frameBody s).regs := by
  have hframe := frameStage_frameOnly s
  have hb := frameStage_bounded s
  have hparams : (frameStage s).params = p := hframe.params.trans hp
  obtain ⟨hcap, hidam⟩ := parseEntries_length (frameStage s).params
    (frameStage s).regs.ctrl.encoding (frameStage s).framer.raw (frameStage s).framer.idam
    Parser.reset (Nat.zero_le _)
  rw [hp] at hb
  refine commitFrame_stored (s := parseStage (frameStage s)) hparams ?_ hb
    (hcap.trans_eq (by rw [hparams])) (by simpa [Parser.reset] using hidam)
  rw [parseStage_mem, parseStage_regs, hframe.mem, hframe.regs]
  exact h

theorem wbBody_stored : Stored p (wbBody s).mem (wbBody s).regs := by
  have hscan := wbScan_compareOnly s.regs.wbLength.toNat { s with cmp := Comparator.reset }
  have hb := wbScan_bounded (n := s.regs.wbLength.toNat) (s := { s with cmp := Comparator.reset })
    (Comparator.bounded_reset _)
  exact commitWb_stored (hscan.params.trans hp) (by rw [hscan.mem, hscan.regs]; exact h) (hp ▸ hb)

/-- The body of a command that passes its validation keeps the facts of registers and buffers. -/
theorem body_stored {c : Op} (hc : c.check s = none) :
    Stored p (c.body s).mem (c.body s).regs := by
  cases c with
  | pllDecode =>
    obtain ⟨_, _, _, _, _, hcells, _⟩ := validateDecode_none hc
    exact decodeBody_stored hp h hcells
  | frame => exact frameBody_stored hp h
  | decodeFrame =>
    obtain ⟨_, _, _, _, _, hcells, _⟩ := validateDecode_none hc
    exact frameBody_stored ((decodeBody_frame s).1.trans hp) (decodeBody_stored hp h hcells)
  | wbDetect => exact wbBody_stored hp h

end

/-! ## STATUS -/

/-- ERRCODE is one of the codes written, and 0 where ERR is 0 (spec/10_state.md R34,
spec/60_exceptions.md R415). -/
structure Status.CodeLegal (st : Status) : Prop where
  clear : st.err = false → st.errcode = 0
  legal : st.errcode.toNat ≤ 4

theorem Status.codeLegal_of_zero {st : Status} (h : st.errcode = 0) : st.CodeLegal :=
  ⟨fun _ => h, by rw [h]; decide⟩

theorem Status.codeLegal_fail (st : Status) (e : ErrCode) : (st.fail e).CodeLegal :=
  ⟨fun h => by simp [Status.fail] at h, by cases e <;> simp [Status.fail, ErrCode.code]⟩

theorem Status.CodeLegal.writeOneToClear {st : Status} (h : st.CodeLegal) (v : Word) :
    (st.writeOneToClear v).CodeLegal := by
  unfold Status.writeOneToClear
  cases hv : v.getLsbD 2 with
  | true => exact codeLegal_of_zero rfl
  | false => exact ⟨fun he => h.clear (by simpa using he), h.legal⟩

theorem State.Inv.codeLegal {s : State} (h : s.Inv) : s.regs.status.CodeLegal :=
  ⟨h.errcode_clear, h.errcode_legal⟩

/-! ## The invariant -/

/-- Off a token boundary, from the facts by their group. -/
theorem inv_of_notLive {s : State} (h : Stored s.params s.mem s.regs)
    (hst : s.regs.status.CodeLegal)
    (hbusy : s.eng ≠ .idle → s.regs.status.done = false ∧ s.regs.status.err = false)
    (hlive : s.pll.live = false) : s.Inv :=
  { h with
    errcode_clear := hst.clear
    errcode_legal := hst.legal
    busy_clear := hbusy
    live_decoding := fun hl => absurd hl (by simp [hlive])
    live_fits := fun hl => absurd hl (by simp [hlive])
    live_cells := fun hl => absurd hl (by simp [hlive]) }

/-- An idle engine off a token boundary: what a completion and a reset leave. -/
theorem inv_of_idle {s : State} (h : Stored s.params s.mem s.regs)
    (hst : s.regs.status.CodeLegal) (heng : s.eng = .idle) (hlive : s.pll.live = false) : s.Inv :=
  inv_of_notLive h hst (fun hb => absurd heng hb) hlive

theorem succeedCommand_inv {s : State} (h : Stored s.params s.mem s.regs)
    (hlive : s.pll.live = false) : (succeedCommand s).Inv :=
  inv_of_idle (h.withControl _ _ _) (Status.codeLegal_of_zero rfl) rfl hlive

theorem failCommand_inv {s : State} (e : ErrCode) (h : Stored s.params s.mem s.regs)
    (hlive : s.pll.live = false) : (failCommand e s).Inv :=
  inv_of_idle (h.withControl _ _ _) (Status.codeLegal_fail _ e) rfl hlive

theorem exec_op_inv {c : Op} {s t : State} (h : Stored s.params s.mem s.regs)
    (hlive : s.pll.live = false) (he : exec c.instr s = .next t) : t.Inv := by
  rw [exec_op] at he
  obtain rfl := Host.Outcome.next.inj he
  cases hc : c.check s with
  | some e => exact failCommand_inv e h hlive
  | none =>
    exact succeedCommand_inv (by rw [body_params]; exact body_stored rfl h hc) (body_live c hlive)

theorem hardReset_inv {s : State} (h : s.params.wf = true) : (hardReset s).Inv :=
  inv_of_idle (stored_reset h) (Status.codeLegal_of_zero rfl) rfl rfl

/-! ## Host accesses -/

theorem eng_idle_of_not_busy {s : State} (h : s.busy = false) : s.eng = .idle := by
  unfold State.busy at h
  cases he : s.eng with
  | idle => rfl
  | busy c => simp [he] at h

theorem acceptCommand_inv (v : Word) {s : State} (h : s.Inv) (hlive : s.pll.live = false)
    (hidle : s.busy = false) : (acceptCommand v s).Inv := by
  rcases acceptCommand_cases v s with e | e | ⟨c, e⟩ <;> rw [e]
  · exact h
  · exact inv_of_idle (h.stored.withControl _ _ _) (Status.codeLegal_fail _ _)
      (eng_idle_of_not_busy hidle) hlive
  · exact inv_of_notLive (h.stored.withControl _ _ _) (Status.codeLegal_of_zero rfl)
      (fun _ => ⟨rfl, rfl⟩) hlive

theorem writeCtrl_inv (v : Word) {s : State} (h : s.Inv) (hlive : s.pll.live = false) :
    (writeCtrl v s).Inv := by
  unfold writeCtrl
  split_ifs
  · exact inv_of_notLive h.stored.resetRegs (Status.codeLegal_of_zero rfl)
      (fun _ => ⟨rfl, rfl⟩) hlive
  · exact inv_of_notLive (h.stored.withControl _ _ _) h.codeLegal h.busy_clear hlive

theorem writeStatus_inv (v : Word) {s : State} (h : s.Inv) (hlive : s.pll.live = false) :
    (writeStatus v s).Inv := by
  refine inv_of_notLive (h.stored.withControl _ _ _) (h.codeLegal.writeOneToClear v) ?_ hlive
  intro hb
  obtain ⟨hdone, herr⟩ := h.busy_clear hb
  exact ⟨by simp [Status.writeOneToClear, hdone], by simp [Status.writeOneToClear, herr]⟩

theorem rejectWrite_inv {s : State} (h : s.Inv) (hlive : s.pll.live = false) :
    (rejectWrite s).Inv :=
  inv_of_notLive (h.stored.withControl _ _ _) ⟨h.errcode_clear, h.errcode_legal⟩ h.busy_clear hlive

theorem writeOffset_inv (offset : Nat) (v : Word) {s : State} (h : s.Inv)
    (hlive : s.pll.live = false) : (writeOffset offset v s).Inv := by
  rcases writeOffset_cases offset v s with
    e | e | ⟨_, e⟩ | ⟨hb, e⟩ | ⟨_, e⟩ | ⟨_, g, _, e⟩ <;> rw [e]
  · exact h
  · exact writeStatus_inv v h hlive
  · exact rejectWrite_inv h hlive
  · exact acceptCommand_inv v h hlive hb
  · exact writeCtrl_inv v h hlive
  · obtain ⟨_, hst, _⟩ := store_keeps s.regs g v
    exact inv_of_notLive (h.stored.store g v) (by rw [hst]; exact h.codeLegal)
      (by rw [hst]; exact h.busy_clear) hlive

theorem writeByteCell_inv (b : ByteBuf) (i : Nat) (v : Byte) {s : State} (h : s.Inv)
    (hlive : s.pll.live = false) : (writeByteCell b i v s).Inv := by
  have hwf := writeByteCell_wf b i v h.mem_wf
  have hin := writeByteCell_within b i v h.mem_within
  unfold writeByteCell at hwf hin ⊢
  split_ifs at hwf hin ⊢
  · exact h
  · exact h
  · exact rejectWrite_inv h hlive
  · exact inv_of_notLive (h.stored.withMem hwf hin) h.codeLegal h.busy_clear hlive

theorem hostAccess_inv {op : HostOp} {s t : State} (h : s.Inv) (hlive : s.pll.live = false)
    (ha : hostAccess op s = .next t) : t.Inv := by
  rcases hostAccess_cases ha with ⟨_, rfl⟩ | ⟨d, p, r, rfl⟩ | ⟨offset, v, rfl⟩ | ⟨b, i, v, rfl⟩
  · exact hardReset_inv h.params_wf
  · exact inv_of_notLive h.stored h.codeLegal h.busy_clear hlive
  · exact writeOffset_inv offset v h hlive
  · exact writeByteCell_inv b i v h hlive

/-! ## Tokens -/

/-- A step of the loop whose stream still fits keeps the invariant. -/
theorem LoopOnly.inv {s t : State} (hl : LoopOnly s t) (h : s.Inv)
    (hfits : t.pll.live = true → t.pll.out.length ≤ 8 * t.params.bitbufCap) : t.Inv := by
  have hstored : Stored t.params t.mem t.regs := by
    rw [hl.params, hl.mem, hl.regs]; exact h.stored
  exact
    { hstored with
      errcode_clear := by rw [hl.regs]; exact h.errcode_clear
      errcode_legal := by rw [hl.regs]; exact h.errcode_legal
      busy_clear := by rw [hl.regs, hl.eng]; exact h.busy_clear
      live_decoding := by unfold State.decoding; rw [hl.live, hl.eng]; exact h.live_decoding
      live_fits := hfits
      live_cells := by rw [hl.live, hl.regs]; exact h.live_cells }

theorem ReadsOnly.inv {s t : State} (hr : ReadsOnly s t) (h : s.Inv) : t.Inv :=
  (LoopOnly.ofReads hr).inv h (by rw [hr.pll, hr.params]; exact h.live_fits)

theorem dropTruncated_inv {s : State} (h : s.Inv) : (dropTruncated s).Inv :=
  LoopOnly.inv ⟨rfl, rfl, id, rfl, rfl, rfl⟩ h h.live_fits

theorem tokenEffect_inv {i : Instr} {s : State} (h : s.Inv) (hlive : s.pll.live = true) :
    (tokenEffect i s).Inv := by
  have hl := tokenEffect_loopOnly i s
  refine hl.inv h fun _ => ?_
  rw [hl.params]
  exact tokenEffect_fits (h.live_cells hlive) (h.live_fits hlive)

theorem finishDecode_inv {s : State} (h : s.Inv) (hlive : s.pll.live = true) :
    (finishDecode s).Inv := by
  have hcommit := commitDecode_stored rfl h.stored (h.live_fits hlive)
  rcases finishDecode_cases s with e | e <;> rw [e]
  · exact succeedCommand_inv hcommit rfl
  · refine succeedCommand_inv ?_ (by simp)
    rw [(frameBody_frame _).1]
    exact frameBody_stored rfl hcommit

theorem tokenStep_inv {s t : State} (h : s.Inv) (hlive : s.pll.live = true)
    (ht : tokenStep s = .next t) : t.Inv := by
  rcases tokenStep_cases ht with ⟨_, rfl⟩ | ⟨u, hr, rfl⟩ | ⟨u, hr, rfl⟩ | ⟨i, u, hr, _, _, rfl⟩
  · exact finishDecode_inv h hlive
  · exact finishDecode_inv (hr.inv h) (by rwa [hr.pll])
  · exact finishDecode_inv (dropTruncated_inv (hr.inv h))
      (by rw [dropTruncated_pll, hr.pll]; exact hlive)
  · exact tokenEffect_inv (hr.inv h) (by rwa [hr.pll])

end Sys2Proof.Machine

namespace Sys2Proof

open Machine

/-- Settles O29: by what the step was, a token, the engine's command or a host access, each of which
keeps the facts of registers and buffers and those of STATUS and a live decode. -/
theorem everyStepKeepsTheInvariant : Obligations.EveryStepKeepsTheInvariant := by
  intro s t h hstep
  rcases step_cases hstep with
    ⟨hlive, ht⟩ | ⟨_, _, _, rfl⟩ | ⟨c, ts, hlive, _, hc⟩ | ⟨op, rest, ts, hlive, _, ha⟩
  · exact tokenStep_inv h hlive ht
  · exact h
  · exact exec_op_inv (s := { s with turns := ts }) h.stored hlive hc
  · have hs : ({ s with pending := rest, turns := ts } : State).Inv :=
      inv_of_notLive h.stored h.codeLegal h.busy_clear hlive
    exact hostAccess_inv hs hlive ha

end Sys2Proof

end

section
/-! PROOF. The register map: the CAP registers, the reserved offsets and bits, and the STATUS word
(spec/10_state.md R34, R58, R63). -/

namespace Sys2Proof.Machine

open Claims (reads namedOffsets)

/-! ## Accesses by their register -/

theorem hostAccess_regRead {offset : Fin 256} (h : offset.val % 4 = 0) (s : State) :
    hostAccess (.regRead offset 32) s
      = .next ((readOffset offset s).2.reply (.word (readOffset offset s).1)) := by
  simp [hostAccess, hostRegRead, checkedAccess, h]

theorem hostAccess_regWrite {offset : Fin 256} (h : offset.val % 4 = 0) (v : Word) (s : State) :
    hostAccess (.regWrite offset 32 v) s = .next (writeOffset offset v s) := by
  simp [hostAccess, hostRegWrite, checkedAccess, h]

theorem readOffset_of_regAt {offset : Nat} {g : Reg} (h : regAt offset = some g) (s : State) :
    readOffset offset s = readReg g s := by simp [readOffset, h]

theorem readOffset_of_reserved {offset : Nat} (h : regAt offset = none) (s : State) :
    readOffset offset s = (0, s) := by simp [readOffset, h]

theorem writeOffset_of_regAt {offset : Nat} {g : Reg} (h : regAt offset = some g) (v : Word)
    (s : State) : writeOffset offset v s = writeReg g v s := by simp [writeOffset, h]

theorem writeOffset_of_reserved {offset : Nat} (h : regAt offset = none) (v : Word) (s : State) :
    writeOffset offset v s = s := by simp [writeOffset, h]

theorem writeOffset_of_status {offset : Nat} (h : regAt offset = some .status) (v : Word)
    (s : State) : writeOffset offset v s = writeStatus v s := by
  rw [writeOffset_of_regAt h]; rfl

theorem writeOffset_of_ctrl {offset : Nat} (h : regAt offset = some .ctrl) (v : Word) (s : State) :
    writeOffset offset v s = if s.busy then rejectWrite s else writeCtrl v s := by
  rw [writeOffset_of_regAt h]; rfl

theorem writeOffset_of_ignored {offset : Nat} (h : (regAt offset).map Reg.access = some .ignored)
    (v : Word) (s : State) : writeOffset offset v s = s := by
  obtain ⟨g, hg, ha⟩ := Option.map_eq_some_iff.1 h
  rw [writeOffset_of_regAt hg, writeReg, ha]

/-- The registers a running command may free a read of: STATUS and every result register. -/
def busyFreed : List Reg := .status :: (Op.decodeFrame.resultRegs ++ Op.wbDetect.resultRegs)

theorem busyFreed_of_mem_resultRegs {c : Op} {g : Reg} (h : g ∈ c.resultRegs) : g ∈ busyFreed := by
  refine List.mem_cons_of_mem _ (List.mem_append.2 ?_)
  cases c with
  | pllDecode => exact .inl (List.mem_append_left _ h)
  | frame => exact .inl (List.mem_append_right _ h)
  | decodeFrame => exact .inl h
  | wbDetect => exact .inr h

/-- Every other register reads its value, busy or idle (spec/20_memory.md R121). -/
theorem reads_of_not_busyFreed {offset : Fin 256} {g : Reg} (h : regAt offset = some g)
    (hg : g ∉ busyFreed) (s : State) : reads s offset = regValue s g := by
  have hst : g ≠ .status := fun e => hg (by simp [busyFreed, e])
  rw [reads, readOffset_of_regAt h, readReg]
  split
  · rfl
  · next c _ =>
    have hres : g ∉ c.resultRegs := fun hm => hg (busyFreed_of_mem_resultRegs hm)
    simp [busyRegRead, hst, hres]

theorem reads_of_idle {offset : Fin 256} {g : Reg} (h : regAt offset = some g) {s : State}
    (hs : s.eng = .idle) : reads s offset = regValue s g := by
  rw [reads, readOffset_of_regAt h, readReg, hs]

/-! ## The CAP registers (R58) -/

theorem params_bounds {p : Params} (h : p.wf = true) :
    p.fluxCap < 2 ^ 32 ∧ p.bitbufCap < 2 ^ 29 ∧ p.rawCap < 2 ^ 16 ∧ p.sectorCap < 2 ^ 16 ∧
    p.revCap < 2 ^ 32 ∧ p.wbCap ≤ 2 ^ 24 := by
  simp only [Params.wf, Bool.and_eq_true, decide_eq_true_eq] at h
  omega

/-- A register that holds a number of 32 bits, and that no command writes, reads it. -/
theorem toNat_reads_ofNat {s : State} {offset : Fin 256} {g : Reg} (ho : regAt offset = some g)
    (hg : g ∉ busyFreed) {n : Nat} (hv : regValue s g = BitVec.ofNat 32 n) (hn : n < 2 ^ 32) :
    (reads s offset).toNat = n := by
  rw [reads_of_not_busyFreed ho hg, hv, toNat_word_ofNat hn]

theorem capsRead_of_wf {s : State} (h : s.params.wf = true) : Claims.capsRead s := by
  obtain ⟨hflux, hbitbuf, hraw, hsector, hrev, hwb⟩ := params_bounds h
  exact ⟨toNat_reads_ofNat (g := .capFlux) rfl (by decide) rfl hflux,
    toNat_reads_ofNat (g := .capBitbuf) rfl (by decide) rfl (by omega),
    toNat_reads_ofNat (g := .capRaw) rfl (by decide) rfl (by omega),
    toNat_reads_ofNat (g := .capSector) rfl (by decide) rfl (by omega),
    toNat_reads_ofNat (g := .capRev) rfl (by decide) rfl hrev,
    toNat_reads_ofNat (g := .capWb) rfl (by decide) rfl (by omega),
    toNat_reads_ofNat (g := .capFixed) rfl (by decide) rfl (by decide)⟩

/-! ## Reserved offsets and bits (R63) -/

theorem regAt_of_not_named :
    ∀ offset : Fin 256, offset.val % 4 = 0 → offset ∉ namedOffsets → regAt offset = none := by
  decide +kernel

theorem bitAt_and_eq_zero {n : Nat} {m : Word} (h : 1#32 <<< n &&& m = 0) (b : Bool) :
    bitAt b n &&& m = 0 := by
  cases b
  · exact BitVec.zero_and
  · exact h

theorem statusWord_reserved (busy : Bool) (st : Status) :
    statusWord busy st &&& 0xFFFEC008 = 0 := by
  have hcode (c : BitVec 4) : c.setWidth 32 <<< 4 &&& 0xFFFEC008#32 = 0 := by
    revert c; decide
  simp [statusWord, BitVec.and_or_distrib_right, bitAt_and_eq_zero, hcode]

theorem ctrlWord_reserved (c : Ctrl) : ctrlWord c &&& 0x7FFEFCFC = 0 := by
  have henc (e : BitVec 2) : e.setWidth 32 &&& 0x7FFEFCFC#32 = 0 := by revert e; decide
  simp [ctrlWord, BitVec.and_or_distrib_right, bitAt_and_eq_zero, henc]

theorem byte_reserved (x : Byte) : x.setWidth 32 &&& (0xFFFFFF00 : Word) = 0 := by
  revert x; decide

theorem trackInfo_reserved (hd tr : Byte) : 0#16 ++ hd ++ tr &&& (0xFFFF0000 : Word) = 0 := by
  have hmask : (0xFFFF0000 : Word) = (0xFFFF#16 ++ 0#8) ++ 0#8 := by decide
  rw [hmask, BitVec.and_append, BitVec.and_append, BitVec.zero_and, BitVec.and_zero,
    BitVec.and_zero]
  decide

/-- Bits that neither the value nor the bits freed of it have read 0. -/
theorem freed_reserved {x d w m : Word} (hx : x &&& m = 0) (hw : w &&& m = 0) :
    ((x &&& ~~~w) ||| (d &&& w)) &&& m = 0 := by
  rw [BitVec.and_or_distrib_right, BitVec.and_assoc d, hw, BitVec.and_comm x, BitVec.and_assoc, hx]
  simp

/-- STATUS reads its reserved bits 0, also where a running command frees bits of it. -/
theorem reads_status_reserved (s : State) : reads s 0x004 &&& 0xFFFEC008 = 0 := by
  have hmask (c : Op) : c.writtenStatus s &&& 0xFFFEC008 = 0 := by
    unfold Op.writtenStatus
    split_ifs
    · cases c <;> decide
    · decide
  rw [reads, readOffset_of_regAt (g := .status) rfl, readReg]
  split
  · exact statusWord_reserved _ _
  · next c _ => exact freed_reserved (statusWord_reserved _ _) (hmask c)

theorem writeOneToClear_masked (st : Status) (v : Word) :
    st.writeOneToClear (v &&& ~~~0xFFFEC008) = st.writeOneToClear v := by
  simp [Status.writeOneToClear]

theorem setWidth_masked {w : Nat} {m : Word} (h : (~~~m).setWidth w = BitVec.allOnes w) (v : Word) :
    (v &&& ~~~m).setWidth w = v.setWidth w := by
  rw [BitVec.setWidth_and, h, BitVec.and_allOnes]

theorem ctrlOfWord_masked (v : Word) : ctrlOfWord (v &&& ~~~0x7FFEFCFC) = ctrlOfWord v := by
  rw [ctrlOfWord, setWidth_masked (by decide)]
  simp [ctrlOfWord]

theorem writeCtrl_masked (v : Word) (s : State) :
    writeCtrl (v &&& ~~~0x7FFEFCFC) s = writeCtrl v s := by
  have hreset : (v &&& ~~~0x7FFEFCFC).getLsbD 31 = v.getLsbD 31 := by simp
  rw [writeCtrl, hreset, ctrlOfWord_masked, writeCtrl]

theorem store_trackInfo_masked (r : Regs) (v : Word) :
    r.store .trackInfo (v &&& ~~~0xFFFF0000) = r.store .trackInfo v := by
  have htrack : (v &&& ~~~0xFFFF0000).setWidth 8 = v.setWidth 8 := setWidth_masked (by decide) v
  have hhead : ((v &&& ~~~0xFFFF0000) >>> 8).setWidth 8 = (v >>> 8).setWidth 8 := by
    rw [BitVec.ushiftRight_and_distrib]
    exact setWidth_masked (m := 0xFFFFFF00) (by decide) (v >>> 8)
  rw [Regs.store, htrack, hhead, Regs.store]

/-- A write of an RW register acts by what it stores. -/
theorem writeOffset_of_rw_congr {offset : Nat} {g : Reg} (ho : regAt offset = some g)
    (ha : g.access = .rw) {v w : Word} (h : ∀ r : Regs, r.store g v = r.store g w) (s : State) :
    writeOffset offset v s = writeOffset offset w s := by
  simp [writeOffset_of_regAt ho, writeReg, ha, h]

/-- The bits of `m` read 0 at the offset, and a write acts as if it had them 0
(spec/10_state.md R63). -/
def ReservedIn (s : State) (offset : Fin 256) (m : Word) : Prop :=
  reads s offset &&& m = 0 ∧
    ∀ v : Word, hostAccess (.regWrite offset 32 v) s
      = hostAccess (.regWrite offset 32 (v &&& ~~~m)) s

theorem reservedIn_of_writeOffset {s : State} {offset : Fin 256} {m : Word}
    (hlegal : offset.val % 4 = 0) (hread : reads s offset &&& m = 0)
    (hwrite : ∀ v, writeOffset offset (v &&& ~~~m) s = writeOffset offset v s) :
    ReservedIn s offset m :=
  ⟨hread, fun v => by rw [hostAccess_regWrite hlegal, hostAccess_regWrite hlegal, hwrite]⟩

theorem reservedIn_status (s : State) : ReservedIn s 0x004 0xFFFEC008 := by
  refine reservedIn_of_writeOffset rfl (reads_status_reserved s) fun v => ?_
  rw [writeOffset_of_status rfl, writeOffset_of_status rfl, writeStatus, writeOneToClear_masked,
    writeStatus]

theorem reservedIn_ctrl (s : State) : ReservedIn s 0x008 0x7FFEFCFC := by
  refine reservedIn_of_writeOffset rfl ?_ fun v => ?_
  · rw [reads_of_not_busyFreed (g := .ctrl) rfl (by decide)]
    exact ctrlWord_reserved _
  · rw [writeOffset_of_ctrl rfl, writeOffset_of_ctrl rfl, writeCtrl_masked]

theorem reservedIn_trackInfo (s : State) : ReservedIn s 0x018 0xFFFF0000 := by
  refine reservedIn_of_writeOffset rfl ?_ fun v => ?_
  · rw [reads_of_not_busyFreed (g := .trackInfo) rfl (by decide)]
    exact trackInfo_reserved _ _
  · exact writeOffset_of_rw_congr (g := .trackInfo) rfl rfl (store_trackInfo_masked · v) s

/-- A register that holds one byte reserves the others. -/
theorem reservedIn_byte {s : State} {offset : Fin 256} {g : Reg} (ho : regAt offset = some g)
    (hlegal : offset.val % 4 = 0) (hg : g ∉ busyFreed) (ha : g.access = .rw) {x : Byte}
    (hread : regValue s g = x.setWidth 32)
    (hstore : ∀ {v w : Word}, v.setWidth 8 = w.setWidth 8 → ∀ r : Regs, r.store g v = r.store g w) :
    ReservedIn s offset 0xFFFFFF00 := by
  refine reservedIn_of_writeOffset hlegal ?_ fun v => ?_
  · rw [reads_of_not_busyFreed ho hg, hread]
    exact byte_reserved x
  · exact writeOffset_of_rw_congr ho ha (hstore (setWidth_masked (by decide) v)) s

/-! ## The STATUS word (R34) -/

/-- `x` is the number `n` and uses the low `k` bits alone. -/
def LowBits (x : Word) (k n : Nat) : Prop := x.toNat = n ∧ n < 2 ^ k

/-- A field above the bits in use adds its value at its place. -/
theorem LowBits.or_field {x : Word} {k n m w : Nat} (h : LowBits x k n) (y : Word)
    (hy : y.toNat < 2 ^ w) (hk : k ≤ m) (hw : m + w ≤ 32) :
    LowBits (x ||| y <<< m) (m + w) (n + 2 ^ m * y.toNat) := by
  obtain ⟨rfl, hx⟩ := h
  have hlow : x.toNat < 2 ^ m := hx.trans_le (Nat.pow_le_pow_right (by decide) hk)
  have hshift : (y <<< m).toNat = 2 ^ m * y.toNat := by
    have : 2 ^ m * y.toNat < 2 ^ 32 := calc
      2 ^ m * y.toNat < 2 ^ m * 2 ^ w := Nat.mul_lt_mul_of_pos_left hy (by positivity)
      _ = 2 ^ (m + w) := (Nat.pow_add ..).symm
      _ ≤ 2 ^ 32 := Nat.pow_le_pow_right (by decide) hw
    rw [BitVec.toNat_shiftLeft, Nat.shiftLeft_eq, Nat.mul_comm, Nat.mod_eq_of_lt this]
  constructor
  · rw [BitVec.toNat_or, hshift, Nat.or_comm, ← Nat.two_pow_add_eq_or_of_lt hlow, Nat.add_comm]
  · calc
      x.toNat + 2 ^ m * y.toNat < 2 ^ m * (y.toNat + 1) := by rw [Nat.mul_add]; omega
      _ ≤ 2 ^ m * 2 ^ w := Nat.mul_le_mul_left _ hy
      _ = 2 ^ (m + w) := (Nat.pow_add ..).symm

theorem LowBits.or_bitAt {x : Word} {k n m : Nat} (h : LowBits x k n) (b : Bool) (hk : k ≤ m)
    (hm : m < 32) : LowBits (x ||| bitAt b m) (m + 1) (n + 2 ^ m * b.toNat) := by
  cases b
  · simpa [bitAt] using h.or_field 0#32 (w := 1) (by decide) hk hm
  · exact h.or_field 1#32 (w := 1) (by decide) hk hm

/-- Where the fields of an idle block's STATUS stand (spec/10_state.md R34). -/
theorem toNat_statusWord_idle (st : Status) :
    (statusWord false st).toNat = 2 * st.done.toNat + 4 * st.err.toNat + 16 * st.errcode.toNat
      + 256 * st.bitbufOvf.toNat + 512 * st.tokenErr.toNat + 1024 * st.rawOvf.toNat
      + 2048 * st.idamCapped.toNat + 4096 * st.sectCapped.toNat + 8192 * st.wbOvf.toNat
      + 65536 * st.rejected.toNat := by
  have hcode : (st.errcode.setWidth 32).toNat = st.errcode.toNat := by
    simp [BitVec.toNat_setWidth]; omega
  have hbusy : LowBits (bitAt false 0) 1 0 := ⟨rfl, by decide⟩
  have hack := (hbusy.or_bitAt st.done (m := 1) (by decide) (by decide)).or_bitAt st.err (m := 2)
    (by decide) (by decide)
  have herr := hack.or_field (st.errcode.setWidth 32) (m := 4) (w := 4) (by omega) (by decide)
    (by decide)
  have hflags := ((((((herr.or_bitAt st.bitbufOvf (m := 8) (by decide) (by decide)).or_bitAt
    st.tokenErr (m := 9) (by decide) (by decide)).or_bitAt st.rawOvf (m := 10) (by decide)
    (by decide)).or_bitAt st.idamCapped (m := 11) (by decide) (by decide)).or_bitAt st.sectCapped
    (m := 12) (by decide) (by decide)).or_bitAt st.wbOvf (m := 13) (by decide) (by decide)).or_bitAt
    st.rejected (m := 16) (by decide) (by decide)
  rw [statusWord, hflags.1, hcode]
  omega

theorem reads_status_of_idle {s : State} (hs : s.eng = .idle) :
    reads s 0x004 = statusWord false s.regs.status := by
  rw [reads_of_idle (g := .status) rfl hs]
  simp only [regValue, State.busy, hs]

end Sys2Proof.Machine

namespace Sys2Proof

open Machine Claims

/-- Settles O4: an offset without a name is no register's, and each named register's reserved bits
are masked by its word on reads and by what it stores on writes. -/
theorem reservedSpaceReadsZero : Obligations.ReservedSpaceReadsZero := by
  constructor
  · intro s offset v hlegal hname
    have hnone := regAt_of_not_named offset hlegal hname
    rw [hostAccess_regRead hlegal, hostAccess_regWrite hlegal, readOffset_of_reserved hnone,
      writeOffset_of_reserved hnone]
    exact ⟨rfl, rfl⟩
  · intro s p hp
    simp only [reservedBits, List.mem_cons, List.not_mem_nil, or_false] at hp
    obtain rfl | rfl | rfl | rfl | rfl | rfl := hp
    · exact reservedIn_status s
    · exact reservedIn_ctrl s
    · exact reservedIn_trackInfo s
    · exact reservedIn_byte (g := .wbRevs) rfl rfl (by decide) rfl rfl
        fun e r => by rw [Regs.store, e, Regs.store]
    · exact reservedIn_byte (g := .wbThreshold) rfl rfl (by decide) rfl rfl
        fun e r => by rw [Regs.store, e, Regs.store]
    · exact reservedIn_byte (g := .pllMaxCells) rfl rfl (by decide) rfl rfl
        fun e r => by rw [Regs.store, e, Regs.store]

/-- Settles O5: each CAP register's value is its parameter, which no command and no write
reaches. -/
theorem capacityRegistersAreConstant : Obligations.CapacityRegistersAreConstant := by
  refine ⟨fun s h => capsRead_of_wf h, fun s v offset hoff => ?_, fun s t h => step_params h⟩
  have hcap : ∀ offset ∈ ([0x0B0, 0x0B4, 0x0B8, 0x0BC, 0x0C0, 0x0C4, 0x0C8] : List (Fin 256)),
      offset.val % 4 = 0 ∧ (regAt offset).map Reg.access = some .ignored := by
    decide +kernel
  obtain ⟨hlegal, hignored⟩ := hcap offset hoff
  rw [hostAccess_regWrite hlegal, writeOffset_of_ignored hignored]

/-- Settles O7: the STATUS word adds its fields at their places, and a STATUS write is W1C. -/
theorem statusWriteClearsOnlyItsBits : Obligations.StatusWriteClearsOnlyItsBits := by
  constructor
  · intro s hs
    rw [reads_status_of_idle hs]
    exact toNat_statusWord_idle _
  · intro s v
    refine ⟨writeStatus v s, ?_, rfl, rfl, rfl, rfl, rfl, rfl⟩
    rw [hostAccess_regWrite (by decide), writeOffset_of_status rfl]

end Sys2Proof

end

section
/-! PROOF. A command's validation in the words of the statements: it passes exactly where its
operands are legal (spec/60_exceptions.md R417). -/

namespace Sys2Proof.Machine

open Claims (decodeLegal frameLegal detectLegal commandLegal gainInRange ratiosInRange selectedRate)

theorem ne_zero_iff_toNat {w : Nat} {x : BitVec w} : x ≠ 0 ↔ x.toNat ≠ 0 :=
  not_congr (BitVec.toNat_inj (y := 0)).symm

/-- A finite value lies between -1.0 and 1.0 exactly where its magnitude is at most 1.0's. -/
theorem gainLegal_iff (x : F64) : gainLegal x = true ↔ gainInRange x := by
  have hlow : F64.key 0xBFF0000000000000 = -(F64.mag f64One : Int) := by decide
  have hhigh : F64.key 0x3FF0000000000000 = F64.mag f64One := by decide
  rw [gainLegal, Bool.and_eq_true, decide_eq_true_eq, gainInRange]
  refine and_congr_right fun hfin => ?_
  have hnan := F64.isNaN_of_isFinite hfin
  rw [F64.le_iff (by decide) hnan, F64.le_iff hnan (by decide), hlow, hhigh, F64.key]
  split_ifs <;> omega

theorem ratiosLegal_iff (fmin fmax : F64) :
    ratiosLegal fmin fmax = true ↔ ratiosInRange fmin fmax := by
  simp [ratiosLegal, ratiosInRange, f64Ratio1024, and_assoc]

theorem toNat_cellRate (r : Regs) : (cellRate r).toNat = selectedRate r := by
  unfold cellRate selectedRate encFm
  split_ifs <;> rfl

theorem validateDecode_eq_none_iff {s : State} : validateDecode s = none ↔ decodeLegal s := by
  constructor
  · intro h
    obtain ⟨hlen, hcap, henc, hfreq, hrate, hcells, ⟨hphase, hgain⟩, hratios⟩ :=
      validateDecode_none h
    exact ⟨ne_zero_iff_toNat.2 hlen, hcap, henc, ne_zero_iff_toNat.2 hfreq,
      toNat_cellRate s.regs ▸ hrate, ne_zero_iff_toNat.2 (Nat.ne_zero_of_lt hcells),
      (gainLegal_iff _).1 hphase, (gainLegal_iff _).1 hgain, (ratiosLegal_iff _ _).1 hratios⟩
  · rintro ⟨hlen, hcap, henc, hfreq, hrate, hcells, hphase, hgain, hratios⟩
    have henc' : ¬ (s.regs.ctrl.encoding ≠ encFm ∧ s.regs.ctrl.encoding ≠ encMfm) := fun h =>
      henc.elim h.1 h.2
    rw [validateDecode, if_neg (ne_zero_iff_toNat.1 hlen), if_neg (Nat.not_lt.2 hcap),
      if_neg henc', if_neg (ne_zero_iff_toNat.1 hfreq), if_neg (by rwa [toNat_cellRate]),
      if_neg (ne_zero_iff_toNat.1 hcells),
      if_neg (not_not.2 ⟨(gainLegal_iff _).2 hphase, (gainLegal_iff _).2 hgain⟩),
      if_neg (not_not.2 ((ratiosLegal_iff _ _).2 hratios))]

theorem validateFrame_eq_none_iff {s : State} : validateFrame s = none ↔ frameLegal s := by
  have henc : ¬ (s.regs.ctrl.encoding ≠ encFm ∧ s.regs.ctrl.encoding ≠ encMfm) ↔
      s.regs.ctrl.encoding = 0 ∨ s.regs.ctrl.encoding = 1 := by
    rw [not_and_or, not_not, not_not]; rfl
  unfold validateFrame frameLegal
  rw [← henc, ← Nat.not_lt]
  split_ifs with h1 h2
  · simp [h1]
  · simp [h1, h2]
  · simp [h1, h2]

theorem validateWb_eq_none_iff {s : State} : validateWb s = none ↔ detectLegal s := by
  unfold validateWb detectLegal Config.minRevs Config.maxRevs
  dsimp only
  split_ifs <;> simp <;> omega

/-- Validation in the words of the statements (spec/60_exceptions.md R417). -/
theorem check_eq_none_iff {c : Op} {s : State} : c.check s = none ↔ commandLegal s c := by
  cases c with
  | pllDecode => exact validateDecode_eq_none_iff
  | frame => exact validateFrame_eq_none_iff
  | decodeFrame => exact validateDecode_eq_none_iff
  | wbDetect => exact validateWb_eq_none_iff

theorem one_le_pllMaxCells_of_legal {s : State} (h : decodeLegal s) :
    1 ≤ s.regs.pllMaxCells.toNat := by
  obtain ⟨_, _, _, _, _, hcells, _⟩ := h
  exact Nat.one_le_iff_ne_zero.2 (ne_zero_iff_toNat.1 hcells)

/-- A legal command completes with success after its body (spec/60_exceptions.md R411, R412). -/
theorem exec_of_legal {c : Op} {s : State} (h : commandLegal s c) :
    exec c.instr s = .next (succeedCommand (c.body s)) := by
  rw [exec_op, check_eq_none_iff.2 h, runCommand]

theorem next_uninitRead_of_legal {c : Op} {s t : State} (h : commandLegal s c)
    (he : exec c.instr s = .next t) : t.uninitRead = (c.body s).uninitRead := by
  rw [exec_of_legal h] at he
  rw [← Host.Outcome.next.inj he, succeedCommand_uninitRead]

end Sys2Proof.Machine

end

section
/-! PROOF. Which cells a command reads, and that `uninit_read` is set exactly where one of them is
unwritten (spec/10_state.md R75, spec/20_memory.md R106). -/

namespace Sys2Proof.Machine

open Claims (tokenBytes byteCount decoded framed decodeLegal detectLegal commandLegal revsWritten
  operandsWritten)

/-! ## Sets of cells read -/

/-- From `s` to `t` the engine has read the byte cells of `C`, so far as the fault mark tells: no
buffer has changed, and the mark is set where it was or where a cell of `C` is ⊥. -/
structure Marks (C : Set (ByteBuf × Nat)) (s t : State) : Prop where
  mem : t.mem = s.mem
  mark : t.uninitRead = true ↔
    s.uninitRead = true ∨ ∃ c ∈ C, bufGet (s.mem.bytes c.1) c.2 = none

theorem marks_empty {s t : State} (hm : t.mem = s.mem) (hu : t.uninitRead = s.uninitRead) :
    Marks ∅ s t := ⟨hm, by simp [hu]⟩

theorem Marks.trans {C D : Set (ByteBuf × Nat)} {s t u : State} (h : Marks C s t)
    (g : Marks D t u) : Marks (C ∪ D) s u := by
  refine ⟨g.mem.trans h.mem, ?_⟩
  rw [g.mark, h.mark, h.mem, or_assoc]
  simp only [Set.mem_union, or_and_right, exists_or]

/-- A move that touches no buffer and no mark adds no cell. -/
theorem Marks.move {C : Set (ByteBuf × Nat)} {s t u : State} (h : Marks C s t) (hm : u.mem = t.mem)
    (hu : u.uninitRead = t.uninitRead) : Marks C s u := by
  simpa using h.trans (marks_empty hm hu)

theorem engineRead_marks (b : ByteBuf) (i : Nat) (s : State) :
    Marks {(b, i)} s (engineRead b i s).2 := by
  rcases engineRead_cases b i s with ⟨v, hv, e⟩ | ⟨hn, e⟩ <;> rw [e]
  · exact ⟨rfl, by simp [hv]⟩
  · exact ⟨rfl, by simp [hn]⟩

/-- The cells that the moves `lo` up to, not including, `hi` read, move `k` those of `f k`. -/
def cellsOf (f : Nat → Set (ByteBuf × Nat)) (lo hi : Nat) : Set (ByteBuf × Nat) :=
  ⋃ k ∈ Set.Ico lo hi, f k

section
variable {f : Nat → Set (ByteBuf × Nat)} {lo mid hi : Nat} {s t u : State}

theorem marks_cellsOf_self (f : Nat → Set (ByteBuf × Nat)) (lo : Nat) (s : State) :
    Marks (cellsOf f lo lo) s s := by
  simpa [cellsOf] using marks_empty (s := s) rfl rfl

/-- Moves one after the other. -/
theorem Marks.join (h : Marks (cellsOf f lo mid) s t) (g : Marks (cellsOf f mid hi) t u)
    (hlo : lo ≤ mid) (hhi : mid ≤ hi) : Marks (cellsOf f lo hi) s u := by
  have := h.trans g
  rwa [cellsOf, cellsOf, ← Set.biUnion_union, Set.Ico_union_Ico_eq_Ico hlo hhi] at this

theorem marks_cellsOf_one {k : Nat} (h : Marks (f k) s t) : Marks (cellsOf f k (k + 1)) s t := by
  rwa [cellsOf, Set.Ico_add_one_right_eq_Icc, Set.Icc_self, Set.biUnion_singleton]

theorem exists_cellsOf {P : ByteBuf × Nat → Prop} :
    (∃ c ∈ cellsOf f lo hi, P c) ↔ ∃ k, lo ≤ k ∧ k < hi ∧ ∃ c ∈ f k, P c := by
  simp only [cellsOf, Set.mem_iUnion, Set.mem_Ico]
  grind

end

/-! ## Tokens -/

/-- The FLUX byte at an index. -/
def fluxCell (i : Nat) : Set (ByteBuf × Nat) := {(.flux, i)}

/-- Reading the next FLUX byte. -/
theorem Marks.readFlux {lo i : Nat} {s t : State} (h : Marks (cellsOf fluxCell lo i) s t)
    (hlo : lo ≤ i) : Marks (cellsOf fluxCell lo (i + 1)) s (engineRead .flux i t).2 :=
  h.join (marks_cellsOf_one (engineRead_marks .flux i t)) hlo (Nat.le_succ i)

theorem fetchedOf_lit {b : Byte} (h : b.toNat ≤ 249) : fetchedOf [b] = .token (.tokLit b) := by
  simp [fetchedOf, decodeToken, h]

theorem fetchedOf_two {b n : Byte} (hb : ¬ b.toNat ≤ 249) (h : b.toNat ≤ 254 ∨ n ≠ 0xFF#8) :
    ∃ i, fetchedOf [b, n] = .token i ∧ (tokenBytes i).length = 2 := by
  by_cases h254 : b.toNat ≤ 254
  · exact ⟨.tokEsc8 b n, by simp [fetchedOf, decodeToken, hb, h254], rfl⟩
  · have hn : n ≠ 0xFF#8 := h.resolve_left h254
    exact ⟨.tokEscUndef n, by simp [fetchedOf, decodeToken, hb, h254, hn], rfl⟩

theorem fetchedOf_five {b n b0 b1 b2 : Byte} (hb : ¬ b.toNat ≤ 249)
    (h : ¬ (b.toNat ≤ 254 ∨ n ≠ 0xFF#8)) :
    fetchedOf [b, n, b0, b1, b2] = .token (.tokEsc24 b0 b1 b2) := by
  obtain ⟨h254, hn⟩ := not_or.1 h
  simp [fetchedOf, decodeToken, hb, h254, not_not.1 hn]

/-- What the token reader returns and which FLUX bytes it has read (spec/40_flux_pll.md R205): none
at END, the one or two below FLUX_LEN of a truncated token, and a token's own bytes. -/
theorem fetchToken_marks (s : State) :
    (s.regs.fluxLen.toNat ≤ s.pll.tc ∧ fetchToken s = (.stop, s)) ∨
    (∃ t, fetchToken s = (.trunc, t) ∧ s.pll.tc < s.regs.fluxLen.toNat ∧
      Marks (cellsOf fluxCell s.pll.tc (min s.regs.fluxLen.toNat (s.pll.tc + 2))) s t) ∨
    (∃ i t, fetchToken s = (.token i, t) ∧
      s.pll.tc + (tokenBytes i).length ≤ s.regs.fluxLen.toNat ∧
      Marks (cellsOf fluxCell s.pll.tc (s.pll.tc + (tokenBytes i).length)) s t) := by
  have h1 := (marks_cellsOf_self fluxCell s.pll.tc s).readFlux (Nat.le_refl _)
  have h2 := h1.readFlux (Nat.le_succ _)
  have h3 := h2.readFlux (by omega)
  have h4 := h3.readFlux (by omega)
  have h5 := h4.readFlux (by omega)
  unfold fetchToken
  dsimp only
  split_ifs with hend hlit hone htwo hfive
  · exact .inl ⟨hend, rfl⟩
  · exact .inr (.inr ⟨.tokLit _, _, by rw [fetchedOf_lit hlit], Nat.lt_of_not_le hend, h1⟩)
  · have hlen : min s.regs.fluxLen.toNat (s.pll.tc + 2) = s.pll.tc + 1 := by omega
    exact .inr (.inl ⟨_, rfl, by omega, by rw [hlen]; exact h1⟩)
  · obtain ⟨i, hi, hlen⟩ := fetchedOf_two hlit htwo
    exact .inr (.inr ⟨i, _, by rw [hi], by omega, by rw [hlen]; exact h2⟩)
  · have hlen : min s.regs.fluxLen.toNat (s.pll.tc + 2) = s.pll.tc + 2 := by omega
    exact .inr (.inl ⟨_, rfl, by omega, by rw [hlen]; exact h2⟩)
  · exact .inr (.inr ⟨.tokEsc24 _ _ _, _, by rw [fetchedOf_five hlit htwo],
      Nat.lt_of_not_le hfive, h5⟩)

theorem tokenBytes_length {i : Instr} (h : opOfInstr i = none) :
    1 ≤ (tokenBytes i).length ∧ (tokenBytes i).length ≤ 5 := by
  cases i with
  | pllDecode | frame | decodeFrame | wbDetect => simp [opOfInstr] at h
  | tokLit | tokEsc8 | tokEsc24 | tokEscUndef => simp [tokenBytes]

theorem feed_cursor (interval len : Nat) (s : State) :
    ((feed interval len s).pll.ovf = true ∧ (feed interval len s).pll.tc = s.pll.tc) ∨
    ((feed interval len s).pll.ovf = s.pll.ovf ∧
      (feed interval len s).pll.tc = s.pll.tc + len) := by
  rcases feed_cases interval len s with ⟨_, e⟩ | ⟨_, e⟩ <;> rw [e]
  · exact .inl ⟨rfl, rfl⟩
  · exact .inr ⟨rfl, rfl⟩

/-- A token moves the cursor past its bytes, or stops the loop where its interval does not fit
(spec/40_flux_pll.md R224). -/
theorem tokenEffect_cursor {i : Instr} (h : opOfInstr i = none) (s : State) :
    ((tokenEffect i s).pll.ovf = true ∧ (tokenEffect i s).pll.tc = s.pll.tc) ∨
    ((tokenEffect i s).pll.ovf = s.pll.ovf ∧
      (tokenEffect i s).pll.tc = s.pll.tc + (tokenBytes i).length) := by
  cases i with
  | pllDecode | frame | decodeFrame | wbDetect => simp [opOfInstr] at h
  | tokLit b => exact feed_cursor _ _ s
  | tokEsc8 e n => exact feed_cursor _ _ s
  | tokEsc24 b0 b1 b2 => exact feed_cursor _ _ s
  | tokEscUndef x => exact .inr ⟨rfl, rfl⟩

@[simp] theorem tokenEffect_uninitRead (i : Instr) (s : State) :
    (tokenEffect i s).uninitRead = s.uninitRead := by
  cases i with
  | pllDecode | frame | decodeFrame | wbDetect => rfl
  | tokLit | tokEsc8 | tokEsc24 => exact feed_uninitRead _ _ s
  | tokEscUndef => rfl

/-! ## The token loop -/

theorem decodeLoop_of_ovf (n : Nat) {s : State} (h : s.pll.ovf = true) : decodeLoop n s = s := by
  cases n with
  | zero => rfl
  | succ n => rw [decodeLoop, if_pos h]

theorem decodeLoop_of_stop {n : Nat} {s t : State} (h : s.pll.ovf = false)
    (hf : fetchToken s = (.stop, t)) : decodeLoop (n + 1) s = t := by
  rw [decodeLoop, if_neg (by simp [h]), hf]

theorem decodeLoop_of_trunc {n : Nat} {s t : State} (h : s.pll.ovf = false)
    (hf : fetchToken s = (.trunc, t)) : decodeLoop (n + 1) s = dropTruncated t := by
  rw [decodeLoop, if_neg (by simp [h]), hf]

theorem decodeLoop_of_token {n : Nat} {s t : State} {i : Instr} (h : s.pll.ovf = false)
    (hf : fetchToken s = (.token i, t)) :
    decodeLoop (n + 1) s = decodeLoop n (tokenEffect i t) := by
  rw [decodeLoop, if_neg (by simp [h]), hf]

/-- Where the reads of a token loop end, by how the loop ended: at END or at a truncated token, or
at an interval that did not fit, whose token has one to five bytes. -/
def ReadsEnd (len : Nat) (p : PllLoop) (e : Nat) : Prop :=
  e ≤ len ∧ (p.ovf = false → e = min len (p.tc + 2)) ∧
    (p.ovf = true → p.tc < e ∧ e ≤ p.tc + 5)

theorem readsEnd_of_not_ovf {len e : Nat} {p : PllLoop} (h : p.ovf = false)
    (he : e = min len (p.tc + 2)) : ReadsEnd len p e :=
  ⟨he ▸ Nat.min_le_left _ _, fun _ => he, fun ho => absurd (ho.symm.trans h) (by decide)⟩

theorem readsEnd_of_ovf {len e : Nat} {p : PllLoop} (h : p.ovf = true) (he : e ≤ len)
    (hlow : p.tc < e) (hhigh : e ≤ p.tc + 5) : ReadsEnd len p e :=
  ⟨he, fun ho => absurd (ho.symm.trans h) (by decide), fun _ => ⟨hlow, hhigh⟩⟩

/-- With more tokens allowed than bytes are left, the loop runs to its end and reads FLUX from its
cursor on without a gap. -/
theorem decodeLoop_marks (n : Nat) {s : State} (hovf : s.pll.ovf = false)
    (hle : s.pll.tc ≤ s.regs.fluxLen.toNat) (hn : s.regs.fluxLen.toNat < s.pll.tc + n) :
    ∃ e, s.pll.tc ≤ e ∧ Marks (cellsOf fluxCell s.pll.tc e) s (decodeLoop n s) ∧
      ReadsEnd s.regs.fluxLen.toNat (decodeLoop n s).pll e := by
  induction n generalizing s with
  | zero => omega
  | succ n ih =>
    have hr := fetchToken_readsOnly s
    rcases fetchToken_marks s with ⟨hend, hf⟩ | ⟨t, hf, hlt, hm⟩ | ⟨i, t, hf, hlen, hm⟩ <;>
      rw [hf] at hr
    · rw [decodeLoop_of_stop hovf hf]
      exact ⟨_, Nat.le_refl _, marks_cellsOf_self _ _ s, readsEnd_of_not_ovf hovf (by omega)⟩
    · rw [decodeLoop_of_trunc hovf hf]
      refine ⟨_, by omega, hm.move rfl rfl, readsEnd_of_not_ovf ?_ ?_⟩ <;>
        rw [dropTruncated_pll, hr.pll]
      exact hovf
    · have hi : opOfInstr i = none := (fetchToken_token (s := s) (by rw [hf])).1
      obtain ⟨hpos, hfive⟩ := tokenBytes_length hi
      have hloop := tokenEffect_loopOnly i t
      have hregs : (tokenEffect i t).regs = s.regs := hloop.regs.trans hr.regs
      have hstep := hm.move hloop.mem (tokenEffect_uninitRead i t)
      have hcursor := tokenEffect_cursor hi t
      rw [hr.pll] at hcursor
      rw [decodeLoop_of_token hovf hf]
      rcases hcursor with ⟨ho, htc⟩ | ⟨ho, htc⟩
      · rw [decodeLoop_of_ovf n ho]
        exact ⟨_, by omega, hstep, readsEnd_of_ovf ho hlen (by omega) (by omega)⟩
      · obtain ⟨e, hce, hrest, hend⟩ :=
          ih (ho.trans hovf) (by rw [htc, hregs]; exact hlen) (by rw [htc, hregs]; omega)
        rw [htc] at hce hrest
        rw [hregs] at hend
        exact ⟨e, by omega, hstep.join hrest (Nat.le_add_right _ _) hce, hend⟩

/-- The mark after a decode: FLUX is read from its start up to where the loop ended. -/
theorem decodeBody_mark_iff (s : State) :
    ∃ e, ReadsEnd s.regs.fluxLen.toNat (decoded s) e ∧
      ((decodeBody s).uninitRead = true ↔
        s.uninitRead = true ∨ ∃ i, i < e ∧ bufGet s.mem.flux i = none) := by
  obtain ⟨e, -, hm, hend⟩ := decodeLoop_marks (s.regs.fluxLen.toNat + 1) (s := startDecode s) rfl
    (Nat.zero_le _) (Nat.lt_add_left _ (Nat.lt_succ_self _))
  refine ⟨e, hend, hm.mark.trans (or_congr_right (exists_cellsOf.trans ?_))⟩
  simp [fluxCell, Memory.bytes, startDecode]

/-! ## The framing loop -/

/-- The BITBUF byte that holds a stream bit. -/
def bitCell (k : Nat) : Set (ByteBuf × Nat) := {(.bitbuf, k / 8)}

theorem frameStep_marks (s : State) : Marks (bitCell s.framer.k) s (frameStep s) :=
  (engineRead_marks .bitbuf (s.framer.k / 8) s).move rfl rfl

/-- The framing loop reads the stream from its cursor on without a gap: to its end, or up to the bit
that found RAW full (spec/41_sync_framer.md R263, R267). -/
theorem frameLoop_marks (n : Nat) (s : State) :
    s.framer.k ≤ (frameLoop n s).framer.k ∧ (frameLoop n s).framer.k ≤ s.framer.k + n ∧
    Marks (cellsOf bitCell s.framer.k (frameLoop n s).framer.k) s (frameLoop n s) ∧
    ((frameLoop n s).framer.rawOvf = false → (frameLoop n s).framer.k = s.framer.k + n) := by
  induction n generalizing s with
  | zero => exact ⟨Nat.le_refl _, Nat.le_refl _, marks_cellsOf_self _ _ s, fun _ => rfl⟩
  | succ n ih =>
    rw [frameLoop]
    split_ifs with hovf
    · exact ⟨Nat.le_refl _, Nat.le_add_right _ _, marks_cellsOf_self _ _ s,
        fun hf => absurd (hf.symm.trans hovf) (by decide)⟩
    · obtain ⟨hlow, hhigh, hrest, hend⟩ := ih (frameStep s)
      have hk : (frameStep s).framer.k = s.framer.k + 1 := by
        rw [frameStep_framer, Framer.bit_k]
      rw [hk] at hlow hhigh hrest hend
      exact ⟨by omega, by omega,
        (marks_cellsOf_one (frameStep_marks s)).join hrest (Nat.le_succ _) hlow,
        fun hf => by rw [hend hf]; omega⟩

/-- A stream that is not empty has its first bit framed. -/
theorem framed_k_pos {s : State} (h : s.regs.bitCount ≠ 0) : 0 < (framed s).k := by
  obtain ⟨n, hn⟩ : ∃ n, s.regs.bitCount.toNat = n + 1 :=
    Nat.exists_eq_add_one_of_ne_zero fun h0 => h (BitVec.eq_of_toNat_eq h0)
  have hlow := (frameLoop_marks n (frameStep { s with framer := Framer.reset })).1
  rw [frameStep_framer, Framer.bit_k] at hlow
  rw [framed, frameStage, hn, frameLoop]
  exact Nat.lt_of_lt_of_le (Nat.succ_pos _) hlow

/-- The framing stage reads the stream from its start up to the last bit framed. -/
theorem frameStage_marks (s : State) :
    (framed s).k ≤ s.regs.bitCount.toNat ∧
    Marks (cellsOf bitCell 0 (framed s).k) s (frameStage s) ∧
    ((framed s).rawOvf = false → (framed s).k = s.regs.bitCount.toNat) := by
  obtain ⟨_, hhigh, hm, hend⟩ :=
    frameLoop_marks s.regs.bitCount.toNat { s with framer := Framer.reset }
  have hk : Framer.reset.k + s.regs.bitCount.toNat = s.regs.bitCount.toNat := Nat.zero_add _
  exact ⟨hhigh.trans_eq hk, ⟨hm.mem, hm.mark⟩, fun h => (hend h).trans hk⟩

/-- The mark after a frame: BITBUF is read up to the last bit framed. -/
theorem frameBody_mark_iff (s : State) :
    (frameBody s).uninitRead = true ↔ s.uninitRead = true ∨
      ∃ i, i < byteCount (framed s).k ∧ bufGet s.mem.bitbuf i = none := by
  obtain ⟨_, hm, _⟩ := frameStage_marks s
  refine hm.mark.trans (or_congr_right (exists_cellsOf.trans ?_))
  simp only [bitCell, Set.mem_singleton_iff, exists_eq_left, Memory.bytes, byteCount]
  constructor
  · rintro ⟨k, -, hk, hn⟩
    exact ⟨k / 8, by omega, hn⟩
  · rintro ⟨i, hi, hn⟩
    exact ⟨8 * i, Nat.zero_le _, by omega, by rwa [Nat.mul_div_cancel_left _ (by decide)]⟩

/-- A frame of a stream whose bytes are written leaves the mark as it was. -/
theorem frameBody_mark_of_written {s : State}
    (h : ∀ i, i < byteCount s.regs.bitCount.toNat → bufGet s.mem.bitbuf i ≠ none) :
    (frameBody s).uninitRead = s.uninitRead := by
  refine Bool.eq_iff_iff.2 ((frameBody_mark_iff s).trans (or_iff_left ?_))
  rintro ⟨i, hi, hn⟩
  have hle := (frameStage_marks s).1
  exact h i (by unfold byteCount at hi ⊢; omega) hn

/-- The frame stage of DECODE_FRAME reads the stream the decode stage has just written
(spec/41_sync_framer.md R290). -/
theorem decodeFrameBody_mark {s : State} (hp : s.params.wf = true)
    (hcells : 1 ≤ s.regs.pllMaxCells.toNat) :
    (decodeFrameBody s).uninitRead = (decodeBody s).uninitRead := by
  refine frameBody_mark_of_written fun i hi => ?_
  obtain ⟨_, hfits⟩ := decodeTokens_startDecode hcells
  obtain ⟨_, hcap, _⟩ := params_bounds hp
  have hlen : (decodeBody s).regs.bitCount.toNat = (decodeBody s).pll.out.length := by
    refine toNat_word_ofNat ?_
    omega
  rw [hlen] at hi
  have hin : i < (packBits (decodeBody s).pll.out).length := by rwa [packBits_length]
  have := bufGet_bufWrite_in s.mem.bitbuf 0 _ i hin
  rw [Nat.zero_add] at this
  rw [decodeBody_mem, this]
  exact Option.some_ne_none _

/-! ## The comparator's scan -/

/-- Byte `o` of each of these revolutions. -/
def revCells (rs : List (Fin 10)) (o : Nat) : Set (ByteBuf × Nat) :=
  {c | ∃ r ∈ rs, c = (.rev r, o)}

theorem readSamples_marks (o b : Nat) (rs : List (Fin 10)) (s : State) :
    Marks (revCells rs o) s (readSamples o b rs s).2 := by
  induction rs generalizing s with
  | nil => simpa [revCells, readSamples] using marks_empty (s := s) rfl rfl
  | cons r rs ih =>
    have hcons : revCells (r :: rs) o = {(.rev r, o)} ∪ revCells rs o := by
      ext c; simp [revCells]
    rw [hcons]
    exact (engineRead_marks (.rev r) o s).trans (ih _)

/-- The bytes the comparator reads at byte `o` (spec/42_weakbit.md R334). -/
def comparedCells (s : State) : Nat → Set (ByteBuf × Nat) :=
  revCells (revolutions s.regs.wbRevs.toNat)

theorem wbBit_marks (s : State) (b : Nat) : Marks (comparedCells s s.cmp.o) s (wbBit s b) :=
  (readSamples_marks _ _ _ s).move rfl rfl

@[simp] theorem wbBit_o (s : State) (b : Nat) : (wbBit s b).cmp.o = s.cmp.o := by simp [wbBit]

/-- Every bit position of a byte reads the same cells. -/
theorem wbBits_marks (b : Nat) (bs : List Nat) (s : State) :
    Marks (comparedCells s s.cmp.o) s ((b :: bs).foldl wbBit s) ∧
      ((b :: bs).foldl wbBit s).cmp.o = s.cmp.o := by
  induction bs generalizing b s with
  | nil => exact ⟨wbBit_marks s b, wbBit_o s b⟩
  | cons b' bs ih =>
    obtain ⟨hm, ho⟩ := ih b' (wbBit s b)
    rw [comparedCells, (wbBit_compareOnly s b).regs, ← comparedCells, wbBit_o] at hm
    refine ⟨?_, ho.trans (wbBit_o s b)⟩
    have := (wbBit_marks s b).trans hm
    rwa [Set.union_self] at this

theorem wbByte_marks (s : State) :
    Marks (comparedCells s s.cmp.o) s (wbByte s) ∧ (wbByte s).cmp.o = s.cmp.o + 1 ∧
      (wbByte s).regs = s.regs := by
  have hrange : List.range 8 = [0, 1, 2, 3, 4, 5, 6, 7] := rfl
  have hregs := wbBits_keeps (P := fun t => t.regs = s.regs)
    (fun t b ht => (wbBit_compareOnly t b).regs.trans ht) (List.range 8)
    (s := { s with cmp := { s.cmp with first := true } }) rfl
  have hbits := wbBits_marks 0 [1, 2, 3, 4, 5, 6, 7] { s with cmp := { s.cmp with first := true } }
  rw [← hrange] at hbits
  unfold wbByte
  generalize (List.range 8).foldl wbBit { s with cmp := { s.cmp with first := true } } = t at *
  obtain ⟨hm, ho⟩ := hbits
  exact ⟨⟨hm.mem, hm.mark⟩, congrArg (· + 1) ho, hregs⟩

theorem wbScan_marks (n : Nat) (s : State) :
    Marks (cellsOf (comparedCells s) s.cmp.o (s.cmp.o + n)) s (wbScan n s) := by
  induction n generalizing s with
  | zero => exact marks_cellsOf_self _ _ s
  | succ n ih =>
    obtain ⟨hm, ho, hregs⟩ := wbByte_marks s
    have hrest := ih (wbByte s)
    rw [comparedCells, hregs, ← comparedCells, ho, Nat.add_assoc, Nat.add_comm 1 n] at hrest
    exact (marks_cellsOf_one hm).join hrest (Nat.le_succ _) (by omega)

theorem mem_revolutions {k : Nat} {r : Fin 10} : r ∈ revolutions k ↔ r.val < k := by
  rw [revolutions, List.mem_take_iff_getElem]
  constructor
  · rintro ⟨i, hi, rfl⟩
    rw [List.getElem_finRange]
    exact Nat.lt_of_lt_of_le hi (Nat.min_le_left _ _)
  · intro h
    exact ⟨r.val, by simpa using h, by simp⟩

/-- The mark after a detection: every byte of the compared revolutions is read. -/
theorem wbBody_mark_iff (s : State) :
    (wbBody s).uninitRead = true ↔ s.uninitRead = true ∨ ¬ revsWritten s := by
  have hm := wbScan_marks s.regs.wbLength.toNat { s with cmp := Comparator.reset }
  refine hm.mark.trans (or_congr_right (exists_cellsOf.trans ?_))
  simp only [comparedCells, revCells, Set.mem_ofPred_eq, mem_revolutions, revsWritten,
    Comparator.reset, Nat.zero_add]
  push Not
  constructor
  · rintro ⟨o, -, ho, _, ⟨r, hr, rfl⟩, hn⟩
    exact ⟨r, hr, o, ho, hn⟩
  · rintro ⟨r, hr, o, ho, hn⟩
    exact ⟨o, Nat.zero_le _, ho, _, ⟨r, hr, rfl⟩, hn⟩

/-! ## First operand cells -/

/-- A decode reads the first byte of a stream that is not empty. -/
theorem decodeBody_mark_of_first {s : State} (hl : decodeLegal s)
    (hn : bufGet s.mem.flux 0 = none) : (decodeBody s).uninitRead = true := by
  obtain ⟨e, ⟨_, hend, hovf⟩, hm⟩ := decodeBody_mark_iff s
  have hlen := ne_zero_iff_toNat.1 hl.1
  refine hm.2 (.inr ⟨0, ?_, hn⟩)
  cases ho : (decoded s).ovf with
  | false => have := hend ho; omega
  | true => have := hovf ho; omega

theorem frameBody_mark_of_first {s : State} (hb : s.regs.bitCount ≠ 0)
    (hn : bufGet s.mem.bitbuf 0 = none) : (frameBody s).uninitRead = true := by
  have hpos := framed_k_pos hb
  exact (frameBody_mark_iff s).2 (.inr ⟨0, by unfold byteCount; omega, hn⟩)

theorem wbBody_mark_of_first {s : State} (hl : detectLegal s)
    (hn : bufGet (s.mem.bytes (.rev 0)) 0 = none) : (wbBody s).uninitRead = true := by
  obtain ⟨hrevs, _, hlen, _⟩ := hl
  exact (wbBody_mark_iff s).2 (.inr fun hw => hw 0 (Nat.lt_of_lt_of_le (by decide) hrevs) 0 hlen hn)

theorem decodeBody_mark_of_written {s : State} (hw : operandsWritten s .pllDecode) :
    (decodeBody s).uninitRead = s.uninitRead := by
  obtain ⟨e, ⟨hlen, _⟩, hm⟩ := decodeBody_mark_iff s
  refine Bool.eq_iff_iff.2 (hm.trans (or_iff_left ?_))
  rintro ⟨i, hi, hn⟩
  exact hw i (Nat.lt_of_lt_of_le hi hlen) hn

/-- A legal command whose operand cells are all written leaves the mark as it was. -/
theorem body_mark_of_written {c : Op} {s : State} (hp : s.params.wf = true)
    (hl : commandLegal s c) (hw : operandsWritten s c) :
    (c.body s).uninitRead = s.uninitRead := by
  cases c with
  | pllDecode => exact decodeBody_mark_of_written hw
  | frame => exact frameBody_mark_of_written hw
  | decodeFrame =>
    exact (decodeFrameBody_mark hp (one_le_pllMaxCells_of_legal hl)).trans
      (decodeBody_mark_of_written hw)
  | wbDetect => exact Bool.eq_iff_iff.2 ((wbBody_mark_iff s).trans (or_iff_left (not_not.2 hw)))

end Sys2Proof.Machine

namespace Sys2Proof

open Machine Claims

/-- Settles O13: each body reads from its start on without a gap, so exactly a ⊥ cell up to where it
ended sets the mark; the frame stage of DECODE_FRAME reads what the decode stage wrote. -/
theorem markFollowsUnwrittenOperands : Obligations.MarkFollowsUnwrittenOperands := by
  refine ⟨fun s => ⟨fun hl hn => ⟨?_, ?_⟩, fun hl hb hn => ?_, fun hl hn => ?_⟩,
    fun s t hl he => ?_, fun s t hl he => ?_, fun s t hl he => ?_, fun s t u hp hl ht hu => ?_,
    fun s t c hp hl hw he => ?_⟩
  · exact ⟨_, exec_of_legal (c := .pllDecode) hl, decodeBody_mark_of_first hl hn⟩
  · exact ⟨_, exec_of_legal (c := .decodeFrame) hl,
      frameBody_mark (decodeBody_mark_of_first hl hn)⟩
  · exact ⟨_, exec_of_legal (c := .frame) hl, frameBody_mark_of_first hb hn⟩
  · exact ⟨_, exec_of_legal (c := .wbDetect) hl, wbBody_mark_of_first hl hn⟩
  · rw [next_uninitRead_of_legal (c := .wbDetect) hl he]
    exact wbBody_mark_iff s
  · rw [next_uninitRead_of_legal (c := .frame) hl he]
    exact ⟨frameBody_mark_iff s, (frameStage_marks s).2.2⟩
  · rw [next_uninitRead_of_legal (c := .pllDecode) hl he]
    obtain ⟨e, ⟨hlen, hend, hovf⟩, hm⟩ := decodeBody_mark_iff s
    refine ⟨fun ho => ?_, fun ho => ⟨fun i hi hn => ?_, fun hu => ?_⟩⟩
    · rw [Op.body, hm, hend ho]
      simp only [lt_min_iff, and_assoc]
    · have := hovf ho
      exact hm.2 (.inr ⟨i, by omega, hn⟩)
    · have := hovf ho
      refine (hm.1 hu).imp_right ?_
      rintro ⟨i, hi, hn⟩
      exact ⟨i, by omega, by omega, hn⟩
  · rw [next_uninitRead_of_legal (c := .pllDecode) hl ht,
      next_uninitRead_of_legal (c := .decodeFrame) hl hu]
    exact decodeFrameBody_mark hp (one_le_pllMaxCells_of_legal hl)
  · rw [next_uninitRead_of_legal hl he]
    exact body_mark_of_written hp hl hw

end Sys2Proof

end

section
/-! PROOF. The cells a command writes in the words of the statements, and the frame of each decoding
or framing command (spec/20_memory.md R108, R121). -/

namespace Sys2Proof.Machine

open Claims (commandLegal decoded framed parsed bytesWritten wordsWritten)

/-! ## The cells a command makes -/

/-- The statements' extents of a command that will fail (spec/60_exceptions.md R413). -/
theorem bytesWritten_of_not_legal {c : Op} {s : State} (h : ¬ commandLegal s c) (b : ByteBuf) :
    bytesWritten s c b = 0 := by
  cases c <;> cases b
  case pllDecode.bitbuf => exact if_neg h
  case frame.raw => exact if_neg h
  case decodeFrame.bitbuf => exact if_neg h
  case decodeFrame.raw => exact if_neg h
  all_goals rfl

theorem wordsWritten_of_not_legal {c : Op} {s : State} (h : ¬ commandLegal s c) (b : WordBuf) :
    wordsWritten s c b = 0 := by
  cases c <;> cases b
  case frame.idam => exact if_neg h
  case frame.sect => exact if_neg h
  case decodeFrame.idam => exact if_neg h
  case decodeFrame.sect => exact if_neg h
  case wbDetect.wbrec => exact if_neg h
  case wbDetect.wbbyte => exact if_neg h
  all_goals rfl

/-- The statements' extents of a legal command are the cells its body makes
(spec/40_flux_pll.md R225, spec/41_sync_framer.md R280). -/
theorem bytesWritten_of_legal {c : Op} {s : State} (h : commandLegal s c) (b : ByteBuf) :
    bytesWritten s c b = if c.writesBytes b then bytesMade (c.body s) b else 0 := by
  cases c <;> cases b
  case pllDecode.bitbuf => exact if_pos h
  case frame.raw => exact if_pos h
  case decodeFrame.bitbuf =>
    simp only [Op.body, decodeFrameBody, bytesMade, frameBody_pll]
    exact if_pos h
  case decodeFrame.raw => exact if_pos h
  all_goals rfl

theorem wordsWritten_of_legal {c : Op} {s : State} (h : commandLegal s c) (b : WordBuf) :
    wordsWritten s c b = if c.writesWords b then wordsMade (c.body s) b else 0 := by
  cases c <;> cases b
  case frame.idam => exact if_pos h
  case frame.sect => exact if_pos h
  case decodeFrame.idam => exact if_pos h
  case decodeFrame.sect => exact if_pos h
  case wbDetect.wbrec => exact if_pos h
  case wbDetect.wbbyte => exact if_pos h
  all_goals rfl

theorem passes_iff {c : Op} {s : State} : c.passes s = true ↔ commandLegal s c := by
  rw [Op.passes, Option.isNone_iff_eq_none, check_eq_none_iff]

/-- The model's byte cells are the statements' (spec/20_memory.md R121). -/
theorem writesByteCell_iff {c : Op} {b : ByteBuf} {i : Nat} {s : State} :
    c.writesByteCell b i s = true ↔ i < bytesWritten s c b := by
  rw [Op.writesByteCell, Bool.and_eq_true, Bool.and_eq_true, passes_iff, decide_eq_true_iff]
  by_cases h : commandLegal s c
  · rw [bytesWritten_of_legal h]
    split_ifs with hb <;> simp [h, hb]
  · simp [h, bytesWritten_of_not_legal h]

/-- The model's word cells are the statements' (spec/20_memory.md R121). -/
theorem writesWordCell_iff {c : Op} {b : WordBuf} {i : Nat} {s : State} :
    c.writesWordCell b i s = true ↔ i < wordsWritten s c b := by
  rw [Op.writesWordCell, Bool.and_eq_true, Bool.and_eq_true, passes_iff, decide_eq_true_iff]
  by_cases h : commandLegal s c
  · rw [wordsWritten_of_legal h]
    split_ifs with hb <;> simp [h, hb]
  · simp [h, wordsWritten_of_not_legal h]

/-! ## What a completion leaves of the buffers -/

/-- A byte cell at or past the statements' extent is as before at the completion. -/
theorem exec_byte_kept {c : Op} {b : ByteBuf} {i : Nat} {s t : State}
    (he : exec c.instr s = .next t) (h : bytesWritten s c b ≤ i) :
    bufGet (t.mem.bytes b) i = bufGet (s.mem.bytes b) i :=
  byte_kept (Bool.eq_false_iff.2 fun hw => Nat.not_lt.2 h (writesByteCell_iff.1 hw)) he

/-- A word cell at or past the statements' extent is as before at the completion. -/
theorem exec_word_kept {c : Op} {b : WordBuf} {i : Nat} {s t : State}
    (he : exec c.instr s = .next t) (h : wordsWritten s c b ≤ i) :
    bufGet (t.mem.words b) i = bufGet (s.mem.words b) i :=
  word_kept (Bool.eq_false_iff.2 fun hw => Nat.not_lt.2 h (writesWordCell_iff.1 hw)) he

/-- A command either fails its validation or completes with success after its body
(spec/60_exceptions.md R411). -/
theorem exec_op_cases {c : Op} {s t : State} (h : exec c.instr s = .next t) :
    (∃ e, c.check s = some e ∧ t = failCommand e s) ∨
    (c.check s = none ∧ t = succeedCommand (c.body s)) := by
  rw [exec_op] at h
  obtain rfl := Host.Outcome.next.inj h
  cases c.check s with
  | some e => exact .inl ⟨e, rfl, rfl⟩
  | none => exact .inr ⟨rfl, rfl⟩

/-! ## What the bodies change -/

/-- The body of a decode changes BITBUF alone of the byte buffers. -/
theorem decodeBody_bytes {b : ByteBuf} (h : b ≠ .bitbuf) (s : State) :
    (decodeBody s).mem.bytes b = s.mem.bytes b := by
  rw [decodeBody_mem]
  cases b with
  | flux => rfl
  | bitbuf => exact absurd rfl h
  | raw => rfl
  | rev r => rfl

theorem decodeBody_words (b : WordBuf) (s : State) :
    (decodeBody s).mem.words b = s.mem.words b := by
  rw [decodeBody_mem]
  cases b <;> rfl

/-- The body of a frame changes RAW alone of the byte buffers. -/
theorem frameBody_bytes {b : ByteBuf} (h : b ≠ .raw) (s : State) :
    (frameBody s).mem.bytes b = s.mem.bytes b := by
  rw [frameBody_mem]
  cases b with
  | flux => rfl
  | bitbuf => rfl
  | raw => exact absurd rfl h
  | rev r => rfl

/-- The body of a frame changes IDAM and SECT alone of the word buffers. -/
theorem frameBody_words {b : WordBuf} (hi : b ≠ .idam) (hs : b ≠ .sect) (s : State) :
    (frameBody s).mem.words b = s.mem.words b := by
  rw [frameBody_mem]
  cases b with
  | idam => exact absurd rfl hi
  | sect => exact absurd rfl hs
  | wbrec => rfl
  | wbbyte => rfl

theorem decodeBody_eq (s : State) :
    decodeBody s
      = { s with
          regs := (decodeBody s).regs, mem := (decodeBody s).mem, pll := (decodeBody s).pll
          uninitRead := (decodeBody s).uninitRead, draws := (decodeBody s).draws } := by
  rw [decodeBody, decodeTokens, (decodeLoop_loopOnly _ (startDecode s)).eq]
  rfl

/-- The registers the body of a decode leaves (spec/40_flux_pll.md R225). -/
theorem decodeBody_regs (s : State) :
    (decodeBody s).regs
      = { s.regs with
          bitCount := BitVec.ofNat 32 (decoded s).out.length
          pllIntervals := BitVec.ofNat 32 (decoded s).nint
          tokensDropped := BitVec.ofNat 32 (decoded s).ndrop
          pllT0 := (decoded s).t0, pllPhase := (decoded s).phase, pllFreq := (decoded s).freq
          status := s.regs.status.setDecodeFlags (decoded s).ovf
            (decide (0 < (decoded s).ndrop)) } := by
  rw [decodeBody, commitDecode, decodeTokens, (decodeLoop_loopOnly _ (startDecode s)).regs]
  rfl

theorem frameBody_eq (s : State) :
    frameBody s
      = { s with
          regs := (frameBody s).regs, mem := (frameBody s).mem, framer := (frameBody s).framer
          parser := (frameBody s).parser, uninitRead := (frameBody s).uninitRead
          draws := (frameBody s).draws } := by
  rw [frameBody, (frameStage_frameOnly s).eq]
  rfl

/-- The registers the body of a frame leaves (spec/41_sync_framer.md R280). -/
theorem frameBody_regs (s : State) :
    (frameBody s).regs
      = { s.regs with
          rawLen := BitVec.ofNat 32 (framed s).raw.length
          idamCount := BitVec.ofNat 32 (framed s).idam.length
          sectorCount := BitVec.ofNat 32 (parsed s).sect.length
          crcErrors := BitVec.ofNat 32 (crcErrorCount (parsed s).sect)
          status := s.regs.status.setFrameFlags (framed s).rawOvf (framed s).capped
            (parsed s).sectCapped } := by
  rw [frameBody, commitFrame, parseStage_regs, (frameStage_frameOnly s).regs]
  rfl

theorem decodeFrameBody_eq (s : State) :
    decodeFrameBody s
      = { s with
          regs := (decodeFrameBody s).regs, mem := (decodeFrameBody s).mem
          pll := (decodeFrameBody s).pll, framer := (decodeFrameBody s).framer
          parser := (decodeFrameBody s).parser, uninitRead := (decodeFrameBody s).uninitRead
          draws := (decodeFrameBody s).draws } := by
  rw [decodeFrameBody, frameBody_eq, decodeBody_eq]

end Sys2Proof.Machine

namespace Sys2Proof

open Machine Claims

/-- Settles O38: a failed completion writes STATUS alone; a decode's body changes what R225 names,
and BITBUF as far as its stream reaches. -/
theorem pllDecodeLeavesTheRest : Obligations.PllDecodeLeavesTheRest := by
  intro s t h
  have hcells (i : Nat) : bytesWritten s .pllDecode .bitbuf ≤ i →
      bufGet t.mem.bitbuf i = bufGet s.mem.bitbuf i := exec_byte_kept (c := .pllDecode) h
  rcases exec_op_cases (c := .pllDecode) h with ⟨e, _, rfl⟩ | ⟨_, rfl⟩
  · exact ⟨rfl, rfl, rfl, fun _ _ => rfl, fun _ => rfl, hcells⟩
  · refine ⟨congrArg succeedCommand (decodeBody_eq s), ?_, ?_, fun b hb => decodeBody_bytes hb s,
      fun b => decodeBody_words b s, hcells⟩
    · rw [succeedCommand_regs, Op.body, decodeBody_regs]
    · rw [succeedCommand_regs, Op.body, decodeBody_regs]; rfl

/-- Settles O45: as for a decode, with RAW, IDAM and SECT as far as the tables of R280 reach. -/
theorem frameLeavesTheRest : Obligations.FrameLeavesTheRest := by
  intro s t h
  have hraw (i : Nat) : bytesWritten s .frame .raw ≤ i →
      bufGet t.mem.raw i = bufGet s.mem.raw i := exec_byte_kept (c := .frame) h
  have hidam (i : Nat) : wordsWritten s .frame .idam ≤ i →
      bufGet t.mem.idam i = bufGet s.mem.idam i := exec_word_kept (c := .frame) h
  have hsect (i : Nat) : wordsWritten s .frame .sect ≤ i →
      bufGet t.mem.sect i = bufGet s.mem.sect i := exec_word_kept (c := .frame) h
  rcases exec_op_cases (c := .frame) h with ⟨e, _, rfl⟩ | ⟨_, rfl⟩
  · exact ⟨rfl, rfl, rfl, fun _ _ => rfl, fun _ _ _ => rfl, hraw, hidam, hsect⟩
  · refine ⟨congrArg succeedCommand (frameBody_eq s), ?_, ?_, fun b hb => frameBody_bytes hb s,
      fun b hi hs => frameBody_words hi hs s, hraw, hidam, hsect⟩
    · rw [succeedCommand_regs, Op.body, frameBody_regs]
    · rw [succeedCommand_regs, Op.body, frameBody_regs]; rfl

/-- Settles O53: the frames of the two bodies DECODE_FRAME runs, one after the other (R290). -/
theorem decodeFrameLeavesTheRest : Obligations.DecodeFrameLeavesTheRest := by
  intro s t h
  have hbitbuf (i : Nat) : bytesWritten s .decodeFrame .bitbuf ≤ i →
      bufGet t.mem.bitbuf i = bufGet s.mem.bitbuf i := exec_byte_kept (c := .decodeFrame) h
  have hraw (i : Nat) : bytesWritten s .decodeFrame .raw ≤ i →
      bufGet t.mem.raw i = bufGet s.mem.raw i := exec_byte_kept (c := .decodeFrame) h
  have hidam (i : Nat) : wordsWritten s .decodeFrame .idam ≤ i →
      bufGet t.mem.idam i = bufGet s.mem.idam i := exec_word_kept (c := .decodeFrame) h
  have hsect (i : Nat) : wordsWritten s .decodeFrame .sect ≤ i →
      bufGet t.mem.sect i = bufGet s.mem.sect i := exec_word_kept (c := .decodeFrame) h
  rcases exec_op_cases (c := .decodeFrame) h with ⟨e, _, rfl⟩ | ⟨_, rfl⟩
  · exact ⟨rfl, rfl, rfl, rfl, fun _ _ _ => rfl, fun _ _ _ => rfl, hbitbuf, hraw, hidam, hsect⟩
  · have hregs : (decodeFrameBody s).regs = (frameBody (decodeBody s)).regs := rfl
    rw [frameBody_regs, decodeBody_regs] at hregs
    refine ⟨congrArg succeedCommand (decodeFrameBody_eq s), ?_, ?_, ?_,
      fun b hb hr => (frameBody_bytes hr _).trans (decodeBody_bytes hb s),
      fun b hi hs => (frameBody_words hi hs _).trans (decodeBody_words b s),
      hbitbuf, hraw, hidam, hsect⟩
    · rw [succeedCommand_regs, Op.body, hregs]
    · rw [succeedCommand_regs, Op.body, hregs]; rfl
    · rw [succeedCommand_regs, Op.body, hregs]; rfl

end Sys2Proof

end

section
/-! PROOF. Host accesses: what a buffer access does in and out of range, that a read leaves the
block as it was, and that a step gives a next state but where a register access has a form R115
refuses (spec/20_memory.md R102 to R107, R115, R117). -/

namespace Sys2Proof.Machine

open Claims (legalOffset bytesWritten wordsWritten)

/-! ## Buffer reads -/

/-- Whether the running command writes a byte cell, in the words of the statements. -/
theorem writingByte_iff {s : State} {b : ByteBuf} {i : Nat} :
    s.writingByte b i = true ↔ ∃ c, s.eng = .busy c ∧ i < bytesWritten s c b := by
  unfold State.writingByte
  split
  · next he => simp [he]
  · next c he => simp [he, writesByteCell_iff]

/-- Whether the running command writes a word cell, in the words of the statements. -/
theorem writingWord_iff {s : State} {b : WordBuf} {i : Nat} :
    s.writingWord b i = true ↔ ∃ c, s.eng = .busy c ∧ i < wordsWritten s c b := by
  unfold State.writingWord
  split
  · next he => simp [he]
  · next c he => simp [he, writesWordCell_iff]

theorem writingByte_eq_false {s : State} {b : ByteBuf} {i : Nat}
    (h : ∀ c, s.eng = .busy c → bytesWritten s c b ≤ i) : s.writingByte b i = false := by
  rw [Bool.eq_false_iff, ne_eq, writingByte_iff]
  rintro ⟨c, he, hi⟩
  exact Nat.not_lt.2 (h c he) hi

theorem writingWord_eq_false {s : State} {b : WordBuf} {i : Nat}
    (h : ∀ c, s.eng = .busy c → wordsWritten s c b ≤ i) : s.writingWord b i = false := by
  rw [Bool.eq_false_iff, ne_eq, writingWord_iff]
  rintro ⟨c, he, hi⟩
  exact Nat.not_lt.2 (h c he) hi

theorem readByteCell_outOfRange {b : ByteBuf} {i : Nat} {s : State} (h : b.cells s.params ≤ i) :
    readByteCell b i s = (0, s) := if_pos h

theorem readWordCell_outOfRange {b : WordBuf} {i : Nat} {s : State} (h : b.cells s.params ≤ i) :
    readWordCell b i s = (0, s) := if_pos h

theorem readByteCell_written {b : ByteBuf} {i : Nat} {s : State} {v : Byte}
    (hi : i < b.cells s.params) (hw : s.writingByte b i = false)
    (hv : bufGet (s.mem.bytes b) i = some v) : readByteCell b i s = (v, s) := by
  simp [readByteCell, Nat.not_le.2 hi, hw, hv]

theorem readWordCell_written {b : WordBuf} {i : Nat} {s : State} {v : Word}
    (hi : i < b.cells s.params) (hw : s.writingWord b i = false)
    (hv : bufGet (s.mem.words b) i = some v) : readWordCell b i s = (v, s) := by
  simp [readWordCell, Nat.not_le.2 hi, hw, hv]

/-- A cell the running command writes, or a ⊥ cell, reads as any value (spec/20_memory.md R106). -/
theorem readByteCell_free {b : ByteBuf} {i : Nat} {s : State} (hi : i < b.cells s.params)
    (h : s.writingByte b i = true ∨ bufGet (s.mem.bytes b) i = none) :
    readByteCell b i s = drawByte s := by
  rcases h with h | h <;> simp [readByteCell, Nat.not_le.2 hi, h]

theorem readWordCell_free {b : WordBuf} {i : Nat} {s : State} (hi : i < b.cells s.params)
    (h : s.writingWord b i = true ∨ bufGet (s.mem.words b) i = none) :
    readWordCell b i s = drawWord s := by
  rcases h with h | h <;> simp [readWordCell, Nat.not_le.2 hi, h]

/-! ## Buffer writes -/

theorem writeByteCell_outOfRange {b : ByteBuf} {i : Nat} {s : State} (h : b.cells s.params ≤ i)
    (v : Byte) : writeByteCell b i v s = s := if_pos h

theorem writeByteCell_of_not_writable {b : ByteBuf} (h : b.hostWritable = false) (i : Nat)
    (v : Byte) (s : State) : writeByteCell b i v s = s := by simp [writeByteCell, h]

theorem writeByteCell_busy {b : ByteBuf} {i : Nat} {s : State} {c : Op} (hi : i < b.cells s.params)
    (hb : b.hostWritable = true) (hs : s.eng = .busy c) (v : Byte) :
    writeByteCell b i v s = rejectWrite s := by
  simp [writeByteCell, Nat.not_le.2 hi, hb, State.busy, hs]

theorem writeByteCell_idle {b : ByteBuf} {i : Nat} {s : State} (hi : i < b.cells s.params)
    (hb : b.hostWritable = true) (hs : s.eng = .idle) (v : Byte) :
    writeByteCell b i v s
      = { s with mem := s.mem.setBytes b (bufSet (s.mem.bytes b) i v) } := by
  simp [writeByteCell, Nat.not_le.2 hi, hb, State.busy, hs]

theorem hostWritable_of_mem_hostRw {b : ByteBuf} (h : b ∈ Claims.hostRw) :
    b.hostWritable = true := by
  cases b with
  | flux => rfl
  | bitbuf => rfl
  | raw => simp [Claims.hostRw] at h
  | rev r => rfl

@[simp] theorem setBytes_bytes_same (m : Memory) (b : ByteBuf) (x : Buf 8) :
    (m.setBytes b x).bytes b = x := by
  cases b with
  | flux => rfl
  | bitbuf => rfl
  | raw => rfl
  | rev r => simp [Memory.setBytes, Memory.bytes]

theorem setBytes_bytes_other (m : Memory) {b b' : ByteBuf} (h : b' ≠ b) (x : Buf 8) :
    (m.setBytes b x).bytes b' = m.bytes b' := by
  cases b <;> cases b'
  case flux.flux => exact absurd rfl h
  case bitbuf.bitbuf => exact absurd rfl h
  case raw.raw => exact absurd rfl h
  case rev.rev r r' =>
    have hr : r.val ≠ r'.val := fun e => h (by rw [Fin.ext e])
    simp [Memory.setBytes, Memory.bytes, Vector.getElem_set_ne, hr]
  all_goals rfl

@[simp] theorem setBytes_words (m : Memory) (b : ByteBuf) (x : Buf 8) (b' : WordBuf) :
    (m.setBytes b x).words b' = m.words b' := by
  cases b <;> rfl

/-- A cell set in one byte buffer leaves every other cell of every byte buffer
(spec/20_memory.md R101). -/
theorem setBytes_bufSet_other (m : Memory) {b b' : ByteBuf} {i j : Nat} (h : (b', j) ≠ (b, i))
    (v : Byte) :
    bufGet ((m.setBytes b (bufSet (m.bytes b) i v)).bytes b') j = bufGet (m.bytes b') j := by
  by_cases hb : b' = b
  · subst hb
    rw [setBytes_bytes_same, bufGet_bufSet_other _ _ fun hj => h (by rw [hj])]
  · rw [setBytes_bytes_other m hb]

/-! ## Replies -/

/-- A reply after a read that moved only the host's draws logs one value more and changes no state
of the block. -/
theorem reply_sparesBlock {s u : State} (h : u = { s with hostDraws := u.hostDraws }) (a : Reply) :
    u.reply a = { s with returned := (u.reply a).returned, hostDraws := (u.reply a).hostDraws } ∧
    ∃ a', (u.reply a).returned = a' :: s.returned := by
  rw [h]
  exact ⟨rfl, a, rfl⟩

/-! ## Next states and refusals -/

theorem checkedAccess_refused {offset : Fin 256} {width : Nat}
    (h : width ≠ 32 ∨ ¬ legalOffset offset) (t : State) :
    checkedAccess offset width t = .refused (.registerAccessForm offset width) := if_pos h

/-- Every register access of a form R115 allows, and every other access, gives a next state. -/
theorem hostAccess_next_or_refused (op : HostOp) (s : State) :
    (∃ t, hostAccess op s = .next t) ∨
    ∃ (offset : Fin 256) (width : Nat), (width ≠ 32 ∨ ¬ legalOffset offset) ∧
      (op = .regRead offset width ∨ ∃ v, op = .regWrite offset width v) ∧
      hostAccess op s = .refused (.registerAccessForm offset width) := by
  cases op with
  | regRead offset width =>
    by_cases h : width ≠ 32 ∨ ¬ legalOffset offset
    · exact .inr ⟨offset, width, h, .inl rfl, checkedAccess_refused h _⟩
    · exact .inl ⟨_, if_neg h⟩
  | regWrite offset width v =>
    by_cases h : width ≠ 32 ∨ ¬ legalOffset offset
    · exact .inr ⟨offset, width, h, .inr ⟨v, rfl⟩, checkedAccess_refused h _⟩
    · exact .inl ⟨_, if_neg h⟩
  | byteRead b i => exact .inl ⟨_, rfl⟩
  | byteWrite b i v => exact .inl ⟨_, rfl⟩
  | wordRead b i => exact .inl ⟨_, rfl⟩
  | wordWrite b i v => exact .inl ⟨_, rfl⟩
  | wait => exact .inl ⟨_, rfl⟩
  | hardReset => exact .inl ⟨_, rfl⟩

/-- Every instruction has a meaning that gives a next state. -/
theorem exec_next (i : Instr) (s : State) : ∃ t, exec i s = .next t := by
  cases i <;> exact ⟨_, rfl⟩

theorem tokenStep_next (s : State) : ∃ t, tokenStep s = .next t := by
  unfold tokenStep
  split_ifs
  · exact ⟨_, rfl⟩
  · rcases fetchToken s with ⟨f, u⟩
    cases f with
    | stop => exact ⟨_, rfl⟩
    | trunc => exact ⟨_, rfl⟩
    | token i => exact exec_next i u

/-- The access a step makes is the host's next one. -/
theorem pending_of_nextMove_access {s t : State} {op : HostOp} (h : nextMove s = .access op t) :
    ∃ rest, s.pending = op :: rest := by
  unfold nextMove at h
  split_ifs at h
  split at h <;> simp only [Move.access.injEq, reduceCtorEq] at h
  · next rest _ hp => exact ⟨rest, by rw [hp, h.1]⟩
  · next rest _ _ hp _ => exact ⟨rest, by rw [hp, h.1]⟩

end Sys2Proof.Machine

namespace Sys2Proof

open Machine Claims

/-- Settles O10: the busy window frees the cells the running command writes and no other. -/
theorem bufferReadReturnsItsCell : Obligations.BufferReadReturnsItsCell := by
  refine ⟨fun s b i hi => ⟨fun v hw hv => ?_, fun h => ⟨(drawByte s).1, ?_⟩⟩,
    fun s b i hi => ⟨fun v hw hv => ?_, fun h => ⟨(drawWord s).1, ?_⟩⟩⟩
  · rw [hostAccess, readByteCell_written hi (writingByte_eq_false hw) hv, State.reply]
  · rw [hostAccess, readByteCell_free hi (h.imp_left writingByte_iff.2)]; rfl
  · rw [hostAccess, readWordCell_written hi (writingWord_eq_false hw) hv, State.reply]
  · rw [hostAccess, readWordCell_free hi (h.imp_left writingWord_iff.2)]; rfl

/-- Settles O11: the write sets its cell, is rejected, or meets a host-RO buffer. -/
theorem bufferWriteLandsInItsCell : Obligations.BufferWriteLandsInItsCell := by
  refine ⟨fun s b i v hi => ⟨fun hrw hs => ?_, fun hrw c hs => ?_, fun hraw => ?_⟩,
    fun s b i v _ => rfl⟩
  · have hwrite := writeByteCell_idle hi (hostWritable_of_mem_hostRw hrw) hs v
    refine ⟨_, congrArg Host.Outcome.next hwrite, ?_,
      fun b' j hne => setBytes_bufSet_other s.mem hne v, fun w => setBytes_words .., rfl⟩
    rw [setBytes_bytes_same, bufGet_bufSet_same]
  · exact congrArg Host.Outcome.next (writeByteCell_busy hi (hostWritable_of_mem_hostRw hrw) hs v)
  · exact congrArg Host.Outcome.next (writeByteCell_of_not_writable (by rw [hraw]; rfl) i v s)

/-- Settles O12: the range test comes before every other. -/
theorem outOfRangeBufferAccessIsInert : Obligations.OutOfRangeBufferAccessIsInert := by
  refine ⟨fun s b i v hi => ⟨?_, congrArg Host.Outcome.next (writeByteCell_outOfRange hi v)⟩,
    fun s b i v hi => ⟨?_, rfl⟩⟩
  · rw [hostAccess, readByteCell_outOfRange hi, State.reply]
  · rw [hostAccess, readWordCell_outOfRange hi, State.reply]

/-- Settles O8: each read moves at most the host's draws, and its reply is logged. -/
theorem hostReadsHaveNoSideEffect : Obligations.HostReadsHaveNoSideEffect := by
  rintro s t op (⟨offset, width, rfl⟩ | ⟨b, i, rfl⟩ | ⟨b, i, rfl⟩) h
  · rw [checkedAccess_next h]
    exact reply_sparesBlock (readOffset_eq offset s) _
  · rw [← Host.Outcome.next.inj h]
    exact reply_sparesBlock (readByteCell_eq b i s) _
  · rw [← Host.Outcome.next.inj h]
    exact reply_sparesBlock (readWordCell_eq b i s) _

/-- Settles O3: of all a step may do, only a register access can be refused. -/
theorem misalignedOrNarrowAccessIsRefused : Obligations.MisalignedOrNarrowAccessIsRefused := by
  refine ⟨fun s offset width v h => ⟨checkedAccess_refused h _, checkedAccess_refused h _⟩,
    fun s offset v h => ⟨⟨_, hostAccess_regRead h s⟩, ⟨_, hostAccess_regWrite h v s⟩⟩,
    fun s b i v => ⟨⟨_, rfl⟩, ⟨_, rfl⟩⟩, fun s b i v => ⟨⟨_, rfl⟩, ⟨_, rfl⟩⟩, fun s => ?_⟩
  unfold step
  cases hm : nextMove s with
  | token => exact .inl (tokenStep_next s)
  | command i u => exact .inl (exec_next i u)
  | access op u =>
    obtain ⟨rest, hp⟩ := pending_of_nextMove_access hm
    refine (hostAccess_next_or_refused op u).imp_right ?_
    rintro ⟨offset, width, hform, hop, href⟩
    exact ⟨offset, width, rest, hform, by simpa [hp] using hop, href⟩
  | rest => exact .inl ⟨s, rfl⟩

end Sys2Proof

end

section
/-! PROOF. The register map read and written: what each offset reads while idle and while a command
runs, and that a stored register reads back (spec/10_state.md R33 to R62, spec/20_memory.md R102,
R103, R121). -/

namespace Sys2Proof.Machine

open Claims (reads namedOffsets registerTable rwRegisters registersWritten ownedFlags commandLegal)

/-! ## Words and halves -/

/-- TRACK_INFO as a number (spec/10_state.md R38). -/
theorem trackInfo_eq_ofNat (hd tr : Byte) :
    0#16 ++ hd ++ tr = BitVec.ofNat 32 (tr.toNat + 256 * hd.toNat) := by
  apply BitVec.eq_of_toNat_eq
  have hhd := hd.isLt
  have htr := tr.isLt
  rw [BitVec.toNat_append, BitVec.toNat_append, ← Nat.shiftLeft_add_eq_or_of_lt htr]
  simp [Nat.shiftLeft_eq]
  omega

@[simp] theorem loHalf_setLo (x : BitVec 64) (v : Word) : loHalf (setLo x v) = v :=
  BitVec.setWidth_append_eq_right

theorem loHalf_eq_extract (x : BitVec 64) : loHalf x = x.extractLsb' 0 32 :=
  BitVec.setWidth_eq_extractLsb' (by decide)

theorem hiHalf_eq_extract (x : BitVec 64) : hiHalf x = x.extractLsb' 32 32 :=
  BitVec.setWidth_ushiftRight_eq_extractLsb

@[simp] theorem hiHalf_setHi (x : BitVec 64) (v : Word) : hiHalf (setHi x v) = v :=
  (hiHalf_eq_extract _).trans BitVec.extractLsb'_append_eq_left

@[simp] theorem hiHalf_setLo (x : BitVec 64) (v : Word) : hiHalf (setLo x v) = hiHalf x :=
  (hiHalf_eq_extract _).trans BitVec.extractLsb'_append_eq_left

@[simp] theorem loHalf_setHi (x : BitVec 64) (v : Word) : loHalf (setHi x v) = loHalf x :=
  BitVec.setWidth_append_eq_right

theorem setWidth_setWidth_eq_and {k : Nat} (hk : k ≤ 32) (v : Word) :
    (v.setWidth k).setWidth 32 = v &&& BitVec.ofNat 32 (2 ^ k - 1) := by
  have hpow : 2 ^ k ≤ 2 ^ 32 := Nat.pow_le_pow_right (by decide) hk
  have hpos : 0 < 2 ^ k := by positivity
  apply BitVec.eq_of_toNat_eq
  have hmod : v.toNat % 2 ^ k < 2 ^ 32 := (Nat.mod_lt _ hpos).trans_le hpow
  rw [BitVec.toNat_and, BitVec.toNat_ofNat, Nat.mod_eq_of_lt (by omega : 2 ^ k - 1 < 2 ^ 32),
    Nat.and_two_pow_sub_one_eq_mod, BitVec.toNat_setWidth, BitVec.toNat_setWidth,
    Nat.mod_eq_of_lt hmod]

theorem trackInfo_stored (v : Word) :
    0#16 ++ (v >>> 8).setWidth 8 ++ v.setWidth 8 = v &&& 0x0000FFFF := by
  rw [trackInfo_eq_ofNat]
  refine Eq.trans ?_ (setWidth_setWidth_eq_and (k := 16) (by decide) v)
  apply BitVec.eq_of_toNat_eq
  simp [Nat.shiftRight_eq_div_pow]
  omega

/-! ## Offsets and registers -/

theorem named_of_regAt : ∀ offset : Fin 256, regAt offset ≠ none → offset ∈ namedOffsets := by
  decide +kernel

/-- No two offsets name one register. -/
theorem regAt_injective {a b : Fin 256} {g : Reg} (ha : regAt a = some g) (hb : regAt b = some g) :
    a = b := by
  have hnodup : (namedOffsets.map fun offset => regAt offset.val).Nodup := by decide +kernel
  exact List.inj_on_of_nodup_map hnodup (named_of_regAt a (by simp [ha]))
    (named_of_regAt b (by simp [hb])) (ha.trans hb.symm)

theorem regAt_ne_status {offset : Fin 256} {g : Reg} (h : offset ≠ 0x004)
    (hg : regAt offset = some g) : g ≠ .status := by
  rintro rfl
  exact h (regAt_injective hg rfl)

/-- The statements' result registers are the model's (spec/40_flux_pll.md R225,
spec/41_sync_framer.md R280, spec/42_weakbit.md R343). -/
theorem mem_registersWritten_iff (c : Op) :
    ∀ offset : Fin 256,
      offset ∈ registersWritten c ↔ ∃ g ∈ c.resultRegs, regAt offset = some g := by
  cases c <;> decide +kernel

/-! ## Idle reads (R33 to R62) -/

theorem reads_registerTable {s : State} (hs : s.eng = .idle) :
    ∀ p ∈ registerTable s.regs, reads s p.1 = p.2 := by
  simp only [registerTable, ← loHalf_eq_extract, ← hiHalf_eq_extract, ← trackInfo_eq_ofNat,
    BitVec.ofNat_toNat, List.forall_mem_append, List.forall_mem_cons]
  and_intros
  any_goals exact (reads_of_idle rfl hs).trans rfl
  all_goals exact List.forall_mem_nil _

/-- Where the fields of CTRL stand (spec/10_state.md R33). -/
theorem toNat_ctrlWord (c : Ctrl) :
    (ctrlWord c).toNat = c.encoding.toNat + 256 * c.wbByteLevel.toNat + 512 * c.wbPattern.toNat
      + 65536 * c.irqEn.toNat := by
  have henc : LowBits (c.encoding.setWidth 32) 2 c.encoding.toNat :=
    ⟨BitVec.toNat_setWidth_of_le (by decide), c.encoding.isLt⟩
  have hctrl := ((henc.or_bitAt c.wbByteLevel (m := 8) (by decide) (by decide)).or_bitAt
    c.wbPattern (m := 9) (by decide) (by decide)).or_bitAt c.irqEn (m := 16) (by decide) (by decide)
  exact hctrl.1

/-! ## Stores (R103) -/

theorem bitAt_getLsbD (v : Word) (n : Nat) : bitAt (v.getLsbD n) n = v &&& 1#32 <<< n :=
  (BitVec.and_twoPow v n).symm

/-- A stored CTRL word reads back in its defined bits. -/
theorem ctrlWord_ctrlOfWord (v : Word) : ctrlWord (ctrlOfWord v) = v &&& 0x00010303 := by
  rw [ctrlWord, ctrlOfWord, setWidth_setWidth_eq_and (by decide), bitAt_getLsbD, bitAt_getLsbD,
    bitAt_getLsbD, ← BitVec.and_or_distrib_left, ← BitVec.and_or_distrib_left,
    ← BitVec.and_or_distrib_left]
  rfl

/-- A store changes one field, which its register alone reads; of an f64 it keeps the other half. -/
theorem regValue_store_other {g g' : Reg} (h : g' ≠ g) (v : Word) (s : State) :
    regValue { s with regs := s.regs.store g v } g' = regValue s g' := by
  cases g
  case phaseGainLo | freqGainLo | fminRatioLo | fmaxRatioLo =>
    cases g' <;> try rfl
    · exact absurd rfl h
    · exact hiHalf_setLo _ _
  case phaseGainHi | freqGainHi | fminRatioHi | fmaxRatioHi =>
    cases g' <;> try rfl
    · exact loHalf_setHi _ _
    · exact absurd rfl h
  case sampleFreq | fluxLen | bitCount | trackInfo | wbLength | wbRevs | wbThreshold |
      pllMaxCells | cellRateFm | cellRateMfm =>
    cases g' <;> try rfl
    exact absurd rfl h
  all_goals rfl

/-- The RW register at an offset reads back, of a word stored in it, the bits of a mask. -/
def ReadsBack (p : Fin 256 × Word) : Prop :=
  p.1.val % 4 = 0 ∧ ∃ g, regAt p.1 = some g ∧ g.access = .rw ∧
    ∀ (v : Word) (s : State), regValue { s with regs := s.regs.store g v } g = v &&& p.2

section
variable {offset : Fin 256} {g : Reg} (hlegal : offset.val % 4 = 0) (ho : regAt offset = some g)
  (ha : g.access = .rw)
include hlegal ho ha

theorem readsBack_word
    (h : ∀ (v : Word) (s : State), regValue { s with regs := s.regs.store g v } g = v) :
    ReadsBack (offset, 0xFFFFFFFF) :=
  ⟨hlegal, g, ho, ha, fun v s => (h v s).trans BitVec.and_allOnes.symm⟩

theorem readsBack_byte
    (h : ∀ (v : Word) (s : State),
      regValue { s with regs := s.regs.store g v } g = (v.setWidth 8).setWidth 32) :
    ReadsBack (offset, 0x000000FF) :=
  ⟨hlegal, g, ho, ha, fun v s => (h v s).trans (setWidth_setWidth_eq_and (by decide) v)⟩

end

theorem rwRegisters_readBack : ∀ p ∈ rwRegisters, ReadsBack p := by
  simp only [rwRegisters, List.cons_append, List.nil_append, List.forall_mem_cons]
  exact ⟨readsBack_word (g := .sampleFreq) rfl rfl rfl fun _ _ => rfl,
    readsBack_word (g := .fluxLen) rfl rfl rfl fun _ _ => rfl,
    readsBack_word (g := .bitCount) rfl rfl rfl fun _ _ => rfl,
    ⟨rfl, .trackInfo, rfl, rfl, fun v _ => trackInfo_stored v⟩,
    readsBack_word (g := .wbLength) rfl rfl rfl fun _ _ => rfl,
    readsBack_byte (g := .wbRevs) rfl rfl rfl fun _ _ => rfl,
    readsBack_byte (g := .wbThreshold) rfl rfl rfl fun _ _ => rfl,
    readsBack_byte (g := .pllMaxCells) rfl rfl rfl fun _ _ => rfl,
    readsBack_word (g := .cellRateFm) rfl rfl rfl fun _ _ => rfl,
    readsBack_word (g := .cellRateMfm) rfl rfl rfl fun _ _ => rfl,
    readsBack_word (g := .phaseGainLo) rfl rfl rfl fun _ _ => loHalf_setLo _ _,
    readsBack_word (g := .phaseGainHi) rfl rfl rfl fun _ _ => hiHalf_setHi _ _,
    readsBack_word (g := .freqGainLo) rfl rfl rfl fun _ _ => loHalf_setLo _ _,
    readsBack_word (g := .freqGainHi) rfl rfl rfl fun _ _ => hiHalf_setHi _ _,
    readsBack_word (g := .fminRatioLo) rfl rfl rfl fun _ _ => loHalf_setLo _ _,
    readsBack_word (g := .fminRatioHi) rfl rfl rfl fun _ _ => hiHalf_setHi _ _,
    readsBack_word (g := .fmaxRatioLo) rfl rfl rfl fun _ _ => loHalf_setLo _ _,
    readsBack_word (g := .fmaxRatioHi) rfl rfl rfl fun _ _ => hiHalf_setHi _ _,
    List.forall_mem_nil _⟩

/-- No other register reads a field of CTRL. -/
theorem regValue_withCtrl {g : Reg} (h : g ≠ .ctrl) (c : Ctrl) (s : State) :
    regValue { s with regs := { s.regs with ctrl := c } } g = regValue s g := by
  cases g <;> try rfl
  exact absurd rfl h

theorem writeOffset_ctrl_idle {s : State} {v : Word} (hs : s.eng = .idle)
    (hv : v.getLsbD 31 = false) :
    writeOffset 0x008 v s = { s with regs := { s.regs with ctrl := ctrlOfWord v } } := by
  simp only [writeOffset_of_ctrl (offset := 0x008) rfl, writeCtrl, State.busy, hs, hv,
    Bool.false_eq_true, if_false]

theorem writeOffset_rw_idle {s : State} {offset : Nat} {g : Reg} (hs : s.eng = .idle)
    (ho : regAt offset = some g) (ha : g.access = .rw) (v : Word) :
    writeOffset offset v s = { s with regs := s.regs.store g v } := by
  simp [writeOffset_of_regAt ho, writeReg, ha, State.busy, hs]

/-- A write to an idle block that changes no other register's value reads back and spares the
rest. -/
theorem regWrite_readsBack {s : State} {offset : Fin 256} {g : Reg} {v m : Word} {r : Regs}
    (hs : s.eng = .idle) (hlegal : offset.val % 4 = 0) (ho : regAt offset = some g)
    (hwrite : writeOffset offset v s = { s with regs := r })
    (hsame : regValue { s with regs := r } g = v &&& m)
    (hother : ∀ g', g' ≠ g → regValue { s with regs := r } g' = regValue s g') :
    ∃ t, hostAccess (.regWrite offset 32 v) s = .next t ∧ reads t offset = v &&& m ∧
      (∀ a, a ≠ offset → reads t a = reads s a) ∧ t = { s with regs := t.regs } := by
  have ht : ({ s with regs := r } : State).eng = .idle := hs
  refine ⟨{ s with regs := r }, ?_, ?_, fun a hne => ?_, rfl⟩
  · rw [hostAccess_regWrite hlegal, hwrite]
  · exact (reads_of_idle ho ht).trans hsame
  · cases hg : regAt a with
    | none => rw [reads, readOffset_of_reserved hg, reads, readOffset_of_reserved hg]
    | some g' =>
      rw [reads_of_idle hg ht, reads_of_idle hg hs]
      exact hother g' fun e => hne (regAt_injective hg (e ▸ ho))

/-! ## The busy window (R102, R121) -/

/-- Only STATUS shows whether the engine is busy. -/
theorem regValue_idle {g : Reg} (h : g ≠ .status) (s : State) :
    regValue { s with eng := .idle } g = regValue s g := by
  cases g <;> try rfl
  exact absurd rfl h

section
variable {s : State} {c : Op} (hs : s.eng = .busy c)
include hs

theorem readOffset_busy {offset : Nat} {g : Reg} (ho : regAt offset = some g) :
    readOffset offset s = busyRegRead c g s := by
  rw [readOffset_of_regAt ho, readReg, hs]

/-- A register the running command does not write, or will not for its validation fails, reads as
from the idle block. -/
theorem readOffset_busy_kept {offset : Fin 256} (hst : offset ≠ 0x004)
    (h : offset ∉ registersWritten c ∨ ¬ commandLegal s c) :
    readOffset offset s = (reads { s with eng := .idle } offset, s) := by
  cases hg : regAt offset with
  | none => rw [readOffset_of_reserved hg, reads, readOffset_of_reserved hg]
  | some g =>
    have hgs := regAt_ne_status hst hg
    have hkept : (c.passes s && decide (g ∈ c.resultRegs)) = false := by
      rw [Bool.eq_false_iff, ne_eq, Bool.and_eq_true, passes_iff, decide_eq_true_iff]
      rintro ⟨hl, hr⟩
      exact h.elim (· ((mem_registersWritten_iff c offset).2 ⟨g, hr, hg⟩)) (· hl)
    rw [readOffset_busy hs hg, reads_of_idle hg rfl, regValue_idle hgs]
    simp [busyRegRead, hgs, hkept]

/-- A register a legal running command writes reads as any value. -/
theorem readOffset_busy_free {offset : Fin 256} (h : offset ∈ registersWritten c)
    (hl : commandLegal s c) : readOffset offset s = drawWord s := by
  obtain ⟨g, hr, hg⟩ := (mem_registersWritten_iff c offset).1 h
  have hgs : g ≠ .status := by
    rintro rfl
    revert hr
    cases c <;> decide
  simp [readOffset_busy hs hg, busyRegRead, hgs, passes_iff.2 hl, hr]

/-- A busy STATUS reads BUSY 1 over the idle block's word. -/
theorem regValue_status_busy :
    regValue s .status = 0x00000001 ||| reads { s with eng := .idle } 0x004 := by
  rw [reads_status_of_idle rfl]
  simp [regValue, statusWord, State.busy, hs, bitAt, BitVec.or_assoc]

end

/-- The STATUS bits a legal command writes: ERR, ERRCODE and the flags it owns
(spec/60_exceptions.md R412). -/
theorem writtenStatus_of_legal {c : Op} {s : State} (h : commandLegal s c) :
    c.writtenStatus s = 0x000000F4 ||| ownedFlags c := by
  rw [Op.writtenStatus, if_pos (passes_iff.2 h)]
  cases c <;> rfl

theorem writtenStatus_of_not_legal {c : Op} {s : State} (h : ¬ commandLegal s c) :
    c.writtenStatus s = 0x000000F4 := if_neg fun hp => h (passes_iff.1 hp)

/-- Outside the bits freed, a word reads its value. -/
theorem freed_and_not (x d w : Word) : ((x &&& ~~~w) ||| (d &&& w)) &&& ~~~w = x &&& ~~~w := by
  rw [BitVec.and_or_distrib_right, BitVec.and_assoc, BitVec.and_self, BitVec.and_assoc,
    BitVec.and_not_self]
  simp

end Sys2Proof.Machine

namespace Sys2Proof

open Machine Claims

/-- Settles O6: each offset names one register, and a write stores the field that register reads. -/
theorem storedRegisterReadsBack : Obligations.StoredRegisterReadsBack := by
  refine ⟨fun s hs => ⟨reads_registerTable hs, ?_⟩,
    fun s v hs hv => ⟨{ s with regs := { s.regs with ctrl := ctrlOfWord v } }, ?_, ?_⟩,
    fun s v hs p hp hbit => ?_⟩
  · rw [reads_of_idle (g := .ctrl) rfl hs]
    exact toNat_ctrlWord _
  · rw [hostAccess_regWrite (by decide)]
    exact congrArg Host.Outcome.next (writeOffset_ctrl_idle hs hv)
  · show ctrlOfWord v = _
    rw [ctrlOfWord, BitVec.setWidth_eq_extractLsb' (by decide)]
  · rcases List.mem_cons.1 hp with rfl | hrw
    · exact regWrite_readsBack (g := .ctrl) hs rfl rfl (writeOffset_ctrl_idle hs (hbit rfl))
        (ctrlWord_ctrlOfWord v) fun g' hne => regValue_withCtrl hne _ s
    · obtain ⟨hlegal, g, ho, ha, hsame⟩ := rwRegisters_readBack p hrw
      exact regWrite_readsBack hs hlegal ho (writeOffset_rw_idle hs ho ha v) (hsame v s)
        fun g' hne => regValue_store_other hne v s

/-- Settles O9: the busy window frees what the running command writes and no other. -/
theorem busyWindowSparesOtherRegisters : Obligations.BusyWindowSparesOtherRegisters := by
  intro s c offset hs hlegal
  rw [hostAccess_regRead hlegal]
  refine ⟨fun hst h => ?_, fun h hl => ⟨(drawWord s).1, ?_⟩, ?_⟩
  · rw [readOffset_busy_kept hs hst h, State.reply]
  · rw [readOffset_busy_free hs h hl]; rfl
  · rintro rfl
    refine ⟨(busyRegRead c .status s).1, c.writtenStatus s, ?_, writtenStatus_of_legal,
      writtenStatus_of_not_legal, ?_⟩
    · rw [readOffset_busy hs rfl]; rfl
    · rw [← regValue_status_busy hs]
      exact freed_and_not _ _ _

end Sys2Proof

end

section
/-! PROOF. Decoding and encoding: the command map, the token syntax one form at a time, and that
each undoes the other (spec/30_encoding.md R141 to R144, R150 to R155). -/

namespace Sys2Proof.Machine

open Claims (illegalWord tokenBytes isToken)

/-! ## Command words (R141 to R144) -/

theorem illegalWord_iff {w : Word} : illegalWord w ↔ w ≠ 1 ∧ w ≠ 2 ∧ w ≠ 3 ∧ w ≠ 4 := by
  unfold illegalWord
  constructor <;> bv_omega

theorem decodeCommand_of_illegalWord {w : Word} (h : illegalWord w) :
    decodeCommand w = .error (.illegalCommand w) := by
  obtain ⟨h1, h2, h3, h4⟩ := illegalWord_iff.1 h
  exact (if_neg h1).trans ((if_neg h2).trans ((if_neg h3).trans (if_neg h4)))

/-! ## Tokens (R150 to R155) -/

section
variable {b n : Byte} (rest : List Byte)

theorem decodeToken_lit (hb : b.toNat ≤ 249) : decodeToken (b :: rest) = .ok (.tokLit b, rest) :=
  (decodeToken.eq_def _).trans (if_pos hb)

theorem decodeToken_esc8 (hlo : 250 ≤ b.toNat) (hhi : b.toNat ≤ 254) :
    decodeToken (b :: n :: rest) = .ok (.tokEsc8 b n, rest) :=
  (decodeToken.eq_def _).trans ((if_neg (by omega)).trans (if_pos hhi))

theorem decodeToken_escUndef (hn : n ≠ 0xFF#8) :
    decodeToken (0xFF :: n :: rest) = .ok (.tokEscUndef n, rest) :=
  (decodeToken.eq_def _).trans (if_pos hn)

theorem decodeToken_esc24 (b0 b1 b2 : Byte) :
    decodeToken (0xFF :: 0xFF :: b0 :: b1 :: b2 :: rest) = .ok (.tokEsc24 b0 b1 b2, rest) := rfl

/-- A token of more than one byte whose first byte is the last (R155). -/
theorem decodeToken_of_escape_last (hb : ¬ b.toNat ≤ 249) :
    decodeToken [b] = .error .truncatedToken :=
  (decodeToken.eq_def _).trans (if_neg hb)

/-- An ESC24 with fewer than three value bytes left (R155). -/
theorem decodeToken_of_esc24_short {rest : List Byte}
    (h : ∀ b0 b1 b2 after, rest ≠ b0 :: b1 :: b2 :: after) :
    decodeToken (0xFF :: 0xFF :: rest) = .error .truncatedToken := by
  match rest with
  | [] | [_] | [_, _] => rfl
  | b0 :: b1 :: b2 :: after => exact absurd rfl (h b0 b1 b2 after)

end

/-- A token's bytes decode to it, whatever follows them. -/
theorem decodeToken_tokenBytes_append {i : Instr} (ht : isToken i = true) (hwf : i.wf = true)
    (rest : List Byte) : decodeToken (tokenBytes i ++ rest) = .ok (i, rest) := by
  cases i with
  | pllDecode | frame | decodeFrame | wbDetect => simp [isToken] at ht
  | tokLit b => exact decodeToken_lit rest (of_decide_eq_true hwf)
  | tokEsc8 e n =>
    obtain ⟨hlo, hhi⟩ := of_decide_eq_true hwf
    exact decodeToken_esc8 rest hlo hhi
  | tokEsc24 b0 b1 b2 => exact decodeToken_esc24 rest b0 b1 b2
  | tokEscUndef x => exact decodeToken_escUndef rest (of_decide_eq_true hwf)

theorem isToken_of_opOfInstr_none {i : Instr} (h : opOfInstr i = none) : isToken i = true := by
  cases i with
  | pllDecode | frame | decodeFrame | wbDetect => simp [opOfInstr] at h
  | tokLit | tokEsc8 | tokEsc24 | tokEscUndef => rfl

/-- The escape byte of the forms FF xx: no byte is above 254 but FF. -/
theorem eq_ff_of_not_le_254 {b : Byte} (h : ¬ b.toNat ≤ 254) : b = 0xFF := by bv_omega

/-- A decoded token is the bytes it was read from. -/
theorem eq_tokenBytes_append_of_decodeToken {bytes rest : List Byte} {i : Instr}
    (h : decodeToken bytes = .ok (i, rest)) : bytes = tokenBytes i ++ rest := by
  fun_cases decodeToken bytes with
  | case1 => cases h
  | case2 b l hb =>
    cases (decodeToken_lit l hb).symm.trans h
    rfl
  | case3 b hb => cases (decodeToken_of_escape_last hb).symm.trans h
  | case4 b hb n l hhi =>
    cases (decodeToken_esc8 l (by omega) hhi).symm.trans h
    rfl
  | case5 b _ n l hb hn =>
    obtain rfl := eq_ff_of_not_le_254 hb
    cases (decodeToken_escUndef l hn).symm.trans h
    rfl
  | case6 b _ n hb hn b0 b1 b2 l =>
    obtain rfl := eq_ff_of_not_le_254 hb
    obtain rfl := not_not.1 hn
    cases (decodeToken_esc24 l b0 b1 b2).symm.trans h
    rfl
  | case7 b _ n l hb hn hl =>
    obtain rfl := eq_ff_of_not_le_254 hb
    obtain rfl := not_not.1 hn
    cases (decodeToken_of_esc24_short hl).symm.trans h

/-- The encoder writes a token as its bytes. -/
theorem encode_of_isToken {i : Instr} (h : isToken i = true) :
    encode i = .token (tokenBytes i) := by
  cases i with
  | pllDecode | frame | decodeFrame | wbDetect => simp [isToken] at h
  | tokLit | tokEsc8 | tokEsc24 | tokEscUndef => rfl

theorem decode_token_of_decodeToken {bytes : List Byte} {i : Instr}
    (h : decodeToken bytes = .ok (i, [])) : decode (.token bytes) = .ok i := by
  rw [decode, h]

/-- Decoding gives back every well-formed instruction. -/
theorem decode_encode {i : Instr} (hwf : i.wf = true) : decode (encode i) = .ok i := by
  cases ht : isToken i with
  | true =>
    have h := decodeToken_tokenBytes_append ht hwf []
    rw [List.append_nil] at h
    rw [encode_of_isToken ht, decode_token_of_decodeToken h]
  | false =>
    cases i with
    | pllDecode | frame | decodeFrame | wbDetect => rfl
    | tokLit | tokEsc8 | tokEsc24 | tokEscUndef => simp [isToken] at ht

end Sys2Proof.Machine

namespace Sys2Proof

open Machine Claims

/-- Settles O30: each form's bytes decode to it, and each branch that answers a token has read that
token's bytes. -/
theorem decodeUndoesEncode : Obligations.DecodeUndoesEncode := by
  refine ⟨fun i hwf => decode_encode hwf,
    fun i rest ht hwf => decodeToken_tokenBytes_append ht hwf rest, fun bytes rest i h => ?_⟩
  obtain ⟨hop, hwf⟩ := decodeToken_isToken h
  exact ⟨isToken_of_opOfInstr_none hop, hwf, eq_tokenBytes_append_of_decodeToken h⟩

/-- Settles O15: the legal words are the four of R141, and the map rejects every other word. -/
theorem everyWordIsACommandOrIllegal : Obligations.EveryWordIsACommandOrIllegal := by
  intro w
  by_cases hw : illegalWord w
  · exact .inl ⟨hw, decodeCommand_of_illegalWord hw⟩
  · have h : w = 1 ∨ w = 2 ∨ w = 3 ∨ w = 4 := by
      by_contra hne
      exact hw (illegalWord_iff.2 (by simpa using hne))
    refine .inr ⟨hw, ?_⟩
    rcases h with rfl | rfl | rfl | rfl <;> decide

/-- Settles O31: each example follows from the lemma of its form. -/
theorem writtenOutTokensDecode : Obligations.WrittenOutTokensDecode :=
  ⟨decodeToken_lit [] (by decide), decodeToken_lit [] (by decide),
    decodeToken_esc8 [] (by decide) (by decide), decodeToken_esc8 [] (by decide) (by decide),
    decodeToken_esc24 [] _ _ _, decodeToken_escUndef [0x60] (by decide),
    decodeToken_escUndef [] (by decide), decodeToken_of_escape_last (by decide),
    decodeToken_of_esc24_short (by simp), decode_encode (i := .decodeFrame) rfl,
    decodeCommand_of_illegalWord (by decide)⟩

end Sys2Proof

end

section
/-! PROOF. The flux tokens one at a time: what a fed interval and a dropped token do to the loop,
and how a step at a token boundary reads them (spec/40_flux_pll.md R200 to R205, R214, R217). -/

namespace Sys2Proof.Machine

open Claims (tokenBytes isToken fluxHolds cellsFrom feedsInterval)

/-! ## The cell count (R217) -/

/-- An infinity is its sign. -/
theorem F64.eq_inf_of_isInf {x : F64} (h : F64.isInf x = true) : x = F64.inf (F64.neg x) := by
  rw [F64.inf, ← of_decide_eq_true h, F64.pack_neg_mag]

theorem F64.isInf_inf (b : Bool) : F64.isInf (F64.inf b) = true := by
  simp [F64.isInf, F64.inf, F64.mag_pack b F64.infMag_lt]

/-- The model's clamped count is that of the statements. -/
theorem cellsOfQuotient_eq_cellsFrom (x : F64) {max : Nat} (h : 1 ≤ max) :
    cellsOfQuotient x max = cellsFrom x max := by
  unfold cellsOfQuotient cellsFrom
  cases hinf : F64.isInf x with
  | true =>
    have hx := F64.eq_inf_of_isInf hinf
    cases hneg : F64.neg x with
    | false => rw [hneg] at hx; simp [← hx]
    | true =>
      rw [hneg] at hx
      subst hx
      rw [if_pos rfl, if_pos rfl, if_neg (by decide), if_pos rfl, clampCells]
      omega
  | false =>
    have hne (b : Bool) : x ≠ F64.inf b := fun hx => by
      rw [hx, F64.isInf_inf] at hinf; cases hinf
    rw [if_neg Bool.false_ne_true, if_neg (hne false), if_neg (hne true)]
    unfold clampCells
    split_ifs <;> omega

theorem cellCount_of_not_isNaN {interval : Nat} {s : State}
    (h : F64.isNaN (cellQuotient interval s.pll) = false) :
    cellCount interval s
      = (cellsOfQuotient (cellQuotient interval s.pll) s.regs.pllMaxCells.toNat, s.draws) := by
  simp [cellCount, h]

/-- A token whose meaning is `feed` has the outcome the statements give an interval. -/
theorem feedsInterval_of_exec {i : Instr} {s : State} {interval len : Nat}
    (hmax : 1 ≤ s.regs.pllMaxCells.toNat) (h : exec i s = .next (feed interval len s)) :
    feedsInterval i s interval len := by
  obtain ⟨hlow, hhigh⟩ := cellCount_range interval hmax
  refine ⟨_, (cellCount interval s).2, hlow, hhigh, fun hnan => ?_, h⟩
  rw [cellCount_of_not_isNaN hnan, cellsOfQuotient_eq_cellsFrom _ hmax]
  exact ⟨rfl, rfl⟩

/-! ## The token reader on written bytes (R205) -/

section
variable {s : State} {b n b0 b1 b2 : Byte} (h0 : bufGet s.mem.flux s.pll.tc = some b)
include h0

theorem fetchToken_lit (hlen : s.pll.tc + 1 ≤ s.regs.fluxLen.toNat) (hb : b.toNat ≤ 249) :
    fetchToken s = (.token (.tokLit b), s) := by
  have r0 := engineRead_written (b := .flux) h0
  simp only [fetchToken, r0, if_neg (Nat.not_le.2 hlen), if_pos hb, fetchedOf_lit hb]

/-- A longer token whose first byte is the last below FLUX_LEN (spec/40_flux_pll.md R204). -/
theorem fetchToken_escape_last (hlen : s.pll.tc + 1 = s.regs.fluxLen.toNat)
    (hb : ¬ b.toNat ≤ 249) : fetchToken s = (.trunc, s) := by
  have r0 := engineRead_written (b := .flux) h0
  simp only [fetchToken, r0, if_neg (show ¬ s.regs.fluxLen.toNat ≤ s.pll.tc by omega), if_neg hb,
    if_pos hlen.ge]

variable (h1 : bufGet s.mem.flux (s.pll.tc + 1) = some n)
include h1

theorem fetchToken_two (hlen : s.pll.tc + 2 ≤ s.regs.fluxLen.toNat) (hb : ¬ b.toNat ≤ 249)
    (hn : b.toNat ≤ 254 ∨ n ≠ 0xFF#8) : fetchToken s = (fetchedOf [b, n], s) := by
  have r0 := engineRead_written (b := .flux) h0
  have r1 := engineRead_written (b := .flux) h1
  simp only [fetchToken, r0, r1, if_neg (show ¬ s.regs.fluxLen.toNat ≤ s.pll.tc by omega),
    if_neg hb, if_neg (show ¬ s.regs.fluxLen.toNat ≤ s.pll.tc + 1 by omega), if_pos hn]

/-- ESC24 with fewer than three value bytes below FLUX_LEN (spec/40_flux_pll.md R204). -/
theorem fetchToken_esc24_short (hlen : s.pll.tc + 2 ≤ s.regs.fluxLen.toNat)
    (hshort : s.regs.fluxLen.toNat ≤ s.pll.tc + 4) (hb : ¬ b.toNat ≤ 249)
    (hn : ¬ (b.toNat ≤ 254 ∨ n ≠ 0xFF#8)) : fetchToken s = (.trunc, s) := by
  have r0 := engineRead_written (b := .flux) h0
  have r1 := engineRead_written (b := .flux) h1
  simp only [fetchToken, r0, r1, if_neg (show ¬ s.regs.fluxLen.toNat ≤ s.pll.tc by omega),
    if_neg hb, if_neg (show ¬ s.regs.fluxLen.toNat ≤ s.pll.tc + 1 by omega), if_neg hn,
    if_pos hshort]

theorem fetchToken_esc24 (h2 : bufGet s.mem.flux (s.pll.tc + 2) = some b0)
    (h3 : bufGet s.mem.flux (s.pll.tc + 3) = some b1)
    (h4 : bufGet s.mem.flux (s.pll.tc + 4) = some b2)
    (hlen : s.pll.tc + 5 ≤ s.regs.fluxLen.toNat) (hb : ¬ b.toNat ≤ 249)
    (hn : ¬ (b.toNat ≤ 254 ∨ n ≠ 0xFF#8)) : fetchToken s = (.token (.tokEsc24 b0 b1 b2), s) := by
  have r0 := engineRead_written (b := .flux) h0
  have r1 := engineRead_written (b := .flux) h1
  have r2 := engineRead_written (b := .flux) h2
  have r3 := engineRead_written (b := .flux) h3
  have r4 := engineRead_written (b := .flux) h4
  simp only [fetchToken, r0, r1, r2, r3, r4,
    if_neg (show ¬ s.regs.fluxLen.toNat ≤ s.pll.tc by omega), if_neg hb,
    if_neg (show ¬ s.regs.fluxLen.toNat ≤ s.pll.tc + 1 by omega), if_neg hn,
    if_neg (show ¬ s.regs.fluxLen.toNat ≤ s.pll.tc + 4 by omega), fetchedOf_five hb hn]

end

/-- A byte that FLUX is said to hold, at its place from the cursor on. -/
theorem bufGet_of_fluxHolds {s : State} {bytes : List Byte} (h : fluxHolds s s.pll.tc bytes)
    {k : Nat} {v : Byte} (hk : bytes[k]? = some v) : bufGet s.mem.flux (s.pll.tc + k) = some v :=
  (h k (List.getElem?_eq_some_iff.1 hk).1).trans hk

/-- The reader reads a whole written token and changes nothing. -/
theorem fetchToken_of_tokenBytes {s : State} {i : Instr} (ht : isToken i = true)
    (hwf : i.wf = true) (hheld : fluxHolds s s.pll.tc (tokenBytes i))
    (hlen : s.pll.tc + (tokenBytes i).length ≤ s.regs.fluxLen.toNat) :
    fetchToken s = (.token i, s) := by
  have hbyte {k : Nat} {v : Byte} (hk : (tokenBytes i)[k]? = some v) := bufGet_of_fluxHolds hheld hk
  cases i with
  | pllDecode | frame | decodeFrame | wbDetect => simp [isToken] at ht
  | tokLit b => exact fetchToken_lit (hbyte (k := 0) rfl) hlen (of_decide_eq_true hwf)
  | tokEsc8 e n =>
    obtain ⟨hlo, hhi⟩ := of_decide_eq_true hwf
    rw [fetchToken_two (hbyte (k := 0) rfl) (hbyte (k := 1) rfl) hlen (by omega) (.inl hhi),
      fetchedOf, decodeToken_esc8 [] hlo hhi]
  | tokEsc24 b0 b1 b2 =>
    exact fetchToken_esc24 (hbyte (k := 0) rfl) (hbyte (k := 1) rfl) (hbyte (k := 2) rfl)
      (hbyte (k := 3) rfl) (hbyte (k := 4) rfl) hlen (by decide) (by decide)
  | tokEscUndef x =>
    have hx : x ≠ 0xFF#8 := of_decide_eq_true hwf
    rw [fetchToken_two (hbyte (k := 0) rfl) (hbyte (k := 1) rfl) hlen (by decide) (.inr hx),
      fetchedOf, decodeToken_escUndef [] hx]

/-- The reader of a written truncated token at the end of FLUX changes nothing. -/
theorem fetchToken_of_truncated {s : State} {bytes : List Byte}
    (hheld : fluxHolds s s.pll.tc bytes)
    (hlen : s.pll.tc + bytes.length = s.regs.fluxLen.toNat)
    (h : decodeToken bytes = .error .truncatedToken) : fetchToken s = (.trunc, s) := by
  have hbyte {k : Nat} {v : Byte} (hk : bytes[k]? = some v) := bufGet_of_fluxHolds hheld hk
  revert h
  fun_cases decodeToken bytes with
  | case1 | case2 | case4 | case5 | case6 => exact fun h => nomatch h
  | case3 b hb => exact fun _ => fetchToken_escape_last (hbyte (k := 0) rfl) hlen hb
  | case7 b hlit n l hb hn hl =>
    have hshort : l.length ≤ 2 := by
      match l with
      | [] | [_] | [_, _] => simp
      | b0 :: b1 :: b2 :: after => exact absurd rfl (hl b0 b1 b2 after)
    simp only [List.length_cons] at hlen
    exact fun _ => fetchToken_esc24_short (hbyte (k := 0) rfl) (hbyte (k := 1) rfl) (by omega)
      (by omega) hlit (not_or.2 ⟨hb, hn⟩)

/-! ## A step at a token boundary (log 8) -/

theorem step_of_live {s : State} (h : s.pll.live = true) : step s = tokenStep s := by
  rw [step, nextMove, if_pos h]

theorem tokenStep_of_ovf {s : State} (h : s.pll.ovf = true) :
    tokenStep s = .next (finishDecode s) := by rw [tokenStep, if_pos h]

theorem fetchToken_of_end {s : State} (h : s.regs.fluxLen.toNat ≤ s.pll.tc) :
    fetchToken s = (.stop, s) := by simp only [fetchToken, if_pos h]

section
variable {s t : State} (h : s.pll.ovf = false)
include h

theorem tokenStep_of_stop (hf : fetchToken s = (.stop, t)) :
    tokenStep s = .next (finishDecode t) := by rw [tokenStep, if_neg (by simp [h]), hf]

theorem tokenStep_of_trunc (hf : fetchToken s = (.trunc, t)) :
    tokenStep s = .next (finishDecode (dropTruncated t)) := by
  rw [tokenStep, if_neg (by simp [h]), hf]

theorem tokenStep_of_token {i : Instr} (hf : fetchToken s = (.token i, t)) :
    tokenStep s = exec i t := by rw [tokenStep, if_neg (by simp [h]), hf]

end

end Sys2Proof.Machine

namespace Sys2Proof

open Machine Claims

/-- Settles O32: the three tokens are `feed` of their value, whose count is R217's. -/
theorem intervalTokensFeedTheirValue : Obligations.IntervalTokensFeedTheirValue := fun _ hmax =>
  ⟨fun _ _ => feedsInterval_of_exec hmax rfl, fun _ _ _ => feedsInterval_of_exec hmax rfl,
    fun _ _ _ => feedsInterval_of_exec hmax rfl⟩

/-- Settles O25: a live step is a token step, and the reader of written bytes changes nothing. -/
theorem stepRunsTheDecodedToken : Obligations.StepRunsTheDecodedToken := by
  refine ⟨fun s i ht hwf hlive hovf hheld hlen => ?_, fun s hlive hend => ?_,
    fun s bytes hlive hovf _ hheld hlen herr => ?_⟩ <;> rw [step_of_live hlive]
  · exact tokenStep_of_token hovf (fetchToken_of_tokenBytes ht hwf hheld hlen)
  · cases hovf : s.pll.ovf with
    | true => exact tokenStep_of_ovf hovf
    | false =>
      exact tokenStep_of_stop hovf (fetchToken_of_end (hend.resolve_left (by simp [hovf])))
  · exact tokenStep_of_trunc hovf (fetchToken_of_truncated hheld hlen herr)

/-- Settles O33: the meaning of ESC_UNDEF is to drop its two bytes. -/
theorem undefinedEscapeIsDropped : Obligations.UndefinedEscapeIsDropped := fun s x _ =>
  exec_token (i := .tokEscUndef x) rfl s

end Sys2Proof

end

section
/-! PROOF. A decode as a whole: its validation, and that its token steps one by one make it
(spec/40_flux_pll.md R214, R215). -/

namespace Sys2Proof.Machine

open Claims (runSteps decodeLegal decodeParamsLegal failedWith)

/-! ## Validation (R215) -/

theorem validateDecode_of_empty {s : State} (h : s.regs.fluxLen = 0) :
    validateDecode s = some .emptyInput := by simp [validateDecode, h]

/-- Checks 2 to 8 have one error. -/
theorem validateDecode_of_nonempty {s : State} (h : s.regs.fluxLen ≠ 0) :
    validateDecode s = none ∨ validateDecode s = some .badParam := by
  rw [validateDecode, if_neg (ne_zero_iff_toNat.1 h)]
  split_ifs <;> simp

theorem validateDecode_of_not_legal {s : State} (hlen : s.regs.fluxLen ≠ 0)
    (h : ¬ decodeParamsLegal s) : validateDecode s = some .badParam :=
  (validateDecode_of_nonempty hlen).resolve_left fun hn => h (validateDecode_eq_none_iff.1 hn).2

/-- Both decoding commands validate alike and fail alike. -/
theorem exec_decode_of_check {s : State} {e : ErrCode} (h : validateDecode s = some e) {i : Instr}
    (hi : i ∈ ([.pllDecode, .decodeFrame] : List Instr)) :
    exec i s = .next (failedWith e.code s) := by
  rcases List.mem_pair.1 hi with rfl | rfl
  · rw [exec, execPllDecode, h]; rfl
  · rw [exec, execDecodeFrame, h]; rfl

/-! ## The token loop as steps -/

theorem runSteps_of_step_last {s t : State} (h : step s = .next t) : runSteps 1 s = some t := by
  simp [runSteps, h]

theorem runSteps_succ {s t : State} (h : step s = .next t) (n : Nat) :
    runSteps (n + 1) s = runSteps n t := by rw [runSteps, h]

/-- With fuel for more tokens than bytes are left, token steps run the loop to its end and complete
the command, within one step more than the tokens. -/
theorem runSteps_decodeLoop (n : Nat) {s : State} (hpos : 1 ≤ n) (hlive : s.pll.live = true)
    (hn : s.pll.ovf = true ∨ s.regs.fluxLen.toNat < s.pll.tc + n) :
    ∃ k, 1 ≤ k ∧ k ≤ n ∧ runSteps k s = some (finishDecode (decodeLoop n s)) := by
  induction n generalizing s with
  | zero => omega
  | succ n ih =>
    have hlast {t : State} (h : tokenStep s = .next t) : runSteps 1 s = some t :=
      runSteps_of_step_last ((step_of_live hlive).trans h)
    cases hovf : s.pll.ovf with
    | true =>
      rw [decodeLoop_of_ovf _ hovf]
      exact ⟨1, Nat.le_refl 1, hpos, hlast (tokenStep_of_ovf hovf)⟩
    | false =>
      have hfuel := hn.resolve_left (by simp [hovf])
      have hr := fetchToken_readsOnly s
      rcases fetchToken_marks s with ⟨_, hf⟩ | ⟨t, hf, _, _⟩ | ⟨i, t, hf, hlen, _⟩ <;>
        rw [hf] at hr
      · rw [decodeLoop_of_stop hovf hf]
        exact ⟨1, Nat.le_refl 1, hpos, hlast (tokenStep_of_stop hovf hf)⟩
      · rw [decodeLoop_of_trunc hovf hf]
        exact ⟨1, Nat.le_refl 1, hpos, hlast (tokenStep_of_trunc hovf hf)⟩
      · have hi : opOfInstr i = none := (fetchToken_token (s := s) (by rw [hf])).1
        obtain ⟨hbytes, -⟩ := tokenBytes_length hi
        have hloop := tokenEffect_loopOnly i t
        have hstep : step s = .next (tokenEffect i t) :=
          (step_of_live hlive).trans ((tokenStep_of_token hovf hf).trans (exec_token hi t))
        have hnext : (tokenEffect i t).pll.ovf = true ∨
            (tokenEffect i t).regs.fluxLen.toNat < (tokenEffect i t).pll.tc + n := by
          rw [hloop.regs, hr.regs]
          refine (tokenEffect_cursor hi t).imp And.left fun ⟨_, htc⟩ => ?_
          rw [htc, hr.pll]
          omega
        obtain ⟨k, hk, hkn, hrun⟩ :=
          ih (by omega) (by rw [hloop.live, hr.pll, hlive]) hnext
        rw [decodeLoop_of_token hovf hf]
        exact ⟨k + 1, by omega, by omega, (runSteps_succ hstep k).trans hrun⟩

theorem finishDecode_pllDecode {s : State} (h : s.eng = .busy .pllDecode) :
    finishDecode s = succeedCommand (commitDecode s) := by rw [finishDecode, h]

theorem finishDecode_decodeFrame {s : State} (h : s.eng = .busy .decodeFrame) :
    finishDecode s = succeedCommand (frameBody (commitDecode s)) := by rw [finishDecode, h]

end Sys2Proof.Machine

namespace Sys2Proof

open Machine Claims

/-- Settles O36: validation fails at check 1, or at one of the rest, and a failure writes STATUS
alone. -/
theorem decodeValidatesInOrder : Obligations.DecodeValidatesInOrder := fun _ _ hi =>
  ⟨fun h => exec_decode_of_check (validateDecode_of_empty h) hi,
    fun hlen h => exec_decode_of_check (validateDecode_of_not_legal hlen h) hi⟩

/-- Settles O26: the token steps from the start of the loop end in its completion, which is the
body of the command that runs. -/
theorem decodeIsItsTokenSteps : Obligations.DecodeIsItsTokenSteps := by
  intro s hlegal _
  obtain ⟨k, hpos, hle, hrun⟩ := runSteps_decodeLoop (s.regs.fluxLen.toNat + 1)
    (s := startDecode s) (by omega) rfl (.inr (Nat.lt_add_left _ (Nat.lt_succ_self _)))
  have heng : (decodeLoop (s.regs.fluxLen.toNat + 1) (startDecode s)).eng = s.eng :=
    (decodeLoop_loopOnly _ (startDecode s)).eng
  refine ⟨_, k, hpos, hle, hrun, fun h => ?_, fun h => ?_⟩
  · rw [finishDecode_pllDecode (heng.trans h)]
    exact exec_of_legal (c := .pllDecode) hlegal
  · rw [finishDecode_decodeFrame (heng.trans h)]
    exact exec_of_legal (c := .decodeFrame) hlegal

end Sys2Proof

end

section
/-! PROOF. What the token loop can do, said once as moves of the loop state; from it the shape of
the decoded stream and the counts, and what PLL_DECODE commits (spec/40_flux_pll.md R214, R218, R223
to R225). -/

namespace Sys2Proof.Machine

open Claims (tokenBytes decodeLegal decoded byteCount bitbufHolds)

/-! ## Moves of the loop -/

/-- A token that moves the cursor on (spec/40_flux_pll.md R214): an interval fed, for any count
within the clamp (log 10), or a token dropped. -/
inductive TokenMove (pr : Params) (r : Regs) (p : PllLoop) : PllLoop → Prop
  | fed (interval c len : Nat) (hinterval : interval < 2 ^ 24) (hlow : 1 ≤ c)
      (hhigh : c ≤ r.pllMaxCells.toNat) (hfits : p.out.length + c ≤ 8 * pr.bitbufCap)
      (hpos : 1 ≤ len) (hlen : p.tc + len ≤ r.fluxLen.toNat) :
      TokenMove pr r p (p.advance r interval c len)
  | dropped (len : Nat) (hpos : 1 ≤ len) (hlen : p.tc + len ≤ r.fluxLen.toNat) :
      TokenMove pr r p { p with ndrop := p.ndrop + 1, tc := p.tc + len }

/-- How the loop can end from a token boundary: there, at an interval that does not fit, or at a
truncated token (spec/40_flux_pll.md R204, R205, R224). -/
inductive LoopEnd (r : Regs) (p : PllLoop) : PllLoop → Prop
  | stop : LoopEnd r p p
  | overflow : LoopEnd r p { p with ovf := true }
  | trunc (hlen : p.tc < r.fluxLen.toNat) : LoopEnd r p { p with ndrop := p.ndrop + 1 }

theorem LoopEnd.out {r : Regs} {p q : PllLoop} (h : LoopEnd r p q) : q.out = p.out := by
  cases h <;> rfl

theorem LoopEnd.nint {r : Regs} {p q : PllLoop} (h : LoopEnd r p q) : q.nint = p.nint := by
  cases h <;> rfl

theorem feed_move {interval len : Nat} {s : State} (hmax : 1 ≤ s.regs.pllMaxCells.toNat)
    (hinterval : interval < 2 ^ 24) (hpos : 1 ≤ len)
    (hlen : s.pll.tc + len ≤ s.regs.fluxLen.toNat) :
    TokenMove s.params s.regs s.pll (feed interval len s).pll ∨
      (feed interval len s).pll = { s.pll with ovf := true } := by
  obtain ⟨hlow, hhigh⟩ := cellCount_range interval hmax
  rcases feed_cases interval len s with ⟨_, e⟩ | ⟨hfits, e⟩ <;> rw [e]
  · exact .inr rfl
  · exact .inl (.fed interval _ len hinterval hlow hhigh hfits hpos hlen)

theorem tokenEffect_move {i : Instr} (hi : opOfInstr i = none) {s : State}
    (hmax : 1 ≤ s.regs.pllMaxCells.toNat)
    (hlen : s.pll.tc + (tokenBytes i).length ≤ s.regs.fluxLen.toNat) :
    TokenMove s.params s.regs s.pll (tokenEffect i s).pll ∨
      (tokenEffect i s).pll = { s.pll with ovf := true } := by
  obtain ⟨hpos, -⟩ := tokenBytes_length hi
  cases i with
  | pllDecode | frame | decodeFrame | wbDetect => simp [opOfInstr] at hi
  | tokLit b => exact feed_move hmax (by unfold litInterval; omega) hpos hlen
  | tokEsc8 e n => exact feed_move hmax (by unfold esc8Interval; omega) hpos hlen
  | tokEsc24 b0 b1 b2 => exact feed_move hmax (by unfold esc24Interval; omega) hpos hlen
  | tokEscUndef x => exact .inl (.dropped _ hpos hlen)

/-- The token loop is moves up to a token boundary and an end there. -/
theorem decodeLoop_moves (n : Nat) {s : State} (hmax : 1 ≤ s.regs.pllMaxCells.toNat) :
    ∃ p, Relation.ReflTransGen (TokenMove s.params s.regs) s.pll p ∧
      LoopEnd s.regs p (decodeLoop n s).pll := by
  induction n generalizing s with
  | zero => exact ⟨s.pll, .refl, .stop⟩
  | succ n ih =>
    cases hovf : s.pll.ovf with
    | true => rw [decodeLoop_of_ovf _ hovf]; exact ⟨s.pll, .refl, .stop⟩
    | false =>
      have hr := fetchToken_readsOnly s
      rcases fetchToken_marks s with ⟨_, hf⟩ | ⟨t, hf, hlt, _⟩ | ⟨i, t, hf, hlen, _⟩ <;>
        rw [hf] at hr
      · rw [decodeLoop_of_stop hovf hf]; exact ⟨s.pll, .refl, .stop⟩
      · rw [decodeLoop_of_trunc hovf hf, dropTruncated_pll, hr.pll]
        exact ⟨s.pll, .refl, .trunc hlt⟩
      · have hi : opOfInstr i = none := (fetchToken_token (s := s) (by rw [hf])).1
        have hloop := tokenEffect_loopOnly i t
        have hmove := tokenEffect_move hi (s := t) (by rwa [hr.regs]) (by rwa [hr.pll, hr.regs])
        rw [hr.params, hr.regs, hr.pll] at hmove
        rw [decodeLoop_of_token hovf hf]
        rcases hmove with hmove | hover
        · obtain ⟨p, hp, hend⟩ := ih (s := tokenEffect i t) (by rwa [hloop.regs, hr.regs])
          rw [hloop.params, hloop.regs, hr.params, hr.regs] at hp
          rw [hloop.regs, hr.regs] at hend
          exact ⟨p, .head hmove hp, hend⟩
        · rw [decodeLoop_of_ovf n (by rw [hover]), hover]
          exact ⟨s.pll, .refl, .overflow⟩

/-- What every move keeps holds at every token boundary the loop comes to. -/
theorem moves_keep {pr : Params} {r : Regs} {Q : PllLoop → Prop}
    (hmove : ∀ p q, TokenMove pr r p q → Q p → Q q) {p q : PllLoop}
    (h : Relation.ReflTransGen (TokenMove pr r) p q) (hp : Q p) : Q q := by
  induction h with
  | refl => exact hp
  | tail _ hstep ih => exact hmove _ _ hstep ih

theorem decoded_moves {s : State} (h : decodeLegal s) :
    ∃ p, Relation.ReflTransGen (TokenMove s.params s.regs) (startDecode s).pll p ∧
      LoopEnd s.regs p (decoded s) :=
  decodeLoop_moves (s.regs.fluxLen.toNat + 1) (s := startDecode s) (one_le_pllMaxCells_of_legal h)

/-! ## The stream as blocks (R218) -/

/-- The stream is one block of cells for each interval fed, of 1 to `max` cells. -/
def IsBlocks (max : Nat) (p : PllLoop) : Prop :=
  ∃ cs : List Nat, p.out = cs.flatMap cellBits ∧ p.nint = cs.length ∧ ∀ c ∈ cs, 1 ≤ c ∧ c ≤ max

theorem isBlocks_move {pr : Params} {r : Regs} {p q : PllLoop} (h : TokenMove pr r p q)
    (hp : IsBlocks r.pllMaxCells.toNat p) : IsBlocks r.pllMaxCells.toNat q := by
  obtain ⟨cs, hout, hnint, hcs⟩ := hp
  cases h with
  | fed interval c len _ hlow hhigh =>
    refine ⟨cs ++ [c], by simp [PllLoop.advance, hout], by simp [PllLoop.advance, hnint], ?_⟩
    intro x hx
    rcases List.mem_append.1 hx with hx | hx
    · exact hcs x hx
    · rw [List.mem_singleton.1 hx]
      exact ⟨hlow, hhigh⟩
  | dropped => exact ⟨cs, hout, hnint, hcs⟩

theorem decoded_isBlocks {s : State} (h : decodeLegal s) :
    IsBlocks s.regs.pllMaxCells.toNat (decoded s) := by
  obtain ⟨p, hmoves, hend⟩ := decoded_moves h
  have hp := moves_keep (fun _ _ => isBlocks_move) hmoves ⟨[], rfl, rfl, by simp⟩
  rwa [IsBlocks, hend.out, hend.nint]

@[simp] theorem count_true_cellBits (c : Nat) : (cellBits c).count true = 1 := by
  simp [cellBits, List.count_replicate]

theorem count_true_blocks (cs : List Nat) : (cs.flatMap cellBits).count true = cs.length := by
  induction cs with
  | nil => rfl
  | cons c cs ih => simp [ih, Nat.add_comm]

theorem length_blocks_le {max : Nat} {cs : List Nat} (h : ∀ c ∈ cs, 1 ≤ c ∧ c ≤ max) :
    (cs.flatMap cellBits).length ≤ max * cs.length := by
  induction cs with
  | nil => simp
  | cons c cs ih =>
    obtain ⟨⟨hlow, hhigh⟩, hcs⟩ := List.forall_mem_cons.1 h
    have := ih hcs
    rw [List.flatMap_cons, List.length_append, cellBits_length hlow, List.length_cons, Nat.mul_add]
    omega

theorem getLast?_blocks {cs : List Nat} (h : cs.flatMap cellBits ≠ []) :
    (cs.flatMap cellBits).getLast? = some true := by
  rcases List.eq_nil_or_concat cs with rfl | ⟨l, c, rfl⟩
  · exact absurd rfl h
  · simp [cellBits]

/-! ## The counts -/

theorem decoded_fits {s : State} (h : decodeLegal s) :
    (decoded s).out.length ≤ 8 * s.params.bitbufCap :=
  (decodeTokens_startDecode (one_le_pllMaxCells_of_legal h)).2

/-- Dropped tokens have bytes of their own below the cursor. -/
theorem ndrop_move {pr : Params} {r : Regs} {p q : PllLoop} (h : TokenMove pr r p q)
    (hp : p.ndrop ≤ p.tc ∧ p.tc ≤ r.fluxLen.toNat) : q.ndrop ≤ q.tc ∧ q.tc ≤ r.fluxLen.toNat := by
  cases h with
  | fed interval c len _ _ _ _ _ hlen => exact ⟨hp.1.trans (Nat.le_add_right _ _), hlen⟩
  | dropped len hpos hlen => exact ⟨Nat.add_le_add hp.1 hpos, hlen⟩

theorem decoded_ndrop_le {s : State} (h : decodeLegal s) :
    (decoded s).ndrop ≤ s.regs.fluxLen.toNat := by
  obtain ⟨p, hmoves, hend⟩ := decoded_moves h
  obtain ⟨hdrop, htc⟩ := moves_keep (fun _ _ => ndrop_move) hmoves
    ⟨Nat.le_refl 0, Nat.zero_le _⟩
  generalize decoded s = q at hend
  cases hend with
  | stop => exact hdrop.trans htc
  | overflow => exact hdrop.trans htc
  | trunc hlt => exact Nat.lt_of_le_of_lt hdrop hlt

theorem decoded_nint_le {s : State} (h : decodeLegal s) :
    (decoded s).nint ≤ (decoded s).out.length := by
  obtain ⟨cs, hout, hnint, -⟩ := decoded_isBlocks h
  rw [hnint, ← count_true_blocks, hout]
  exact List.count_le_length

/-! ## The commit (R223, R225) -/

theorem decoded_t0 (s : State) : (decoded s).t0 = nominalPeriod s.regs :=
  (decodeLoop_loopOnly _ (startDecode s)).t0

theorem nominalPeriod_eq (r : Regs) :
    nominalPeriod r
      = F64.div (F64.ofNat r.sampleFreq.toNat) (F64.ofNat (Claims.selectedRate r)) := by
  rw [nominalPeriod, toNat_cellRate]

/-- A buffer with a packed stream written holds it MSB first, its last byte padded with zeros. -/
theorem bitbufHolds_of_bitbuf {m : Memory} {b : Buf 8} {bits : List Bool}
    (h : m.bitbuf = bufWrite b 0 (packBits bits)) :
    bitbufHolds m (bits ++ List.replicate (8 * byteCount bits.length - bits.length) false) := by
  intro k hk
  have hbyte : k / 8 < (packBits bits).length := by
    rw [packBits_length]
    simp [byteCount] at hk
    omega
  have hget := bufGet_bufWrite_in b 0 (packBits bits) (k / 8) hbyte
  rw [Nat.zero_add] at hget
  rw [h, hget, packBits_getElem, Option.map_some]
  have hbit := streamBit_packByte_drop bits k
  rw [streamBit] at hbit
  rw [hbit, List.getD_eq_getElem?_getD]
  rcases Nat.lt_or_ge k bits.length with hin | hout
  · rw [List.getElem?_append_left hin, List.getElem?_eq_getElem hin]
    rfl
  · rw [List.getElem?_append_right hout, List.getElem?_eq_none hout, List.getElem?_replicate,
      if_pos (by simp at hk; omega)]
    rfl

theorem decodeBody_bitbufHolds (s : State) :
    bitbufHolds (decodeBody s).mem ((decoded s).out ++
      List.replicate (8 * byteCount (decoded s).out.length - (decoded s).out.length) false) :=
  bitbufHolds_of_bitbuf (congrArg Memory.bitbuf (decodeBody_mem s))

/-- The stream of a legal decode is counted in 32 bits (spec/00_scope.md R6, R10). -/
theorem decoded_length_lt {s : State} (hp : s.params.wf = true) (h : decodeLegal s) :
    (decoded s).out.length < 2 ^ 32 := by
  obtain ⟨_, hcap, _⟩ := params_bounds hp
  have hfits := decoded_fits h
  omega

end Sys2Proof.Machine

namespace Sys2Proof

open Machine Claims

/-- Settles O39: the stream is one block `0…01` for each interval fed. -/
theorem streamHasOneOnePerInterval : Obligations.StreamHasOneOnePerInterval := by
  intro s hlegal
  obtain ⟨cs, hout, hnint, hcs⟩ := decoded_isBlocks hlegal
  refine ⟨?_, ?_, decoded_fits hlegal, ?_⟩ <;> rw [hout]
  · rw [hnint, count_true_blocks]
  · rw [hnint]
    exact length_blocks_le hcs
  · exact getLast?_blocks

/-- Settles O37: the body commits where the loop ended, and every count fits its register. -/
theorem pllDecodeCommitsItsStream : Obligations.PllDecodeCommitsItsStream := by
  intro s hp hlegal
  have hbits := decoded_length_lt hp hlegal
  have hnint := decoded_nint_le hlegal
  have hndrop := decoded_ndrop_le hlegal
  have hlen := s.regs.fluxLen.isLt
  refine ⟨_, exec_of_legal (c := .pllDecode) hlegal, succeedCommand_eng _, ?_, ?_, ?_, ?_, ?_, ?_,
    ?_, ?_, fun i hi => ?_⟩ <;>
    simp only [Op.body, succeedCommand_regs, succeedCommand_mem, decodeBody_regs]
  · exact toNat_word_ofNat hbits
  · exact toNat_word_ofNat (by omega)
  · exact toNat_word_ofNat (by omega)
  · rw [decoded_t0, nominalPeriod_eq]
  · simp only [Status.succeed, Status.setDecodeFlags, Nat.pos_iff_ne_zero]
  · exact decodeBody_bitbufHolds s
  · rw [decodeBody_mem]
    exact bufGet_bufWrite_past _ _ (by rw [packBits_length]; exact hi)

end Sys2Proof

end

section
/-! PROOF. A stream without three consecutive zeros holds no MFM sync, so framing it records none
(spec/40_flux_pll.md R228, spec/90_conflicts.md C3). -/

namespace Sys2Proof.Machine

open Claims (decodeLegal decoded framed parsed bitbufHolds)

/-! ## Three consecutive zeros -/

/-- Blocks of at most three cells have at most two zeros before each one. -/
theorem blocks_no_three_zeros {cs : List Nat} (h : ∀ c ∈ cs, 1 ≤ c ∧ c ≤ 3) :
    ¬ [false, false, false] <:+: cs.flatMap cellBits := by
  induction cs with
  | nil => simp
  | cons c cs ih =>
    obtain ⟨⟨hlow, hhigh⟩, hcs⟩ := List.forall_mem_cons.1 h
    rw [List.flatMap_cons]
    interval_cases c <;>
      simp [cellBits, List.replicate, List.infix_cons_iff, List.cons_prefix_cons, ih hcs]

theorem decoded_no_three_zeros {s : State} (h : decodeLegal s) (h3 : s.regs.pllMaxCells.toNat ≤ 3) :
    ¬ [false, false, false] <:+: (decoded s).out := by
  obtain ⟨cs, hout, -, hcs⟩ := decoded_isBlocks h
  rw [hout]
  exact blocks_no_three_zeros fun c hc => ⟨(hcs c hc).1, (hcs c hc).2.trans h3⟩

/-! ## The window (R263) -/

/-- The window after a stream, earlier bits shifted out at the top. -/
def windowAfter (bits : List Bool) : Half := bits.foldl shiftIn 0

theorem windowAfter_concat (bits : List Bool) (b : Bool) :
    windowAfter (bits ++ [b]) = shiftIn (windowAfter bits) b := by simp [windowAfter]

theorem shiftIn_getLsbD_zero (w : Half) (b : Bool) : (shiftIn w b).getLsbD 0 = b := by
  rw [shiftIn, BitVec.getLsbD_or, BitVec.getLsbD_shiftLeft]
  cases b <;> rfl

theorem shiftIn_getLsbD_succ (w : Half) (b : Bool) {i : Nat} (h : i + 1 < 16) :
    (shiftIn w b).getLsbD (i + 1) = w.getLsbD i := by
  rw [shiftIn, BitVec.getLsbD_or, BitVec.getLsbD_shiftLeft]
  cases b <;> simp [h, -BitVec.getLsbD_eq_getElem]

/-- Bit `i` of the window is the stream bit `i` back from the last. -/
theorem windowAfter_getLsbD (bits : List Bool) {i : Nat} (h : i < 16) :
    (windowAfter bits).getLsbD i = bits.reverse.getD i false := by
  induction bits using List.reverseRecOn generalizing i with
  | nil => simp [windowAfter]
  | append_singleton bits b ih =>
    rw [windowAfter_concat, List.reverse_append, List.reverse_singleton, List.singleton_append]
    cases i with
    | zero => exact shiftIn_getLsbD_zero _ b
    | succ i => rw [shiftIn_getLsbD_succ _ _ h, ih (by omega), List.getD_cons_succ]

/-- The MFM sync has three zeros at its bits 4 to 6 (spec/30_encoding.md R160). -/
theorem three_zeros_of_mfm_sync {bits : List Bool} (hlen : 16 ≤ bits.length)
    (h : windowAfter bits = 0x4489) : [false, false, false] <:+: bits := by
  have hbit (i : Nat) (hi : i < 16) : bits.reverse.getD i false = (0x4489 : Half).getLsbD i := by
    rw [← h, windowAfter_getLsbD bits hi]
  have h4 := hbit 4 (by decide)
  have h5 := hbit 5 (by decide)
  have h6 := hbit 6 (by decide)
  rw [← List.reverse_infix]
  rw [← List.length_reverse] at hlen
  generalize bits.reverse = l at *
  match l with
  | b0 :: b1 :: b2 :: b3 :: b4 :: b5 :: b6 :: rest =>
    obtain rfl : b4 = false := h4
    obtain rfl : b5 = false := h5
    obtain rfl : b6 = false := h6
    exact ⟨[b0, b1, b2, b3], rest, rfl⟩

/-! ## Framing a stream without a sync -/

/-- The framer after a stream in which no sync matched: no entry recorded. -/
structure Unsynced (bits : List Bool) (f : Framer) : Prop where
  window : f.window = windowAfter bits
  total : f.total = bits.length
  idam : f.idam = []
  capped : f.capped = false

theorem Unsynced.bit {p : Params} {enc : BitVec 2} {bits : List Bool} {b : Bool} {f : Framer}
    (h : Unsynced bits f)
    (hsync : 16 ≤ (bits ++ [b]).length → windowAfter (bits ++ [b]) ∉ syncSet p enc) :
    Unsynced (bits ++ [b]) (f.bit p enc b) := by
  rw [windowAfter_concat, List.length_append, List.length_singleton, ← h.window, ← h.total] at hsync
  have hslide : Unsynced (bits ++ [b]) (f.slide b) :=
    ⟨by rw [windowAfter_concat, ← h.window]; rfl,
      by rw [List.length_append, ← h.total]; rfl, h.idam, h.capped⟩
  rcases f.bit_cases p enc b with ⟨_, e⟩ | ⟨_, hlen, hmem, _⟩ | ⟨_, _, _, e⟩ | ⟨_, _, e⟩
  · rw [e]; exact { hslide with }
  · exact absurd hmem (hsync hlen)
  · rw [e]; exact { hslide with }
  · rw [e]; exact hslide

/-- Where no window of the stream is a sync, framing it records no entry and meets no cap. -/
theorem frameList_unsynced {p : Params} {enc : BitVec 2} (rest : List Bool) {bits : List Bool}
    {f : Framer} (h : Unsynced bits f)
    (hsync : ∀ l, l <+: bits ++ rest → 16 ≤ l.length → windowAfter l ∉ syncSet p enc) :
    (frameList p enc rest f).idam = [] ∧ (frameList p enc rest f).capped = false := by
  induction rest generalizing bits f with
  | nil => exact ⟨h.idam, h.capped⟩
  | cons b rest ih =>
    rw [frameList]
    split_ifs
    · exact ⟨h.idam, h.capped⟩
    · have hsplit : bits ++ b :: rest = bits ++ [b] ++ rest := by simp
      rw [hsplit] at hsync
      exact ih (h.bit (hsync _ (List.prefix_append _ _))) hsync

/-- Framing a written stream is the loop over its bits (spec/41_sync_framer.md R262, R263). -/
theorem framed_of_bitbufHolds {s : State} {bits : List Bool} (h : bitbufHolds s.mem bits)
    (hlen : s.regs.bitCount.toNat = bits.length) :
    framed s = frameList s.params s.regs.ctrl.encoding bits Framer.reset := by
  rw [framed, frameStage, hlen, frameLoop_written]
  intro i hi
  have hbit := h i hi
  rw [List.getElem?_eq_getElem hi] at hbit
  obtain ⟨v, hv, hb⟩ := Option.map_eq_some_iff.1 hbit
  exact ⟨v, by rw [← hv]; simp [Framer.reset], by simpa [streamBit, Framer.reset] using hb⟩

theorem bitbufHolds_left {m : Memory} {bits rest : List Bool} (h : bitbufHolds m (bits ++ rest)) :
    bitbufHolds m bits := fun k hk => by
  rw [h k (by rw [List.length_append]; omega), List.getElem?_append_left hk]

/-- A table without entries has no sector. -/
theorem parsed_of_no_idam {s : State} (h : (framed s).idam = []) : parsed s = Parser.reset := by
  rw [framed] at h
  rw [parsed, parseStage_parser, h, parseEntries]

/-- The frame stage of DECODE_FRAME frames the decoded stream (spec/41_sync_framer.md R290). -/
theorem framed_decodeBody {s : State} (hp : s.params.wf = true) (h : decodeLegal s) :
    framed (decodeBody s)
      = frameList s.params s.regs.ctrl.encoding (decoded s).out Framer.reset := by
  have hcount : (decodeBody s).regs.bitCount.toNat = (decoded s).out.length := by
    rw [decodeBody_regs]
    exact toNat_word_ofNat (decoded_length_lt hp h)
  rw [framed_of_bitbufHolds (bitbufHolds_left (decodeBody_bitbufHolds s)) hcount,
    (decodeBody_frame s).1, decodeBody_regs]

end Sys2Proof.Machine

namespace Sys2Proof

open Machine Claims

/-- Settles O42: the zeros before a one are at most two, and a sync would have three. -/
theorem threeCellsHideMfmSync : Obligations.ThreeCellsHideMfmSync := by
  intro s hp hlegal h3
  have hzeros := decoded_no_three_zeros hlegal h3
  refine ⟨hzeros, fun henc => ?_⟩
  have hsync (l : List Bool) (hl : l <+: [] ++ (decoded s).out) (hlen : 16 ≤ l.length) :
      windowAfter l ∉ syncSet s.params s.regs.ctrl.encoding := by
    rw [henc, syncSet, if_pos (show 1 = encMfm from rfl), List.mem_singleton]
    exact fun hw => hzeros ((three_zeros_of_mfm_sync hlen hw).trans hl.isInfix)
  obtain ⟨hidam, hcapped⟩ := frameList_unsynced (decoded s).out (bits := []) (f := Framer.reset)
    ⟨rfl, rfl, rfl, rfl⟩ hsync
  rw [← framed_decodeBody hp hlegal] at hidam hcapped
  have hparsed := parsed_of_no_idam hidam
  refine ⟨_, exec_of_legal (c := .decodeFrame) hlegal, ?_⟩
  simp only [Op.body, decodeFrameBody, succeedCommand_regs, frameBody_regs, hidam, hparsed]
  exact ⟨rfl, rfl, rfl, hcapped⟩

end Sys2Proof

end

section
/-! PROOF. How large the results of binary64 arithmetic can be, and with it that the PLL loop stays
finite and its frequency in its clamp (spec/00_scope.md R11, spec/40_flux_pll.md R216, R221,
R229). -/

namespace Sys2Proof.Machine.F64

/-! ## Bounds on magnitudes -/

theorem magUnits_add_exponent {m : Nat} (h : 2 ^ 52 ≤ m) (k : Nat) :
    magUnits (m + 2 ^ 52 * k) = magUnits m * 2 ^ k := by
  have hexp : (m + 2 ^ 52 * k) / 2 ^ 52 - 1 = m / 2 ^ 52 - 1 + k := by omega
  have hfrac : (m + 2 ^ 52 * k) % 2 ^ 52 = m % 2 ^ 52 := by omega
  rw [magUnits, magUnits, if_neg (by omega), if_neg (by omega), hexp, hfrac, Nat.pow_add]
  ring

/-- A number of at most 53 bits, scaled by a power of two, is the value of some magnitude. -/
theorem exists_magUnits_scaled {n : Nat} (hn : n < 2 ^ 53) (k : Nat) :
    ∃ m, magUnits m = n * 2 ^ k * one := by
  by_cases h0 : n = 0
  · exact ⟨0, by simp [h0]⟩
  obtain ⟨m, -, hm⟩ := exists_magUnits_eq hn
  have hbig : 2 ^ 52 ≤ m := by
    by_contra hlt
    have hsmall : magUnits m = m := by rw [magUnits, if_pos (by omega)]
    have hone : 2 ^ 52 ≤ one := by
      obtain ⟨e, he⟩ : ∃ e, e = 1074 := ⟨_, rfl⟩
      rw [one_eq_two_pow he]
      exact Nat.pow_le_pow_right (by decide) (by omega)
    have := Nat.le_mul_of_pos_right one (Nat.pos_of_ne_zero h0)
    omega
  refine ⟨m + 2 ^ 52 * k, ?_⟩
  rw [magUnits_add_exponent hbig, hm]
  ring

/-- Rounding stays at or below a value at or above the fraction. -/
theorem roundMag_le_of_le {num den m : Nat} (hden : 0 < den) (h : num ≤ den * magUnits m) :
    roundMag num den ≤ m := by
  rcases Nat.lt_or_ge m infMag with hlt | hge
  · exact (roundMag_mono h).trans_eq (roundMag_exact hlt hden)
  · exact (roundMag_le num den).trans hge

/-- A finite value of magnitude at most `n · 2^k`. -/
def AtMost (n k : Nat) (x : F64) : Prop := isFinite x = true ∧ units x ≤ n * 2 ^ k * one

theorem AtMost.mono {n k n' k' : Nat} {x : F64} (h : AtMost n k x) (hle : n * 2 ^ k ≤ n' * 2 ^ k') :
    AtMost n' k' x := ⟨h.1, h.2.trans (Nat.mul_le_mul_right one hle)⟩

/-- A number of 53 bits, scaled by less than 2^970, stays below the bound of infinity. -/
theorem mul_lt_overflow {n a b : Nat} (hn : n < 2 ^ 53) (hle : a ≤ b) (hb : 0 < b) :
    n * a < (2 ^ 54 - 1) * b :=
  calc n * a ≤ n * b := Nat.mul_le_mul_left n hle
    _ < (2 ^ 54 - 1) * b := Nat.mul_lt_mul_of_pos_right (by omega) hb

/-- Below the bound of infinity, its exponent held as a variable, rounding gives a finite value. -/
theorem isFinite_pack_roundMag {num den e : Nat} (s : Bool) (hden : 0 < den) (he : e = 970)
    (h : num < (2 ^ 54 - 1) * 2 ^ e * one * den) : isFinite (pack s (roundMag num den)) = true := by
  subst he
  obtain ⟨-, -, hbelow⟩ := roundsTo_pack_roundMag s num hden
  exact decide_eq_true (hbelow h).1

theorem atMost_pack_roundMag {n k num den : Nat} (s : Bool) (hn : n < 2 ^ 53) (hk : k ≤ 900)
    (hden : 0 < den) (h : num ≤ n * 2 ^ k * one * den) :
    AtMost n k (pack s (roundMag num den)) := by
  have hmag := mag_pack s (roundMag_lt num den)
  constructor
  · obtain ⟨e, he⟩ : ∃ e, e = 970 := ⟨_, rfl⟩
    have hpow : 2 ^ k ≤ 2 ^ e := Nat.pow_le_pow_right Nat.two_pos (by omega)
    have hbound := mul_lt_overflow hn hpow (Nat.two_pow_pos e)
    refine isFinite_pack_roundMag s hden he (h.trans_lt ?_)
    exact Nat.mul_lt_mul_of_pos_right (Nat.mul_lt_mul_of_pos_right hbound one_pos) hden
  · obtain ⟨m, hm⟩ := exists_magUnits_scaled hn k
    rw [units, hmag, ← hm]
    refine magUnits_strictMono.monotone (roundMag_le_of_le hden ?_)
    rwa [hm, Nat.mul_comm den]

theorem natAbs_value (x : F64) : (value x).natAbs = units x := by
  cases h : neg x
  · rw [value_of_neg_eq_false h, Int.natAbs_natCast]
  · rw [value_of_neg_eq_true h, Int.natAbs_neg, Int.natAbs_natCast]

theorem units_negate (x : F64) : units (negate x) = units x := by rw [units, mag_negate, units]

section
variable {a b j k : Nat} {x y : F64}

theorem atMost_zero (s : Bool) (a k : Nat) : AtMost a k (pack s 0) := by
  simp [AtMost, isFinite, units, mag_pack s (show 0 < 2 ^ 63 by decide), infMag_pos]

theorem AtMost.add (hx : AtMost a k x) (hy : AtMost b k y) (hk : k ≤ 900) (hab : a + b < 2 ^ 53) :
    AtMost (a + b) k (add x y) := by
  rw [add_of_isFinite hx.1 hy.1]
  split_ifs
  · exact atMost_zero _ _ _
  · refine atMost_pack_roundMag _ hab hk Nat.one_pos ?_
    calc (value x + value y).natAbs ≤ units x + units y := by
          rw [← natAbs_value x, ← natAbs_value y]; exact Int.natAbs_add_le _ _
      _ ≤ a * 2 ^ k * one + b * 2 ^ k * one := Nat.add_le_add hx.2 hy.2
      _ = (a + b) * 2 ^ k * one * 1 := by ring

theorem AtMost.sub (hx : AtMost a k x) (hy : AtMost b k y) (hk : k ≤ 900) (hab : a + b < 2 ^ 53) :
    AtMost (a + b) k (sub x y) := by
  rw [sub_of_isFinite hx.1 hy.1]
  exact hx.add ⟨(isFinite_negate y).trans hy.1, (units_negate y).trans_le hy.2⟩ hk hab

theorem AtMost.mul (hx : AtMost a j x) (hy : AtMost b k y) (hk : j + k ≤ 900)
    (hab : a * b < 2 ^ 53) : AtMost (a * b) (j + k) (mul x y) := by
  rw [mul_of_isFinite hx.1 hy.1]
  refine atMost_pack_roundMag _ hab hk one_pos ?_
  calc units x * units y ≤ a * 2 ^ j * one * (b * 2 ^ k * one) := Nat.mul_le_mul hx.2 hy.2
    _ = a * b * 2 ^ (j + k) * one * one := by ring

/-! ## Whole numbers -/

theorem neg_ofNat (n : Nat) : neg (ofNat n) = false := neg_pack _ (roundMag_lt _ _)

theorem units_ofNat {n : Nat} (hn : n < 2 ^ 53) : units (ofNat n) = n * one := by
  have h := (value_ofNat hn).2
  rw [value_of_neg_eq_false (neg_ofNat n)] at h
  exact_mod_cast h

theorem atMost_ofNat {n : Nat} (hn : n < 2 ^ 53) : AtMost n 0 (ofNat n) :=
  ⟨(value_ofNat hn).1, by rw [units_ofNat hn, pow_zero, Nat.mul_one]⟩

theorem isZero_of_units_pos (h : 0 < units x) : isZero x = false := by
  rw [units, magUnits_pos] at h
  exact decide_eq_false (Nat.ne_of_gt h)

theorem isZero_ofNat {n : Nat} (hn : n < 2 ^ 53) (hpos : 1 ≤ n) : isZero (ofNat n) = false := by
  refine isZero_of_units_pos ?_
  rw [units_ofNat hn]
  exact Nat.mul_pos hpos one_pos

/-- A quotient by a whole number is the fraction rounded once. -/
theorem div_ofNat (hx : isFinite x = true) {c : Nat} (hc : c < 2 ^ 53) (hpos : 1 ≤ c) :
    div x (ofNat c) = pack (neg x) (roundMag (one * units x) (c * one)) := by
  rw [div_of_isFinite hx (value_ofNat hc).1, isZero_ofNat hc hpos, if_neg Bool.false_ne_true,
    units_ofNat hc, neg_ofNat, Bool.bne_false]

theorem AtMost.div_ofNat (hx : AtMost a k x) (hk : k ≤ 900) (ha : a < 2 ^ 53) {c : Nat}
    (hc : c < 2 ^ 53) (hpos : 1 ≤ c) : AtMost a k (div x (ofNat c)) := by
  rw [F64.div_ofNat hx.1 hc hpos]
  refine atMost_pack_roundMag _ ha hk (Nat.mul_pos hpos one_pos) ?_
  calc one * units x ≤ one * (a * 2 ^ k * one) := Nat.mul_le_mul_left one hx.2
    _ = a * 2 ^ k * one * one := Nat.mul_comm _ _
    _ ≤ a * 2 ^ k * one * (c * one) :=
        Nat.mul_le_mul_left _ (Nat.le_mul_of_pos_left one hpos)

/-! ## Products and clamps -/

/-- A product with a non-negative factor grows with the other factor. -/
theorem mul_le_mul {z : F64} (hx : isFinite x = true) (hy : isFinite y = true)
    (hz : isFinite z = true) (hnx : neg x = false) (hny : neg y = false) (hnz : neg z = false)
    (hle : units x ≤ units y) : le (mul x z) (mul y z) = true := by
  rw [mul_of_isFinite hx hz, mul_of_isFinite hy hz, hnx, hny, hnz,
    le_iff (isNaN_pack_roundMag _ _ _) (isNaN_pack_roundMag _ _ _)]
  rw [key, key, neg_pack _ (roundMag_lt _ _), neg_pack _ (roundMag_lt _ _),
    mag_pack _ (roundMag_lt _ _), mag_pack _ (roundMag_lt _ _), bne_self_eq_false,
    if_neg Bool.false_ne_true, if_neg Bool.false_ne_true]
  exact_mod_cast roundMag_mono (Nat.mul_le_mul_right (units z) hle)

theorem isFinite_clamp {z : F64} (hx : isFinite x = true) (hy : isFinite y = true)
    (hz : isFinite z = true) : isFinite (clamp x y z) = true := by
  unfold clamp F64.min
  split_ifs
  · exact hz
  · exact isFinite_max hx hy

/-- A value between a non-negative one and a bounded one is bounded. -/
theorem AtMost.of_between {z : F64} (hz : AtMost a k z) (hx : isFinite x = true)
    (hy : isFinite y = true) (hny : neg y = false) (hyx : le y x = true) (hxz : le x z = true) :
    AtMost a k x := by
  rw [le_iff_value hy hx, value_of_neg_eq_false hny] at hyx
  rw [le_iff_value hx hz.1] at hxz
  refine ⟨hx, le_trans ?_ hz.2⟩
  rw [← natAbs_value x, ← natAbs_value z]
  omega

end

end Sys2Proof.Machine.F64

end

section
/-! PROOF. The PLL loop of a legal decode stays finite: the phase grows by a bounded amount with
each interval, of which there are fewer than 2^32, and the frequency stays in its clamp
(spec/40_flux_pll.md R216, R219 to R221, R229). -/

namespace Sys2Proof.Machine

open F64 (AtMost)
open Claims (decodeLegal gainInRange ratiosInRange selectedRate)

/-! ## Legal operands as bounds (R53 to R55) -/

/-- The value of a power of two from 1 on, by its exponent field. -/
theorem F64.magUnits_two_pow (j : Nat) : magUnits (2 ^ 52 * (1023 + j)) = 2 ^ j * one := by
  obtain ⟨d, hd⟩ : ∃ d, d = 1022 := ⟨_, rfl⟩
  have hmag : 2 ^ 52 * (1023 + j) = 2 ^ 52 * (d + j) + 2 ^ 52 := by omega
  rw [hmag, magUnits_significand (.inr (Nat.le_refl _)) (by decide), one_eq_two_pow (e := 52 + d)
    (by omega), ← Nat.pow_add, ← Nat.pow_add]
  congr 1
  omega

theorem units_f64One : F64.units f64One = F64.one := by
  have hmag : F64.mag f64One = 2 ^ 52 * (1023 + 0) := by decide
  rw [F64.units, hmag, F64.magUnits_two_pow, pow_zero, Nat.one_mul]

theorem units_f64Ratio1024 : F64.units f64Ratio1024 = 2 ^ 10 * F64.one := by
  have hmag : F64.mag f64Ratio1024 = 2 ^ 52 * (1023 + 10) := by decide
  rw [F64.units, hmag, F64.magUnits_two_pow]

/-- A legal gain has magnitude at most 1. -/
theorem atMost_of_gainInRange {x : F64} (h : gainInRange x) : AtMost 1 0 x := by
  have hmag := (Bool.and_eq_true_iff.1 ((gainLegal_iff x).2 h)).2
  have hunits := F64.magUnits_strictMono.monotone (of_decide_eq_true hmag)
  refine ⟨h.1, ?_⟩
  rw [pow_zero, Nat.mul_one, Nat.one_mul, ← units_f64One]
  exact hunits

/-- Legal ratios are positive, ordered, and at most 2^10. -/
structure RatioBounds (fmin fmax : F64) : Prop where
  fmin_neg : F64.neg fmin = false
  fmax_neg : F64.neg fmax = false
  fmin_finite : F64.isFinite fmin = true
  ordered : F64.units fmin ≤ F64.units fmax
  fmax_le : AtMost 1 10 fmax

theorem F64.value_zero : F64.value 0 = 0 := rfl

theorem F64.neg_of_value_pos {x : F64} (h : 0 < F64.value x) : F64.neg x = false := by
  cases hn : F64.neg x with
  | false => rfl
  | true => rw [F64.value_of_neg_eq_true hn] at h; omega

theorem ratioBounds_of_ratiosInRange {fmin fmax : F64} (h : ratiosInRange fmin fmax) :
    RatioBounds fmin fmax := by
  obtain ⟨hmin, hmax, hpos, hle, htop⟩ := h
  rw [F64.lt_iff_value rfl hmin, F64.value_zero] at hpos
  rw [F64.le_iff_value hmin hmax] at hle
  rw [F64.le_iff_value hmax rfl] at htop
  have hnmin := F64.neg_of_value_pos hpos
  have hnmax := F64.neg_of_value_pos (hpos.trans_le hle)
  rw [F64.value_of_neg_eq_false hnmax] at hle htop
  rw [F64.value_of_neg_eq_false hnmin] at hle
  rw [F64.value_of_neg_eq_false (x := 0x4090000000000000) rfl] at htop
  refine ⟨hnmin, hnmax, hmin, by exact_mod_cast hle, hmax, ?_⟩
  rw [Nat.one_mul, ← units_f64Ratio1024]
  exact_mod_cast htop

/-- The nominal period is non-negative and below 2^32 (spec/40_flux_pll.md R216). -/
theorem nominalPeriod_bounds {r : Regs} (hrate : selectedRate r ≠ 0) :
    F64.neg (nominalPeriod r) = false ∧ AtMost 1 32 (nominalPeriod r) := by
  have hfreq := r.sampleFreq.isLt
  have hrate' : selectedRate r < 2 ^ 53 := by
    have := (cellRate r).isLt
    rw [toNat_cellRate] at this
    omega
  have hnum := F64.atMost_ofNat (show r.sampleFreq.toNat < 2 ^ 53 by omega)
  rw [nominalPeriod_eq]
  refine ⟨?_, (hnum.div_ofNat (by decide) (by omega) hrate' (by omega)).mono (by omega)⟩
  rw [F64.div_ofNat hnum.1 hrate' (by omega), F64.neg_pack _ (F64.roundMag_lt _ _), F64.neg_ofNat]

/-! ## The clamp (R221) -/

/-- The bounds of a legal decode's clamp: finite, non-negative, ordered, and at most 2^42. -/
structure ClampBounds (lo hi : F64) : Prop where
  lo_finite : F64.isFinite lo = true
  lo_neg : F64.neg lo = false
  ordered : F64.le lo hi = true
  hi_le : AtMost 1 42 hi

theorem clampBounds_of_legal {s : State} (h : decodeLegal s) :
    ClampBounds (F64.mul s.regs.fminRatio (nominalPeriod s.regs))
      (F64.mul s.regs.fmaxRatio (nominalPeriod s.regs)) := by
  obtain ⟨_, _, _, _, hrate, _, _, _, hratios⟩ := h
  obtain ⟨hnmin, hnmax, hmin, hle, hmax⟩ := ratioBounds_of_ratiosInRange hratios
  obtain ⟨hnt, ht⟩ := nominalPeriod_bounds hrate
  have hmin' : AtMost 1 10 s.regs.fminRatio := ⟨hmin, hle.trans hmax.2⟩
  refine ⟨(hmin'.mul ht (by decide) (by decide)).1, ?_,
    F64.mul_le_mul hmin hmax.1 ht.1 hnmin hnmax hnt hle, hmax.mul ht (by decide) (by decide)⟩
  rw [F64.mul_of_isFinite hmin ht.1, F64.neg_pack _ (F64.roundMag_lt _ _), hnmin, hnt]
  rfl

/-! ## The invariant of the loop (R229) -/

/-- The loop between tokens: no more intervals than bytes read, a phase that each interval has let
grow by at most 2^51, and a frequency of at most 2^42, in its clamp once an interval has been
fed. -/
structure LoopBounded (r : Regs) (lo hi : F64) (p : PllLoop) : Prop where
  nint_le : p.nint ≤ p.tc
  tc_le : p.tc ≤ r.fluxLen.toNat
  lo_eq : p.lo = lo
  hi_eq : p.hi = hi
  phase : AtMost (2 * p.nint) 50 p.phase
  freq : AtMost 1 42 p.freq
  clamped : p.nint ≠ 0 → F64.le lo p.freq = true ∧ F64.le p.freq hi = true

section
variable {r : Regs} {lo hi : F64} {p : PllLoop} {interval c : Nat}

/-- The phase error is at most the phase and 2^51 more (spec/40_flux_pll.md R219). -/
theorem LoopBounded.phaseError (h : LoopBounded r lo hi p) (hinterval : interval < 2 ^ 24)
    (hc : c < 2 ^ 8) : AtMost (2 * (p.nint + 1)) 50 (phaseError interval c p) := by
  have hlen := r.fluxLen.isLt
  have hnint := h.nint_le.trans h.tc_le
  have hcells : AtMost 1 50 (F64.mul (F64.ofNat c) p.freq) :=
    ((F64.atMost_ofNat (by omega)).mul h.freq (by decide) (by omega)).mono (by omega)
  have hinput : AtMost 1 50 (F64.ofNat interval) :=
    (F64.atMost_ofNat (by omega)).mono (by omega)
  exact (hinput.sub (h.phase.add hcells (by decide) (by omega)) (by decide) (by omega)).mono
    (by omega)

/-- A fed interval keeps the bounds: the gains are at most 1, and the clamp takes the rest. -/
theorem LoopBounded.advance (h : LoopBounded r lo hi p) (hphase : AtMost 1 0 r.phaseGain)
    (hfreq : AtMost 1 0 r.freqGain) (hclamp : ClampBounds lo hi) (hinterval : interval < 2 ^ 24)
    (hlow : 1 ≤ c) (hc : c < 2 ^ 8) {len : Nat} (hpos : 1 ≤ len)
    (hlen : p.tc + len ≤ r.fluxLen.toNat) : LoopBounded r lo hi (p.advance r interval c len) := by
  have hfluxLen := r.fluxLen.isLt
  have hnint := h.nint_le
  have herr := h.phaseError hinterval hc
  have hshift : AtMost (2 * (p.nint + 1)) 50
      (F64.div (F64.mul (Machine.phaseError interval c p) r.freqGain) (F64.ofNat c)) :=
    ((herr.mul hfreq (by decide) (by omega)).div_ofNat (by decide) (by omega) (by omega) hlow).mono
      (by omega)
  have hsum := (h.freq.mono (n' := 1) (k' := 50) (by decide)).add hshift (by decide) (by omega)
  have hbetween := F64.clamp_between (F64.isNaN_of_isFinite hsum.1)
    (F64.isNaN_of_isFinite hclamp.lo_finite) (F64.isNaN_of_isFinite hclamp.hi_le.1) hclamp.ordered
  have hfinite := F64.isFinite_clamp hsum.1 hclamp.lo_finite hclamp.hi_le.1
  have hnext : nextFreq (Machine.phaseError interval c p) c r.freqGain p
      = F64.clamp (F64.add p.freq (F64.div (F64.mul (Machine.phaseError interval c p) r.freqGain)
        (F64.ofNat c))) lo hi := by rw [nextFreq, h.lo_eq, h.hi_eq]
  refine ⟨Nat.add_le_add hnint hpos, hlen, h.lo_eq, h.hi_eq,
    (herr.mul hphase (by decide) (by omega)).mono (Nat.le_of_eq ?_), ?_, fun _ => ?_⟩
  · simp [PllLoop.advance]
  · show AtMost 1 42 (nextFreq _ _ _ _)
    rw [hnext]
    exact hclamp.hi_le.of_between hfinite hclamp.lo_finite hclamp.lo_neg hbetween.1 hbetween.2
  · show F64.le lo (nextFreq _ _ _ _) = true ∧ F64.le (nextFreq _ _ _ _) hi = true
    rw [hnext]
    exact hbetween

end

/-- The invariant at every token boundary of a legal decode. -/
theorem loopBounded_of_moves {s : State} (h : decodeLegal s) {p : PllLoop}
    (hp : Relation.ReflTransGen (TokenMove s.params s.regs) (startDecode s).pll p) :
    LoopBounded s.regs (F64.mul s.regs.fminRatio (nominalPeriod s.regs))
      (F64.mul s.regs.fmaxRatio (nominalPeriod s.regs)) p := by
  have hclamp := clampBounds_of_legal h
  obtain ⟨_, _, _, _, hrate, _, hphase, hfreq, _⟩ := h
  refine moves_keep (fun p q hmove hq => ?_) hp ⟨Nat.le_refl 0, Nat.zero_le _, rfl, rfl,
    F64.atMost_zero false _ _, (nominalPeriod_bounds hrate).2.mono (by decide),
    fun h0 => absurd rfl h0⟩
  cases hmove with
  | fed interval c len hinterval hlow hhigh _ hpos hlen =>
    have hmax := s.regs.pllMaxCells.isLt
    exact hq.advance (atMost_of_gainInRange hphase) (atMost_of_gainInRange hfreq) hclamp hinterval
      hlow (by omega) hpos hlen
  | dropped len _ hlen =>
    exact { hq with nint_le := hq.nint_le.trans (Nat.le_add_right _ _), tc_le := hlen }

end Sys2Proof.Machine

namespace Sys2Proof

open Machine Claims

/-- Settles O40: the invariant of the loop, which no way of ending it touches. -/
theorem frequencyStaysInItsClamp : Obligations.FrequencyStaysInItsClamp := by
  intro s n hlegal
  dsimp only
  rw [← nominalPeriod_eq]
  obtain ⟨p, hmoves, hend⟩ :=
    decodeLoop_moves n (s := startDecode s) (one_le_pllMaxCells_of_legal hlegal)
  have hclamp := clampBounds_of_legal hlegal
  obtain ⟨-, -, hlo, hhi, hphase, hfreq, hbetween⟩ := loopBounded_of_moves hlegal hmoves
  generalize (decodeLoop n (startDecode s)).pll = q at hend
  cases hend <;>
    exact ⟨hphase.1, hfreq.1, hlo, hhi, by rw [hhi]; exact hclamp.hi_le.1,
      by rw [hlo, hhi]; exact hclamp.ordered, by rw [hlo, hhi]; exact hbetween⟩

end Sys2Proof

end

section
/-! PROOF. A constant flux of period T0 (spec/40_flux_pll.md R228): every operation of the loop is
exact on it, so each interval is one cell and the loop stays where it was. -/

namespace Sys2Proof.Machine.F64

/-! ## Exact results -/

/-- A fraction that is a finite value rounds to it. -/
theorem pack_roundMag_exact {x : F64} (hx : isFinite x = true) {num den : Nat} (hden : 0 < den)
    (h : num = den * units x) : pack (neg x) (roundMag num den) = x := by
  rw [h, units, roundMag_exact (of_decide_eq_true hx) hden, pack_neg_mag]

theorem isZero_pack_zero (s : Bool) : isZero (pack s 0) = true := by
  rw [isZero, mag_pack s (by decide)]
  rfl

theorem units_of_isZero {x : F64} (h : isZero x = true) : units x = 0 := by
  rw [units, of_decide_eq_true h, magUnits_zero]

theorem value_of_isZero {x : F64} (h : isZero x = true) : value x = 0 := by
  rw [← Int.natAbs_eq_zero, natAbs_value, units_of_isZero h]

theorem isFinite_of_isZero {x : F64} (h : isZero x = true) : isFinite x = true := by
  rw [isFinite, of_decide_eq_true h]
  rfl

theorem roundMag_zero {den : Nat} (hden : 0 < den) : roundMag 0 den = 0 :=
  roundMag_exact (m := 0) infMag_pos hden

/-- A finite value above zero. -/
structure Positive (x : F64) : Prop where
  finite : isFinite x = true
  neg : neg x = false
  units : 0 < units x

theorem positive_ofNat {n : Nat} (hn : n < 2 ^ 53) (hpos : 1 ≤ n) : Positive (ofNat n) :=
  ⟨(value_ofNat hn).1, neg_ofNat n, by rw [units_ofNat hn]; exact Nat.mul_pos hpos one_pos⟩

section
variable {x y z : F64}

theorem isZero_mul (hz : isZero z = true) (hy : isFinite y = true) : isZero (mul z y) = true := by
  rw [mul_of_isFinite (isFinite_of_isZero hz) hy, units_of_isZero hz, Nat.zero_mul,
    roundMag_zero one_pos]
  exact isZero_pack_zero _

theorem isZero_div_ofNat (hz : isZero z = true) {c : Nat} (hc : c < 2 ^ 53) (hpos : 1 ≤ c) :
    isZero (div z (ofNat c)) = true := by
  rw [div_ofNat (isFinite_of_isZero hz) hc hpos, units_of_isZero hz, Nat.mul_zero,
    roundMag_zero (Nat.mul_pos hpos one_pos)]
  exact isZero_pack_zero _

theorem isZero_sub_self (hx : isFinite x = true) : isZero (sub x x) = true := by
  rw [sub_of_isFinite hx hx, add_of_isFinite hx (by rwa [isFinite_negate]), value_negate,
    if_pos (by omega)]
  exact isZero_pack_zero _

/-- A product with 1.0 is exact. -/
theorem mul_of_units_one (hy : Positive y) (hone : units y = one) (hx : isFinite x = true) :
    mul y x = x := by
  rw [mul_of_isFinite hy.finite hx, hy.neg, Bool.false_bne, hone]
  exact pack_roundMag_exact hx one_pos rfl

/-- A positive value divided by itself is 1.0. -/
theorem div_self_ofNat {n : Nat} (hn : n < 2 ^ 53) (hpos : 1 ≤ n) :
    div (ofNat n) (ofNat n) = ofNat 1 := by
  rw [div_ofNat (value_ofNat hn).1 hn hpos, neg_ofNat, ← neg_ofNat 1]
  refine pack_roundMag_exact (value_ofNat (by decide)).1 (Nat.mul_pos hpos one_pos) ?_
  rw [units_ofNat hn, units_ofNat (by decide)]
  ring

theorem roundHalfAway_ofNat_one : roundHalfAway (ofNat 1) = 1 := by
  have hone := one_pos
  rw [roundHalfAway_of_neg_eq_false (neg_ofNat 1), units_ofNat (by decide),
    Nat.div_eq_of_lt_le (k := 1) (n := 2 * one) (by omega) (by omega)]
  rfl

variable (hx : Positive x) (hz : isZero z = true)
include hx hz

/-- Adding a zero of either sign to a positive value is exact. -/
theorem add_isZero_right : add x z = x := by
  have hpos := hx.units
  have hsign : decide (value x < 0) = neg x := by
    rw [hx.neg, value_of_neg_eq_false hx.neg]
    exact decide_eq_false (by omega)
  rw [add_of_isFinite hx.finite (isFinite_of_isZero hz), value_of_isZero hz, Int.add_zero,
    if_neg (by rw [value_of_neg_eq_false hx.neg]; omega), hsign, natAbs_value]
  exact pack_roundMag_units hx.finite

theorem add_isZero_left : add z x = x := by
  have hcomm : add z x = add x z := by
    rw [add_of_isFinite hx.finite (isFinite_of_isZero hz),
      add_of_isFinite (isFinite_of_isZero hz) hx.finite, Int.add_comm, Bool.and_comm]
  rw [hcomm, add_isZero_right hx hz]

theorem sub_isZero_right : sub x z = x := by
  have hz' : isZero (negate z) = true := by rwa [isZero, mag_negate]
  rw [sub_of_isFinite hx.finite (isFinite_of_isZero hz), add_isZero_right hx hz']

end

end Sys2Proof.Machine.F64

namespace Sys2Proof.Machine

open Claims (tokenBytes tokenInterval fluxHolds decodeLegal decoded selectedRate)

/-! ## One interval of T0 -/

/-- The operands of a loop that T0 = `n` keeps locked: gains finite and `n` within the clamp. -/
structure Lockable (n : Nat) (s : State) : Prop where
  pos : 1 ≤ n
  lt : n < 2 ^ 24
  cells : 1 ≤ s.regs.pllMaxCells.toNat
  phaseGain : F64.isFinite s.regs.phaseGain = true
  freqGain : F64.isFinite s.regs.freqGain = true
  lo : F64.le s.pll.lo (F64.ofNat n) = true
  hi : F64.le (F64.ofNat n) s.pll.hi = true

/-- The loop after `k` intervals of T0 = `n`. -/
structure Locked (n k : Nat) (p : PllLoop) : Prop where
  phase : F64.isZero p.phase = true
  freq : p.freq = F64.ofNat n
  out : p.out = List.replicate k true
  nint : p.nint = k
  ndrop : p.ndrop = 0
  ovf : p.ovf = false

theorem Lockable.positive {n : Nat} {s : State} (h : Lockable n s) : F64.Positive (F64.ofNat n) :=
  F64.positive_ofNat (h.lt.trans (by decide)) h.pos

theorem Lockable.ofLoopOnly {n : Nat} {s t : State} (h : Lockable n s) (hl : LoopOnly s t) :
    Lockable n t := by
  refine ⟨h.pos, h.lt, ?_, ?_, ?_, ?_, ?_⟩
  · rw [hl.regs]; exact h.cells
  · rw [hl.regs]; exact h.phaseGain
  · rw [hl.regs]; exact h.freqGain
  · rw [hl.lo]; exact h.lo
  · rw [hl.hi]; exact h.hi

section
variable {n k : Nat} {s : State} (ho : Lockable n s) (h : Locked n k s.pll)
include ho h

theorem cellCount_locked : (cellCount n s).1 = 1 := by
  have hfin := (F64.value_ofNat (n := 1) (by decide)).1
  have hquot : cellQuotient n s.pll = F64.ofNat 1 := by
    rw [cellQuotient, h.freq, F64.sub_isZero_right ho.positive h.phase,
      F64.div_self_ofNat (ho.lt.trans (by decide)) ho.pos]
  have hmax := ho.cells
  rw [cellCount_of_not_isNaN (by rw [hquot]; exact F64.isNaN_of_isFinite hfin), hquot,
    cellsOfQuotient, F64.isInf_of_isFinite hfin, if_neg Bool.false_ne_true,
    F64.roundHalfAway_ofNat_one, clampCells]
  omega

theorem phaseError_locked : F64.isZero (phaseError n 1 s.pll) = true := by
  have hmul : F64.mul (F64.ofNat 1) (F64.ofNat n) = F64.ofNat n :=
    F64.mul_of_units_one (F64.positive_ofNat (by decide) (by decide))
      ((F64.units_ofNat (by decide)).trans (Nat.one_mul _)) ho.positive.finite
  rw [phaseError, h.freq, hmul, F64.add_isZero_left ho.positive h.phase]
  exact F64.isZero_sub_self ho.positive.finite

theorem nextFreq_locked :
    nextFreq (phaseError n 1 s.pll) 1 s.regs.freqGain s.pll = F64.ofNat n := by
  have hstep := F64.isZero_div_ofNat (F64.isZero_mul (phaseError_locked ho h) ho.freqGain) (c := 1)
    (by decide) (by decide)
  rw [nextFreq, h.freq, F64.add_isZero_right ho.positive hstep, F64.clamp_self ho.lo ho.hi]

/-- An interval of T0 is one cell and leaves the loop locked (spec/40_flux_pll.md R217 to R221). -/
theorem feed_locked (len : Nat) (hfits : k + 1 ≤ 8 * s.params.bitbufCap) :
    Locked n (k + 1) (feed n len s).pll ∧ (feed n len s).pll.tc = s.pll.tc + len := by
  have hcount := cellCount_locked ho h
  have hout : s.pll.out ++ cellBits 1 = List.replicate (k + 1) true := by
    rw [h.out, List.replicate_succ']
    rfl
  rcases feed_cases n len s with ⟨hover, _⟩ | ⟨_, e⟩
  · rw [hcount, h.out, List.length_replicate] at hover
    omega
  · rw [e, hcount]
    exact ⟨⟨F64.isZero_mul (phaseError_locked ho h) ho.phaseGain, nextFreq_locked ho h, hout,
      congrArg (· + 1) h.nint, h.ndrop, h.ovf⟩, rfl⟩

end

/-! ## A run of tokens -/

theorem tokenInterval_lt {i : Instr} {n : Nat} (h : tokenInterval i = some n) : n < 2 ^ 24 := by
  cases i with
  | pllDecode | frame | decodeFrame | wbDetect | tokEscUndef => simp [tokenInterval] at h
  | tokLit | tokEsc8 | tokEsc24 =>
    simp only [tokenInterval, Option.some.injEq] at h
    omega

theorem opOfInstr_of_interval {i : Instr} {n : Nat} (h : tokenInterval i = some n) :
    opOfInstr i = none := by
  cases i with
  | pllDecode | frame | decodeFrame | wbDetect => simp [tokenInterval] at h
  | tokLit | tokEsc8 | tokEsc24 | tokEscUndef => rfl

/-- The effect of a token that has an interval is to feed it. -/
theorem tokenEffect_of_interval {i : Instr} {n : Nat} (h : tokenInterval i = some n) (s : State) :
    tokenEffect i s = feed n (tokenBytes i).length s := by
  cases i with
  | pllDecode | frame | decodeFrame | wbDetect | tokEscUndef => simp [tokenInterval] at h
  | tokLit | tokEsc8 | tokEsc24 =>
    cases h
    rfl

theorem length_le_flatMap_tokenBytes {tokens : List Instr} {n : Nat}
    (h : ∀ i ∈ tokens, i.wf = true ∧ tokenInterval i = some n) :
    tokens.length ≤ (tokens.flatMap tokenBytes).length := by
  induction tokens with
  | nil => exact Nat.le_refl 0
  | cons i tokens ih =>
    obtain ⟨⟨_, hinterval⟩, hrest⟩ := List.forall_mem_cons.1 h
    have hpos := (tokenBytes_length (opOfInstr_of_interval hinterval)).1
    have := ih hrest
    rw [List.flatMap_cons, List.length_append, List.length_cons]
    omega

theorem fluxHolds_append {s : State} {j : Nat} {a b : List Byte} (h : fluxHolds s j (a ++ b)) :
    fluxHolds s j a ∧ fluxHolds s (j + a.length) b := by
  refine ⟨fun k hk => ?_, fun k hk => ?_⟩
  · rw [h k (by rw [List.length_append]; omega), List.getElem?_append_left hk]
  · rw [Nat.add_assoc, h _ (by rw [List.length_append]; omega),
      List.getElem?_append_right (Nat.le_add_right _ _), Nat.add_sub_cancel_left]

/-- A run of tokens of interval T0 up to the end of FLUX leaves the loop locked and reads no
unwritten cell. -/
theorem decodeLoop_locked {n : Nat} (tokens : List Instr) {s : State} {k fuel : Nat}
    (htokens : ∀ i ∈ tokens, i.wf = true ∧ tokenInterval i = some n) (ho : Lockable n s)
    (h : Locked n k s.pll) (hfuel : tokens.length ≤ fuel)
    (hfits : k + tokens.length ≤ 8 * s.params.bitbufCap)
    (hlen : s.pll.tc + (tokens.flatMap tokenBytes).length = s.regs.fluxLen.toNat)
    (hheld : fluxHolds s s.pll.tc (tokens.flatMap tokenBytes)) :
    Locked n (k + tokens.length) (decodeLoop (fuel + 1) s).pll ∧
      (decodeLoop (fuel + 1) s).uninitRead = s.uninitRead := by
  induction tokens generalizing s k fuel with
  | nil =>
    rw [decodeLoop_of_stop h.ovf (fetchToken_of_end hlen.ge)]
    exact ⟨h, rfl⟩
  | cons i tokens ih =>
    obtain ⟨⟨hwf, hinterval⟩, hrest⟩ := List.forall_mem_cons.1 htokens
    have htoken := isToken_of_opOfInstr_none (opOfInstr_of_interval hinterval)
    simp only [List.flatMap_cons, List.length_append, List.length_cons] at hlen hheld hfuel hfits ⊢
    obtain ⟨hfirst, htail⟩ := fluxHolds_append hheld
    obtain ⟨hlocked, htc⟩ := feed_locked ho h (tokenBytes i).length (by omega)
    have hloop := feed_loopOnly n (tokenBytes i).length s
    obtain ⟨fuel, rfl⟩ := Nat.exists_eq_add_one_of_ne_zero (show fuel ≠ 0 by omega)
    rw [decodeLoop_of_token h.ovf (fetchToken_of_tokenBytes htoken hwf hfirst (by omega)),
      tokenEffect_of_interval hinterval, ← feed_uninitRead n (tokenBytes i).length s,
      Nat.add_comm tokens.length, ← Nat.add_assoc]
    refine ih hrest (ho.ofLoopOnly hloop) hlocked (by omega) (by rw [hloop.params]; omega)
      (by rw [htc, hloop.regs]; omega) ?_
    rw [htc, fluxHolds, hloop.mem]
    exact htail

/-! ## The start of a decode at T0 -/

/-- A sample rate of `n` times the cell rate makes T0 = `n` exactly (spec/40_flux_pll.md R216). -/
theorem nominalPeriod_of_multiple {r : Regs} {n : Nat} (hn : n < 2 ^ 53)
    (hrate : selectedRate r ≠ 0) (h : r.sampleFreq.toNat = n * selectedRate r) :
    nominalPeriod r = F64.ofNat n := by
  have hfreq := r.sampleFreq.isLt
  have hrate' : selectedRate r < 2 ^ 53 := by
    have := (cellRate r).isLt
    rw [toNat_cellRate] at this
    omega
  have hpos : 1 ≤ selectedRate r := by omega
  rw [nominalPeriod_eq, F64.div_ofNat (F64.value_ofNat (by omega)).1 hrate' hpos, F64.neg_ofNat,
    ← F64.neg_ofNat n]
  refine F64.pack_roundMag_exact (F64.value_ofNat hn).1 (Nat.mul_pos hpos F64.one_pos) ?_
  rw [F64.units_ofNat (by omega), F64.units_ofNat hn, h]
  ring

theorem f64One_mul {x : F64} (hx : F64.isFinite x = true) : F64.mul f64One x = x :=
  F64.mul_of_units_one ⟨rfl, rfl, by rw [units_f64One]; exact F64.one_pos⟩ units_f64One hx

/-- With a ratio clamp that contains 1.0 the clamp contains T0. -/
theorem lockable_startDecode {s : State} {n : Nat} (h : decodeLegal s) (hn : n < 2 ^ 24)
    (hfreq : s.regs.sampleFreq.toNat = n * selectedRate s.regs)
    (hlo : F64.le s.regs.fminRatio f64One = true) (hhi : F64.le f64One s.regs.fmaxRatio = true) :
    Lockable n (startDecode s) := by
  have hcells := one_le_pllMaxCells_of_legal h
  obtain ⟨_, _, _, hsample, hrate, _, hphase, hgain, hratios⟩ := h
  obtain ⟨hnmin, hnmax, hmin, _, hmax⟩ := ratioBounds_of_ratiosInRange hratios
  have ht : nominalPeriod s.regs = F64.ofNat n :=
    nominalPeriod_of_multiple (hn.trans (by decide)) hrate hfreq
  have hfin := (F64.value_ofNat (hn.trans (show 2 ^ 24 < 2 ^ 53 by decide))).1
  have hpos : 1 ≤ n := Nat.one_le_iff_ne_zero.2 fun h0 =>
    ne_zero_iff_toNat.1 hsample (by rw [hfreq, h0, Nat.zero_mul])
  rw [F64.le_iff_value hmin rfl, F64.value_of_neg_eq_false hnmin,
    F64.value_of_neg_eq_false (x := f64One) rfl] at hlo
  rw [F64.le_iff_value rfl hmax.1, F64.value_of_neg_eq_false hnmax,
    F64.value_of_neg_eq_false (x := f64One) rfl] at hhi
  have hlow := F64.mul_le_mul hmin (y := f64One) rfl hfin hnmin rfl (F64.neg_ofNat n)
    (by exact_mod_cast hlo)
  have hhigh := F64.mul_le_mul (x := f64One) rfl hmax.1 hfin rfl hnmax (F64.neg_ofNat n)
    (by exact_mod_cast hhi)
  rw [f64One_mul hfin, ← ht] at hlow hhigh
  exact ⟨hpos, hn, hcells, hphase.1, hgain.1, ht ▸ hlow, ht ▸ hhigh⟩

end Sys2Proof.Machine

namespace Sys2Proof

open Machine Claims

/-- Settles O41: the loop starts locked to T0, and each interval of T0 keeps it so. -/
theorem constantPeriodDecodesToOnes : Obligations.ConstantPeriodDecodesToOnes := by
  intro s tokens n hp hlegal htokens hfreq hlo hhi hfits hlen hheld
  have ⟨hnonempty, _, _, _, hrate, _⟩ := hlegal
  have hn : n < 2 ^ 24 := by
    obtain ⟨i, hi⟩ := List.exists_mem_of_ne_nil tokens fun h0 =>
      ne_zero_iff_toNat.1 hnonempty (by rw [hlen, h0]; rfl)
    exact tokenInterval_lt (htokens i hi).2
  have hfuel : tokens.length ≤ s.regs.fluxLen.toNat := hlen ▸ length_le_flatMap_tokenBytes htokens
  have ht0 : nominalPeriod s.regs = F64.ofNat n :=
    nominalPeriod_of_multiple (hn.trans (by decide)) hrate hfreq
  have hstart : Locked n 0 (startDecode s).pll := ⟨rfl, ht0, rfl, rfl, rfl, rfl⟩
  obtain ⟨hlocked, hmark⟩ := decodeLoop_locked tokens htokens
    (lockable_startDecode hlegal hn hfreq hlo hhi) hstart hfuel (by rwa [Nat.zero_add])
    ((Nat.zero_add _).trans hlen.symm) hheld
  rw [Nat.zero_add] at hlocked
  obtain ⟨hphase, hfreq', hout, hnint, hndrop, hovf⟩ : Locked n tokens.length (decoded s) := hlocked
  have hbits := decoded_length_lt hp hlegal
  have hheld' := bitbufHolds_left (decodeBody_bitbufHolds s)
  rw [hout] at hheld'
  rw [hout, List.length_replicate] at hbits
  refine ⟨_, exec_of_legal (c := .pllDecode) hlegal, ?_, ?_, ?_, ?_, ?_, ?_, ?_, ?_, hmark,
    hheld'⟩ <;>
    simp only [Op.body, succeedCommand_regs, decodeBody_regs, hout, hnint, hndrop,
      List.length_replicate]
  · exact toNat_word_ofNat hbits
  · exact toNat_word_ofNat hbits
  · rfl
  · exact hfreq'
  · rw [decoded_t0, ht0]
  · exact hphase
  · exact hovf
  · rfl

end Sys2Proof

end

section
/-! PROOF. FRAME and DECODE_FRAME as commands: validation, what a successful FRAME commits, and that
DECODE_FRAME is PLL_DECODE followed by FRAME (spec/41_sync_framer.md R261, R280, R284, R290). -/

namespace Sys2Proof.Machine

open Claims (frameLegal failedWith framed parsed sectWord crcErrorsOf decodeLegal)

/-! ## Validation (R261) -/

theorem validateFrame_of_not_legal {s : State} (h : ¬ frameLegal s) :
    validateFrame s = some .badParam := by
  have hchecks : validateFrame s = none ∨ validateFrame s = some .badParam := by
    rw [validateFrame]
    split_ifs <;> simp
  exact hchecks.resolve_left fun hn => h (validateFrame_eq_none_iff.1 hn)

theorem exec_frame_of_not_legal {s : State} (h : ¬ frameLegal s) :
    exec .frame s = .next (failedWith 4 s) := by
  rw [exec, execFrame, validateFrame_of_not_legal h]
  rfl

/-! ## The tables a frame commits (R280) -/

theorem framed_bounded (s : State) : (framed s).Bounded s.params := frameStage_bounded s

/-- An empty stream frames nothing. -/
theorem framed_of_empty {s : State} (h : s.regs.bitCount = 0) : framed s = Framer.reset := by
  rw [framed, frameStage, h]
  rfl

/-- The parse a frame commits runs over the framed bytes and entries (spec/41_sync_framer.md
R270). -/
theorem parsed_eq (s : State) :
    parsed s = parseEntries s.params s.regs.ctrl.encoding (framed s).raw (framed s).idam
      Parser.reset := by
  rw [parsed, parseStage_parser, (frameStage_frameOnly s).params, (frameStage_frameOnly s).regs]
  rfl

theorem parsed_length_le (s : State) :
    (parsed s).sect.length ≤ s.params.sectorCap ∧
    (parsed s).sect.length ≤ (framed s).idam.length := by
  have h := parseEntries_length s.params s.regs.ctrl.encoding (framed s).raw (framed s).idam
    Parser.reset (Nat.zero_le _)
  rw [parsed_eq]
  exact ⟨h.1, h.2.trans_eq (Nat.zero_add _)⟩

theorem parsed_within (s : State) : ∀ r ∈ (parsed s).sect, r.Within (framed s).raw.length := by
  rw [parsed_eq]
  exact parseEntries_within _ _ _ _

/-- The memory a frame leaves, in the words of the statements. -/
theorem frameBody_mem_tables (s : State) :
    (frameBody s).mem
      = { s.mem with
          raw := bufWrite s.mem.raw 0 (framed s).raw
          idam := bufWrite s.mem.idam 0 ((framed s).idam.map IdamEntry.word)
          sect := bufWrite s.mem.sect 0 ((parsed s).sect.flatMap SectorRecord.words) } :=
  frameBody_mem s

/-- A cell written from index 0 on reads its value. -/
theorem bufGet_bufWrite_getElem? {w : Nat} (m : Buf w) (vs : List (BitVec w)) {i : Nat}
    (h : i < vs.length) : bufGet (bufWrite m 0 vs) i = vs[i]? := by
  rw [List.getElem?_eq_getElem h, ← bufGet_bufWrite_in m 0 vs i h, Nat.zero_add]

/-! ## The layouts as numbers (R170, R171) -/

theorem toNat_idamWord {e : IdamEntry} (h : e.offset < 2 ^ 16) :
    e.word.toNat = e.offset + 65536 * e.density.toNat := by
  have hoff : e.offset % 2 ^ 16 = e.offset := Nat.mod_eq_of_lt h
  rw [IdamEntry.word, BitVec.toNat_append, BitVec.toNat_ofNat, hoff,
    ← Nat.shiftLeft_add_eq_or_of_lt h, BitVec.toNat_append]
  simp [Nat.shiftLeft_eq]
  omega

theorem toNat_sectWord_id (r : SectorRecord) :
    (r.sizeCode ++ r.sector ++ r.head ++ r.cyl).toNat = sectWord r 0 := by
  rw [BitVec.toNat_append, ← Nat.shiftLeft_add_eq_or_of_lt r.cyl.isLt, BitVec.toNat_append,
    ← Nat.shiftLeft_add_eq_or_of_lt r.head.isLt, BitVec.toNat_append,
    ← Nat.shiftLeft_add_eq_or_of_lt r.sector.isLt]
  simp only [Nat.shiftLeft_eq, sectWord]
  omega

theorem toNat_sectWord_data {r : SectorRecord} (hoff : r.dataOffset < 2 ^ 16)
    (hsize : r.dataSize < 2 ^ 16) :
    (BitVec.ofNat 16 r.dataSize ++ BitVec.ofNat 16 r.dataOffset).toNat = sectWord r 2 := by
  rw [BitVec.toNat_append, BitVec.toNat_ofNat, BitVec.toNat_ofNat, Nat.mod_eq_of_lt hoff,
    Nat.mod_eq_of_lt hsize, ← Nat.shiftLeft_add_eq_or_of_lt hoff]
  simp only [Nat.shiftLeft_eq, sectWord]
  omega

theorem toNat_sectWord_flags (r : SectorRecord) :
    (bitAt r.dataCrcOk 17 ||| bitAt r.idCrcOk 16 ||| (r.damType.setWidth 32 <<< 8)
      ||| r.enc.setWidth 32).toNat = sectWord r 1 := by
  have hdam : (r.damType.setWidth 32).toNat = r.damType.toNat :=
    BitVec.toNat_setWidth_of_le (by decide)
  have henc : LowBits (r.enc.setWidth 32) 2 r.enc.toNat :=
    ⟨BitVec.toNat_setWidth_of_le (by decide), r.enc.isLt⟩
  have hword := ((henc.or_field (r.damType.setWidth 32) (m := 8) (w := 8) (by omega) (by decide)
    (by decide)).or_bitAt r.idCrcOk (m := 16) (by decide) (by decide)).or_bitAt r.dataCrcOk
    (m := 17) (by decide) (by decide)
  rw [hdam] at hword
  refine (congrArg BitVec.toNat ?_).trans hword.1
  ac_rfl

/-- Word `j` of record `i` is word `3 i + j` of the table. -/
theorem getElem?_sectorWords {l : List SectorRecord} {i : Nat} {r : SectorRecord}
    (h : l[i]? = some r) {j : Nat} (hj : j < 3) :
    (l.flatMap SectorRecord.words)[3 * i + j]? = r.words[j]? := by
  induction l generalizing i with
  | nil => simp at h
  | cons r' l ih =>
    rw [List.flatMap_cons]
    cases i with
    | zero =>
      obtain rfl : r' = r := by simpa using h
      rw [Nat.mul_zero, Nat.zero_add, List.getElem?_append_left hj]
    | succ i =>
      rw [List.getElem?_append_right (by rw [SectorRecord.words_length]; omega),
        SectorRecord.words_length, show 3 * (i + 1) + j - 3 = 3 * i + j by omega]
      exact ih (by simpa using h)

theorem toNat_sectorWords {r : SectorRecord} {len : Nat} (h : r.Within len) (hlen : len < 2 ^ 16)
    {j : Nat} (hj : j < 3) : r.words[j]?.map BitVec.toNat = some (sectWord r j) := by
  obtain ⟨hfits, -⟩ := h
  match j with
  | 0 => exact congrArg some (toNat_sectWord_id r)
  | 1 => exact congrArg some (toNat_sectWord_flags r)
  | 2 => exact congrArg some (toNat_sectWord_data (by omega) (by omega))

/-! ## CRC_ERRORS (R284) -/

theorem crcErrorCount_eq (l : List SectorRecord) : crcErrorCount l = crcErrorsOf l := by
  induction l with
  | nil => rfl
  | cons r l ih =>
    simp only [crcErrorCount, crcErrorsOf, List.map_cons, List.sum_cons, SectorRecord.crcErrors,
      List.filter_cons] at ih ⊢
    rw [ih]
    cases r.idCrcOk <;> cases r.damType != 0 && !r.dataCrcOk <;> simp <;> omega

theorem crcErrorsOf_le (l : List SectorRecord) : crcErrorsOf l ≤ 2 * l.length := by
  have hid := List.length_filter_le (fun r : SectorRecord => !r.idCrcOk) l
  have hdata := List.length_filter_le (fun r : SectorRecord => r.damType != 0 && !r.dataCrcOk) l
  rw [crcErrorsOf]
  omega

/-! ## The completion in between (R290) -/

theorem engineRead_succeedCommand (b : ByteBuf) (i : Nat) (s : State) :
    engineRead b i (succeedCommand s)
      = ((engineRead b i s).1, succeedCommand (engineRead b i s).2) := by
  rw [engineRead, engineRead, succeedCommand_mem]
  cases bufGet (s.mem.bytes b) i <;> rfl

theorem frameStep_succeedCommand (s : State) :
    frameStep (succeedCommand s) = succeedCommand (frameStep s) := by
  rw [frameStep, readStreamBit, succeedCommand_framer, engineRead_succeedCommand]
  rfl

/-- The framing loop does not look at the engine or at STATUS. -/
theorem frameLoop_succeedCommand (n : Nat) (s : State) :
    frameLoop n (succeedCommand s) = succeedCommand (frameLoop n s) := by
  induction n generalizing s with
  | zero => rfl
  | succ n ih =>
    rw [frameLoop, frameLoop, succeedCommand_framer, frameStep_succeedCommand, ih]
    split_ifs <;> rfl

/-- A completion before a frame leaves no trace in the completion after it. -/
theorem frameBody_succeedCommand (s : State) :
    succeedCommand (frameBody (succeedCommand s)) = succeedCommand (frameBody s) := by
  have hstage : frameStage (succeedCommand s) = succeedCommand (frameStage s) :=
    frameLoop_succeedCommand s.regs.bitCount.toNat { s with framer := Framer.reset }
  rw [frameBody, hstage]
  rfl

/-- What a legal decode leaves passes the validation of a frame. -/
theorem frameLegal_decodeBody {s : State} (hp : s.params.wf = true) (h : decodeLegal s) :
    frameLegal (succeedCommand (decodeBody s)) := by
  have ⟨_, _, henc, _⟩ := h
  refine ⟨?_, ?_⟩ <;> simp only [succeedCommand_regs, succeedCommand_params, decodeBody_regs]
  · exact henc
  · rw [toNat_word_ofNat (decoded_length_lt hp h), (decodeBody_frame s).1]
    exact decoded_fits h

end Sys2Proof.Machine

namespace Sys2Proof

open Machine Claims

/-- Settles O43: a failure writes STATUS alone, and the loop over no bits frames nothing. -/
theorem frameValidatesEncodingAndLength : Obligations.FrameValidatesEncodingAndLength := by
  refine fun s => ⟨exec_frame_of_not_legal, fun hlegal hempty => ?_⟩
  have hframed := framed_of_empty hempty
  have hparsed := parsed_of_no_idam (congrArg Framer.idam hframed)
  refine ⟨_, exec_of_legal (c := .frame) hlegal, ?_⟩
  simp only [Op.body, succeedCommand_regs, frameBody_regs, hframed, hparsed]
  exact ⟨rfl, rfl, rfl, rfl⟩

/-- Settles O44: the body writes each table from cell 0 on, and with R6's capacities every count,
offset and size fits its field. -/
theorem frameCommitsItsTables : Obligations.FrameCommitsItsTables := by
  intro s hp hlegal
  obtain ⟨_, _, hrawCap, hsectorCap, _⟩ := params_bounds hp
  obtain ⟨hraw, hidam, hbelow, -⟩ := framed_bounded s
  obtain ⟨hsect, -⟩ := parsed_length_le s
  have hcrc := crcErrorsOf_le (parsed s).sect
  have hidam64 : (framed s).idam.length ≤ 64 := hidam
  refine ⟨_, exec_of_legal (c := .frame) hlegal, succeedCommand_eng _, ?_, ?_, ?_, ?_, ?_, ?_, ?_,
    ?_, ?_, ?_, ?_⟩ <;>
    simp only [Op.body, succeedCommand_regs, succeedCommand_mem, frameBody_regs,
      frameBody_mem_tables]
  · exact toNat_word_ofNat (by omega)
  · exact toNat_word_ofNat (by omega)
  · exact toNat_word_ofNat (by omega)
  · rw [crcErrorCount_eq]
    exact toNat_word_ofNat (by omega)
  · rfl
  · exact fun i hi => bufGet_bufWrite_getElem? _ _ hi
  · intro i e he
    have hi : i < (framed s).idam.length := (List.getElem?_eq_some_iff.1 he).1
    have hoff := hbelow e (List.mem_of_getElem? he)
    rw [bufGet_bufWrite_getElem? _ _ (by rwa [List.length_map]), List.getElem?_map, he,
      Option.map_some, Option.map_some, toNat_idamWord (by omega)]
  · intro i r hr j hj
    have hi : i < (parsed s).sect.length := (List.getElem?_eq_some_iff.1 hr).1
    rw [bufGet_bufWrite_getElem? _ _ (by rw [sectorWords_length]; omega),
      getElem?_sectorWords hr hj,
      toNat_sectorWords (parsed_within s r (List.mem_of_getElem? hr)) (by omega) hj]
  · exact fun i hi => bufGet_bufWrite_past _ _ hi
  · exact fun i hi => bufGet_bufWrite_past _ _ (by rwa [List.length_map])
  · exact fun i hi => bufGet_bufWrite_past _ _ (by rwa [sectorWords_length])

/-- Settles O52: the two commands validate alike, and the completion of the decode in between
touches nothing that the frame reads. -/
theorem decodeFrameIsDecodeThenFrame : Obligations.DecodeFrameIsDecodeThenFrame := by
  refine fun s => ⟨fun hp hlegal => ?_, fun hillegal => ?_⟩
  · have hframe := frameLegal_decodeBody hp hlegal
    exact ⟨_, _, exec_of_legal (c := .pllDecode) hlegal, hframe,
      (exec_of_legal (c := .frame) hframe).trans
        (congrArg Host.Outcome.next (frameBody_succeedCommand (decodeBody s))),
      exec_of_legal (c := .decodeFrame) hlegal⟩
  · obtain ⟨e, he⟩ := Option.ne_none_iff_exists'.1 (mt validateDecode_eq_none_iff.1 hillegal)
    exact ⟨e.code, exec_decode_of_check he (by simp), exec_decode_of_check he (by simp)⟩

end Sys2Proof

end

section
/-! PROOF. Where the bytes of a framed stream begin: `byteStarts` of the statements one stream bit
at a time, and the indices of the sync matches among them (spec/41_sync_framer.md R263, R285). -/

namespace Sys2Proof.Machine

open Claims (byteStarts)

/-! ## The last match before a bit -/

/-- The last match that begins before bit `q`, 0 where there is none. -/
def lastMatch (sync : Nat → Bool) (q : Nat) : Nat := ((List.range q).filter sync).getLastD 0

/-- A byte's window begins at bit `q`. -/
def startsAt (sync : Nat → Bool) (q : Nat) : Bool :=
  sync q || decide ((q - lastMatch sync q) % 16 = 0)

section
variable {sync : Nat → Bool} {a b n q x m : Nat}

theorem lastMatch_succ (sync : Nat → Bool) (q : Nat) :
    lastMatch sync (q + 1) = if sync q then q else lastMatch sync q := by
  rw [lastMatch, lastMatch, List.range_succ, List.filter_append, List.filter_singleton]
  cases sync q <;> simp

theorem lastMatch_le (sync : Nat → Bool) (q : Nat) : lastMatch sync q ≤ q := by
  induction q with
  | zero => exact Nat.le_refl 0
  | succ q ih =>
    rw [lastMatch_succ]
    split_ifs <;> omega

theorem lastMatch_of_no_match (hab : a ≤ b) (h : ∀ x, a ≤ x → x < b → sync x = false) :
    lastMatch sync b = lastMatch sync a := by
  induction b, hab using Nat.le_induction with
  | base => rfl
  | succ b hb ih =>
    rw [lastMatch_succ, h b hb (Nat.lt_succ_self b), if_neg Bool.false_ne_true]
    exact ih fun x hlow hhigh => h x hlow (Nat.lt_succ_of_lt hhigh)

/-- Where matches begin on multiples of 16 alone, so does the last one. -/
theorem lastMatch_aligned (h : ∀ x, x < q → sync x = true → x % 16 = 0) :
    lastMatch sync q % 16 = 0 := by
  induction q with
  | zero => rfl
  | succ q ih =>
    rw [lastMatch_succ]
    split_ifs with hs
    · exact h q (Nat.lt_succ_self q) hs
    · exact ih fun x hx => h x (Nat.lt_succ_of_lt hx)

theorem startsAt_of_match (h : sync q = true) : startsAt sync q = true := by
  rw [startsAt, h, Bool.true_or]

theorem startsAt_of_no_match (h : sync q = false) :
    startsAt sync q = decide ((q - lastMatch sync q) % 16 = 0) := by
  rw [startsAt, h, Bool.false_or]

/-! ## Byte starts, one stream bit at a time -/

theorem byteStarts_eq (sync : Nat → Bool) (n : Nat) :
    byteStarts sync n = (List.range (n - 15)).filter (startsAt sync) := rfl

theorem byteStarts_of_short (h : n < 16) : byteStarts sync n = [] := by
  rw [byteStarts_eq, Nat.sub_eq_zero_of_le (by omega)]
  rfl

/-- The window that ends with the next bit begins 15 bits before it. -/
theorem byteStarts_succ (sync : Nat → Bool) (q : Nat) :
    byteStarts sync (q + 16)
      = byteStarts sync (q + 15) ++ if startsAt sync q then [q] else [] := by
  rw [byteStarts_eq, byteStarts_eq, show q + 16 - 15 = q + 1 by omega, Nat.add_sub_cancel,
    List.range_succ, List.filter_append, List.filter_singleton, cond_eq_ite]

theorem byteStarts_prefix (sync : Nat → Bool) (h : m ≤ n) :
    byteStarts sync m <+: byteStarts sync n := by
  have hle : m - 15 ≤ n - 15 := Nat.sub_le_sub_right h 15
  rw [byteStarts_eq, byteStarts_eq, ← Nat.add_sub_cancel' hle, List.range_add, List.filter_append]
  exact List.prefix_append _ _

theorem mem_byteStarts_lt (h : x ∈ byteStarts sync n) : x + 15 < n := by
  have := List.mem_range.1 (List.mem_of_mem_filter h)
  omega

theorem byteStarts_split (hs : startsAt sync q = true) (hn : q + 16 ≤ n) :
    ∃ rest, byteStarts sync n = byteStarts sync (q + 15) ++ q :: rest := by
  obtain ⟨rest, hrest⟩ := byteStarts_prefix sync hn
  refine ⟨rest, ?_⟩
  rw [← hrest, byteStarts_succ, if_pos hs, List.append_assoc, List.singleton_append]

/-- Where bytes begin every 16 bits from bit `x` on, `m` bits hold `ceil(m / 16)` byte starts. -/
theorem length_byteStarts_add (h : ∀ y, y < m → startsAt sync (x + y) = decide (y % 16 = 0)) :
    (byteStarts sync (x + m + 15)).length
      = (byteStarts sync (x + 15)).length + (m + 15) / 16 := by
  induction m with
  | zero => rfl
  | succ m ih =>
    rw [show x + (m + 1) + 15 = x + m + 16 by omega, byteStarts_succ, List.length_append,
      ih fun y hy => h y (Nat.lt_succ_of_lt hy), h m (Nat.lt_succ_self m)]
    by_cases hm : m % 16 = 0 <;> simp [hm] <;> omega

theorem filter_range_multiples (m : Nat) :
    (List.range m).filter (fun x => decide (x % 16 = 0))
      = (List.range ((m + 15) / 16)).map (16 * ·) := by
  induction m with
  | zero => rfl
  | succ m ih =>
    rw [List.range_succ, List.filter_append, List.filter_singleton, ih]
    by_cases hm : m % 16 = 0
    · rw [show (m + 1 + 15) / 16 = (m + 15) / 16 + 1 by omega, List.range_succ, List.map_append]
      simp [hm]
      omega
    · rw [show (m + 1 + 15) / 16 = (m + 15) / 16 by omega]
      simp [hm]

/-- Matches on multiples of 16 alone leave the bytes there. -/
theorem byteStarts_aligned (h : ∀ q, q + 16 ≤ 16 * n → sync q = true → q % 16 = 0) :
    byteStarts sync (16 * n) = (List.range n).map (16 * ·) := by
  have hstarts : ∀ q ∈ List.range (16 * n - 15), startsAt sync q = decide (q % 16 = 0) := by
    intro q hq
    have hq : q + 16 ≤ 16 * n := by
      have := List.mem_range.1 hq
      omega
    have hlast : lastMatch sync q % 16 = 0 := lastMatch_aligned fun x hx => h x (by omega)
    have hle := lastMatch_le sync q
    cases hs : sync q with
    | true => rw [startsAt_of_match hs, h q hq hs]; rfl
    | false =>
      rw [startsAt_of_no_match hs, decide_eq_decide]
      omega
  rw [byteStarts_eq, List.filter_congr hstarts, filter_range_multiples,
    show (16 * n - 15 + 15) / 16 = n by omega]

/-! ## The first match -/

/-- Before the first match bytes begin on multiples of 16. -/
theorem startsAt_before_match (h : ∀ x, x < q → sync x = false) (hx : x < q) :
    startsAt sync x = decide (x % 16 = 0) := by
  have hlast : lastMatch sync x = 0 :=
    lastMatch_of_no_match (Nat.zero_le x) fun y _ hy => h y (hy.trans hx)
  rw [startsAt_of_no_match (h x hx), hlast, Nat.sub_zero]

/-- Past a match bytes begin every 16 bits up to the next one. -/
theorem startsAt_after_match (hs : sync q = true) (h : ∀ x, q < x → x < q + m → sync x = false)
    (hx : x < m) : startsAt sync (q + x) = decide (x % 16 = 0) := by
  cases x with
  | zero => exact startsAt_of_match hs
  | succ x =>
    have hlast : lastMatch sync (q + (x + 1)) = q := by
      rw [lastMatch_of_no_match (a := q + 1) (by omega) fun y hlow hhigh =>
        h y hlow (by omega), lastMatch_succ, if_pos hs]
    rw [startsAt_of_no_match (h _ (by omega) (by omega)), hlast, Nat.add_sub_cancel_left]

/-- The first match, at bit `q`, has `ceil(q / 16)` bytes before it. -/
theorem length_byteStarts_first_match (hfirst : ∀ x, x < q → sync x = false) :
    (byteStarts sync (q + 15)).length = (q + 15) / 16 := by
  have hadd := length_byteStarts_add (x := 0) (m := q) fun y hy => by
    rw [Nat.zero_add]
    exact startsAt_before_match hfirst hy
  rwa [byteStarts_of_short (n := 0 + 15) (by decide), List.length_nil, Nat.zero_add,
    Nat.zero_add] at hadd

/-- Up to the next match the windows every 16 bits are the bytes that follow the first match
(spec/41_sync_framer.md R285). -/
theorem byteStarts_getElem?_after_first {j : Nat} (hs : sync q = true)
    (hfirst : ∀ x, x < q → sync x = false)
    (hnext : ∀ x, q < x → x < q + 16 * j → sync x = false) (hn : q + 16 * j + 16 ≤ n) :
    (byteStarts sync n)[(q + 15) / 16 + j]? = some (q + 16 * j) := by
  have hlength : (byteStarts sync (q + 16 * j + 15)).length = (q + 15) / 16 + j := by
    rw [length_byteStarts_add fun y hy => startsAt_after_match hs hnext hy,
      length_byteStarts_first_match hfirst]
    omega
  have hstart : startsAt sync (q + 16 * j) = true := by
    cases hm : sync (q + 16 * j) with
    | true => exact startsAt_of_match hm
    | false =>
      have hclear : ∀ x, q < x → x < q + (16 * j + 1) → sync x = false := fun x hlow hhigh => by
        rcases Nat.lt_succ_iff_lt_or_eq.1 hhigh with hlt | rfl
        · exact hnext x hlow hlt
        · exact hm
      rw [startsAt_after_match hs hclear (Nat.lt_succ_self _), Nat.mul_mod_right,
        decide_eq_true rfl]
  obtain ⟨rest, hrest⟩ := byteStarts_split hstart hn
  rw [hrest, ← hlength, List.getElem?_append_right (Nat.le_refl _), Nat.sub_self]
  rfl

/-! ## Which bytes are matches -/

/-- The indices of the byte starts that are matches. -/
def matchIndices (sync : Nat → Bool) (starts : List Nat) : List Nat :=
  (List.range starts.length).filter fun i => sync (starts.getD i 0)

theorem matchIndices_concat (sync : Nat → Bool) (l : List Nat) (q : Nat) :
    matchIndices sync (l ++ [q]) = matchIndices sync l ++ if sync q then [l.length] else [] := by
  have hold : (List.range l.length).filter (fun i => sync ((l ++ [q]).getD i 0))
      = matchIndices sync l := List.filter_congr fun i hi => by
    rw [List.getD_append _ _ _ _ (List.mem_range.1 hi)]
  rw [matchIndices, List.length_append, List.length_singleton, List.range_succ,
    List.filter_append, hold, List.filter_singleton]
  simp

theorem length_matchIndices (sync : Nat → Bool) (l : List Nat) :
    (matchIndices sync l).length = (l.filter sync).length := by
  induction l using List.reverseRecOn with
  | nil => rfl
  | append_singleton l q ih =>
    rw [matchIndices_concat, List.filter_append, List.length_append, List.length_append, ih,
      List.filter_singleton]
    cases sync q <;> rfl

theorem matchIndices_append_prefix (sync : Nat → Bool) (l r : List Nat) :
    matchIndices sync l <+: matchIndices sync (l ++ r) := by
  induction r using List.reverseRecOn with
  | nil => rw [List.append_nil]
  | append_singleton r q ih =>
    rw [← List.append_assoc, matchIndices_concat]
    exact ih.trans (List.prefix_append _ _)

/-- The index of the first match among byte starts. -/
theorem matchIndices_first {l r : List Nat} (hs : sync q = true) (h : ∀ x ∈ l, sync x = false) :
    (matchIndices sync (l ++ q :: r))[0]? = some l.length := by
  have hnone : matchIndices sync l = [] := by
    rw [← List.length_eq_zero_iff, length_matchIndices, List.length_eq_zero_iff,
      List.filter_eq_nil_iff]
    exact fun x hx => by simp [h x hx]
  have hprefix := matchIndices_append_prefix sync (l ++ [q]) r
  rw [matchIndices_concat, hnone, hs, List.append_assoc] at hprefix
  obtain ⟨t, ht⟩ := hprefix
  rw [← List.singleton_append, ← ht]
  rfl

end

end Sys2Proof.Machine

end

section
/-! PROOF. The framing loop over a stream: its tables are the windows at the byte starts and the
indices of the matches among them, as far as the tables have room (spec/41_sync_framer.md R262 to
R268, R285). -/

namespace Sys2Proof.Machine

open Claims (windowAt syncPatterns oddBits byteStarts framed bitbufHolds)

/-! ## Windows (R162, R263) -/

theorem toNat_dataBits (w : Half) : (dataBits w).toNat = oddBits w := by
  have hbit (i : Nat) : (w.getLsbD i).toNat ≤ 1 := Bool.toNat_le _
  rw [dataBits, byteOfBits, oddBits, BitVec.toNat_ofNat]
  refine Nat.mod_eq_of_lt ?_
  linarith [hbit 14, hbit 12, hbit 10, hbit 8, hbit 6, hbit 4, hbit 2, hbit 0]

/-- The window after 16 bits or more is the one of the last 16. -/
theorem windowAfter_take {bits : List Bool} {q : Nat} (h : q + 16 ≤ bits.length) :
    windowAfter (bits.take (q + 16)) = windowAt bits q := by
  have hat : windowAt bits q = windowAfter ((bits.drop q).take 16) := rfl
  rw [hat]
  refine BitVec.eq_of_getLsbD_eq fun i hi => ?_
  rw [windowAfter_getLsbD _ hi, windowAfter_getLsbD _ hi, List.take_add, List.reverse_append,
    List.getD_append]
  simp
  omega

/-! ## One stream bit (R263 to R267) -/

section
variable {p : Params} {enc : BitVec 2} {b : Bool} {f : Framer}

/-- The window after one more bit matches a sync pattern (spec/41_sync_framer.md R264). -/
def Framer.Matches (p : Params) (enc : BitVec 2) (b : Bool) (f : Framer) : Prop :=
  16 ≤ f.total + 1 ∧ shiftIn f.window b ∈ syncSet p enc

theorem Framer.bit_full (h : f.Matches p enc b ∨ f.cnt + 1 = 16) (hfull : f.raw.length = p.rawCap) :
    f.bit p enc b = { f.slide b with rawOvf := true } := by
  unfold Framer.bit
  dsimp only
  split_ifs with hsync hcnt
  · rfl
  · rfl
  · exact absurd h (not_or.2 ⟨hsync, hcnt⟩)

theorem Framer.bit_sync (h : f.Matches p enc b) (hroom : f.raw.length ≠ p.rawCap) :
    f.bit p enc b = ((f.slide b).recordSync enc).emitByte (dataBits (shiftIn f.window b)) :=
  (if_pos h).trans (if_neg hroom)

theorem Framer.bit_count (h : ¬ f.Matches p enc b) (hcnt : f.cnt + 1 = 16)
    (hroom : f.raw.length ≠ p.rawCap) :
    f.bit p enc b = (f.slide b).emitByte (dataBits (shiftIn f.window b)) :=
  (if_neg h).trans ((if_pos hcnt).trans (if_neg hroom))

theorem Framer.bit_slide (h : ¬ f.Matches p enc b) (hcnt : f.cnt + 1 ≠ 16) :
    f.bit p enc b = f.slide b := (if_neg h).trans (if_neg hcnt)

theorem Framer.recordSync_room (h : f.idam.length < Config.idamCap) :
    f.recordSync enc = { f with idam := f.idam ++ [⟨f.raw.length, enc⟩] } := if_pos h

theorem Framer.recordSync_full (h : ¬ f.idam.length < Config.idamCap) :
    f.recordSync enc = { f with capped := true } := if_neg h

theorem Framer.recordSync_window (f : Framer) (enc : BitVec 2) :
    (f.recordSync enc).window = f.window := by
  rw [Framer.recordSync]
  split_ifs <;> rfl

theorem Framer.recordSync_total (f : Framer) (enc : BitVec 2) :
    (f.recordSync enc).total = f.total := by
  rw [Framer.recordSync]
  split_ifs <;> rfl

end

/-! ## The tables of a stream -/

/-- A sync pattern matches at bit `q` of the stream. -/
def syncAt (p : Params) (enc : BitVec 2) (bits : List Bool) (q : Nat) : Bool :=
  decide (windowAt bits q ∈ syncPatterns p enc)

/-- The tables hold the bytes that begin at `starts` and their entries, as far as there is room
(spec/41_sync_framer.md R264 to R267). -/
structure Framer.Cut (p : Params) (enc : BitVec 2) (bits : List Bool) (starts : List Nat)
    (f : Framer) : Prop where
  raw : f.raw = (starts.take p.rawCap).map fun q => dataBits (windowAt bits q)
  idam : f.idam
    = ((matchIndices (syncAt p enc bits) (starts.take p.rawCap)).take 64).map (⟨·, enc⟩)
  capped : f.capped = decide (64 < ((starts.take p.rawCap).filter (syncAt p enc bits)).length)
  rawOvf : f.rawOvf = decide (p.rawCap < starts.length)

/-- The loop stands after the first `k` bits of the stream. `cnt` counts from the last byte, and so
from the last match, up to whole bytes. -/
structure Framer.Stands (sync : Nat → Bool) (bits : List Bool) (k : Nat) (f : Framer) : Prop where
  window : f.window = windowAfter (bits.take k)
  total : f.total = k
  cnt : f.cnt < 16
  phase : (f.cnt + lastMatch sync (k - 15)) % 16 = k % 16

section
variable {p : Params} {enc : BitVec 2} {bits : List Bool} {starts starts' : List Nat} {f : Framer}
  {b : Bool} {k q : Nat} {sync : Nat → Bool}

/-- With RAW full the loop has stopped, so later byte starts add nothing. -/
theorem Framer.Cut.of_stopped (h : f.Cut p enc bits starts) (hovf : f.rawOvf = true)
    (hprefix : starts <+: starts') : f.Cut p enc bits starts' := by
  have hlong : p.rawCap < starts.length := of_decide_eq_true (h.rawOvf.symm.trans hovf)
  obtain ⟨rest, rfl⟩ := hprefix
  have htake : (starts ++ rest).take p.rawCap = starts.take p.rawCap :=
    List.take_append_of_le_length hlong.le
  refine ⟨by rw [htake, h.raw], by rw [htake, h.idam], by rw [htake, h.capped], ?_⟩
  rw [hovf, List.length_append, decide_eq_true (by omega)]

theorem Framer.Cut.length_le (h : f.Cut p enc bits starts) (hovf : f.rawOvf = false) :
    starts.length ≤ p.rawCap :=
  Nat.not_lt.1 (of_decide_eq_false (h.rawOvf.symm.trans hovf))

/-- Where RAW has room for every byte the tables are those of the whole list. -/
theorem Framer.cut_iff_of_room (hle : starts.length ≤ p.rawCap) :
    f.Cut p enc bits starts ↔
      f.raw = starts.map (fun q => dataBits (windowAt bits q)) ∧
      f.idam = ((matchIndices (syncAt p enc bits) starts).take 64).map (⟨·, enc⟩) ∧
      f.capped = decide (64 < (starts.filter (syncAt p enc bits)).length) ∧ f.rawOvf = false := by
  have htake : starts.take p.rawCap = starts := List.take_of_length_le hle
  have hovf : decide (p.rawCap < starts.length) = false := decide_eq_false (Nat.not_lt.2 hle)
  constructor
  · rintro ⟨hraw, hidam, hcapped, hrawOvf⟩
    rw [htake] at hraw hidam hcapped
    exact ⟨hraw, hidam, hcapped, hrawOvf.trans hovf⟩
  · rintro ⟨hraw, hidam, hcapped, hrawOvf⟩
    refine ⟨?_, ?_, ?_, hrawOvf.trans hovf.symm⟩ <;> rwa [htake]

theorem Framer.Cut.raw_length (h : f.Cut p enc bits starts) (hovf : f.rawOvf = false) :
    f.raw.length = starts.length := by
  obtain ⟨hraw, -⟩ := (Framer.cut_iff_of_room (h.length_le hovf)).1 h
  rw [hraw, List.length_map]

theorem Framer.Cut.room_concat (h : f.Cut p enc bits starts) (hovf : f.rawOvf = false)
    (hroom : f.raw.length ≠ p.rawCap) (q : Nat) : (starts ++ [q]).length ≤ p.rawCap := by
  have hlt : starts.length < p.rawCap :=
    lt_of_le_of_ne (h.length_le hovf) (h.raw_length hovf ▸ hroom)
  rwa [List.length_append]

/-- A byte is due and RAW is full (spec/41_sync_framer.md R267). -/
theorem Framer.Cut.concat_full (h : f.Cut p enc bits starts) (hovf : f.rawOvf = false)
    (hfull : f.raw.length = p.rawCap) (q : Nat) :
    ({ f.slide b with rawOvf := true } : Framer).Cut p enc bits (starts ++ [q]) := by
  have hlen : starts.length = p.rawCap := (h.raw_length hovf).symm.trans hfull
  have htake : (starts ++ [q]).take p.rawCap = starts.take p.rawCap :=
    List.take_append_of_le_length hlen.ge
  refine ⟨htake ▸ h.raw, htake ▸ h.idam, htake ▸ h.capped, ?_⟩
  rw [List.length_append, List.length_singleton, decide_eq_true (by omega)]

/-- A byte of the count of 16 (spec/41_sync_framer.md R266). -/
theorem Framer.Cut.concat_count (h : f.Cut p enc bits starts) (hovf : f.rawOvf = false)
    (hroom : f.raw.length ≠ p.rawCap) (hsync : syncAt p enc bits q = false) :
    ((f.slide b).emitByte (dataBits (windowAt bits q))).Cut p enc bits (starts ++ [q]) := by
  obtain ⟨hraw, hidam, hcapped, -⟩ := (Framer.cut_iff_of_room (h.length_le hovf)).1 h
  rw [Framer.cut_iff_of_room (h.room_concat hovf hroom q), matchIndices_concat, List.filter_append,
    List.filter_singleton, hsync, cond_false, List.append_nil, if_neg Bool.false_ne_true,
    List.append_nil, List.map_append, ← hraw]
  exact ⟨rfl, hidam, hcapped, hovf⟩

/-- A byte of a match, with its entry where the table has room (spec/41_sync_framer.md R264 to
R266). -/
theorem Framer.Cut.concat_sync (h : f.Cut p enc bits starts) (hovf : f.rawOvf = false)
    (hroom : f.raw.length ≠ p.rawCap) (hsync : syncAt p enc bits q = true) :
    (((f.slide b).recordSync enc).emitByte (dataBits (windowAt bits q))).Cut p enc bits
      (starts ++ [q]) := by
  have hlength := h.raw_length hovf
  obtain ⟨hraw, hidam, hcapped, -⟩ := (Framer.cut_iff_of_room (h.length_le hovf)).1 h
  have hcount := length_matchIndices (syncAt p enc bits) starts
  have hentries : f.idam.length = min 64 (matchIndices (syncAt p enc bits) starts).length := by
    rw [hidam, List.length_map, List.length_take]
  rw [Framer.cut_iff_of_room (h.room_concat hovf hroom q), matchIndices_concat, List.filter_append,
    List.filter_singleton, hsync, cond_true, if_pos rfl, List.map_append, ← hraw,
    List.length_append, ← hcount, ← hlength]
  by_cases hfree : f.idam.length < Config.idamCap
  · have hshort : (matchIndices (syncAt p enc bits) starts).length < 64 := by
      rw [Config.idamCap] at hfree
      omega
    rw [List.take_of_length_le hshort.le] at hidam
    rw [Framer.recordSync_room (f := f.slide b) hfree,
      List.take_of_length_le (by rwa [List.length_append]), List.map_append, ← hidam,
      decide_eq_false (by simpa using hshort)]
    refine ⟨rfl, rfl, ?_, hovf⟩
    rw [← hcount, decide_eq_false (by omega)] at hcapped
    exact hcapped
  · have hlong : 64 ≤ (matchIndices (syncAt p enc bits) starts).length := by
      rw [Config.idamCap] at hfree
      omega
    rw [Framer.recordSync_full (f := f.slide b) hfree, List.take_append_of_le_length hlong, ← hidam,
      decide_eq_true (by simpa [Nat.lt_succ_iff] using hlong)]
    exact ⟨rfl, rfl, rfl, hovf⟩

/-! ## The place in the stream -/

theorem Framer.Stands.window_succ (h : f.Stands sync bits k) (hb : bits[k]? = some b) :
    shiftIn f.window b = windowAfter (bits.take (k + 1)) := by
  rw [List.take_add_one, hb, Option.toList_some, windowAfter_concat, h.window]

/-- The model's sync test is a match of the stream 15 bits back; the first 15 bits never match
(spec/41_sync_framer.md R264, R268). -/
theorem Framer.Stands.matches_iff (h : f.Stands sync bits (q + 15)) (hb : bits[q + 15]? = some b) :
    f.Matches p enc b ↔ syncAt p enc bits q = true := by
  have hlen : q + 16 ≤ bits.length := (List.getElem?_eq_some_iff.1 hb).1
  rw [Framer.Matches, h.total, h.window_succ hb, windowAfter_take hlen, syncAt, decide_eq_true_iff]
  exact and_iff_right (by omega)

theorem Framer.Stands.not_matches (h : f.Stands sync bits k) (hk : k < 15) :
    ¬ f.Matches p enc b := by
  rw [Framer.Matches, h.total]
  omega

/-- Within the first 15 bits the count is the number of bits. -/
theorem Framer.Stands.cnt_of_short (h : f.Stands sync bits k) (hk : k < 15) : f.cnt = k := by
  obtain ⟨-, -, hcnt, hphase⟩ := h
  rw [Nat.sub_eq_zero_of_le hk.le, lastMatch, List.range_zero] at hphase
  simp at hphase
  omega

/-- A byte is due where its window begins at a byte start. -/
theorem Framer.Stands.due_iff (h : f.Stands (syncAt p enc bits) bits (q + 15))
    (hb : bits[q + 15]? = some b) :
    f.Matches p enc b ∨ f.cnt + 1 = 16 ↔ startsAt (syncAt p enc bits) q = true := by
  have hcount : f.cnt + 1 = 16 ↔ (q - lastMatch (syncAt p enc bits) q) % 16 = 0 := by
    have hle := lastMatch_le (syncAt p enc bits) q
    have hcnt := h.cnt
    have hphase := h.phase
    rw [Nat.add_sub_cancel] at hphase
    omega
  rw [h.matches_iff hb, hcount, startsAt, Bool.or_eq_true, decide_eq_true_iff]

theorem lastMatch_of_startsAt (h : startsAt sync q = true) :
    lastMatch sync (q + 1) % 16 = q % 16 := by
  rw [lastMatch_succ]
  split_ifs with hs
  · rfl
  · rw [startsAt_of_no_match (Bool.eq_false_iff.2 hs), decide_eq_true_iff] at h
    have := lastMatch_le sync q
    omega

/-- A byte cut starts the count anew. -/
theorem Framer.Stands.cut {g : Framer} (h : f.Stands sync bits (q + 15))
    (hb : bits[q + 15]? = some b) (hs : startsAt sync q = true)
    (hwindow : g.window = shiftIn f.window b) (htotal : g.total = f.total + 1) (hcnt : g.cnt = 0) :
    g.Stands sync bits (q + 16) := by
  refine ⟨hwindow.trans (h.window_succ hb), by rw [htotal, h.total], by omega, ?_⟩
  rw [hcnt, Nat.zero_add, show q + 16 - 15 = q + 1 by omega, lastMatch_of_startsAt hs,
    Nat.add_mod_right]

theorem Framer.Stands.slide (h : f.Stands sync bits k) (hb : bits[k]? = some b)
    (hs : 15 ≤ k → sync (k - 15) = false) (hcnt : f.cnt + 1 ≠ 16) :
    (f.slide b).Stands sync bits (k + 1) := by
  have hlast : lastMatch sync (k + 1 - 15) = lastMatch sync (k - 15) := by
    rcases Nat.lt_or_ge k 15 with hk | hk
    · rw [show k + 1 - 15 = k - 15 by omega]
    · rw [show k + 1 - 15 = k - 15 + 1 by omega, lastMatch_succ, hs hk, if_neg Bool.false_ne_true]
  have hphase := h.phase
  have hlt := h.cnt
  refine ⟨h.window_succ hb, congrArg (· + 1) h.total, ?_, ?_⟩
  · show f.cnt + 1 < 16
    omega
  · show (f.cnt + 1 + lastMatch sync (k + 1 - 15)) % 16 = (k + 1) % 16
    omega

/-! ## The loop over the stream -/

/-- One stream bit cuts the byte that begins 15 bits before it, if one does. -/
theorem Framer.Cut.bit (h : f.Cut p enc bits (byteStarts (syncAt p enc bits) k))
    (hstands : f.Stands (syncAt p enc bits) bits k) (hovf : f.rawOvf = false)
    (hb : bits[k]? = some b) :
    (f.bit p enc b).Cut p enc bits (byteStarts (syncAt p enc bits) (k + 1)) ∧
    ((f.bit p enc b).rawOvf = false →
      (f.bit p enc b).Stands (syncAt p enc bits) bits (k + 1)) := by
  rcases Nat.lt_or_ge k 15 with hk | hk
  · have hcnt : f.cnt + 1 ≠ 16 := by
      rw [hstands.cnt_of_short hk]
      omega
    rw [byteStarts_of_short (by omega)] at h
    rw [byteStarts_of_short (by omega), Framer.bit_slide (hstands.not_matches hk) hcnt]
    exact ⟨⟨h.raw, h.idam, h.capped, h.rawOvf⟩,
      fun _ => hstands.slide hb (fun hge => absurd hk (Nat.not_lt.2 hge)) hcnt⟩
  · obtain ⟨q, rfl⟩ : ∃ q, k = q + 15 := ⟨k - 15, by omega⟩
    have hdue := hstands.due_iff hb
    have hmatch := hstands.matches_iff (p := p) (enc := enc) hb
    have hwindow : shiftIn f.window b = windowAt bits q := by
      rw [hstands.window_succ hb, windowAfter_take (List.getElem?_eq_some_iff.1 hb).1]
    rw [show q + 15 + 1 = q + 16 from rfl, byteStarts_succ]
    cases hs : startsAt (syncAt p enc bits) q with
    | false =>
      obtain ⟨hno, hcnt⟩ := not_or.1 (mt hdue.1 (by simp [hs]))
      rw [if_neg Bool.false_ne_true, List.append_nil, Framer.bit_slide hno hcnt]
      exact ⟨⟨h.raw, h.idam, h.capped, h.rawOvf⟩, fun _ => hstands.slide hb
        (fun _ => by rw [Nat.add_sub_cancel]; exact Bool.eq_false_iff.2 (mt hmatch.2 hno)) hcnt⟩
    | true =>
      rw [if_pos rfl]
      by_cases hfull : f.raw.length = p.rawCap
      · rw [Framer.bit_full (hdue.2 hs) hfull]
        exact ⟨h.concat_full hovf hfull q, fun hno => absurd hno Bool.noConfusion⟩
      · cases hsync : syncAt p enc bits q with
        | true =>
          rw [Framer.bit_sync (hmatch.2 hsync) hfull, hwindow]
          refine ⟨h.concat_sync hovf hfull hsync, fun _ => hstands.cut hb hs ?_ ?_ rfl⟩
          · exact Framer.recordSync_window _ _
          · exact Framer.recordSync_total _ _
        | false =>
          have hno : ¬ f.Matches p enc b := mt hmatch.1 (by simp [hsync])
          rw [Framer.bit_count hno ((hdue.2 hs).resolve_left hno) hfull, hwindow]
          exact ⟨h.concat_count hovf hfull hsync, fun _ => hstands.cut hb hs rfl rfl rfl⟩

/-- The loop over the rest of the stream ends with the tables of the whole stream. -/
theorem frameList_cut_from (rest : List Bool) {done : List Bool} {f : Framer}
    (hbits : done ++ rest = bits)
    (h : f.Cut p enc bits (byteStarts (syncAt p enc bits) done.length))
    (hstands : f.rawOvf = false → f.Stands (syncAt p enc bits) bits done.length) :
    (frameList p enc rest f).Cut p enc bits (byteStarts (syncAt p enc bits) bits.length) := by
  induction rest generalizing done f with
  | nil =>
    rw [List.append_nil] at hbits
    rwa [hbits] at h
  | cons b rest ih =>
    rw [frameList]
    split_ifs with hovf
    · have hle : done.length ≤ bits.length := by simp [← hbits]
      exact h.of_stopped hovf (byteStarts_prefix _ hle)
    · rw [Bool.not_eq_true] at hovf
      have hb : bits[done.length]? = some b := by simp [← hbits]
      obtain ⟨hcut, hnext⟩ := h.bit (hstands hovf) hovf hb
      refine ih (done := done ++ [b]) (by simpa using hbits) ?_ ?_ <;>
        rw [List.length_append, List.length_singleton]
      · exact hcut
      · exact hnext

/-- Framing a stream cuts the bytes that begin at its byte starts. -/
theorem frameList_cut (p : Params) (enc : BitVec 2) (bits : List Bool) :
    (frameList p enc bits Framer.reset).Cut p enc bits
      (byteStarts (syncAt p enc bits) bits.length) := by
  refine frameList_cut_from bits (List.nil_append bits) ?_ fun _ => ?_
  · rw [List.length_nil, byteStarts_of_short (by decide)]
    exact ⟨by simp [Framer.reset], by simp [Framer.reset, matchIndices], by simp [Framer.reset],
      by simp [Framer.reset]⟩
  · exact ⟨rfl, rfl, by decide, rfl⟩

end

/-! ## What a frame commits -/

theorem framed_cut {s : State} {bits : List Bool} (hlen : s.regs.bitCount.toNat = bits.length)
    (h : bitbufHolds s.mem bits) :
    (framed s).Cut s.params s.regs.ctrl.encoding bits
      (byteStarts (syncAt s.params s.regs.ctrl.encoding bits) bits.length) := by
  rw [framed_of_bitbufHolds h hlen]
  exact frameList_cut ..

/-- Whatever it reads, the framing loop frames some stream. -/
theorem frameLoop_frames (n : Nat) (s : State) :
    ∃ bits : List Bool, bits.length = n ∧
      (frameLoop n s).framer = frameList s.params s.regs.ctrl.encoding bits s.framer := by
  induction n generalizing s with
  | zero => exact ⟨[], rfl, rfl⟩
  | succ n ih =>
    obtain ⟨bits, hlen, hframer⟩ := ih (frameStep s)
    refine ⟨(readStreamBit s.framer.k s).1 :: bits, congrArg (· + 1) hlen, ?_⟩
    have hstep := frameStep_frameOnly s
    rw [hstep.params, hstep.regs, frameStep_framer] at hframer
    rw [frameLoop, frameList]
    split_ifs
    · rfl
    · exact hframer

theorem framed_cut_some (s : State) :
    ∃ bits : List Bool, bits.length = s.regs.bitCount.toNat ∧
      (framed s).Cut s.params s.regs.ctrl.encoding bits
        (byteStarts (syncAt s.params s.regs.ctrl.encoding bits) bits.length) := by
  obtain ⟨bits, hlen, hframer⟩ :=
    frameLoop_frames s.regs.bitCount.toNat { s with framer := Framer.reset }
  refine ⟨bits, hlen, ?_⟩
  rw [framed, frameStage, hframer]
  exact frameList_cut ..

section
variable {p : Params} {enc : BitVec 2} {bits : List Bool} {starts : List Nat} {f : Framer}

theorem Framer.Cut.raw_toNat (h : f.Cut p enc bits starts) :
    f.raw.map BitVec.toNat = (starts.take p.rawCap).map fun q => oddBits (windowAt bits q) := by
  rw [h.raw, List.map_map]
  exact List.map_congr_left fun q _ => toNat_dataBits _

theorem Framer.Cut.raw_getElem? (h : f.Cut p enc bits starts) {i q : Nat}
    (hq : starts[i]? = some q) (hi : i < p.rawCap) :
    f.raw[i]?.map BitVec.toNat = some (oddBits (windowAt bits q)) := by
  rw [← List.getElem?_map, h.raw_toNat, List.getElem?_map, List.getElem?_take_of_lt hi, hq]
  rfl

/-- The first match has entry 0. -/
theorem Framer.Cut.idam_first {l r : List Nat} {q : Nat} (h : f.Cut p enc bits (l ++ q :: r))
    (hl : l.length < p.rawCap) (hs : syncAt p enc bits q = true)
    (hfirst : ∀ x ∈ l, syncAt p enc bits x = false) : f.idam[0]? = some ⟨l.length, enc⟩ := by
  obtain ⟨m, hm⟩ : ∃ m, p.rawCap = l.length + (m + 1) := Nat.exists_eq_add_of_lt hl
  rw [h.idam, hm, List.take_length_add_append, List.take_succ_cons, List.getElem?_map,
    List.getElem?_take_of_lt (by decide), matchIndices_first hs hfirst]
  rfl

theorem Framer.Cut.idam_offset (h : f.Cut p enc bits starts) :
    f.idam.map IdamEntry.offset
      = (matchIndices (syncAt p enc bits) (starts.take p.rawCap)).take 64 := by
  rw [h.idam, List.map_map]
  exact List.map_id _

theorem Framer.Cut.density (h : f.Cut p enc bits starts) : ∀ e ∈ f.idam, e.density = enc := by
  rw [h.idam]
  exact List.forall_mem_map.2 fun _ _ => rfl

theorem Framer.Cut.raw_full (h : f.Cut p enc bits starts) (hovf : f.rawOvf = true) :
    f.raw.length = p.rawCap := by
  have hlong : p.rawCap < starts.length := of_decide_eq_true (h.rawOvf.symm.trans hovf)
  rw [h.raw, List.length_map, List.length_take, Nat.min_eq_left hlong.le]

theorem Framer.Cut.idam_full (h : f.Cut p enc bits starts) (hcapped : f.capped = true) :
    f.idam.length = 64 := by
  have hmany := of_decide_eq_true (h.capped.symm.trans hcapped)
  rw [← length_matchIndices] at hmany
  rw [h.idam, List.length_map, List.length_take, Nat.min_eq_left hmany.le]

theorem Framer.Cut.empty (h : f.Cut p enc bits []) : f.raw = [] ∧ f.idam = [] := by
  rw [h.raw, h.idam, List.take_nil]
  exact ⟨rfl, rfl⟩

end

end Sys2Proof.Machine

namespace Sys2Proof

open Machine Claims

/-- Settles O46: the bounds of the tables, and what they hold of the stream the loop has framed. -/
theorem idamOffsetsRiseWithinRaw : Obligations.IdamOffsetsRiseWithinRaw := by
  intro s
  obtain ⟨hraw, hidam, hbelow, hrising⟩ := framed_bounded s
  obtain ⟨bits, hlen, hcut⟩ := framed_cut_some s
  refine ⟨hidam, hraw, fun e he => ⟨hbelow e he, hcut.density e he⟩, hrising, hcut.raw_full,
    hcut.idam_full, fun hshort => ?_⟩
  rw [byteStarts_of_short (by omega)] at hcut
  exact hcut.empty

/-- Settles O47: with every match on a multiple of 16, so is every byte start. -/
theorem alignedStreamFramesByWindows : Obligations.AlignedStreamFramesByWindows := by
  intro s bits n hbits hlen hheld haligned w syncs
  have hcut := framed_cut hlen hheld
  have hmatches (q : Nat) (hq : q + 16 ≤ 16 * n)
      (hs : syncAt s.params s.regs.ctrl.encoding bits q = true) : q % 16 = 0 :=
    by_contra fun hoff => haligned q (hbits ▸ hq) hoff (of_decide_eq_true hs)
  rw [hbits, byteStarts_aligned hmatches] at hcut
  have htake :
      ((List.range n).map (16 * ·)).take s.params.rawCap = (List.range w).map (16 * ·) := by
    rw [← List.map_take, List.take_range, Nat.min_comm]
  have hsyncs : matchIndices (syncAt s.params s.regs.ctrl.encoding bits)
      ((List.range w).map (16 * ·)) = syncs := by
    rw [matchIndices, List.length_map, List.length_range]
    refine List.filter_congr fun i hi => ?_
    have hget : ((List.range w).map (16 * ·)).getD i 0 = 16 * i := by
      rw [List.getD_eq_getElem?_getD, List.getElem?_map, List.getElem?_range (List.mem_range.1 hi)]
      rfl
    rw [hget]
    rfl
  refine ⟨?_, ?_, ?_, ?_⟩
  · rw [hcut.raw_toNat, htake, List.map_map]
    rfl
  · rw [hcut.idam_offset, htake, hsyncs]
  · rw [hcut.capped, htake, ← length_matchIndices, hsyncs]
  · rw [hcut.rawOvf, List.length_map, List.length_range]

/-- Settles O48: the loop cuts at the byte starts, of which the first match is number
`ceil(q / 16)`. -/
theorem firstSyncGetsItsByteOffset : Obligations.FirstSyncGetsItsByteOffset := by
  refine ⟨fun s bits hlen hheld => ?_,
    fun s bits q hp hlegal hlen hheld hq hsync hfirst hroom => ?_⟩
  · have hcut := framed_cut hlen hheld
    exact ⟨hcut.raw_toNat, hcut.idam_offset, hcut.capped, hcut.rawOvf⟩
  · have hcut := framed_cut hlen hheld
    have hs : syncAt s.params s.regs.ctrl.encoding bits q = true := decide_eq_true hsync
    have hnone : ∀ x, x < q → syncAt s.params s.regs.ctrl.encoding bits x = false :=
      fun x hx => decide_eq_false (hfirst x hx)
    have hentry : (framed s).idam[0]? = some ⟨(q + 15) / 16, s.regs.ctrl.encoding⟩ := by
      have hbefore := length_byteStarts_first_match hnone
      obtain ⟨rest, hrest⟩ := byteStarts_split (startsAt_of_match hs) hq
      rw [hrest] at hcut
      rw [← hbefore] at hroom ⊢
      exact hcut.idam_first hroom hs fun x hx =>
        hnone x (Nat.lt_of_add_lt_add_right (mem_byteStarts_lt hx))
    obtain ⟨t, hexec, -, -, hcount, -, -, -, hraw, hidam, -⟩ := frameCommitsItsTables s hp hlegal
    refine ⟨t, hexec, ne_zero_iff_toNat.2 ?_, hidam 0 _ hentry, fun j hj hclear hj' => ?_⟩
    · rw [hcount]
      exact Nat.ne_zero_of_lt (List.getElem?_eq_some_iff.1 hentry).1
    · have hbyte := hcut.raw_getElem? (byteStarts_getElem?_after_first hs hnone
        (fun x hlow hhigh => decide_eq_false (hclear x hlow hhigh)) hj) hj'
      obtain ⟨v, hv, -⟩ := Option.map_eq_some_iff.1 hbyte
      rwa [hraw _ (List.getElem?_eq_some_iff.1 hv).1]

end Sys2Proof

end

section
/-! PROOF. The CRC as a linear map: a field followed by its CRC has CRC 0, and one changed byte
changes the CRC (spec/41_sync_framer.md R281, R282). -/

namespace Sys2Proof.Machine

open Claims (crcBytes withCrc)

/-! ## One shift -/

/-- The polynomial has bit 0 and a shifted value has not, so the shift tells its top bit. -/
theorem crcShift_getLsbD_zero (c : Half) : (crcShift c).getLsbD 0 = c.getLsbD 15 := by
  unfold crcShift
  split_ifs with h
  · rw [h]
    simp
  · rw [Bool.not_eq_true] at h
    rw [h]
    simp

theorem crcShift_injective : Function.Injective crcShift := by
  intro c d h
  have htop : c.getLsbD 15 = d.getLsbD 15 := by
    rw [← crcShift_getLsbD_zero, ← crcShift_getLsbD_zero, h]
  have hshift : c <<< 1 = d <<< 1 := by
    unfold crcShift at h
    rw [htop] at h
    split_ifs at h
    · exact BitVec.xor_left_inj _ |>.1 h
    · exact h
  refine BitVec.eq_of_getLsbD_eq fun i hi => ?_
  rcases Nat.lt_succ_iff_lt_or_eq.1 hi with hlt | rfl
  · have hbit := congrArg (BitVec.getLsbD · (i + 1)) hshift
    simpa [Nat.succ_lt_succ_iff.2 hlt, -BitVec.getLsbD_eq_getElem] using hbit
  · exact htop

theorem crcShifts_injective (n : Nat) : Function.Injective (Nat.repeat crcShift n) := by
  induction n with
  | zero => exact fun _ _ h => h
  | succ n ih => exact fun _ _ h => ih (crcShift_injective h)

/-! ## One byte -/

/-- Eight shifts move a low byte up and lose nothing. -/
theorem crcShifts_low_byte (v : Byte) :
    Nat.repeat crcShift 8 (v.setWidth 16) = v.setWidth 16 <<< 8 := by
  revert v
  decide +kernel

/-- A byte that equals the high half of the CRC leaves the low half in its place. -/
theorem crcByte_high (c : Half) :
    crcByte c ((c >>> 8).setWidth 8) = (c.setWidth 8).setWidth 16 <<< 8 := by
  have hlow : c ^^^ (((c >>> 8).setWidth 8).setWidth 16 <<< 8) = (c.setWidth 8).setWidth 16 := by
    refine BitVec.eq_of_getLsbD_eq fun i hi => ?_
    rcases Nat.lt_or_ge i 8 with hlt | hge
    · simp [hi, hlt, -BitVec.getLsbD_eq_getElem]
    · obtain ⟨j, rfl⟩ := Nat.exists_eq_add_of_le hge
      have hj : j < 8 := by omega
      have hj' : j < 16 := by omega
      simp [hi, hj, hj', -BitVec.getLsbD_eq_getElem]
  rw [crcByte, hlow, crcShifts_low_byte]

theorem crcByte_injective_left (v : Byte) : Function.Injective fun c => crcByte c v :=
  fun _ _ h => BitVec.xor_left_inj _ |>.1 (crcShifts_injective 8 h)

theorem crcByte_injective_right (c : Half) : Function.Injective (crcByte c) := by
  intro v w h
  have hhigh : v.setWidth 16 <<< 8 = w.setWidth 16 <<< 8 :=
    BitVec.xor_right_inj _ |>.1 (crcShifts_injective 8 h)
  have := congrArg BitVec.toNat hhigh
  simp [Nat.shiftLeft_eq] at this
  bv_omega

/-! ## Strings -/

theorem crc16_append (l r : List Byte) : crc16 (l ++ r) = r.foldl crcByte (crc16 l) :=
  List.foldl_append

/-- Bytes that follow alike keep a difference. -/
theorem foldl_crcByte_injective (l : List Byte) :
    Function.Injective fun c => l.foldl crcByte c := by
  induction l with
  | nil => exact fun _ _ h => h
  | cons v l ih => exact fun _ _ h => crcByte_injective_left v (ih h)

/-- The two bytes of a CRC, high byte first, bring the CRC to 0. -/
theorem crcByte_crcByte_self (c : Half) :
    crcByte (crcByte c ((c >>> 8).setWidth 8)) (c.setWidth 8) = 0 := by
  rw [crcByte_high, crcByte, BitVec.xor_self]
  decide

theorem crc16_withCrc (bytes : List Byte) : crc16 (withCrc bytes) = 0 := by
  rw [withCrc, crc16_append]
  exact crcByte_crcByte_self _

theorem crc16_one_byte (l r : List Byte) {a b : Byte} (h : a ≠ b) :
    crc16 (l ++ a :: r) ≠ crc16 (l ++ b :: r) := by
  rw [crc16_append, crc16_append]
  exact fun he => h (crcByte_injective_right _ (foldl_crcByte_injective r he))

end Sys2Proof.Machine

namespace Sys2Proof

open Machine Claims

/-- Settles O49: the check values by evaluation; a shift of the CRC is injective, and a byte equal
to its high half only shifts it. -/
theorem crcChecksItsField : Obligations.CrcChecksItsField :=
  ⟨by decide +kernel, by decide +kernel, by decide +kernel, crc16_withCrc,
    fun l r _ _ => crc16_one_byte l r⟩

end Sys2Proof

end

section
/-! PROOF. The sector parser one entry at a time: where the mark of an entry stands, what each class
of mark does to the parser state, and with it the invariants of the table (spec/41_sync_framer.md
R270 to R279). -/

namespace Sys2Proof.Machine

open Claims (markAt crcBytes framed parsed)

/-! ## Bytes, CRCs and marks -/

theorem rawAt_of_getElem? {raw : List Byte} {i : Nat} {v : Byte} (h : raw[i]? = some v) :
    rawAt raw i = v := by
  rw [rawAt, List.getD_eq_getElem?_getD, h, Option.getD_some]

theorem lt_length_of_getElem? {raw : List Byte} {i : Nat} {v : Byte} (h : raw[i]? = some v) :
    i < raw.length := (List.getElem?_eq_some_iff.1 h).1

/-- A CRC is two given bytes, high byte first. -/
theorem crcBytes_eq_pair_iff {bytes : List Byte} {hi lo : Byte} :
    crcBytes bytes = [hi, lo] ↔ crc16 bytes = hi ++ lo := by
  have hpair : (hi ++ lo).toNat = 256 * hi.toNat + lo.toNat := by
    rw [BitVec.toNat_append, ← Nat.shiftLeft_add_eq_or_of_lt lo.isLt, Nat.shiftLeft_eq,
      Nat.mul_comm]
  rw [crcBytes]
  generalize crc16 bytes = c
  simp only [List.cons.injEq, and_true, ← BitVec.toNat_inj, hpair]
  simp [Nat.shiftRight_eq_div_pow]
  omega

/-- The comparison with a stored CRC (spec/41_sync_framer.md R282). -/
theorem crc16_beq_storedCrc {raw bytes : List Byte} {i : Nat} {hi lo : Byte}
    (hhi : raw[i]? = some hi) (hlo : raw[i + 1]? = some lo) :
    (crc16 bytes == storedCrc raw i) = decide (crcBytes bytes = [hi, lo]) := by
  rw [storedCrc, rawAt_of_getElem? hhi, rawAt_of_getElem? hlo, decide_eq_decide.2
    crcBytes_eq_pair_iff, Bool.beq_eq_decide_eq]

/-- Past a run of sync bytes the mark position is the first other byte (spec/41_sync_framer.md
R271). -/
theorem markPos_of_markAt {enc : BitVec 2} {raw : List Byte} {o mp : Nat} {m : Byte}
    (h : markAt enc raw o mp m) : markPos enc raw o = mp := by
  obtain ⟨hm, hmfm, hfm⟩ := h
  by_cases henc : enc = 1
  · obtain ⟨hle, hne, hrun⟩ := hmfm henc
    have hlt := lt_length_of_getElem? hm
    have hlt' : mp - o < (raw.drop o).length := by rw [List.length_drop]; omega
    have hfind : (raw.drop o).findIdx (fun v => !(v == 0xA1#8)) = mp - o := by
      refine (List.findIdx_eq hlt').2 ⟨?_, fun j hj => ?_⟩
      · simpa [List.getElem_drop, Nat.add_sub_cancel' hle, (List.getElem?_eq_some_iff.1 hm).2]
          using hne
      · simpa [List.getElem_drop] using
          (List.getElem?_eq_some_iff.1 (hrun (o + j) (Nat.le_add_right o j) (by omega))).2
    rw [markPos, if_pos (show enc = encMfm from henc), List.takeWhile_eq_take_findIdx_not, hfind,
      List.length_take, Nat.min_eq_left hlt'.le, Nat.add_sub_cancel' hle]
  · rw [markPos, if_neg (show ¬ enc = encMfm from henc), hfm henc]

theorem le_markPos (enc : BitVec 2) (raw : List Byte) (o : Nat) : o ≤ markPos enc raw o := by
  rw [markPos]
  split_ifs
  · exact Nat.le_add_right _ _
  · exact Nat.le_refl _

/-- A run of sync bytes that reaches the end of RAW leaves no mark. -/
theorem length_le_markPos_of_run {raw : List Byte} {o : Nat}
    (h : ∀ j, o ≤ j → j < raw.length → raw[j]? = some 0xA1) : raw.length ≤ markPos 1 raw o := by
  have hall : ∀ v ∈ raw.drop o, (v == 0xA1#8) = true := by
    intro v hv
    obtain ⟨j, hj, rfl⟩ := List.getElem_of_mem hv
    rw [List.length_drop] at hj
    have hrun := (List.getElem?_eq_some_iff.1 (h (o + j) (Nat.le_add_right o j) (by omega))).2
    simpa [List.getElem_drop] using hrun
  rw [markPos, if_pos (show 1 = encMfm from rfl), List.takeWhile_eq_self_iff.2 hall,
    List.length_drop]
  omega

/-! ## One entry by the class of its mark (R270 to R276) -/

section
variable {p : Params} {enc : BitVec 2} {raw : List Byte} {o mp : Nat} {q q' : Parser}

theorem parseMark_id (hm : rawAt raw mp ∈ p.idamMarks) :
    parseMark p enc raw o mp q = parseId p enc raw o mp q := if_pos hm

theorem parseMark_data (hm : rawAt raw mp ∉ p.idamMarks) (hd : rawAt raw mp ∈ p.damMarks) :
    parseMark p enc raw o mp q = parseData raw o mp (rawAt raw mp) q :=
  (if_neg hm).trans (if_pos hd)

theorem parseMark_other (hm : rawAt raw mp ∉ p.idamMarks) (hd : rawAt raw mp ∉ p.damMarks) :
    parseMark p enc raw o mp q = { q with consumed := mp } := (if_neg hm).trans (if_neg hd)

theorem parseId_incomplete (h : raw.length ≤ mp + 6) :
    parseId p enc raw o mp q = { q with consumed := raw.length, awaiting := none } := if_pos h

theorem parseId_full (h : mp + 6 < raw.length) (hfull : q.sect.length = p.sectorCap) :
    parseId p enc raw o mp q
      = { q with consumed := mp + 7, sectCapped := true, awaiting := none } :=
  (if_neg (Nat.not_le.2 h)).trans (if_pos hfull)

theorem parseId_room (h : mp + 6 < raw.length) (hroom : q.sect.length ≠ p.sectorCap) :
    parseId p enc raw o mp q
      = { q with
          consumed := mp + 7, sect := q.sect ++ [idRecord enc raw o mp]
          awaiting := some q.sect.length } :=
  (if_neg (Nat.not_le.2 h)).trans (if_neg hroom)

theorem parseData_orphan {m : Byte} (h : q.awaiting = none) :
    parseData raw o mp m q = { q with consumed := mp + 1 } := by
  rw [parseData, h]

theorem parseData_bound {m : Byte} {i : Nat} {r : SectorRecord} (h : q.awaiting = some i)
    (hr : q.sect[i]? = some r) :
    parseData raw o mp m q
      = { q with
          consumed := dataConsumed r raw mp, sect := q.sect.set i (r.withData raw o mp m)
          awaiting := none } := by
  simp only [parseData, h, hr]

theorem withData_incomplete {r : SectorRecord} {m : Byte}
    (h : raw.length < mp + 1 + sectorSize r.sizeCode + 2) :
    r.withData raw o mp m
      = { r with damType := m, dataOffset := mp + 1, dataSize := 0, dataCrcOk := false } := if_pos h

theorem withData_complete {r : SectorRecord} {m : Byte}
    (h : ¬ raw.length < mp + 1 + sectorSize r.sizeCode + 2) :
    r.withData raw o mp m
      = { r with
          damType := m, dataOffset := mp + 1, dataSize := sectorSize r.sizeCode
          dataCrcOk := crc16 (rawSlice raw o (mp + sectorSize r.sizeCode + 1 - o))
            == storedCrc raw (mp + 1 + sectorSize r.sizeCode) } := if_neg h

theorem dataConsumed_incomplete {r : SectorRecord}
    (h : raw.length < mp + 1 + sectorSize r.sizeCode + 2) : dataConsumed r raw mp = mp + 1 :=
  if_pos h

theorem dataConsumed_complete {r : SectorRecord}
    (h : ¬ raw.length < mp + 1 + sectorSize r.sizeCode + 2) :
    dataConsumed r raw mp = mp + sectorSize r.sizeCode + 3 := if_neg h

/-- An ID field is complete and finds the table full (spec/41_sync_framer.md R276). -/
def MeetsCap (p : Params) (raw : List Byte) (mp : Nat) (q : Parser) : Prop :=
  rawAt raw mp ∈ p.idamMarks ∧ mp + 6 < raw.length ∧ q.sect.length = p.sectorCap

/-- What one entry can do to the parser: end the ID field at the end of RAW, find the table full,
make a record, meet a DAM no record awaits, bind a data field, or skip another mark. -/
inductive EntryMove (p : Params) (enc : BitVec 2) (raw : List Byte) (o mp : Nat) (q : Parser) :
    Parser → Prop
  | incomplete : EntryMove p enc raw o mp q { q with consumed := raw.length, awaiting := none }
  | full (h : MeetsCap p raw mp q) :
      EntryMove p enc raw o mp q { q with consumed := mp + 7, sectCapped := true, awaiting := none }
  | made (h : q.sect.length ≠ p.sectorCap) :
      EntryMove p enc raw o mp q
        { q with
          consumed := mp + 7, sect := q.sect ++ [idRecord enc raw o mp]
          awaiting := some q.sect.length }
  | orphan : EntryMove p enc raw o mp q { q with consumed := mp + 1, awaiting := none }
  | bound {i : Nat} {r : SectorRecord} (hd : rawAt raw mp ∈ p.damMarks) (h : q.awaiting = some i)
      (hr : q.sect[i]? = some r) :
      EntryMove p enc raw o mp q
        { q with
          consumed := dataConsumed r raw mp
          sect := q.sect.set i (r.withData raw o mp (rawAt raw mp)), awaiting := none }
  | other : EntryMove p enc raw o mp q { q with consumed := mp }

theorem parseMark_move (p : Params) (enc : BitVec 2) (raw : List Byte) (o mp : Nat) (q : Parser) :
    EntryMove p enc raw o mp q (parseMark p enc raw o mp q) := by
  by_cases hm : rawAt raw mp ∈ p.idamMarks
  · rw [parseMark_id hm]
    rcases Nat.lt_or_ge (mp + 6) raw.length with hlen | hlen
    · by_cases hfull : q.sect.length = p.sectorCap
      · rw [parseId_full hlen hfull]
        exact .full ⟨hm, hlen, hfull⟩
      · rw [parseId_room hlen hfull]
        exact .made hfull
    · rw [parseId_incomplete hlen]
      exact .incomplete
  · by_cases hd : rawAt raw mp ∈ p.damMarks
    · rw [parseMark_data hm hd]
      cases ha : q.awaiting with
      | none =>
        rw [parseData_orphan ha, show ({ q with consumed := mp + 1 } : Parser)
          = { q with consumed := mp + 1, awaiting := none } by rw [← ha]]
        exact .orphan
      | some i =>
        cases hr : q.sect[i]? with
        | none =>
          rw [parseData]
          simp only [ha, hr]
          exact .orphan
        | some r =>
          rw [parseData_bound ha hr]
          exact .bound hd ha hr
    · rw [parseMark_other hm hd]
      exact .other

/-- What every move keeps, the parse keeps. -/
theorem parseEntries_keeps_moves {P : Parser → Prop}
    (hmove : ∀ o mp t t', P t → EntryMove p enc raw o mp t t' → P t') (es : List IdamEntry)
    (h : P q) : P (parseEntries p enc raw es q) :=
  parseEntries_keeps (fun _ _ ht _ => hmove _ _ _ _ ht (parseMark_move ..)) es h

/-! ## Facts of every record (R279) -/

/-- What a new record has and a data field keeps, every record has. -/
theorem parseEntries_forall {P : SectorRecord → Prop} (hid : ∀ o mp, P (idRecord enc raw o mp))
    (hdata : ∀ r o mp, rawAt raw mp ∈ p.damMarks → P r → P (r.withData raw o mp (rawAt raw mp)))
    (es : List IdamEntry) : ∀ r ∈ (parseEntries p enc raw es Parser.reset).sect, P r := by
  refine parseEntries_keeps_moves (P := fun q => ∀ r ∈ q.sect, P r) (fun o mp t t' h hmove => ?_)
    es (List.forall_mem_nil _)
  cases hmove with
  | incomplete | full | orphan | other => exact h
  | made => exact List.forall_mem_append.2 ⟨h, List.forall_mem_singleton.2 (hid _ _)⟩
  | bound hd _ hr =>
    intro r hmem
    rcases List.mem_or_eq_of_mem_set hmem with hold | rfl
    · exact h r hold
    · exact hdata _ _ _ hd (h _ (List.mem_of_getElem? hr))

theorem withData_enc (r : SectorRecord) (raw : List Byte) (o mp : Nat) (m : Byte) :
    (r.withData raw o mp m).enc = r.enc := by
  rw [SectorRecord.withData]
  split_ifs <;> rfl

theorem withData_damType (r : SectorRecord) (raw : List Byte) (o mp : Nat) (m : Byte) :
    (r.withData raw o mp m).damType = m := by
  rw [SectorRecord.withData]
  split_ifs <;> rfl

theorem parseEntries_enc (es : List IdamEntry) :
    ∀ r ∈ (parseEntries p enc raw es Parser.reset).sect, r.enc = enc :=
  parseEntries_forall (fun _ _ => rfl) (fun r _ _ _ h => (withData_enc r ..).trans h) es

/-- A good data CRC needs a data field, whose mark is a DAM. -/
theorem parseEntries_damType (es : List IdamEntry) :
    ∀ r ∈ (parseEntries p enc raw es Parser.reset).sect,
      r.dataCrcOk = true → r.damType ∈ p.damMarks :=
  parseEntries_forall (P := fun r => r.dataCrcOk = true → r.damType ∈ p.damMarks)
    (fun _ _ h => absurd h Bool.noConfusion)
    (fun r _ _ hd _ _ => (withData_damType r ..).symm ▸ hd) es

/-! ## The cap (R276) -/

/-- The table is full, the cap is marked and no record awaits its data. -/
structure Parser.AtCap (p : Params) (l : List SectorRecord) (q : Parser) : Prop where
  sect : q.sect = l
  full : l.length = p.sectorCap
  awaiting : q.awaiting = none
  marked : q.sectCapped = true

/-- There are more than `cap` records, `l` the first of them, and none of these awaits its data. -/
structure Parser.PastCap (cap : Nat) (l : List SectorRecord) (q : Parser) : Prop where
  sect : q.sect.take cap = l
  more : cap < q.sect.length
  awaiting : ∀ i, q.awaiting = some i → cap ≤ i

theorem Parser.PastCap.of_not_awaiting {cap : Nat} {l : List SectorRecord}
    (hs : q.sect.take cap = l) (hmore : cap < q.sect.length) (ha : q.awaiting = none) :
    q.PastCap cap l :=
  ⟨hs, hmore, fun _ h => absurd (h.symm.trans ha) (Option.some_ne_none _)⟩

/-- At the cap nothing changes the records or the mark any more. -/
theorem parseEntries_atCap {l : List SectorRecord} (es : List IdamEntry) (h : q.AtCap p l) :
    (parseEntries p enc raw es q).AtCap p l := by
  refine parseEntries_keeps_moves (fun o mp t t' ht hmove => ?_) es h
  obtain ⟨hsect, hfull, hnone, hmarked⟩ := ht
  cases hmove with
  | incomplete | orphan => exact ⟨hsect, hfull, rfl, hmarked⟩
  | full => exact ⟨hsect, hfull, rfl, rfl⟩
  | made hroom => exact absurd (hsect ▸ hfull) hroom
  | bound _ hsome => exact absurd (hsome.symm.trans hnone) (Option.some_ne_none _)
  | other => exact ⟨hsect, hfull, hnone, hmarked⟩

/-- Past `cap` records the first of them stay as they are. -/
theorem parseEntries_pastCap {cap : Nat} {l : List SectorRecord} (es : List IdamEntry)
    (h : q.PastCap cap l) : (parseEntries p enc raw es q).PastCap cap l := by
  refine parseEntries_keeps_moves (fun o mp t t' ht hmove => ?_) es h
  obtain ⟨hsect, hmore, hwait⟩ := ht
  cases hmove with
  | incomplete | full | orphan => exact .of_not_awaiting hsect hmore rfl
  | made =>
    refine ⟨by rw [List.take_append_of_le_length hmore.le, hsect], ?_, fun i hi => ?_⟩
    · rw [List.length_append]
      omega
    · rw [← Option.some.inj hi]
      exact hmore.le
  | bound _ hsome =>
    exact .of_not_awaiting (by rw [List.take_set_of_le (hwait _ hsome), hsect])
      (by rwa [List.length_set]) rfl
  | other => exact ⟨hsect, hmore, hwait⟩

/-- Where an entry meets neither cap it does the same under both. -/
theorem parseMark_congr_cap {n : Nat} (h : ¬ MeetsCap p raw mp q)
    (h' : ¬ MeetsCap { p with sectorCap := n } raw mp q) :
    parseMark { p with sectorCap := n } enc raw o mp q = parseMark p enc raw o mp q := by
  by_cases hm : rawAt raw mp ∈ p.idamMarks
  · rw [parseMark_id hm, parseMark_id (p := { p with sectorCap := n }) hm]
    rcases Nat.lt_or_ge (mp + 6) raw.length with hlen | hlen
    · rw [parseId_room hlen fun hfull => h ⟨hm, hlen, hfull⟩,
        parseId_room hlen fun hfull => h' ⟨hm, hlen, hfull⟩]
    · rw [parseId_incomplete hlen, parseId_incomplete hlen]
  · rw [parseMark, parseMark, if_neg hm, if_neg hm]

/-- An entry that does not meet the cap leaves the mark and makes at most one record. -/
theorem parseMark_below_cap (h : ¬ MeetsCap p raw mp q) :
    (parseMark p enc raw o mp q).sectCapped = q.sectCapped ∧
    (parseMark p enc raw o mp q).sect.length ≤ q.sect.length + 1 ∧
    (q.sect.length ≤ p.sectorCap → (parseMark p enc raw o mp q).sect.length ≤ p.sectorCap) := by
  have hmove := parseMark_move p enc raw o mp q
  generalize parseMark p enc raw o mp q = q' at hmove ⊢
  cases hmove with
  | incomplete | orphan | other => exact ⟨rfl, Nat.le_succ _, id⟩
  | full hcap => exact absurd hcap h
  | made hroom =>
    rw [List.length_append, List.length_singleton]
    exact ⟨rfl, Nat.le_refl _, fun hle => Nat.lt_of_le_of_ne hle hroom⟩
  | bound =>
    rw [List.length_set]
    exact ⟨rfl, Nat.le_succ _, id⟩

/-- The table is the other's up to `cap` records, and its mark says whether that has more. -/
def Parser.CutFrom (q : Parser) (cap : Nat) (all : Parser) : Prop :=
  q.sect = all.sect.take cap ∧ q.sectCapped = decide (cap < all.sect.length)

/-- From the cap on the two tables stay the one the start of the other. -/
theorem parseEntries_take_of_atCap {n : Nat} {l : List SectorRecord} (es : List IdamEntry)
    (h : q.AtCap p l) (h' : q'.PastCap p.sectorCap l) :
    (parseEntries p enc raw es q).CutFrom p.sectorCap
      (parseEntries { p with sectorCap := n } enc raw es q') := by
  obtain ⟨hsect, -, -, hmarked⟩ := parseEntries_atCap (enc := enc) (raw := raw) es h
  obtain ⟨htake, hmore, -⟩ :=
    parseEntries_pastCap (p := { p with sectorCap := n }) (enc := enc) (raw := raw) es h'
  exact ⟨hsect.trans htake.symm, hmarked.trans (decide_eq_true hmore).symm⟩

/-- A table with a cap holds the first records of one with room for all, and its mark says whether
there are more (spec/41_sync_framer.md R276). -/
theorem parseEntries_take_cap {n : Nat} (es : List IdamEntry) (hn : q.sect.length + es.length ≤ n)
    (hcap : q.sect.length ≤ p.sectorCap) (hm : q.sectCapped = false) :
    (parseEntries p enc raw es q).CutFrom p.sectorCap
      (parseEntries { p with sectorCap := n } enc raw es q) := by
  have hend (t : Parser) (hle : t.sect.length ≤ p.sectorCap) (hf : t.sectCapped = false) :
      t.CutFrom p.sectorCap t :=
    ⟨(List.take_of_length_le hle).symm, by rw [hf, decide_eq_false (Nat.not_lt.2 hle)]⟩
  induction es generalizing q with
  | nil => exact hend q hcap hm
  | cons e es ih =>
    rw [List.length_cons] at hn
    rw [parseEntries, parseEntries]
    split_ifs with hskip hstop
    · exact ih (by omega) hcap hm
    · exact hend q hcap hm
    · have hfree : ¬ MeetsCap { p with sectorCap := n } raw (markPos enc raw e.offset) q := by
        rintro ⟨-, -, hfull⟩
        have : q.sect.length = n := hfull
        omega
      by_cases hmeets : MeetsCap p raw (markPos enc raw e.offset) q
      · obtain ⟨hid, hlen, hfull⟩ := hmeets
        rw [parseMark_id hid, parseMark_id (p := { p with sectorCap := n }) hid,
          parseId_full hlen hfull, parseId_room hlen fun h => hfree ⟨hid, hlen, h⟩]
        refine parseEntries_take_of_atCap (l := q.sect) es ⟨rfl, hfull, rfl, rfl⟩ ⟨?_, ?_, ?_⟩
        · exact List.take_left' hfull
        · rw [List.length_append, List.length_singleton, hfull]
          exact Nat.lt_succ_self _
        · exact fun i hi => (hfull.symm.trans (Option.some.inj hi)).le
      · rw [parseMark_congr_cap hmeets hfree]
        obtain ⟨hsame, hone, hbelow⟩ := parseMark_below_cap (enc := enc) (o := e.offset) hmeets
        exact ih (by omega) (hbelow hcap) (hsame.trans hm)

end

/-! ## One entry in the words of the statements -/

section
variable {p : Params} {enc : BitVec 2} {raw : List Byte} {e : IdamEntry} {es : List IdamEntry}
  {q q' : Parser} {mp : Nat} {m : Byte}

theorem parseEntries_skip (h : e.offset < q.consumed) :
    parseEntries p enc raw (e :: es) q = parseEntries p enc raw es q := if_pos h

theorem parseEntries_end (hc : q.consumed ≤ e.offset) (h : raw.length ≤ markPos enc raw e.offset) :
    parseEntries p enc raw (e :: es) q = q := (if_neg (Nat.not_lt.2 hc)).trans (if_pos h)

theorem parseEntries_mark (hc : q.consumed ≤ e.offset) (hm : markAt enc raw e.offset mp m)
    (h : parseMark p enc raw e.offset mp q = q') :
    parseEntries p enc raw (e :: es) q = parseEntries p enc raw es q' := by
  have hlt := lt_length_of_getElem? hm.1
  rw [parseEntries, if_neg (Nat.not_lt.2 hc), markPos_of_markAt hm, if_neg (Nat.not_le.2 hlt), h]

section
variable (hc : q.consumed ≤ e.offset) (hm : markAt enc raw e.offset mp m)
include hc hm

theorem parseEntries_incompleteId (hid : m ∈ p.idamMarks) (hlen : raw.length ≤ mp + 6) :
    parseEntries p enc raw (e :: es) q
      = parseEntries p enc raw es { q with consumed := raw.length, awaiting := none } := by
  rw [← rawAt_of_getElem? hm.1] at hid
  exact parseEntries_mark hc hm ((parseMark_id hid).trans (parseId_incomplete hlen))

theorem parseEntries_fullTable (hid : m ∈ p.idamMarks) (hlen : mp + 6 < raw.length)
    (hfull : q.sect.length = p.sectorCap) :
    parseEntries p enc raw (e :: es) q
      = parseEntries p enc raw es
          { q with consumed := mp + 7, awaiting := none, sectCapped := true } := by
  rw [← rawAt_of_getElem? hm.1] at hid
  exact parseEntries_mark hc hm ((parseMark_id hid).trans (parseId_full hlen hfull))

theorem parseEntries_newRecord {c h r n hi lo : Byte} (hid : m ∈ p.idamMarks)
    (hroom : q.sect.length ≠ p.sectorCap) (h1 : raw[mp + 1]? = some c) (h2 : raw[mp + 2]? = some h)
    (h3 : raw[mp + 3]? = some r) (h4 : raw[mp + 4]? = some n) (h5 : raw[mp + 5]? = some hi)
    (h6 : raw[mp + 6]? = some lo) :
    parseEntries p enc raw (e :: es) q
      = parseEntries p enc raw es { q with
          consumed := mp + 7, awaiting := some q.sect.length
          sect := q.sect ++ [{
            cyl := c, head := h, sector := r, sizeCode := n, enc := enc, damType := 0
            idCrcOk := decide (crcBytes ((raw.drop e.offset).take (mp + 5 - e.offset)) = [hi, lo])
            dataCrcOk := false, dataOffset := 0, dataSize := 0 }] } := by
  rw [← rawAt_of_getElem? hm.1] at hid
  refine parseEntries_mark hc hm ((parseMark_id hid).trans
    ((parseId_room (lt_length_of_getElem? h6) hroom).trans ?_))
  rw [idRecord, rawAt_of_getElem? h1, rawAt_of_getElem? h2, rawAt_of_getElem? h3,
    rawAt_of_getElem? h4, crc16_beq_storedCrc h5 h6, rawSlice]

theorem parseEntries_orphan (hid : m ∉ p.idamMarks) (hd : m ∈ p.damMarks)
    (ha : q.awaiting = none) :
    parseEntries p enc raw (e :: es) q
      = parseEntries p enc raw es { q with consumed := mp + 1 } := by
  rw [← rawAt_of_getElem? hm.1] at hid hd
  exact parseEntries_mark hc hm ((parseMark_data hid hd).trans (parseData_orphan ha))

/-- A DAM binds the data field to the record that awaits it. -/
theorem parseEntries_bound (hid : m ∉ p.idamMarks) (hd : m ∈ p.damMarks) {i : Nat}
    {r : SectorRecord} (ha : q.awaiting = some i) (hr : q.sect[i]? = some r) :
    parseEntries p enc raw (e :: es) q
      = parseEntries p enc raw es { q with
          consumed := dataConsumed r raw mp, awaiting := none
          sect := q.sect.set i (r.withData raw e.offset mp m) } := by
  have hmark := rawAt_of_getElem? hm.1
  rw [← hmark] at hid hd
  refine parseEntries_mark hc hm ((parseMark_data hid hd).trans ((parseData_bound ha hr).trans ?_))
  rw [hmark]

theorem parseEntries_incompleteData {i : Nat} {r : SectorRecord} (hid : m ∉ p.idamMarks)
    (hd : m ∈ p.damMarks) (ha : q.awaiting = some i) (hr : q.sect[i]? = some r)
    (hlen : raw.length < mp + 1 + sectorSize r.sizeCode + 2) :
    parseEntries p enc raw (e :: es) q
      = parseEntries p enc raw es { q with
          consumed := mp + 1, awaiting := none
          sect := q.sect.set i
            { r with damType := m, dataOffset := mp + 1, dataSize := 0, dataCrcOk := false } } := by
  rw [parseEntries_bound hc hm hid hd ha hr, withData_incomplete hlen, dataConsumed_incomplete hlen]

theorem parseEntries_completeData {i : Nat} {r : SectorRecord} {hi lo : Byte}
    (hid : m ∉ p.idamMarks) (hd : m ∈ p.damMarks) (ha : q.awaiting = some i)
    (hr : q.sect[i]? = some r)
    (hhi : raw[mp + 1 + sectorSize r.sizeCode]? = some hi)
    (hlo : raw[mp + 2 + sectorSize r.sizeCode]? = some lo) :
    parseEntries p enc raw (e :: es) q
      = parseEntries p enc raw es { q with
          consumed := mp + sectorSize r.sizeCode + 3, awaiting := none
          sect := q.sect.set i { r with
            damType := m, dataOffset := mp + 1, dataSize := sectorSize r.sizeCode
            dataCrcOk := decide (crcBytes
              ((raw.drop e.offset).take (mp + sectorSize r.sizeCode + 1 - e.offset))
                = [hi, lo]) } } := by
  have hlen : ¬ raw.length < mp + 1 + sectorSize r.sizeCode + 2 := by
    have := lt_length_of_getElem? hlo
    omega
  rw [show mp + 2 + sectorSize r.sizeCode = mp + 1 + sectorSize r.sizeCode + 1 by omega] at hlo
  rw [parseEntries_bound hc hm hid hd ha hr, withData_complete hlen, dataConsumed_complete hlen,
    crc16_beq_storedCrc hhi hlo, rawSlice]

theorem parseEntries_otherMark (hid : m ∉ p.idamMarks) (hd : m ∉ p.damMarks) :
    parseEntries p enc raw (e :: es) q
      = parseEntries p enc raw es { q with consumed := mp } := by
  rw [← rawAt_of_getElem? hm.1] at hid hd
  exact parseEntries_mark hc hm (parseMark_other hid hd)

end

end

end Sys2Proof.Machine

namespace Sys2Proof

open Machine Claims

/-- Settles O51: the invariants and the cap follow from what one entry can do, and each outcome is
the lemma of its mark. -/
theorem sectorRecordsStayWithinRaw : Obligations.SectorRecordsStayWithinRaw := by
  refine ⟨fun s => ⟨fun r hr => ?_, parsed_length_le s⟩, fun p enc raw es => ?_,
    fun p enc raw e es q => ⟨rfl, parseEntries_skip, fun hc henc hrun => ?_, fun hc hlen => ?_⟩,
    fun p enc raw e es q mp m hc hm => ⟨parseEntries_incompleteId hc hm,
      parseEntries_fullTable hc hm, fun _ _ _ _ _ _ => parseEntries_newRecord hc hm,
      parseEntries_orphan hc hm, fun _ _ => parseEntries_incompleteData hc hm,
      fun _ _ _ _ => parseEntries_completeData hc hm, parseEntries_otherMark hc hm⟩⟩
  · obtain ⟨hfits, hsize, hcrc⟩ := parsed_within s r hr
    rw [parsed_eq] at hr
    exact ⟨hfits, hsize, fun hok => ⟨hcrc hok, fun hzero hdam =>
      hzero (hdam ▸ parseEntries_damType _ r hr hok)⟩, parseEntries_enc _ r hr⟩
  · exact parseEntries_take_cap es (Nat.zero_add _).le (Nat.zero_le _) rfl
  · subst henc
    exact parseEntries_end hc (length_le_markPos_of_run hrun)
  · exact parseEntries_end hc (hlen.trans (le_markPos _ _ _))

end Sys2Proof

end

section
/-! PROOF. A written sector is read back: an ID field and its data field in a stream of bytes, each
behind its sync bytes, make one record (spec/41_sync_framer.md R270 to R275, R281 to R283). -/

namespace Sys2Proof.Machine

open Claims (markAt crcBytes)

/-! ## Bytes at an offset -/

theorem getElem?_of_drop {raw bytes rest : List Byte} {o : Nat} (h : raw.drop o = bytes ++ rest)
    {i : Nat} (hi : i < bytes.length) : raw[o + i]? = bytes[i]? := by
  rw [← List.getElem?_drop, h, List.getElem?_append_left hi]

theorem drop_of_drop {raw a b : List Byte} {o n : Nat} (h : raw.drop o = a ++ b)
    (hn : n = o + a.length) : raw.drop n = b := by
  rw [hn, ← List.drop_drop, h, List.drop_left]

theorem take_of_drop {raw bytes rest : List Byte} {o : Nat} (h : raw.drop o = bytes ++ rest)
    {n : Nat} (hn : n = o + bytes.length) : (raw.drop o).take (n - o) = bytes := by
  rw [h, hn, Nat.add_sub_cancel_left, List.take_left]

/-- `k` sync bytes, then another byte: the mark. For FM there is no run (spec/41_sync_framer.md
R271). -/
theorem markAt_of_drop {enc : BitVec 2} {raw rest : List Byte} {o k : Nat} {m : Byte}
    (h : raw.drop o = List.replicate k 0xA1 ++ m :: rest) (hmfm : enc = 1 → m ≠ 0xA1)
    (hfm : enc ≠ 1 → k = 0) : markAt enc raw o (o + k) m := by
  have hget (i : Nat) : raw[o + i]? = (List.replicate k (0xA1 : Byte) ++ m :: rest)[i]? := by
    rw [← List.getElem?_drop, h]
  refine ⟨?_, fun henc => ⟨Nat.le_add_right o k, hmfm henc, fun j hlow hhigh => ?_⟩, fun henc => ?_⟩
  · rw [hget, List.getElem?_append_right (by simp), List.length_replicate, Nat.sub_self]
    rfl
  · obtain ⟨i, rfl⟩ := Nat.exists_eq_add_of_le hlow
    rw [hget, List.getElem?_append_left (by simp; omega), List.getElem?_replicate,
      if_pos (by omega)]
  · rw [hfm henc, Nat.add_zero]

/-! ## One sector -/

theorem sectorCap_ne_zero {p : Params} (h : p.wf = true) : p.sectorCap ≠ 0 := by
  simp only [Params.wf, Bool.and_eq_true, decide_eq_true_eq] at h
  omega

theorem parseEntries_skip_all {p : Params} {enc : BitVec 2} {raw : List Byte} {q : Parser}
    {skipped : List IdamEntry} (es : List IdamEntry) (h : ∀ e ∈ skipped, e.offset < q.consumed) :
    parseEntries p enc raw (skipped ++ es) q = parseEntries p enc raw es q := by
  induction skipped with
  | nil => rfl
  | cons e skipped ih =>
    obtain ⟨he, hrest⟩ := List.forall_mem_cons.1 h
    rw [List.cons_append, parseEntries_skip he, ih hrest]

/-- An ID field at `o` and a data field at `f`, each behind `k` sync bytes and before two CRC bytes;
entries inside the fields are skipped. -/
theorem parseEntries_sector {p : Params} {enc : BitVec 2} {raw data idRest dataRest : List Byte}
    {cyl head sector size mark hi lo hi' lo' : Byte} {o f k : Nat} {d d' : BitVec 2}
    {inId inData : List IdamEntry}
    (hroom : p.sectorCap ≠ 0) (hidam : p.idamMarks = [0xFE]) (hdam : mark ∈ p.damMarks)
    (hmark : mark ≠ 0xFE) (hmfm : enc = 1 → mark ≠ 0xA1) (hfm : enc ≠ 1 → k = 0)
    (hsize : data.length = sectorSize size)
    (hid : raw.drop o
      = (List.replicate k 0xA1 ++ [0xFE, cyl, head, sector, size]) ++ ([hi, lo] ++ idRest))
    (hdata : raw.drop f = (List.replicate k 0xA1 ++ mark :: data) ++ ([hi', lo'] ++ dataRest))
    (hf : o + k + 7 ≤ f) (hinId : ∀ e ∈ inId, e.offset < o + k + 7)
    (hinData : ∀ e ∈ inData, e.offset < f + k + sectorSize size + 3) :
    (parseEntries p enc raw (⟨o, d⟩ :: (inId ++ ⟨f, d'⟩ :: inData)) Parser.reset).sect
      = [{ cyl := cyl, head := head, sector := sector, sizeCode := size, enc := enc
           damType := mark
           idCrcOk := decide
            ([hi, lo] = crcBytes (List.replicate k 0xA1 ++ [0xFE, cyl, head, sector, size]))
           dataCrcOk := decide ([hi', lo'] = crcBytes (List.replicate k 0xA1 ++ mark :: data))
           dataOffset := f + k + 1, dataSize := sectorSize size }] := by
  have hidAt : markAt enc raw o (o + k) 0xFE :=
    markAt_of_drop (hid.trans (List.append_assoc ..)) (fun _ => by decide) hfm
  have hdataAt : markAt enc raw f (f + k) mark :=
    markAt_of_drop (hdata.trans (List.append_assoc ..)) hmfm hfm
  have hfields : raw.drop (o + k) = [0xFE, cyl, head, sector, size, hi, lo] ++ idRest :=
    drop_of_drop (hid.trans (List.append_assoc ..)) (by rw [List.length_replicate])
  have hcrcs : raw.drop (f + k + 1 + sectorSize size) = [hi', lo'] ++ dataRest :=
    drop_of_drop hdata (by simp [hsize]; omega)
  have hcrcs' : raw.drop (f + k + 2 + sectorSize size) = [lo'] ++ dataRest :=
    drop_of_drop (a := [hi']) hcrcs (by simp; omega)
  have hidField := take_of_drop hid (n := o + k + 5) (by simp; omega)
  have hdataField := take_of_drop hdata (n := f + k + sectorSize size + 1) (by simp [hsize]; omega)
  have hbyte (i : Fin 7) : raw[o + k + i.val]? = [0xFE, cyl, head, sector, size, hi, lo][i.val]? :=
    getElem?_of_drop hfields i.isLt
  have hcrc : raw[f + k + 1 + sectorSize size]? = some hi' :=
    getElem?_of_drop hcrcs (i := 0) (Nat.succ_pos 1)
  have hcrc' : raw[f + k + 2 + sectorSize size]? = some lo' :=
    getElem?_of_drop hcrcs' (i := 0) (Nat.succ_pos 0)
  rw [parseEntries_newRecord (q := Parser.reset) (Nat.zero_le _) hidAt (by simp [hidam])
      (Ne.symm hroom) (hbyte 1) (hbyte 2) (hbyte 3) (hbyte 4) (hbyte 5) (hbyte 6),
    parseEntries_skip_all _ hinId,
    parseEntries_completeData hf hdataAt (by simpa [hidam] using hmark) hdam rfl rfl hcrc hcrc',
    ← List.append_nil inData, parseEntries_skip_all [] hinData, hidField, hdataField]
  simp only [parseEntries, eq_comm (a := [hi, lo]), eq_comm (a := [hi', lo'])]
  rfl

/-! ## Where the fields stand in the stream -/

section
variable (pre idField idCrc gap dataField dataCrc post : List Byte)

theorem drop_idField :
    (pre ++ idField ++ idCrc ++ gap ++ dataField ++ dataCrc ++ post).drop pre.length
      = idField ++ (idCrc ++ (gap ++ dataField ++ dataCrc ++ post)) := by
  simp

theorem drop_dataField {idCrc : List Byte} (h : idCrc.length = 2) :
    (pre ++ idField ++ idCrc ++ gap ++ dataField ++ dataCrc ++ post).drop
        (pre.length + idField.length + 2 + gap.length)
      = dataField ++ (dataCrc ++ post) := by
  refine drop_of_drop (o := 0) (a := pre ++ idField ++ idCrc ++ gap) ?_ ?_
  · simp
  · simp [h]
    omega

end

end Sys2Proof.Machine

namespace Sys2Proof

open Machine Claims

/-- Settles O50: MFM with three sync bytes before each field, FM with none. -/
theorem goodSectorMakesAGoodRecord : Obligations.GoodSectorMakesAGoodRecord := by
  intro p pre gap post data idCrc dataCrc cyl head sector size mark hp hidam hdam hmark hdata hidCrc
    hdataCrc
  obtain ⟨hi, lo, rfl⟩ := List.length_eq_two.1 hidCrc
  obtain ⟨hi', lo', rfl⟩ := List.length_eq_two.1 hdataCrc
  have hroom := sectorCap_ne_zero hp
  intro record mfmId mfmData fmId fmData o m f
  refine ⟨fun hsync => ?_, ?_⟩
  · refine parseEntries_sector (k := 3) (inId := [⟨o + 1, 1⟩, ⟨o + 2, 1⟩])
      (inData := [⟨m + 1, 1⟩, ⟨m + 2, 1⟩]) hroom hidam hdam hmark (fun _ => hsync)
      (fun h => absurd rfl h) hdata (drop_idField ..) (drop_dataField _ _ _ _ _ _ rfl) ?_ ?_ ?_
    · show o + 3 + 7 ≤ o + 8 + 2 + gap.length
      omega
    · simp
    · simp
      omega
  · refine parseEntries_sector (k := 0) (inId := []) (inData := []) hroom hidam hdam hmark
      (fun h => absurd h (by decide)) (fun _ => rfl) hdata (drop_idField ..)
      (drop_dataField _ _ _ _ _ _ rfl) ?_ (List.forall_mem_nil _) (List.forall_mem_nil _)
    show o + 0 + 7 ≤ o + 5 + 2 + gap.length
    omega

end Sys2Proof

end

section
/-! PROOF. WB_DETECT as a command: validation, what a successful detection commits in the layouts of
R172 and R173, and its frame (spec/42_weakbit.md R331, R343 to R345). What one judgement makes of
the comparator, and the induction over the positions of a scan, serve the reports below too. -/

namespace Sys2Proof.Machine

open Claims (detectLegal detected failedWith weakWord)

/-! ## Validation (R331) -/

theorem validateWb_of_few {s : State} (h : s.regs.wbRevs.toNat < 2) :
    validateWb s = some .fewRevs := if_pos h

theorem validateWb_of_empty {s : State} (hrevs : 2 ≤ s.regs.wbRevs.toNat)
    (hlen : s.regs.wbLength = 0) : validateWb s = some .emptyInput := by
  rw [validateWb, hlen]
  exact if_neg (Nat.not_lt.2 hrevs)

/-- The last two checks have one error. -/
theorem validateWb_of_not_legal {s : State} (hrevs : 2 ≤ s.regs.wbRevs.toNat)
    (hlen : s.regs.wbLength ≠ 0) (h : ¬ detectLegal s) : validateWb s = some .badParam := by
  have hfew : ¬ s.regs.wbRevs.toNat < Config.minRevs := Nat.not_lt.2 hrevs
  have hchecks : validateWb s = none ∨ validateWb s = some .badParam := by
    rw [validateWb, if_neg hfew, if_neg (ne_zero_iff_toNat.1 hlen)]
    split_ifs <;> simp
  exact hchecks.resolve_left fun hn => h (validateWb_eq_none_iff.1 hn)

theorem exec_wbDetect_of_check {s : State} {e : ErrCode} (h : validateWb s = some e) :
    exec .wbDetect s = .next (failedWith e.code s) := by
  rw [exec, execWbDetect, h]
  rfl

/-! ## One judgement (R330) -/

/-- The samples differ and their variation passes the threshold (spec/42_weakbit.md R335 to
R337). -/
def weakSamples (k thr : Nat) (smp : List Bool) : Bool :=
  decide (1 < distinctCount smp ∧ thr ≤ variation (distinctCount smp) k)

/-- A table with one entry more, while there is room (spec/42_weakbit.md R342). -/
def pushCapped {α : Type} (cap : Nat) (l : List α) (x : α) : List α :=
  if l.length < cap then l ++ [x] else l

theorem mem_pushCapped {α : Type} {cap : Nat} {l : List α} {x y : α}
    (h : y ∈ pushCapped cap l x) : y ∈ l ∨ y = x := by
  unfold pushCapped at h
  split_ifs at h
  · simpa using h
  · exact .inl h

/-- The record of a weak bit at the cursors (spec/42_weakbit.md R339). -/
def Comparator.record (c : Comparator) (k : Nat) (wbPattern : Bool) (smp : List Bool) :
    WeakRecord :=
  ⟨c.o, c.b, variation (distinctCount smp) k, distinctCount smp, smp, classify wbPattern smp⟩

theorem addRecord_eq (c : Comparator) (p : Params) (r : WeakRecord) :
    c.addRecord p r =
      { c with
        count := c.count + 1
        recs := pushCapped p.wbCap c.recs r
        ovf := c.ovf || decide (p.wbCap ≤ c.recs.length) } := by
  unfold Comparator.addRecord pushCapped
  split_ifs with h
  · simp [h]
  · simp [Nat.not_lt.1 h]

theorem addByte_eq (c : Comparator) (p : Params) :
    c.addByte p =
      { c with
        bytes := pushCapped p.wbCap c.bytes c.o
        first := false
        ovf := c.ovf || decide (p.wbCap ≤ c.bytes.length) } := by
  unfold Comparator.addByte pushCapped
  split_ifs with h
  · simp [h]
  · simp [Nat.not_lt.1 h]

section
variable {c : Comparator} {p : Params} {k thr : Nat} {ctrl : Ctrl} {smp : List Bool}

theorem judge_of_not_weak (h : weakSamples k thr smp = false) : c.judge p k thr ctrl smp = c :=
  if_neg (of_decide_eq_false h)

theorem judge_of_weak (h : weakSamples k thr smp = true) :
    c.judge p k thr ctrl smp =
      { c with
        count := c.count + 1
        recs := pushCapped p.wbCap c.recs (c.record k ctrl.wbPattern smp)
        bytes := if ctrl.wbByteLevel && c.first then pushCapped p.wbCap c.bytes c.o else c.bytes
        first := c.first && !ctrl.wbByteLevel
        ovf := c.ovf || decide (p.wbCap ≤ c.recs.length)
          || (ctrl.wbByteLevel && c.first && decide (p.wbCap ≤ c.bytes.length)) } := by
  refine (if_pos (of_decide_eq_true h)).trans ?_
  rw [addByte_eq, addRecord_eq]
  cases ctrl.wbByteLevel with
  | false => simp [Comparator.record]
  | true => cases c.first <;> simp [Comparator.record]

end

/-- One position, from what its reads give. -/
theorem wbBit_of_read {s t : State} {o b : Nat} {smp : List Bool} (hcur : s.cmp.o = o)
    (h : readSamples o b (revolutions s.regs.wbRevs.toNat) s = (smp, t)) :
    wbBit s b =
      { t with
        cmp := ({ s.cmp with b := b } : Comparator).judge s.params s.regs.wbRevs.toNat
          s.regs.wbThreshold.toNat s.regs.ctrl smp } := by
  subst hcur
  rw [wbBit, h]

/-! ## The positions of a scan (R333) -/

/-- The comparator as it enters the byte at its cursor. -/
def enterByte (s : State) : State := { s with cmp := { s.cmp with first := true } }

/-- Induction over the positions: `P o j` speaks of the scan that has judged every position before
bit `j` of byte `o`. -/
theorem wbScan_induct {P : Nat → Nat → State → Prop} {n o : Nat} {s : State}
    (bit : ∀ o j t, o < n → j < 8 → P o j t → P o (j + 1) (wbBit t j))
    (next : ∀ o t, P o 8 t →
      P (o + 1) 0 (enterByte { t with cmp := { t.cmp with o := t.cmp.o + 1 } }))
    (m : Nat) (hn : o + m = n) (h : P o 0 (enterByte s)) : P n 0 (enterByte (wbScan m s)) := by
  induction m generalizing o s with
  | zero => exact hn ▸ h
  | succ m ih =>
    have hbits : ∀ j ≤ 8, P o j ((List.range j).foldl wbBit (enterByte s)) := by
      intro j hj
      induction j with
      | zero => exact h
      | succ j ihj =>
        rw [List.range_succ, List.foldl_concat]
        exact bit o j _ (by omega) hj (ihj (by omega))
    exact ih (by omega) (next o _ (hbits 8 (Nat.le_refl _)))

/-! ## What the tables of a detection hold -/

/-- A record that its three words hold without loss (spec/30_encoding.md R172). -/
structure WeakRecord.Fits (r : WeakRecord) (len : Nat) : Prop where
  offset : r.offset < len
  bit : r.bit < 8
  variation : r.variation ≤ 100
  sampleCount : r.sampleCount = 2
  samples : r.samples.length ≤ 10

theorem length_revolutions_le (k : Nat) : (revolutions k).length ≤ 10 := by
  simp [revolutions]

/-- The record of a weak bit of a legal detection fits. -/
theorem record_fits {c : Comparator} {k thr len : Nat} {pat : Bool} {smp : List Bool} (hk : 2 ≤ k)
    (ho : c.o < len) (hb : c.b < 8) (hsmp : smp.length ≤ 10) (hw : weakSamples k thr smp = true) :
    (c.record k pat smp).Fits len := by
  have htwo := distinctCount_eq_two (of_decide_eq_true hw).1
  refine ⟨ho, hb, ?_, htwo, hsmp⟩
  calc variation (distinctCount smp) k = 200 / k := by rw [htwo, variation]
    _ ≤ 200 / 2 := Nat.div_le_div_left hk (by decide)

/-- Every entry of the two tables is of a position before `WB_LENGTH`. -/
structure Comparator.Tables (c : Comparator) (len : Nat) : Prop where
  recs : ∀ r ∈ c.recs, r.Fits len
  bytes : ∀ o ∈ c.bytes, o < len

theorem Comparator.Tables.judge {c : Comparator} {p : Params} {k thr len : Nat} {ctrl : Ctrl}
    {smp : List Bool} (h : c.Tables len) (hk : 2 ≤ k) (ho : c.o < len) (hb : c.b < 8)
    (hsmp : smp.length ≤ 10) : (c.judge p k thr ctrl smp).Tables len := by
  cases hw : weakSamples k thr smp with
  | false => rwa [judge_of_not_weak hw]
  | true =>
    rw [judge_of_weak hw]
    refine ⟨fun r hr => (mem_pushCapped hr).elim (h.recs r) ?_, fun x hx => ?_⟩
    · rintro rfl
      exact record_fits hk ho hb hsmp hw
    · dsimp only at hx
      split_ifs at hx
      · exact (mem_pushCapped hx).elim (h.bytes x) fun e => e ▸ ho
      · exact h.bytes x hx

theorem detected_tables {s : State} (h : detectLegal s) :
    (detected s).Tables s.regs.wbLength.toNat := by
  obtain ⟨hrevs, -⟩ := h
  have key := wbScan_induct (n := s.regs.wbLength.toNat) (s := { s with cmp := Comparator.reset })
    (P := fun o _ t => t.regs = s.regs ∧ t.cmp.o = o ∧ t.cmp.Tables s.regs.wbLength.toNat)
    (fun o j t ho hj ⟨hregs, hcur, ht⟩ => by
      refine ⟨(wbBit_compareOnly t j).regs.trans hregs, (wbBit_o t j).trans hcur, ?_⟩
      exact Comparator.Tables.judge (c := { t.cmp with b := j }) ⟨ht.recs, ht.bytes⟩
        (hregs ▸ hrevs) (hcur ▸ ho) hj (by rw [readSamples_length]; exact length_revolutions_le _))
    (fun o t ⟨hregs, hcur, ht⟩ => ⟨hregs, congrArg (· + 1) hcur, ht.recs, ht.bytes⟩)
    _ (Nat.zero_add _) ⟨rfl, rfl, by simp [enterByte, Comparator.reset],
      by simp [enterByte, Comparator.reset]⟩
  exact ⟨key.2.2.recs, key.2.2.bytes⟩

theorem detected_bounded (s : State) : (detected s).Bounded s.params :=
  wbScan_bounded (s := { s with cmp := Comparator.reset }) (Comparator.bounded_reset _)

/-! ## The layouts as numbers (R172, R173) -/

/-- Bits put side by side, as a number. -/
theorem toNat_append_eq_add {w v : Nat} (x : BitVec w) (y : BitVec v) :
    (x ++ y).toNat = x.toNat * 2 ^ v + y.toNat := by
  rw [BitVec.toNat_append, ← Nat.shiftLeft_add_eq_or_of_lt y.isLt, Nat.shiftLeft_eq]

theorem toNat_weakWord_place {r : WeakRecord} {len : Nat} (h : r.Fits len) :
    (0#6 ++ r.pattern.code ++ BitVec.ofNat 8 r.sampleCount ++ BitVec.ofNat 8 r.variation ++ 0#5
      ++ BitVec.ofNat 3 r.bit).toNat = weakWord r 1 := by
  obtain ⟨-, hbit, hvar, hcount, -⟩ := h
  simp only [toNat_append_eq_add, BitVec.toNat_ofNat, hcount, weakWord]
  omega

/-- The SAMPLES mask has the sample of revolution `r` at bit `r` (spec/30_encoding.md R172). -/
theorem sampleMask_eq_sum (smp : List Bool) :
    sampleMask smp
      = ((List.range smp.length).map fun i => (smp.getD i false).toNat * 2 ^ i).sum := by
  induction smp with
  | nil => rfl
  | cons b rest ih =>
    rw [sampleMask, ih, List.length_cons, List.range_succ_eq_map, List.map_cons, List.sum_cons,
      List.map_map, ← List.sum_map_mul_left]
    congr 1
    · simp
    · congr 1
      refine List.map_congr_left fun i _ => ?_
      simp [Nat.pow_succ]
      ring

theorem sampleMask_lt (smp : List Bool) : sampleMask smp < 2 ^ smp.length := by
  induction smp with
  | nil => exact Nat.one_pos
  | cons b rest ih =>
    have := Bool.toNat_lt b
    rw [sampleMask, List.length_cons, Nat.pow_succ]
    omega

theorem toNat_weakWord_samples {r : WeakRecord} {len : Nat} (h : r.Fits len) :
    (0#22 ++ BitVec.ofNat 10 (sampleMask r.samples)).toNat = weakWord r 2 := by
  have hmask : sampleMask r.samples < 2 ^ 10 :=
    (sampleMask_lt _).trans_le (Nat.pow_le_pow_right (by decide) h.samples)
  rw [toNat_append_eq_add, BitVec.toNat_ofNat, BitVec.toNat_ofNat, Nat.mod_eq_of_lt hmask,
    sampleMask_eq_sum]
  exact Nat.zero_add _

theorem toNat_weakWords {r : WeakRecord} {len : Nat} (h : r.Fits len) (hlen : len ≤ 2 ^ 32)
    {j : Nat} (hj : j < 3) : r.words[j]?.map BitVec.toNat = some (weakWord r j) := by
  match j with
  | 0 => exact congrArg some (toNat_word_ofNat (h.offset.trans_le hlen))
  | 1 => exact congrArg some (toNat_weakWord_place h)
  | 2 => exact congrArg some (toNat_weakWord_samples h)

/-- Entry `j` of block `i`, where every block has `k` entries. -/
theorem getElem?_flatMap_blocks {α β : Type} {f : α → List β} {k : Nat}
    (hf : ∀ x, (f x).length = k) {l : List α} {i : Nat} {x : α} (h : l[i]? = some x) {j : Nat}
    (hj : j < k) : (l.flatMap f)[k * i + j]? = (f x)[j]? := by
  induction l generalizing i with
  | nil => simp at h
  | cons y l ih =>
    rw [List.flatMap_cons]
    cases i with
    | zero =>
      obtain rfl : y = x := by simpa using h
      rw [Nat.mul_zero, Nat.zero_add, List.getElem?_append_left (by rwa [hf])]
    | succ i =>
      have hskip : k * (i + 1) + j - k = k * i + j := by rw [Nat.mul_succ]; omega
      rw [List.getElem?_append_right (by rw [hf, Nat.mul_succ]; omega), hf, hskip]
      exact ih (by simpa using h)

/-! ## What the body changes (R343) -/

/-- The registers a detection leaves (spec/42_weakbit.md R343, R345). -/
theorem wbBody_regs (s : State) :
    (wbBody s).regs
      = { s.regs with
          wbCount := (wbCountWord
            (wbScan s.regs.wbLength.toNat { s with cmp := Comparator.reset })).1
          wbRecords := BitVec.ofNat 32 (detected s).recs.length
          wbBytes := BitVec.ofNat 32 (detected s).bytes.length
          bytesAnalyzed := s.regs.wbLength
          bitsAnalyzed := BitVec.ofNat 64 (8 * s.regs.wbLength.toNat)
          density := densityOf (detected s).count s.regs.wbLength.toNat
          status := s.regs.status.setWbFlag (detected s).ovf } := by
  rw [wbBody, commitWb, (wbScan_compareOnly _ { s with cmp := Comparator.reset }).regs]
  rfl

theorem toNat_wbCountWord {s : State} (h : s.cmp.count < 2 ^ 32) :
    (wbCountWord s).1.toNat = s.cmp.count := by
  rw [wbCountWord, if_pos h]
  exact toNat_word_ofNat h

/-- The memory a detection leaves, in the words of the statements. -/
theorem wbBody_mem_tables (s : State) :
    (wbBody s).mem
      = { s.mem with
          wbrec := bufWrite s.mem.wbrec 0 ((detected s).recs.flatMap WeakRecord.words)
          wbbyte := bufWrite s.mem.wbbyte 0 ((detected s).bytes.map (BitVec.ofNat 32)) } :=
  wbBody_mem s

theorem wbBody_eq (s : State) :
    wbBody s
      = { s with
          regs := (wbBody s).regs, mem := (wbBody s).mem, cmp := (wbBody s).cmp
          uninitRead := (wbBody s).uninitRead, draws := (wbBody s).draws } := by
  rw [wbBody, (wbScan_compareOnly _ { s with cmp := Comparator.reset }).eq]
  rfl

theorem wbBody_bytes (b : ByteBuf) (s : State) : (wbBody s).mem.bytes b = s.mem.bytes b := by
  rw [wbBody_mem]
  cases b <;> rfl

/-- The body of a detection changes WBREC and WBBYTE alone of the word buffers. -/
theorem wbBody_words {b : WordBuf} (hrec : b ≠ .wbrec) (hbyte : b ≠ .wbbyte) (s : State) :
    (wbBody s).mem.words b = s.mem.words b := by
  rw [wbBody_mem]
  cases b with
  | idam => rfl
  | sect => rfl
  | wbrec => exact absurd rfl hrec
  | wbbyte => exact absurd rfl hbyte

end Sys2Proof.Machine

namespace Sys2Proof

open Machine Claims

/-- Settles O54: each check in R331's order is the first that fails, and a failure writes STATUS
alone. -/
theorem detectValidatesInOrder : Obligations.DetectValidatesInOrder := by
  refine fun s => ⟨fun hfew => exec_wbDetect_of_check (validateWb_of_few hfew),
    fun hrevs hempty => exec_wbDetect_of_check (validateWb_of_empty hrevs hempty),
    fun hrevs hlen hbad => ?_, fun hlegal => ⟨_, exec_of_legal (c := .wbDetect) hlegal, rfl⟩⟩
  refine exec_wbDetect_of_check (validateWb_of_not_legal hrevs hlen ?_)
  rintro ⟨-, hmost, -, hcap⟩
  omega

/-- Settles O55: the body writes both tables from cell 0 on, and with R6's capacities every count,
offset and record fits its field. -/
theorem detectCommitsItsReport : Obligations.DetectCommitsItsReport := by
  intro s hp hlegal
  obtain ⟨-, -, -, -, -, hcap⟩ := params_bounds hp
  have hlen := s.regs.wbLength.isLt
  have htables := detected_tables hlegal
  have hrecs := (detected_bounded s).recs
  have hbytes := (detected_bounded s).bytes
  refine ⟨_, exec_of_legal (c := .wbDetect) hlegal, succeedCommand_eng _, ?_, ?_, ?_, ?_, ?_, ?_,
    ?_, ?_, ?_, ?_, ?_⟩ <;>
    simp only [Op.body, succeedCommand_regs, succeedCommand_mem, wbBody_regs, wbBody_mem_tables]
  · exact toNat_wbCountWord
  · exact toNat_word_ofNat (by omega)
  · exact toNat_word_ofNat (by omega)
  · rw [BitVec.toNat_ofNat, Nat.mod_eq_of_lt (by omega)]
  · rfl
  · rfl
  · intro i r hr j hj
    have hi : i < (detected s).recs.length := (List.getElem?_eq_some_iff.1 hr).1
    rw [bufGet_bufWrite_getElem? _ _ (by rw [weakWords_length]; omega),
      getElem?_flatMap_blocks WeakRecord.words_length hr hj,
      toNat_weakWords (htables.recs r (List.mem_of_getElem? hr)) hlen.le hj]
  · intro i o ho
    have hi : i < (detected s).bytes.length := (List.getElem?_eq_some_iff.1 ho).1
    rw [bufGet_bufWrite_getElem? _ _ (by rwa [List.length_map]), List.getElem?_map, ho,
      Option.map_some, Option.map_some,
      toNat_word_ofNat ((htables.bytes o (List.mem_of_getElem? ho)).trans hlen)]
  · exact fun i hi => bufGet_bufWrite_past _ _ (by rwa [weakWords_length])
  · exact fun i hi => bufGet_bufWrite_past _ _ (by rwa [List.length_map])

/-- Settles O56: a failed completion writes STATUS alone; a detection's body changes what R343
names, and its two buffers as far as its tables reach. -/
theorem detectLeavesTheRest : Obligations.DetectLeavesTheRest := by
  intro s t h
  have hrec (i : Nat) : wordsWritten s .wbDetect .wbrec ≤ i →
      bufGet t.mem.wbrec i = bufGet s.mem.wbrec i := exec_word_kept (c := .wbDetect) h
  have hbyte (i : Nat) : wordsWritten s .wbDetect .wbbyte ≤ i →
      bufGet t.mem.wbbyte i = bufGet s.mem.wbbyte i := exec_word_kept (c := .wbDetect) h
  rcases exec_op_cases (c := .wbDetect) h with ⟨e, _, rfl⟩ | ⟨_, rfl⟩
  · exact ⟨rfl, rfl, rfl, fun _ => rfl, fun _ _ _ => rfl, hrec, hbyte⟩
  · refine ⟨congrArg succeedCommand (wbBody_eq s), ?_, ?_, fun b => wbBody_bytes b s,
      fun b hr hb => wbBody_words hr hb s, hrec, hbyte⟩
    · rw [succeedCommand_regs, Op.body, wbBody_regs]
    · rw [succeedCommand_regs, Op.body, wbBody_regs]; rfl

end Sys2Proof

end

section
/-! PROOF. The report over written revolutions: count, records, byte list and overflow flag are
those of the weak positions in scan order (spec/42_weakbit.md R333 to R342), and identical
revolutions have none. -/

namespace Sys2Proof.Machine

open Claims (detectLegal detected revsWritten sampleBit samplesAt isWeak weakPositions patternOf)

/-! ## Samples of written revolutions (R334) -/

theorem revolutions_eq_filter {k : Nat} (h : k ≤ 10) :
    revolutions k = (List.finRange 10).filter fun r => r.val < k := by
  revert k
  decide

theorem readSamples_written {o : Nat} (b : Nat) {rs : List (Fin 10)} {s : State}
    (h : ∀ r ∈ rs, bufGet (s.mem.bytes (.rev r)) o ≠ none) :
    readSamples o b rs s = (rs.map (sampleBit s o b), s) := by
  induction rs with
  | nil => rfl
  | cons r rs ih =>
    obtain ⟨hr, hrs⟩ := List.forall_mem_cons.1 h
    obtain ⟨v, hv⟩ := Option.ne_none_iff_exists'.1 hr
    rw [readSamples, engineRead_written hv]
    simp only [ih hrs, List.map_cons, sampleBit, hv, Option.getD_some]

/-- One position of written revolutions: its samples are judged and nothing else happens. -/
theorem wbBit_written {s : State} (hl : detectLegal s) (hw : revsWritten s) {c : Comparator}
    {o : Nat} (hcur : c.o = o) (ho : o < s.regs.wbLength.toNat) (b : Nat) :
    wbBit { s with cmp := c } b =
      { s with
        cmp := ({ c with b := b } : Comparator).judge s.params s.regs.wbRevs.toNat
          s.regs.wbThreshold.toNat s.regs.ctrl (samplesAt s o b) } := by
  obtain ⟨-, hmost, -⟩ := hl
  refine wbBit_of_read (t := { s with cmp := c }) hcur ?_
  rw [samplesAt, ← revolutions_eq_filter hmost]
  exact readSamples_written (s := { s with cmp := c }) b fun r hr =>
    hw r (mem_revolutions.1 hr) o ho

/-- The comparator's judgement of the samples of a position is the statements' (spec/42_weakbit.md
R335 to R337). -/
theorem weakSamples_samplesAt (s : State) (o b : Nat) :
    weakSamples s.regs.wbRevs.toNat s.regs.wbThreshold.toNat (samplesAt s o b) = isWeak s o b := by
  refine decide_eq_decide.2 ⟨fun ⟨hdiff, hthr⟩ => ?_, fun ⟨ht, hf, hthr⟩ => ?_⟩
  · obtain ⟨hf, ht⟩ := (one_lt_distinctCount _).1 hdiff
    rw [distinctCount_eq_two hdiff] at hthr
    exact ⟨ht, hf, hthr⟩
  · have hdiff := (one_lt_distinctCount _).2 ⟨hf, ht⟩
    rw [distinctCount_eq_two hdiff]
    exact ⟨by decide, hthr⟩

/-! ## The weak positions so far (R333) -/

/-- The weak positions before bit `j` of byte `o`, in scan order. -/
def weakBefore (s : State) (o j : Nat) : List (Nat × Nat) :=
  (((List.range o).flatMap fun o' => (List.range 8).map fun b => (o', b))
    ++ (List.range j).map fun b => (o, b)).filter fun p => isWeak s p.1 p.2

theorem weakBefore_length_zero (s : State) :
    weakBefore s s.regs.wbLength.toNat 0 = weakPositions s := by
  simp [weakBefore, weakPositions]

theorem weakBefore_next (s : State) (o : Nat) : weakBefore s (o + 1) 0 = weakBefore s o 8 := by
  simp [weakBefore, List.range_succ (n := o)]

theorem weakBefore_succ (s : State) (o j : Nat) :
    weakBefore s o (j + 1) = weakBefore s o j ++ if isWeak s o j then [(o, j)] else [] := by
  simp [weakBefore, List.range_succ (n := j), List.filter_cons]

/-- Whether a bit of byte `o` before bit `j` is weak. -/
def hasWeakBefore (s : State) (o j : Nat) : Bool := (List.range j).any (isWeak s o)

theorem hasWeakBefore_succ (s : State) (o j : Nat) :
    hasWeakBefore s o (j + 1) = (hasWeakBefore s o j || isWeak s o j) := by
  simp [hasWeakBefore, List.range_succ]

/-- The bytes with a weak bit before bit `j` of byte `o`, in scan order. -/
def weakBytesBefore (s : State) (o j : Nat) : List Nat :=
  ((List.range o).filter fun o' => hasWeakBefore s o' 8) ++ if hasWeakBefore s o j then [o] else []

theorem weakBytesBefore_zero (s : State) (o : Nat) :
    weakBytesBefore s o 0 = (List.range o).filter fun o' => hasWeakBefore s o' 8 :=
  List.append_nil _

theorem weakBytesBefore_next (s : State) (o : Nat) :
    weakBytesBefore s (o + 1) 0 = weakBytesBefore s o 8 := by
  rw [weakBytesBefore_zero, List.range_succ, List.filter_append, weakBytesBefore]
  simp [List.filter_cons]

/-- A byte joins at its first weak bit. -/
theorem weakBytesBefore_succ (s : State) (o j : Nat) :
    weakBytesBefore s o (j + 1) = weakBytesBefore s o j ++
      if isWeak s o j && !hasWeakBefore s o j then [o] else [] := by
  rw [weakBytesBefore, weakBytesBefore, hasWeakBefore_succ]
  cases hasWeakBefore s o j <;> simp

/-! ## The report so far (R330) -/

/-- The record of a weak position (spec/42_weakbit.md R336, R338, R339). -/
def weakRecordAt (s : State) (p : Nat × Nat) : WeakRecord :=
  ⟨p.1, p.2, 200 / s.regs.wbRevs.toNat, 2, samplesAt s p.1 p.2,
    classify s.regs.ctrl.wbPattern (samplesAt s p.1 p.2)⟩

/-- The comparator that has judged every position before bit `j` of byte `o`. -/
structure Comparator.Reports (c : Comparator) (s : State) (o j : Nat) : Prop where
  cursor : c.o = o
  count : c.count = (weakBefore s o j).length
  recs : c.recs = ((weakBefore s o j).map (weakRecordAt s)).take s.params.wbCap
  bytes : c.bytes =
    if s.regs.ctrl.wbByteLevel then (weakBytesBefore s o j).take s.params.wbCap else []
  first : c.first = !(s.regs.ctrl.wbByteLevel && hasWeakBefore s o j)
  ovf : c.ovf = decide (s.params.wbCap < (weakBefore s o j).length)
  /-- So the byte list never overflows where the records do not. -/
  fewer : (weakBytesBefore s o j).length ≤ (weakBefore s o j).length

theorem pushCapped_take {α : Type} (n : Nat) (l : List α) (x : α) :
    pushCapped n (l.take n) x = (l ++ [x]).take n := by
  unfold pushCapped
  rcases Nat.lt_or_ge l.length n with h | h
  · rw [List.take_of_length_le h.le, if_pos h, List.take_of_length_le (by simpa using h)]
  · rw [List.take_append_of_le_length h, if_neg (by rw [List.length_take_of_le h]; omega)]

/-- A position that is not weak leaves the report as it is. -/
theorem Comparator.Reports.succ_of_not_weak {c : Comparator} {s : State} {o j : Nat}
    (h : c.Reports s o j) (hw : isWeak s o j = false) :
    ({ c with b := j } : Comparator).Reports s o (j + 1) := by
  obtain ⟨hcur, hcount, hrecs, hbytes, hfirst, hovf, hfewer⟩ := h
  have hbefore : weakBefore s o (j + 1) = weakBefore s o j := by simp [weakBefore_succ, hw]
  have hlist : weakBytesBefore s o (j + 1) = weakBytesBefore s o j := by
    simp [weakBytesBefore_succ, hw]
  have hhas : hasWeakBefore s o (j + 1) = hasWeakBefore s o j := by simp [hasWeakBefore_succ, hw]
  exact ⟨hcur, hbefore ▸ hcount, hbefore ▸ hrecs, hlist ▸ hbytes, hhas ▸ hfirst, hbefore ▸ hovf,
    hbefore ▸ hlist ▸ hfewer⟩

/-- A weak position joins the report, and its byte where it is the first of it. -/
theorem Comparator.Reports.succ_of_weak {c : Comparator} {s : State} {o j : Nat}
    (h : c.Reports s o j) (hw : isWeak s o j = true) :
    (({ c with b := j } : Comparator).judge s.params s.regs.wbRevs.toNat
      s.regs.wbThreshold.toNat s.regs.ctrl (samplesAt s o j)).Reports s o (j + 1) := by
  obtain ⟨hcur, hcount, hrecs, hbytes, hfirst, hovf, hfewer⟩ := h
  have hjudge := (weakSamples_samplesAt s o j).trans hw
  have hbefore : weakBefore s o (j + 1) = weakBefore s o j ++ [(o, j)] := by
    simp [weakBefore_succ, hw]
  have hlist : weakBytesBefore s o (j + 1)
      = weakBytesBefore s o j ++ if hasWeakBefore s o j then [] else [o] := by
    cases hhas : hasWeakBefore s o j <;> simp [weakBytesBefore_succ, hw, hhas]
  have hhas : hasWeakBefore s o (j + 1) = true := by simp [hasWeakBefore_succ, hw]
  have hrec : ({ c with b := j } : Comparator).record s.regs.wbRevs.toNat s.regs.ctrl.wbPattern
      (samplesAt s o j) = weakRecordAt s (o, j) := by
    rw [Comparator.record, weakRecordAt, distinctCount_eq_two (of_decide_eq_true hjudge).1, hcur]
    rfl
  rw [judge_of_weak hjudge, hrec]
  refine ⟨hcur, ?_, ?_, ?_, ?_, ?_, ?_⟩
  · rw [hcount, hbefore, List.length_append]; rfl
  · rw [hrecs, pushCapped_take, hbefore, List.map_append]; rfl
  · rw [hfirst, hbytes, hcur, hlist]
    cases s.regs.ctrl.wbByteLevel with
    | false => rfl
    | true => cases hasWeakBefore s o j <;> simp [pushCapped_take]
  · rw [hfirst, hhas]
    cases s.regs.ctrl.wbByteLevel <;> simp
  · have hr : c.recs.length = min s.params.wbCap (weakBefore s o j).length := by simp [hrecs]
    have hb : c.bytes.length ≤ (weakBefore s o j).length := by
      rw [hbytes]
      split_ifs
      · exact (List.length_take_le' _ _).trans hfewer
      · exact Nat.zero_le _
    rw [hovf, hr, hbefore, List.length_append, List.length_singleton, Bool.eq_iff_iff]
    simp only [Bool.or_eq_true, Bool.and_eq_true, decide_eq_true_eq]
    omega
  · rw [hbefore, hlist, List.length_append, List.length_append]
    refine Nat.add_le_add hfewer ?_
    split_ifs <;> simp

theorem Comparator.Reports.succ {c : Comparator} {s : State} {o j : Nat} (h : c.Reports s o j) :
    (({ c with b := j } : Comparator).judge s.params s.regs.wbRevs.toNat
      s.regs.wbThreshold.toNat s.regs.ctrl (samplesAt s o j)).Reports s o (j + 1) := by
  cases hw : isWeak s o j with
  | false =>
    rw [judge_of_not_weak ((weakSamples_samplesAt s o j).trans hw)]
    exact h.succ_of_not_weak hw
  | true => exact h.succ_of_weak hw

theorem Comparator.Reports.next {c : Comparator} {s : State} {o : Nat} (h : c.Reports s o 8) :
    ({ c with o := c.o + 1, first := true } : Comparator).Reports s (o + 1) 0 := by
  obtain ⟨hcur, hcount, hrecs, hbytes, -, hovf, hfewer⟩ := h
  rw [← weakBytesBefore_next] at hbytes hfewer
  rw [← weakBefore_next] at hcount hrecs hovf hfewer
  exact ⟨congrArg (· + 1) hcur, hcount, hrecs, hbytes, by simp [hasWeakBefore], hovf, hfewer⟩

theorem reports_reset (s : State) : Comparator.reset.Reports s 0 0 :=
  ⟨rfl, rfl, List.take_nil.symm, by simp [Comparator.reset, weakBytesBefore_zero],
    by simp [Comparator.reset, hasWeakBefore], rfl, Nat.le_refl _⟩

/-- The scan of a legal detection over written revolutions reports every position. -/
theorem detected_reports {s : State} (hl : detectLegal s) (hw : revsWritten s) :
    ({ detected s with first := true } : Comparator).Reports s s.regs.wbLength.toNat 0 := by
  refine (wbScan_induct (n := s.regs.wbLength.toNat) (s := { s with cmp := Comparator.reset })
    (P := fun o j t => t = { s with cmp := t.cmp } ∧ t.cmp.Reports s o j)
    (fun o j t ho _ ⟨ht, hr⟩ => ?_) (fun o t ⟨ht, hr⟩ => ⟨?_, hr.next⟩) _ (Nat.zero_add _)
    ⟨rfl, reports_reset s⟩).2
  · rw [ht, wbBit_written hl hw hr.cursor ho]
    exact ⟨rfl, hr.succ⟩
  · rw [ht]
    rfl

theorem detected_count {s : State} (hl : detectLegal s) (hw : revsWritten s) :
    (detected s).count = (weakPositions s).length := by
  rw [← weakBefore_length_zero]
  exact (detected_reports hl hw).count

theorem detected_recs {s : State} (hl : detectLegal s) (hw : revsWritten s) :
    (detected s).recs = ((weakPositions s).map (weakRecordAt s)).take s.params.wbCap := by
  rw [← weakBefore_length_zero]
  exact (detected_reports hl hw).recs

theorem detected_ovf {s : State} (hl : detectLegal s) (hw : revsWritten s) :
    (detected s).ovf = decide (s.params.wbCap < (weakPositions s).length) := by
  rw [← weakBefore_length_zero]
  exact (detected_reports hl hw).ovf

theorem detected_bytes {s : State} (hl : detectLegal s) (hw : revsWritten s) :
    (detected s).bytes =
      if s.regs.ctrl.wbByteLevel then
        ((List.range s.regs.wbLength.toNat).filter fun o => (List.range 8).any (isWeak s o)).take
          s.params.wbCap
      else [] := by
  have h := (detected_reports hl hw).bytes
  rwa [weakBytesBefore_zero] at h

/-- A byte is listed for a weak bit of its own. -/
theorem detected_bytes_eq_nil {s : State} (hl : detectLegal s) (hw : revsWritten s)
    (hnone : weakPositions s = []) : (detected s).bytes = [] := by
  obtain ⟨-, -, -, hbytes, -, -, hfewer⟩ := detected_reports hl hw
  rw [weakBefore_length_zero, hnone] at hfewer
  rw [List.eq_nil_of_length_eq_zero (Nat.le_zero.1 hfewer), List.take_nil, ite_self] at hbytes
  exact hbytes

/-! ## Patterns (R338) -/

theorem alternates_eq_all (smp : List Bool) :
    alternates smp = (List.range (smp.length - 1)).all fun r =>
      smp.getD r false != smp.getD (r + 1) false := by
  induction smp with
  | nil => rfl
  | cons a rest ih =>
    cases rest with
    | nil => rfl
    | cons b rest =>
      simp only [alternates, ih, List.length_cons, Nat.add_sub_cancel, List.range_succ_eq_map,
        List.all_cons, List.all_map]
      rfl

theorem classify_code (enabled : Bool) (smp : List Bool) :
    (classify enabled smp).code.toNat = patternOf enabled smp := by
  rw [classify, patternOf, ← alternates_eq_all]
  cases enabled <;> cases alternates smp <;> rfl

/-! ## Identical revolutions (R335) -/

/-- Samples that are all alike hold one value only. -/
theorem isWeak_of_identical {s : State} {o b : Nat}
    (h : ∀ r : Fin 10, r.val < s.regs.wbRevs.toNat →
      bufGet (s.mem.bytes (.rev r)) o = bufGet (s.mem.bytes (.rev 0)) o) :
    isWeak s o b = false := by
  have hall : ∀ x ∈ samplesAt s o b, x = sampleBit s o b 0 := by
    intro x hx
    obtain ⟨r, hr, rfl⟩ := List.mem_map.1 hx
    rw [sampleBit, sampleBit, h r (by simpa using hr)]
  refine decide_eq_false fun ⟨ht, hf, _⟩ => ?_
  exact Bool.noConfusion ((hall _ ht).trans (hall _ hf).symm)

theorem weakPositions_of_identical {s : State}
    (h : ∀ r : Fin 10, r.val < s.regs.wbRevs.toNat → ∀ o, o < s.regs.wbLength.toNat →
      bufGet (s.mem.bytes (.rev r)) o = bufGet (s.mem.bytes (.rev 0)) o) :
    weakPositions s = [] := by
  refine List.filter_eq_nil_iff.2 fun ⟨o, b⟩ hp => ?_
  have ho : o < s.regs.wbLength.toNat := by
    obtain ⟨o', ho', hmem⟩ := List.mem_flatMap.1 hp
    obtain ⟨b', -, he⟩ := List.mem_map.1 hmem
    obtain ⟨rfl, rfl⟩ := Prod.mk.inj he
    exact List.mem_range.1 ho'
  rw [isWeak_of_identical fun r hr => h r hr o ho]
  exact Bool.false_ne_true

/-- No weak bit makes the density +0.0 (spec/42_weakbit.md R345). -/
theorem densityOf_zero {len : Nat} (hpos : 1 ≤ len) (hlen : len < 2 ^ 32) :
    densityOf 0 len = 0 := by
  have hunits := F64.units_ofNat (n := 0 * 1000) (by decide)
  rw [densityOf, F64.div_ofNat (F64.value_ofNat (by decide)).1 (by omega) (by omega), hunits,
    F64.neg_ofNat, Nat.zero_mul, Nat.mul_zero,
    F64.roundMag_zero (Nat.mul_pos (by omega) F64.one_pos)]
  rfl

end Sys2Proof.Machine

namespace Sys2Proof

open Machine Claims

/-- Settles O57: the report of the scan, record by record. -/
theorem recordsAreTheWeakPositions : Obligations.RecordsAreTheWeakPositions := by
  refine fun s hl hw => ⟨detected_count hl hw, ?_, detected_ovf hl hw, fun r hr => ?_⟩
  · rw [detected_recs hl hw, List.map_take, List.map_map]
    exact congrArg _ (List.map_id _)
  · rw [detected_recs hl hw] at hr
    obtain ⟨p, -, rfl⟩ := List.mem_map.1 (List.mem_of_mem_take hr)
    exact ⟨rfl, rfl, rfl, classify_code _ _⟩

/-- Settles O58: the offsets come from a range, which rises, and a table only leaves some out. -/
theorem weakBytesAreTheWeakOffsets : Obligations.WeakBytesAreTheWeakOffsets := by
  intro s hl hw
  rw [detected_bytes hl hw]
  refine ⟨fun hlevel => if_pos hlevel, fun hlevel => if_neg (by simp [hlevel]), ?_⟩
  split_ifs
  · exact (List.pairwise_lt_range.filter _).take
  · exact List.Pairwise.nil

/-- Settles O59: no position is weak, so the report is empty. -/
theorem identicalRevolutionsReportNothing : Obligations.IdenticalRevolutionsReportNothing := by
  intro s hl hw hsame
  have ⟨_, _, hlen, _⟩ := hl
  have hnone := weakPositions_of_identical hsame
  have hcount : (detected s).count = 0 := by rw [detected_count hl hw, hnone]; rfl
  have hrecs : (detected s).recs = [] := by rw [detected_recs hl hw, hnone]; exact List.take_nil
  have hovf : (detected s).ovf = false := by rw [detected_ovf hl hw, hnone]; rfl
  have hword := toNat_wbCountWord (hcount.trans_lt (by decide))
  refine ⟨_, exec_of_legal (c := .wbDetect) hl, ?_⟩
  simp only [Op.body, succeedCommand_regs, wbBody_regs, hrecs, hcount, hovf,
    detected_bytes_eq_nil hl hw hnone]
  exact ⟨BitVec.toNat_inj.1 (hword.trans hcount), rfl, rfl,
    densityOf_zero hlen s.regs.wbLength.isLt, rfl⟩

end Sys2Proof

end

section
/-! PROOF. The two report flags: scans that differ in WB_BYTE_LEVEL and WB_PATTERN alone read the
same samples, unwritten bytes included, and count and record alike (spec/42_weakbit.md R341). -/

namespace Sys2Proof.Machine

open Claims (detected)

/-! ## Reads -/

/-- The state with the flags of `f` and the comparator `c`. -/
def State.withFlags (s : State) (f : Ctrl) (c : Comparator) : State :=
  { s with regs := { s.regs with ctrl := f }, cmp := c }

/-- An engine read looks at the buffers and the draws. -/
theorem engineRead_withFlags (b : ByteBuf) (i : Nat) (s : State) (f : Ctrl) (c : Comparator) :
    engineRead b i (s.withFlags f c)
      = ((engineRead b i s).1, (engineRead b i s).2.withFlags f c) := by
  rw [engineRead, engineRead, State.withFlags]
  cases bufGet (s.mem.bytes b) i <;> rfl

theorem readSamples_withFlags (o b : Nat) (rs : List (Fin 10)) (s : State) (f : Ctrl)
    (c : Comparator) :
    readSamples o b rs (s.withFlags f c)
      = ((readSamples o b rs s).1, (readSamples o b rs s).2.withFlags f c) := by
  induction rs generalizing s with
  | nil => rfl
  | cons r rs ih => simp only [readSamples, engineRead_withFlags, ih]

/-! ## Judgements -/

/-- A record with its pattern left out. -/
def WeakRecord.plain (r : WeakRecord) : WeakRecord := { r with pattern := .none }

/-- Two comparators, run with the flags of `f` and of `f'`, agree but for what the flags rule. -/
structure Comparator.Agrees (f f' : Ctrl) (c c' : Comparator) : Prop where
  cursor : c'.o = c.o
  count : c'.count = c.count
  plain : c'.recs.map WeakRecord.plain = c.recs.map WeakRecord.plain
  recs : f'.wbPattern = f.wbPattern → c'.recs = c.recs
  bytes : f'.wbByteLevel = f.wbByteLevel → c'.bytes = c.bytes ∧ c'.first = c.first

theorem map_pushCapped {α β : Type} (g : α → β) (n : Nat) (l : List α) (x : α) :
    (pushCapped n l x).map g = pushCapped n (l.map g) (g x) := by
  unfold pushCapped
  rw [List.length_map]
  split_ifs <;> simp

theorem Comparator.Agrees.judge {f f' : Ctrl} {c c' : Comparator} (h : c.Agrees f f' c')
    (hb : c'.b = c.b) (p : Params) (k thr : Nat) (smp : List Bool) :
    (c.judge p k thr f smp).Agrees f f' (c'.judge p k thr f' smp) := by
  cases hw : weakSamples k thr smp with
  | false => rwa [judge_of_not_weak hw, judge_of_not_weak hw]
  | true =>
    obtain ⟨hcur, hcount, hplain, hrecs, hbytes⟩ := h
    rw [judge_of_weak hw, judge_of_weak hw]
    refine ⟨hcur, congrArg (· + 1) hcount, ?_, fun hpat => ?_, fun hlevel => ?_⟩
    · have hrec : (c'.record k f'.wbPattern smp).plain = (c.record k f.wbPattern smp).plain := by
        simp only [WeakRecord.plain, Comparator.record, hcur, hb]
      rw [map_pushCapped, map_pushCapped, hplain, hrec]
    · simp only [Comparator.record, hrecs hpat, hpat, hcur, hb]
    · obtain ⟨hlist, hfirst⟩ := hbytes hlevel
      simp only [hlevel, hlist, hfirst, hcur, and_self]

/-! ## Scans -/

/-- Two runs of the scan side by side. -/
theorem wbScan_related {R : State → State → Prop} (bit : ∀ s t b, R s t → R (wbBit s b) (wbBit t b))
    (next : ∀ s t, R s t → R { s with cmp := { s.cmp with o := s.cmp.o + 1 } }
      { t with cmp := { t.cmp with o := t.cmp.o + 1 } })
    (enter : ∀ s t, R s t → R (enterByte s) (enterByte t)) (n : Nat) {s t : State} (h : R s t) :
    R (wbScan n s) (wbScan n t) := by
  have hbits : ∀ (bs : List Nat) {s t : State}, R s t →
      R (bs.foldl wbBit s) (bs.foldl wbBit t) := by
    intro bs
    induction bs with
    | nil => exact id
    | cons b bs ih => exact fun h => ih (bit _ _ b h)
  induction n generalizing s t with
  | zero => exact h
  | succ n ih => exact ih (next _ _ (hbits _ (enter _ _ h)))

theorem wbBit_withFlags (s : State) (f : Ctrl) {c : Comparator} (ho : c.o = s.cmp.o) (b : Nat) :
    wbBit (s.withFlags f c) b =
      (wbBit s b).withFlags f (({ c with b := b } : Comparator).judge s.params s.regs.wbRevs.toNat
        s.regs.wbThreshold.toNat f
        (readSamples s.cmp.o b (revolutions s.regs.wbRevs.toNat) s).1) :=
  wbBit_of_read ho (readSamples_withFlags ..)

/-- `t` is `s` but for CTRL, which holds `f'` where `s` holds `f`, and what its flags rule in the
comparator. -/
structure SameScan (f f' : Ctrl) (s t : State) : Prop where
  ctrl : s.regs.ctrl = f
  eq : t = s.withFlags f' t.cmp
  cmp : s.cmp.Agrees f f' t.cmp

theorem SameScan.wbBit {f f' : Ctrl} {s t : State} (h : SameScan f f' s t) (b : Nat) :
    SameScan f f' (wbBit s b) (wbBit t b) := by
  obtain ⟨rfl, heq, hcur, hcount, hplain, hrecs, hbytes⟩ := h
  rw [heq, wbBit_withFlags s f' hcur]
  exact ⟨congrArg Regs.ctrl (wbBit_compareOnly s b).regs, rfl,
    Comparator.Agrees.judge (c := { s.cmp with b := b }) (c' := { t.cmp with b := b })
      ⟨hcur, hcount, hplain, hrecs, hbytes⟩ rfl _ _ _ _⟩

/-- The scan of a detection and of the same one with other flags. -/
theorem wbScan_sameScan (s : State) (f : Ctrl) :
    SameScan s.regs.ctrl f (wbScan s.regs.wbLength.toNat { s with cmp := Comparator.reset })
      (wbScan s.regs.wbLength.toNat (s.withFlags f Comparator.reset)) := by
  refine wbScan_related (fun s t b h => h.wbBit b) (fun s t ⟨hctrl, heq, hcmp⟩ => ?_)
    (fun s t ⟨hctrl, heq, hcmp⟩ => ?_) _
    ⟨rfl, rfl, rfl, rfl, rfl, fun _ => rfl, fun _ => ⟨rfl, rfl⟩⟩
  · obtain ⟨hcur, hcount, hplain, hrecs, hbytes⟩ := hcmp
    exact ⟨hctrl, by rw [heq]; rfl, congrArg (· + 1) hcur, hcount, hplain, hrecs, hbytes⟩
  · obtain ⟨hcur, hcount, hplain, hrecs, hbytes⟩ := hcmp
    exact ⟨hctrl, by rw [heq]; rfl, hcur, hcount, hplain, hrecs, fun h => ⟨(hbytes h).1, rfl⟩⟩

theorem SameScan.wbCountWord {f f' : Ctrl} {s t : State} (h : SameScan f f' s t) :
    (wbCountWord t).1 = (wbCountWord s).1 := by
  have hdraws : t.draws = s.draws := by rw [h.eq]; rfl
  rw [Machine.wbCountWord, Machine.wbCountWord, h.cmp.count, hdraws]

end Sys2Proof.Machine

namespace Sys2Proof

open Machine Claims

/-- Settles O60: the two detections validate alike, and their scans run side by side. -/
theorem reportFlagsAreIndependent : Obligations.ReportFlagsAreIndependent := by
  intro s byteLevel pattern s'
  have hscan := wbScan_sameScan s
    { s.regs.ctrl with wbByteLevel := byteLevel, wbPattern := pattern }
  have hcount : (detected s').count = (detected s).count := hscan.cmp.count
  have hplain : (detected s').recs.map WeakRecord.plain = (detected s).recs.map WeakRecord.plain :=
    hscan.cmp.plain
  refine ⟨hcount, hplain, hscan.cmp.recs, fun h => (hscan.cmp.bytes h).1, fun t t' ht ht' => ?_⟩
  have hlength : (detected s').recs.length = (detected s).recs.length := by
    simpa using congrArg List.length hplain
  have hcheck : validateWb s' = validateWb s := rfl
  rcases exec_op_cases (c := .wbDetect) ht with ⟨e, hs, rfl⟩ | ⟨hs, rfl⟩ <;>
    rcases exec_op_cases (c := .wbDetect) ht' with ⟨e', hs', rfl⟩ | ⟨hs', rfl⟩
  · exact ⟨rfl, rfl, rfl⟩
  · cases hs.symm.trans (hcheck.symm.trans hs')
  · cases hs.symm.trans (hcheck.symm.trans hs')
  · rw [Op.body, succeedCommand_regs, succeedCommand_regs, wbBody_regs, wbBody_regs, hcount,
      hlength]
    exact ⟨hscan.wbCountWord, rfl, rfl⟩

end Sys2Proof

end

section
/-! PROOF. The acceptance of a command word and the choice of the next move: what a CMD write does
(spec/60_exceptions.md R410), and which meaning a step then runs (R411, log 3). -/

namespace Sys2Proof.Machine

open Claims (reads illegalWord)

/-! ## BUSY (R34, R70) -/

theorem busy_of_eng {s : State} {c : Op} (h : s.eng = .busy c) : s.busy = true := by
  simp [State.busy, h]

theorem not_busy_of_eng {s : State} (h : s.eng = .idle) : s.busy = false := by
  simp [State.busy, h]

theorem bitAt_zero_getLsbD_zero (b : Bool) : (bitAt b 0).getLsbD 0 = b := by cases b <;> rfl

theorem bitAt_succ_getLsbD_zero (b : Bool) (n : Nat) : (bitAt b (n + 1)).getLsbD 0 = false := by
  cases b <;> simp [bitAt]

/-- Bit 0 of the STATUS word is BUSY (spec/10_state.md R34). -/
theorem statusWord_getLsbD_zero (busy : Bool) (st : Status) :
    (statusWord busy st).getLsbD 0 = busy := by
  simp only [statusWord, BitVec.getLsbD_or, bitAt_zero_getLsbD_zero, bitAt_succ_getLsbD_zero,
    BitVec.getLsbD_shiftLeft, Nat.zero_lt_succ, decide_true, Bool.not_true,
    Bool.and_false, Bool.false_and, Bool.or_false]

/-- No command writes BUSY (spec/60_exceptions.md R412, R413). -/
theorem writtenStatus_getLsbD_zero (c : Op) (s : State) : (c.writtenStatus s).getLsbD 0 = false := by
  unfold Op.writtenStatus
  split_ifs
  · cases c <;> rfl
  · rfl

/-- STATUS.BUSY reads true also in the busy window, which WAIT relies on (spec/20_memory.md R122). -/
theorem reads_status_busy_bit (s : State) : (reads s 0x004).getLsbD 0 = s.busy := by
  cases hs : s.eng with
  | idle => rw [reads_status_of_idle hs, statusWord_getLsbD_zero, not_busy_of_eng hs]
  | busy c =>
    rw [reads, readOffset_busy hs rfl]
    simp only [busyRegRead, if_true, regValue, BitVec.getLsbD_or, BitVec.getLsbD_and,
      BitVec.getLsbD_not, statusWord_getLsbD_zero, writtenStatus_getLsbD_zero,
      Bool.not_false, Bool.and_false, Bool.or_false, Nat.zero_lt_succ, decide_true, Bool.and_true]

/-! ## CMD writes (R410) -/

theorem writeOffset_of_cmd {offset : Nat} (h : regAt offset = some .cmd) (v : Word) (s : State) :
    writeOffset offset v s = if s.busy then rejectWrite s else acceptCommand v s := by
  rw [writeOffset_of_regAt h]; rfl

theorem hostAccess_cmd_idle {s : State} (hs : s.eng = .idle) (v : Word) :
    hostAccess (.regWrite 0x000 32 v) s = .next (acceptCommand v s) := by
  rw [hostAccess_regWrite (by decide), writeOffset_of_cmd rfl, not_busy_of_eng hs]
  rfl

/-- An illegal word completes at its acceptance, with BAD_CMD. -/
theorem acceptCommand_of_illegalWord {v : Word} (h : illegalWord v) (s : State) :
    acceptCommand v s
      = { s with regs := { s.regs with cmd := v, status := s.regs.status.fail .badCmd } } := by
  rw [acceptCommand, decodeCommand_of_illegalWord h]

theorem opOfInstr_instr (c : Op) : opOfInstr c.instr = some c := by cases c <;> rfl

/-- A word that decodes to a command makes the engine busy with it. -/
theorem acceptCommand_of_command {v : Word} {c : Op} (h : decodeCommand v = .ok c.instr)
    (s : State) :
    acceptCommand v s
      = { s with
          eng := .busy c
          regs := { s.regs with
            cmd := v
            status := { s.regs.status with done := false, err := false, errcode := 0 } } } := by
  simp only [acceptCommand, h, opOfInstr_instr]

/-- The decoder yields commands only. -/
theorem exists_op_of_decodeCommand {w : Word} {i : Instr} (h : decodeCommand w = .ok i) :
    ∃ c : Op, c.instr = i := by
  unfold decodeCommand at h
  split_ifs at h <;> cases h
  · exact ⟨.pllDecode, rfl⟩
  · exact ⟨.frame, rfl⟩
  · exact ⟨.decodeFrame, rfl⟩
  · exact ⟨.wbDetect, rfl⟩

theorem decodeCommand_of_legalWord {w : Word} (h : ¬ illegalWord w) :
    ∃ c : Op, decodeCommand w = .ok c.instr := by
  rcases everyWordIsACommandOrIllegal w with ⟨hw, _⟩ | ⟨_, ⟨_, hc⟩ | ⟨_, hc⟩ | ⟨_, hc⟩ | ⟨_, hc⟩⟩
  · exact absurd hw h
  · exact ⟨.pllDecode, hc⟩
  · exact ⟨.frame, hc⟩
  · exact ⟨.decodeFrame, hc⟩
  · exact ⟨.wbDetect, hc⟩

/-! ## Whose move it is (R411, log 3) -/

section
variable {s : State} (hlive : s.pll.live = false)
include hlive

theorem step_of_engine_alone {c : Op} (hs : s.eng = .busy c) (h : s.pending = [] ∨ s.turns = []) :
    step s = exec c.instr s := by
  have hmove : nextMove s = .command c.instr s := by
    rcases h with h | h
    · simp [nextMove, hlive, hs, h]
    · cases hp : s.pending <;> simp [nextMove, hlive, hs, h, hp]
  rw [step, hmove]

theorem step_of_engine_turn {c : Op} {ts : List Agent} (hs : s.eng = .busy c)
    (hp : s.pending ≠ []) (ht : s.turns = .engine :: ts) :
    step s = exec c.instr { s with turns := ts } := by
  obtain ⟨op, rest, hp⟩ := List.exists_cons_of_ne_nil hp
  have hmove : nextMove s = .command c.instr { s with turns := ts } := by
    simp [nextMove, hlive, hs, hp, ht]
  rw [step, hmove]

theorem step_of_idle {op : HostOp} {rest : List HostOp} (hs : s.eng = .idle)
    (hp : s.pending = op :: rest) : step s = hostAccess op { s with pending := rest } := by
  have hmove : nextMove s = .access op { s with pending := rest } := by
    simp [nextMove, hlive, hs, hp]
  rw [step, hmove]

theorem step_of_host_turn {c : Op} {op : HostOp} {rest : List HostOp} {ts : List Agent}
    (hs : s.eng = .busy c) (hp : s.pending = op :: rest) (ht : s.turns = .host :: ts) :
    step s = hostAccess op { s with pending := rest, turns := ts } := by
  have hmove : nextMove s = .access op { s with pending := rest, turns := ts } := by
    simp [nextMove, hlive, hs, hp, ht]
  rw [step, hmove]

end

end Sys2Proof.Machine

namespace Sys2Proof

open Machine Claims

/-- Settles O16: a CMD write is a rejection while busy, else the acceptance of its word. -/
theorem commandWriteIsAcceptedOnce : Obligations.CommandWriteIsAcceptedOnce := by
  refine fun s v => ⟨fun c hs => ?_, fun hs hv => ?_, fun hs p hp hv => ?_⟩
  · rw [hostAccess_regWrite (by decide), writeOffset_of_cmd rfl, busy_of_eng hs]
    rfl
  · rw [hostAccess_cmd_idle hs, acceptCommand_of_illegalWord hv]
    rfl
  · have hwords : ∀ p ∈ ([(1, .pllDecode), (2, .frame), (3, .decodeFrame), (4, .wbDetect)] :
        List (Word × Op)), decodeCommand p.1 = .ok p.2.instr := by decide
    have haccept := acceptCommand_of_command (hv ▸ hwords p hp) s
    exact ⟨_, (hostAccess_cmd_idle hs v).trans (congrArg _ haccept),
      (reads_status_busy_bit _).trans (busy_of_eng rfl), rfl⟩

/-- Settles O24: a CMD write to the idle block is its acceptance, and the other moves are those of
the agent whose turn it is. -/
theorem stepRunsTheDecodedCommand : Obligations.StepRunsTheDecodedCommand := by
  refine ⟨fun s w i rest hw hlive hs hp => ?_, fun s c hlive hs h => step_of_engine_alone hlive hs h,
    fun s c ts hlive hs hp ht => step_of_engine_turn hlive hs hp ht,
    fun s op rest hlive hp => ⟨fun hs => step_of_idle hlive hs hp,
      fun c ts hs ht => step_of_host_turn hlive hs hp ht⟩⟩
  obtain ⟨c, rfl⟩ := exists_op_of_decodeCommand hw
  have hstep : step s = .next (acceptCommand w { s with pending := rest }) :=
    (step_of_idle hlive hs hp).trans (hostAccess_cmd_idle (s := { s with pending := rest }) hs w)
  rw [acceptCommand_of_command hw] at hstep
  exact ⟨_, c, hstep, rfl, rfl, rfl, hlive, rfl, rfl⟩

end Sys2Proof

end

section
/-! PROOF. The completion of a command: what every completion leaves, which errors there are and on
what they depend, the interrupt output, and the WAIT that sees the end (spec/60_exceptions.md R411 to
R420, spec/30_encoding.md R146). -/

namespace Sys2Proof.Machine

open Claims (reads runSteps)

/-! ## What every completion leaves (R411 to R413) -/

/-- What no move of the engine changes: REJECTED, CTRL and the host's own lists. -/
structure EngineSpares (s t : State) : Prop where
  rejected : t.regs.status.rejected = s.regs.status.rejected
  ctrl : t.regs.ctrl = s.regs.ctrl
  pending : t.pending = s.pending
  returned : t.returned = s.returned
  turns : t.turns = s.turns

theorem EngineSpares.trans {s t u : State} (h : EngineSpares s t) (g : EngineSpares t u) :
    EngineSpares s u :=
  ⟨g.rejected.trans h.rejected, g.ctrl.trans h.ctrl, g.pending.trans h.pending,
    g.returned.trans h.returned, g.turns.trans h.turns⟩

theorem LoopOnly.engineSpares {s t : State} (h : LoopOnly s t) : EngineSpares s t :=
  ⟨by rw [h.regs], by rw [h.regs], h.pending, h.returned, h.turns⟩

theorem ReadsOnly.engineSpares {s t : State} (h : ReadsOnly s t) : EngineSpares s t :=
  (LoopOnly.ofReads h).engineSpares

theorem failCommand_spares (e : ErrCode) (s : State) : EngineSpares s (failCommand e s) :=
  ⟨rfl, rfl, rfl, rfl, rfl⟩

theorem succeedCommand_spares (s : State) : EngineSpares s (succeedCommand s) :=
  ⟨rfl, rfl, rfl, rfl, rfl⟩

theorem commitDecode_spares (s : State) : EngineSpares s (commitDecode s) :=
  ⟨rfl, rfl, rfl, rfl, rfl⟩

theorem decodeBody_spares (s : State) : EngineSpares s (decodeBody s) := by
  rw [decodeBody_eq, decodeBody_regs]
  exact ⟨rfl, rfl, rfl, rfl, rfl⟩

theorem frameBody_spares (s : State) : EngineSpares s (frameBody s) := by
  rw [frameBody_eq, frameBody_regs]
  exact ⟨rfl, rfl, rfl, rfl, rfl⟩

theorem wbBody_spares (s : State) : EngineSpares s (wbBody s) := by
  rw [wbBody_eq, wbBody_regs]
  exact ⟨rfl, rfl, rfl, rfl, rfl⟩

theorem body_spares (c : Op) (s : State) : EngineSpares s (c.body s) := by
  cases c with
  | pllDecode => exact decodeBody_spares s
  | frame => exact frameBody_spares s
  | decodeFrame => exact (decodeBody_spares s).trans (frameBody_spares _)
  | wbDetect => exact wbBody_spares s

theorem exec_op_spares {c : Op} {s t : State} (h : exec c.instr s = .next t) :
    EngineSpares s t := by
  rcases exec_op_cases h with ⟨e, _, rfl⟩ | ⟨_, rfl⟩
  · exact failCommand_spares e s
  · exact (body_spares c s).trans (succeedCommand_spares _)

/-- Success or failure, a command ends idle with DONE set. -/
theorem exec_op_completed {c : Op} {s t : State} (h : exec c.instr s = .next t) :
    t.eng = .idle ∧ t.regs.status.done = true := by
  rcases exec_op_cases h with ⟨e, _, rfl⟩ | ⟨_, rfl⟩ <;> exact ⟨rfl, rfl⟩

/-! ## Errors (R413, R415, R418) -/

/-- Validation reads the registers and the parameters alone. -/
theorem check_congr (c : Op) {s s' : State} (hr : s'.regs = s.regs) (hp : s'.params = s.params) :
    c.check s' = c.check s := by
  cases c with
  | pllDecode => exact validateDecode_congr hr hp
  | frame => simp only [Op.check, validateFrame, hr, hp]
  | decodeFrame => exact validateDecode_congr hr hp
  | wbDetect => simp only [Op.check, validateWb, hr, hp]

theorem validateDecode_ne_badCmd (s : State) : validateDecode s ≠ some .badCmd := by
  unfold validateDecode
  dsimp only
  split_ifs <;> simp

theorem validateFrame_ne_badCmd (s : State) : validateFrame s ≠ some .badCmd := by
  unfold validateFrame
  split_ifs <;> simp

theorem validateWb_ne_badCmd (s : State) : validateWb s ≠ some .badCmd := by
  unfold validateWb
  dsimp only
  split_ifs <;> simp

/-- BAD_CMD is the acceptance's error; no validation has it. -/
theorem check_ne_badCmd (c : Op) (s : State) : c.check s ≠ some .badCmd := by
  cases c with
  | pllDecode => exact validateDecode_ne_badCmd s
  | frame => exact validateFrame_ne_badCmd s
  | decodeFrame => exact validateDecode_ne_badCmd s
  | wbDetect => exact validateWb_ne_badCmd s

theorem check_code_range {c : Op} {s : State} {e : ErrCode} (h : c.check s = some e) :
    2 ≤ e.code.toNat ∧ e.code.toNat ≤ 4 := by
  cases e with
  | badCmd => exact absurd h (check_ne_badCmd c s)
  | emptyInput => decide
  | fewRevs => decide
  | badParam => decide

/-- The validation alone decides ERR and ERRCODE. -/
theorem exec_op_error {c : Op} {s t : State} (h : exec c.instr s = .next t) :
    t.regs.status.err = (c.check s).isSome ∧
    t.regs.status.errcode = ((c.check s).map ErrCode.code).getD 0 := by
  rcases exec_op_cases h with ⟨e, hc, rfl⟩ | ⟨hc, rfl⟩ <;> rw [hc] <;> exact ⟨rfl, rfl⟩

/-! ## WAIT (R146) -/

/-- WAIT puts itself back exactly while the engine is busy; it moves the host's draws and replies
alone besides. -/
theorem hostWait_pending (s : State) :
    ∃ d r, hostWait s
      = { s with
          hostDraws := d
          pending := if s.busy then .wait :: s.pending else s.pending
          returned := r } := by
  have hbit : (readOffset statusOffset s).1.getLsbD 0 = s.busy := reads_status_busy_bit s
  refine ⟨(readOffset statusOffset s).2.hostDraws,
    .word (readOffset statusOffset s).1 :: s.returned, ?_⟩
  rw [hostWait, hbit, readOffset_eq]
  split_ifs <;> rfl

/-- A WAIT is met again until the engine has moved, and ends after that. -/
theorem wait_ends {c : Op} {n : Nat} {rest : List HostOp} {ts : List Agent} {s : State}
    (hlive : s.pll.live = false) (hs : s.eng = .busy c) (hp : s.pending = .wait :: rest)
    (ht : s.turns = List.replicate n .host ++ .engine :: ts) :
    ∃ t, runSteps (n + 2) s = some t ∧ t.pending = rest ∧ t.eng = .idle ∧
      t.regs.status.done = true ∧ t.turns = ts := by
  induction n generalizing s with
  | zero =>
    obtain ⟨u, hu⟩ := exec_next c.instr { s with turns := ts }
    have hstep : step s = .next u :=
      (step_of_engine_turn hlive hs (by simp [hp]) ht).trans hu
    obtain ⟨heng, hdone⟩ := exec_op_completed hu
    obtain ⟨-, -, hpending, -, hturns⟩ := exec_op_spares hu
    obtain ⟨d, r, hwait⟩ := hostWait_pending { u with pending := rest }
    have hend := (step_of_idle ((exec_op_persists hu).notLive hlive) heng
      (hpending.trans hp)).trans (congrArg Host.Outcome.next hwait)
    exact ⟨_, (runSteps_succ hstep 1).trans (runSteps_of_step_last hend),
      if_neg (Bool.eq_false_iff.1 (not_busy_of_eng heng)), heng, hdone, hturns⟩
  | succ n ih =>
    obtain ⟨d, r, hwait⟩ := hostWait_pending
      { s with pending := rest, turns := List.replicate n .host ++ .engine :: ts }
    have hstep := (step_of_host_turn hlive hs hp ht).trans (congrArg Host.Outcome.next hwait)
    rw [runSteps_succ hstep]
    exact ih hlive hs (if_pos (busy_of_eng hs)) rfl

end Sys2Proof.Machine

namespace Sys2Proof

open Machine Claims

/-- Settles O18: every command gives a next state, and every next state is a completion. -/
theorem everyCommandCompletes : Obligations.EveryCommandCompletes := by
  intro s c
  obtain ⟨t, ht⟩ := exec_next c.instr s
  obtain ⟨heng, hdone⟩ := exec_op_completed ht
  obtain ⟨-, -, hpending, hreturned, hturns⟩ := exec_op_spares ht
  exact ⟨t, ht, heng, hdone, (reads_status_busy_bit t).trans (not_busy_of_eng heng), hpending,
    hreturned, hturns⟩

/-- Settles O19, by induction on the host's turns before the engine's. -/
theorem waitEndsOnceTheEngineMoves : Obligations.WaitEndsOnceTheEngineMoves :=
  fun _ _ _ _ _ hlive hs hp ht => wait_ends hlive hs hp ht

/-- Settles O20: the validation decides the error, and it reads registers and parameters alone. -/
theorem errorsDependOnRegistersOnly : Obligations.ErrorsDependOnRegistersOnly := by
  intro s s' t t' c hr hp ht ht'
  obtain ⟨herr, hcode⟩ := exec_op_error ht
  obtain ⟨herr', hcode'⟩ := exec_op_error ht'
  rw [herr, hcode, herr', hcode', check_congr c hr hp]
  exact ⟨rfl, rfl⟩

/-- Settles O21: a success clears ERR, and a failure has a code its validation raises. -/
theorem failedCommandWritesNothing : Obligations.FailedCommandWritesNothing := by
  intro s t c h herr
  rcases exec_op_cases h with ⟨e, hc, rfl⟩ | ⟨_, rfl⟩
  · obtain ⟨hlow, hhigh⟩ := check_code_range hc
    exact ⟨e.code, hlow, hhigh, rfl⟩
  · exact absurd herr Bool.false_ne_true

/-- Settles O22: each event sets DONE and IRQ_EN as the statement says, and irq is their
conjunction. -/
theorem interruptFollowsDoneAndEnable : Obligations.InterruptFollowsDoneAndEnable := by
  refine ⟨fun s => rfl, fun s t c h => ?_, fun s t v hs hv h => ?_, fun s t v hs hv h => ?_,
    fun s t v hv h => ?_, fun s t v hs hv h => ?_⟩
  · rw [State.irq, (exec_op_completed h).2, (exec_op_spares h).ctrl, Bool.true_and]
  · rw [hostAccess_cmd_idle hs, acceptCommand_of_illegalWord hv] at h
    rw [← Host.Outcome.next.inj h]
    exact Bool.true_and _
  · obtain ⟨c, hc⟩ := decodeCommand_of_legalWord hv
    rw [hostAccess_cmd_idle hs, acceptCommand_of_command hc] at h
    rw [← Host.Outcome.next.inj h]
    exact Bool.false_and _
  · rw [hostAccess_regWrite (by decide), writeOffset_of_status rfl] at h
    rw [← Host.Outcome.next.inj h]
    simp [State.irq, Status.writeOneToClear, hv]
  · rw [hostAccess_regWrite (by decide)] at h
    rw [← Host.Outcome.next.inj h]
    exact congrArg State.irq (writeOffset_ctrl_idle hs hv)

end Sys2Proof

end

section
/-! PROOF. Rejected writes: what a busy block rejects and what it lets pass, and what clears REJECTED
(spec/60_exceptions.md R414, spec/20_memory.md R103, R105). -/

namespace Sys2Proof.Machine

open Claims (rwRegisters readOnlyOffsets)

/-! ## Writes to a busy block -/

/-- A busy engine rejects a write to CMD, CTRL and every RW register. -/
theorem writeOffset_busy {s : State} {c : Op} (hs : s.eng = .busy c) {offset : Nat} {a : Access}
    (h : (regAt offset).map Reg.access = some a) (ha : a ∈ ([.cmd, .ctrl, .rw] : List Access))
    (v : Word) : writeOffset offset v s = rejectWrite s := by
  obtain ⟨g, hg, rfl⟩ := Option.map_eq_some_iff.1 h
  simp only [List.mem_cons, List.not_mem_nil, or_false] at ha
  rw [writeOffset_of_regAt hg]
  rcases ha with ha | ha | ha <;> simp only [writeReg, ha, busy_of_eng hs, if_true]

theorem access_of_rejectable :
    ∀ offset ∈ (0x000 :: 0x008 :: rwRegisters.map Prod.fst : List (Fin 256)),
      offset.val % 4 = 0 ∧ ∃ a ∈ ([.cmd, .ctrl, .rw] : List Access),
        (regAt offset).map Reg.access = some a := by
  decide +kernel

theorem access_of_readOnly :
    ∀ offset ∈ readOnlyOffsets, (regAt offset).map Reg.access = some .ignored := by
  decide +kernel

/-! ## What clears REJECTED -/

/-- The host accesses that clear REJECTED: a STATUS write with bit 16, a soft reset of the idle block
and a hardware reset. -/
def ClearsRejected (s : State) (op : HostOp) : Prop :=
  (∃ v : Word, v.getLsbD 16 = true ∧ op = .regWrite 0x004 32 v) ∨
  (∃ v : Word, s.eng = .idle ∧ v.getLsbD 31 = true ∧ op = .regWrite 0x008 32 v) ∨
  op = .hardReset

theorem eq_status_of_access {g : Reg} (h : g.access = .status) : g = .status := by
  cases g <;> cases h
  rfl

theorem eq_ctrl_of_access {g : Reg} (h : g.access = .ctrl) : g = .ctrl := by
  cases g <;> cases h
  rfl

theorem width_of_checkedAccess {offset : Fin 256} {width : Nat} {t u : State}
    (h : checkedAccess offset width t = .next u) : width = 32 := by
  unfold checkedAccess at h
  split_ifs at h with hform
  exact not_not.1 (not_or.1 hform).1

theorem finishDecode_spares (s : State) : EngineSpares s (finishDecode s) := by
  have hcommit := commitDecode_spares s
  rcases finishDecode_cases s with e | e <;> rw [e]
  · exact hcommit.trans (succeedCommand_spares _)
  · exact hcommit.trans ((frameBody_spares _).trans (succeedCommand_spares _))

theorem tokenStep_spares {s t : State} (h : tokenStep s = .next t) : EngineSpares s t := by
  rcases tokenStep_cases h with ⟨_, rfl⟩ | ⟨u, hr, rfl⟩ | ⟨u, hr, rfl⟩ | ⟨i, u, hr, _, _, rfl⟩
  · exact finishDecode_spares s
  · exact hr.engineSpares.trans (finishDecode_spares u)
  · have hdrop : EngineSpares u (dropTruncated u) := ⟨rfl, rfl, rfl, rfl, rfl⟩
    exact hr.engineSpares.trans (hdrop.trans (finishDecode_spares _))
  · exact hr.engineSpares.trans (tokenEffect_loopOnly i u).engineSpares

section
variable {s : State} (hr : s.regs.status.rejected = true)
include hr

theorem acceptCommand_rejected (v : Word) : (acceptCommand v s).regs.status.rejected = true := by
  rcases acceptCommand_cases v s with e | e | ⟨c, e⟩ <;> rw [e] <;> exact hr

theorem writeStatus_rejected (v : Word) :
    (writeStatus v s).regs.status.rejected = true ∨ v.getLsbD 16 = true := by
  cases hv : v.getLsbD 16
  · exact .inl (by simp only [writeStatus_regs, Status.writeOneToClear, hr, hv, Bool.not_false,
      Bool.and_true])
  · exact .inr rfl

theorem writeCtrl_rejected (v : Word) :
    (writeCtrl v s).regs.status.rejected = true ∨ v.getLsbD 31 = true := by
  unfold writeCtrl
  split_ifs with hv
  · exact .inr hv
  · exact .inl hr

theorem writeByteCell_rejected (b : ByteBuf) (i : Nat) (v : Byte) :
    (writeByteCell b i v s).regs.status.rejected = true := by
  unfold writeByteCell
  split_ifs
  · exact hr
  · exact hr
  · rfl
  · exact hr

theorem writeReg_rejected (g : Reg) (v : Word) :
    (writeReg g v s).regs.status.rejected = true ∨ (g = .status ∧ v.getLsbD 16 = true) ∨
    (g = .ctrl ∧ s.eng = .idle ∧ v.getLsbD 31 = true) := by
  unfold writeReg
  cases ha : g.access with
  | status =>
    exact (writeStatus_rejected hr v).imp_right fun hv => .inl ⟨eq_status_of_access ha, hv⟩
  | ignored => exact .inl hr
  | cmd =>
    dsimp only
    split_ifs
    · exact .inl rfl
    · exact .inl (acceptCommand_rejected hr v)
  | ctrl =>
    dsimp only
    split_ifs with hb
    · exact .inl rfl
    · exact (writeCtrl_rejected hr v).imp_right fun hv =>
        .inr ⟨eq_ctrl_of_access ha, eng_idle_of_not_busy (Bool.eq_false_iff.2 hb), hv⟩
  | rw =>
    obtain ⟨-, hstatus, -⟩ := store_keeps s.regs g v
    dsimp only
    split_ifs
    · exact .inl rfl
    · exact .inl (by rw [hstatus]; exact hr)

theorem hostRegWrite_rejected {offset : Fin 256} {width : Nat} {v : Word} {t : State}
    (h : hostRegWrite offset width v s = .next t) :
    t.regs.status.rejected = true ∨ ClearsRejected s (.regWrite offset width v) := by
  obtain rfl := width_of_checkedAccess h
  rw [checkedAccess_next h]
  cases hg : regAt offset with
  | none => rw [writeOffset_of_reserved hg]; exact .inl hr
  | some g =>
    rw [writeOffset_of_regAt hg]
    refine (writeReg_rejected hr g v).imp_right ?_
    rintro (⟨rfl, hv⟩ | ⟨rfl, hs, hv⟩)
    · obtain rfl : offset = 0x004 := regAt_injective hg rfl
      exact .inl ⟨v, hv, rfl⟩
    · obtain rfl : offset = 0x008 := regAt_injective hg rfl
      exact .inr (.inl ⟨v, hs, hv, rfl⟩)

theorem hostAccess_rejected {op : HostOp} {t : State} (h : hostAccess op s = .next t) :
    t.regs.status.rejected = true ∨ ClearsRejected s op := by
  cases op with
  | regRead offset width =>
    rw [checkedAccess_next h, reply_regs, readOffset_eq]
    exact .inl hr
  | regWrite offset width v => exact hostRegWrite_rejected hr h
  | byteRead b i =>
    rw [← Host.Outcome.next.inj h, reply_regs, readByteCell_eq]
    exact .inl hr
  | byteWrite b i v =>
    rw [← Host.Outcome.next.inj h]
    exact .inl (writeByteCell_rejected hr b i v)
  | wordRead b i =>
    rw [← Host.Outcome.next.inj h, reply_regs, readWordCell_eq]
    exact .inl hr
  | wordWrite b i v =>
    rw [← Host.Outcome.next.inj h]
    exact .inl hr
  | wait =>
    obtain ⟨d, r, hwait⟩ := hostWait_pending s
    rw [← Host.Outcome.next.inj h, hwait]
    exact .inl hr
  | hardReset => exact .inr (.inr (.inr rfl))

/-- A step keeps REJECTED set, or makes a host access that clears it. -/
theorem step_rejected {t : State} (h : step s = .next t) :
    t.regs.status.rejected = true ∨ ∃ op rest, s.pending = op :: rest ∧ ClearsRejected s op := by
  rcases step_cases h with
    ⟨_, ht⟩ | ⟨_, _, _, rfl⟩ | ⟨c, ts, _, _, hc⟩ | ⟨op, rest, ts, _, hp, ha⟩
  · exact .inl ((tokenStep_spares ht).rejected.trans hr)
  · exact .inl hr
  · exact .inl ((exec_op_spares hc).rejected.trans hr)
  · exact (hostAccess_rejected (s := { s with pending := rest, turns := ts }) hr ha).imp_right
      fun hclear => ⟨op, rest, hp, hclear⟩

end

end Sys2Proof.Machine

namespace Sys2Proof

open Machine Claims

/-- Settles O17: a busy block rejects by the register's access type, and of all a step may do three
host accesses alone clear REJECTED. -/
theorem busyBlockRejectsWrites : Obligations.BusyBlockRejectsWrites := by
  refine ⟨fun s c hs => ⟨fun v offset hoff => ?_, fun b hb i v hi => ?_, fun v => ?_,
    fun v offset hlegal hoff => ?_, fun i v => ?_, fun b i v => rfl⟩, fun s t h hset hclear => ?_⟩
  · obtain ⟨hlegal, a, ha, haccess⟩ := access_of_rejectable offset hoff
    rw [hostAccess_regWrite hlegal, writeOffset_busy hs haccess ha]
    rfl
  · exact congrArg Host.Outcome.next (writeByteCell_busy hi (hostWritable_of_mem_hostRw hb) hs v)
  · refine ⟨writeStatus v s, ?_, rfl⟩
    rw [hostAccess_regWrite (by decide), writeOffset_of_status rfl]
  · rw [hostAccess_regWrite hlegal]
    rcases hoff with hro | hname
    · rw [writeOffset_of_ignored (access_of_readOnly offset hro)]
    · rw [writeOffset_of_reserved (regAt_of_not_named offset hlegal hname)]
  · exact congrArg Host.Outcome.next (writeByteCell_of_not_writable rfl i v s)
  · have hnot : ¬ t.regs.status.rejected = true := Bool.eq_false_iff.1 hclear
    obtain ⟨op, rest, hp, hop⟩ := (step_rejected hset h).resolve_left hnot
    rcases hop with ⟨v, hv, rfl⟩ | ⟨v, hs, hv, rfl⟩ | rfl
    · exact ⟨rest, .inl ⟨v, hv, hp⟩⟩
    · exact ⟨rest, .inr (.inl ⟨v, hs, hv, hp⟩)⟩
    · exact ⟨rest, .inr (.inr hp)⟩

end Sys2Proof

end

section
/-! PROOF. The hidden state an earlier command left: each command sets the part it uses and no
command's result depends on the rest (spec/70_reset_and_hazards.md R453). -/

namespace Sys2Proof.Machine

/-! ## Changed hidden state -/

/-- The state with its hidden state R71 to R74 changed by these four functions. `id` in one place
stands for a part that is as in `s`. -/
def State.mapHidden (s : State) (p : PllLoop → PllLoop) (f : Framer → Framer) (q : Parser → Parser)
    (m : Comparator → Comparator) : State :=
  { s with pll := p s.pll, framer := f s.framer, parser := q s.parser, cmp := m s.cmp }

section
variable (s : State) (p : PllLoop → PllLoop) (f : Framer → Framer) (q : Parser → Parser)
  (m : Comparator → Comparator)

/-- An engine read looks at the buffers and the draws. -/
theorem engineRead_mapHidden (b : ByteBuf) (i : Nat) :
    engineRead b i (s.mapHidden p f q m)
      = ((engineRead b i s).1, (engineRead b i s).2.mapHidden p f q m) := by
  rw [engineRead, engineRead, State.mapHidden]
  cases bufGet (s.mem.bytes b) i <;> rfl

/-! ## Decode (R71) -/

/-- The token reader looks at the cursor. -/
theorem fetchToken_mapHidden :
    fetchToken (s.mapHidden id f q m)
      = ((fetchToken s).1, (fetchToken s).2.mapHidden id f q m) := by
  have hpll : (s.mapHidden id f q m).pll = s.pll := rfl
  have hregs : (s.mapHidden id f q m).regs = s.regs := rfl
  simp only [fetchToken, engineRead_mapHidden, hpll, hregs]
  split_ifs <;> rfl

theorem feed_mapHidden (interval len : Nat) :
    feed interval len (s.mapHidden id f q m) = (feed interval len s).mapHidden id f q m := by
  have hcount : cellCount interval (s.mapHidden id f q m) = cellCount interval s := rfl
  unfold feed
  rw [hcount, apply_ite (State.mapHidden · id f q m)]
  rfl

theorem tokenEffect_mapHidden (i : Instr) :
    tokenEffect i (s.mapHidden id f q m) = (tokenEffect i s).mapHidden id f q m := by
  cases i with
  | pllDecode | frame | decodeFrame | wbDetect => rfl
  | tokLit | tokEsc8 | tokEsc24 => exact feed_mapHidden s f q m _ _
  | tokEscUndef => rfl

theorem decodeLoop_mapHidden (n : Nat) :
    decodeLoop n (s.mapHidden id f q m) = (decodeLoop n s).mapHidden id f q m := by
  induction n generalizing s with
  | zero => rfl
  | succ n ih =>
    have hovf : (s.mapHidden id f q m).pll.ovf = s.pll.ovf := rfl
    rw [decodeLoop, decodeLoop, hovf, fetchToken_mapHidden]
    split_ifs
    · rfl
    · rcases fetchToken s with ⟨fetched, t⟩
      cases fetched with
      | stop => rfl
      | trunc => rfl
      | token i => exact (congrArg _ (tokenEffect_mapHidden t f q m i)).trans (ih _)

/-- A decode starts the whole loop state anew. -/
theorem decodeBody_mapHidden :
    decodeBody (s.mapHidden p f q m) = (decodeBody s).mapHidden id f q m :=
  congrArg commitDecode (decodeLoop_mapHidden (startDecode s) f q m _)

/-! ## Frame (R72, R73) -/

theorem frameStep_mapHidden :
    frameStep (s.mapHidden p id q m) = (frameStep s).mapHidden p id q m := by
  have hframer : (s.mapHidden p id q m).framer = s.framer := rfl
  rw [frameStep, readStreamBit, hframer, engineRead_mapHidden]
  rfl

theorem frameLoop_mapHidden (n : Nat) :
    frameLoop n (s.mapHidden p id q m) = (frameLoop n s).mapHidden p id q m := by
  induction n generalizing s with
  | zero => rfl
  | succ n ih =>
    rw [frameLoop, frameLoop, frameStep_mapHidden, ih]
    exact (apply_ite (State.mapHidden · p id q m) _ _ _).symm

/-- A frame starts its framer and its parser anew. -/
theorem frameBody_mapHidden :
    frameBody (s.mapHidden p f q m) = (frameBody s).mapHidden p id id m :=
  congrArg (commitFrame ∘ parseStage)
    (frameLoop_mapHidden { s with framer := Framer.reset } p q m _)

/-! ## Detection (R74) -/

theorem readSamples_mapHidden (o b : Nat) (rs : List (Fin 10)) :
    readSamples o b rs (s.mapHidden p f q m)
      = ((readSamples o b rs s).1, (readSamples o b rs s).2.mapHidden p f q m) := by
  induction rs generalizing s with
  | nil => rfl
  | cons r rs ih => simp only [readSamples, engineRead_mapHidden, ih]

theorem wbBit_mapHidden (b : Nat) :
    wbBit (s.mapHidden p f q id) b = (wbBit s b).mapHidden p f q id :=
  wbBit_of_read rfl (readSamples_mapHidden s p f q id ..)

theorem wbScan_mapHidden (n : Nat) :
    wbScan n (s.mapHidden p f q id) = (wbScan n s).mapHidden p f q id := by
  refine wbScan_related (R := fun s t => t = s.mapHidden p f q id) (fun s t b h => ?_)
    (fun s t h => ?_) (fun s t h => ?_) n rfl <;> subst h
  · exact wbBit_mapHidden s p f q b
  · rfl
  · rfl

/-- A detection starts its comparator anew. -/
theorem wbBody_mapHidden :
    wbBody (s.mapHidden p f q m) = (wbBody s).mapHidden p f q id :=
  congrArg commitWb (wbScan_mapHidden { s with cmp := Comparator.reset } p f q _)

/-! ## Commands (R453) -/

/-- The body of a command carries changed hidden state along or sets it anew. -/
theorem body_mapHidden (c : Op) :
    ∃ p' f' q' m', c.body (s.mapHidden p f q m) = (c.body s).mapHidden p' f' q' m' := by
  cases c with
  | pllDecode => exact ⟨_, _, _, _, decodeBody_mapHidden s p f q m⟩
  | frame => exact ⟨_, _, _, _, frameBody_mapHidden s p f q m⟩
  | decodeFrame =>
    exact ⟨_, _, _, _, (congrArg frameBody (decodeBody_mapHidden s p f q m)).trans
      (frameBody_mapHidden (decodeBody s) id f q m)⟩
  | wbDetect => exact ⟨_, _, _, _, wbBody_mapHidden s p f q m⟩

/-- So does its meaning: changed hidden state before a command shows in the hidden state after it,
and nowhere else. -/
theorem exec_op_mapHidden (c : Op) {t : State} (h : exec c.instr s = .next t) :
    ∃ p' f' q' m', exec c.instr (s.mapHidden p f q m) = .next (t.mapHidden p' f' q' m') := by
  have hcheck : c.check (s.mapHidden p f q m) = c.check s := check_congr c rfl rfl
  rw [exec_op, hcheck]
  rcases exec_op_cases h with ⟨e, hfail, rfl⟩ | ⟨hpass, rfl⟩
  · rw [hfail]
    exact ⟨p, f, q, m, rfl⟩
  · obtain ⟨p', f', q', m', hbody⟩ := body_mapHidden s p f q m c
    rw [hpass, runCommand, hbody]
    exact ⟨p', f', q', m', rfl⟩

end

end Sys2Proof.Machine

namespace Sys2Proof

open Machine

/-- Settles O23: the command run on replaced hidden state ends in the same state but for its hidden
state. -/
theorem commandsIgnoreEarlierHiddenState : Obligations.CommandsIgnoreEarlierHiddenState := by
  intro s t t' c p f q m h h'
  obtain ⟨_, _, _, _, hmap⟩ :=
    exec_op_mapHidden s (fun _ => p) (fun _ => f) (fun _ => q) (fun _ => m) c h
  obtain rfl := Host.Outcome.next.inj (h'.symm.trans hmap)
  exact ⟨rfl, rfl, rfl, rfl, rfl⟩

end Sys2Proof

end

section
/-! PROOF. The two resets: what a hardware reset and a soft reset leave
(spec/70_reset_and_hazards.md R451, R452). -/

namespace Sys2Proof.Machine

open Claims (reads resetTable registerTable allCellsUnwritten isReset rejected)

/-! ## Registers -/

/-- The reset column row by row: STATUS, CTRL, and the other registers (spec/10_state.md
section 2). -/
theorem resetTable_subset :
    resetTable ⊆ (0x004, 0) :: (0x008, 0) :: registerTable Regs.reset := by decide +kernel

/-- The registers of an idle block at their reset values read the reset column. -/
theorem reads_resetTable {s : State} (hs : s.eng = .idle) (hregs : s.regs = Regs.reset) :
    ∀ p ∈ resetTable, reads s p.1 = p.2 := by
  intro p hp
  have hrow := resetTable_subset hp
  simp only [List.mem_cons] at hrow
  rcases hrow with rfl | rfl | hrow
  · rw [reads_status_of_idle hs, hregs]
    rfl
  · rw [reads_of_idle (g := .ctrl) rfl hs, regValue, hregs]
    rfl
  · exact reads_registerTable hs p (hregs ▸ hrow)

/-! ## Hardware reset (R451) -/

theorem allCellsUnwritten_reset : allCellsUnwritten Memory.reset := by
  refine ⟨fun b i => ?_, fun b i => ?_⟩
  · cases b with
    | flux | bitbuf | raw => rfl
    | rev r => simp [Memory.bytes, Memory.reset]
  · cases b <;> rfl

theorem hardReset_isReset {s : State} (h : s.params.wf = true) : isReset (hardReset s) :=
  ⟨reads_resetTable rfl rfl, capsRead_of_wf h, allCellsUnwritten_reset, rfl, rfl, rfl⟩

/-- The state a run begins in is its own hardware reset. -/
theorem hardReset_reset : hardReset State.reset = State.reset := rfl

theorem params_reset_wf : State.reset.params.wf = true := by decide

/-! ## Soft reset (R452) -/

theorem writeCtrl_of_softReset {v : Word} (hv : v.getLsbD 31 = true) (s : State) :
    writeCtrl v s = resetRegs s := if_pos hv

theorem hostAccess_ctrl_idle {s : State} (hs : s.eng = .idle) (v : Word) :
    hostAccess (.regWrite 0x008 32 v) s = .next (writeCtrl v s) := by
  rw [hostAccess_regWrite (by decide), writeOffset_of_ctrl rfl, not_busy_of_eng hs]
  rfl

theorem hostAccess_ctrl_busy {s : State} {c : Op} (hs : s.eng = .busy c) (v : Word) :
    hostAccess (.regWrite 0x008 32 v) s = .next (rejected s) := by
  rw [hostAccess_regWrite (by decide), writeOffset_of_ctrl rfl, busy_of_eng hs]
  rfl

end Sys2Proof.Machine

namespace Sys2Proof

open Machine

/-- Settles O1: a hardware reset leaves R451's state from any state, and State.reset is its own
hardware reset. -/
theorem hardwareResetClearsTheBlock : Obligations.HardwareResetClearsTheBlock :=
  ⟨hardReset_reset ▸ hardReset_isReset params_reset_wf,
    fun s h => ⟨hardReset s, rfl, hardReset_isReset h, hardReset_params s⟩⟩

/-- Settles O2: bit 31 makes the CTRL write of an idle block a soft reset, and a busy block rejects
it as any other. -/
theorem softResetSparesTheBuffers : Obligations.SoftResetSparesTheBuffers := by
  refine fun s v hv => ⟨fun hs => ⟨resetRegs s, ?_, ?_, ?_⟩, fun c hs => hostAccess_ctrl_busy hs v⟩
  · rw [hostAccess_ctrl_idle hs, writeCtrl_of_softReset hv]
  · exact reads_resetTable hs rfl
  · exact ⟨rfl, rfl, rfl⟩

/-- Settles O28: State.reset is its own hardware reset, which meets the invariant. -/
theorem resetMeetsTheInvariant : Obligations.ResetMeetsTheInvariant :=
  ⟨hardReset_reset ▸ hardReset_inv params_reset_wf, rfl⟩

end Sys2Proof

end
